-- ==== Sys2Proof/Word.lean ====
section
/-! DEFINITION. The word types (spec/00_scope.md R9): a word is 32 bits, a component 64, a tree symbol 16. -/

namespace Sys2Proof

abbrev Word := BitVec 32
abbrev Byte := BitVec 8
/-- A tree symbol (10_state R24: "A symbol is 16 bits wide"). -/
abbrev Sym := BitVec 16
/-- A 64-bit texture component (00_scope R9). -/
abbrev Component := BitVec 64

end Sys2Proof
end

