-- ==== Sys2Proof/Config.lean ====
section
/-! DEFINITION. The parameters of the engine (spec/00_scope.md R7) and the free values.
An OPEN parameter is a field of `Config`; the machine's own configuration `Config.platform` holds an opaque constant for
each of them, so that nothing can be proved of its value (notes/assumptions/2.md, DESIGN CHOICE, safe). -/

namespace Sys2Proof

/-- One entry of FORMAT_TABLE (43_texture R240). -/
structure FormatEntry where
  tag : Word
  hasAlpha : Bool
  hasColor : Bool
  singleBlock : Bool
  dualBlock : Bool
  unsupported : Bool
  bitsPerPixel : BitVec 8
deriving DecidableEq, Repr

/-- The all-zero record: what `tex.fmt` holds at reset (notes/assumptions/6.md). -/
def FormatEntry.zero : FormatEntry :=
  { tag := 0, hasAlpha := false, hasColor := false, singleBlock := false, dualBlock := false,
    unsupported := false, bitsPerPixel := 0 }

/-- A range of host byte addresses. -/
structure Region where
  base : Nat
  size : Nat
deriving DecidableEq, Repr

namespace Config
/-- HASH_BITS (00_scope R7, 41_huffman R152). -/
def hashBits : Nat := 8
/-- MAX_CODE_LEN (00_scope R7). -/
def maxCodeLen : Nat := 16
/-- MAX_SYMBOLS (00_scope R7, 42_generic R180). -/
def maxSymbols : Nat := 286
/-- The size of the host address space, 2^ADDR_W bytes (20_memory R60). -/
def addressSpace : Nat := 4294967296
/-- The size of the CSR block (20_memory R66). -/
def csrBlockSize : Nat := 256
end Config

/-- What a model of the engine takes as an argument (00_scope R7). The decided parameters that have a single meaning in the
spec (HASH_BITS, RGB_ORDER, ALPHA_FILL_MODE, SKIP_WORD_PERIOD, RUN_SKIPS_PRESENT, ADDR_W, N_ENGINES) are not fields: only
their default is specified (notes/assumptions/24.md). -/
structure Config where
  /-- DICT_GENERIC: entry L-1 is the ordered list of the symbols of length L (41_huffman R154). -/
  dictGeneric : List (List Sym)
  /-- DICT_TEXTURE, same shape. -/
  dictTexture : List (List Sym)
  /-- FORMAT_TABLE (43_texture R240). -/
  formatTable : List FormatEntry
  /-- CF_ALT_COLOR, CF_ALPHA, CF_COLOR (43_texture R228). -/
  cfAltColor : Word
  cfAlpha : Word
  cfColor : Word
  /-- ALT_COLOR_PATTERN (43_texture R230). -/
  altColorPattern : Component
  /-- ENDPOINT_ONES, ENDPOINT_ZEROS (43_texture R233). -/
  endpointOnes : Component
  endpointZeros : Component
  /-- COLOR_PACK as data: the listed values; an RGB value the list lacks takes the free `Config.colorPackRest`
  (notes/assumptions/15.md). -/
  colorTable : List (BitVec 24 × Component)
  /-- ENGINE_BASE (20_memory R66). -/
  engineBase : Word
  /-- ENGINE_ID (10_state R41). -/
  engineId : Word
  /-- TAIL_ZERO_WORDS, default 0 (40_bit_reader R121). -/
  tailZeroWords : Nat
  /-- ADDEND_PREFIX_SKIP, default 0 (42_generic R191). -/
  addendPrefixSkip : Nat
  /-- REWIND_AT_EXACTLY_32, default false (40_bit_reader R129). -/
  rewindAtExactly32 : Bool
  /-- The host addresses below 2^32 that the platform does not admit, beside the CSR block (20_memory R65;
  notes/assumptions/4.md). -/
  holes : List Region
deriving DecidableEq, Repr

namespace Config

/-! The OPEN parameters of the machine itself: no body, no known value. -/
opaque openDictGeneric : List (List Sym)
opaque openDictTexture : List (List Sym)
opaque openFormatTable : List FormatEntry
opaque openCfAltColor : Word
opaque openCfAlpha : Word
opaque openCfColor : Word
opaque openAltColorPattern : Component
opaque openEndpointOnes : Component
opaque openEndpointZeros : Component
opaque openColorTable : List (BitVec 24 × Component)
opaque openEngineBase : Word
opaque openEngineId : Word

/-- FREE VALUE (notes/assumptions/15.md): COLOR_PACK of an RGB value the configuration's table does not list. -/
opaque colorPackRest : BitVec 24 → Component

/-- FREE VALUE (notes/assumptions/7.md): the bytes the spec says "hold any value" (60_exceptions R303, 70_reset R341):
the number of the draw, and the address. -/
opaque freeByte : Nat → Nat → Byte

/-- The configuration the machine is reset with: every OPEN parameter opaque, every decided one at its default (00_scope R7),
and no hole in memory (notes/assumptions/4.md, DESIGN CHOICE). -/
def platform : Config :=
  { dictGeneric := openDictGeneric, dictTexture := openDictTexture, formatTable := openFormatTable,
    cfAltColor := openCfAltColor, cfAlpha := openCfAlpha, cfColor := openCfColor,
    altColorPattern := openAltColorPattern, endpointOnes := openEndpointOnes,
    endpointZeros := openEndpointZeros, colorTable := openColorTable,
    engineBase := openEngineBase, engineId := openEngineId,
    tailZeroWords := 0, addendPrefixSkip := 0, rewindAtExactly32 := false, holes := [] }

end Config

end Sys2Proof
end

