-- ==== Sys2Proof/Syntax.lean ====
section
/-! DEFINITION. The instructions: one constructor for each of the 65 rows of spec/opcode_table.json (30_encoding R80, R99).
Their operands are the bits of the encoded value that the row leaves free. The extra bits of LEN_* and OFF_*, the alpha byte
and the RGB value are no bits of the value: they follow it in the stream, and the meanings read them (R88, R231, R232). -/

namespace Sys2Proof

/-- The three texture passes (43_texture R228), in their order. -/
inductive Pass where
  | altColor
  | alpha
  | color
deriving DecidableEq, Repr

inductive Instr where
  -- CMD: a word written to the CSR CMD; `args` is bits 31:4 (10_state R31)
  /-- CMD_NONE (44_host R270). -/
  | cmdNone (args : BitVec 28)
  /-- CMD_DECODE_GENERIC (44_host R272). -/
  | cmdDecodeGeneric (args : BitVec 28)
  /-- CMD_DECODE_TEXTURE (44_host R273). -/
  | cmdDecodeTexture (args : BitVec 28)
  /-- CMD_RESERVED_3 (30_encoding R95). -/
  | cmdReserved3 (args : BitVec 28)
  /-- CMD_RESERVED_4_7 (30_encoding R95). -/
  | cmdReserved4to7 (op : BitVec 4) (args : BitVec 28)
  /-- CMD_RESERVED_8_15 (30_encoding R95). -/
  | cmdReserved8to15 (op : BitVec 4) (args : BitVec 28)
  -- SYM: a symbol-tree value (30_encoding R85)
  /-- LIT (42_generic R189). -/
  | lit (byte : Byte)
  /-- LEN_Q0 (42_generic R185). -/
  | lenQ0 (r : BitVec 2)
  /-- LEN_Q1 (42_generic R185). -/
  | lenQ1 (r : BitVec 2)
  /-- LEN_Q2 (42_generic R185). -/
  | lenQ2 (r : BitVec 2)
  /-- LEN_Q3 (42_generic R185). -/
  | lenQ3 (r : BitVec 2)
  /-- LEN_Q4 (42_generic R185). -/
  | lenQ4 (r : BitVec 2)
  /-- LEN_Q5 (42_generic R185). -/
  | lenQ5 (r : BitVec 2)
  /-- LEN_Q6 (42_generic R185). -/
  | lenQ6 (r : BitVec 2)
  /-- LEN_ESC (42_generic R185). -/
  | lenEsc
  /-- LEN_INVALID (42_generic R185). -/
  | lenInvalid
  /-- SYM_NONE_286_287 (30_encoding R94). -/
  | symNone286to287 (s : BitVec 9)
  /-- SYM_NONE_288_319 (30_encoding R94). -/
  | symNone288to319 (s : BitVec 9)
  /-- SYM_NONE_320_383 (30_encoding R94). -/
  | symNone320to383 (s : BitVec 9)
  /-- SYM_NONE_384_511 (30_encoding R94). -/
  | symNone384to511 (s : BitVec 9)
  -- OFF: a copy-tree value (30_encoding R86)
  /-- OFF_Q0 (42_generic R187). -/
  | offQ0 (r : BitVec 1)
  /-- OFF_Q1 (42_generic R187). -/
  | offQ1 (r : BitVec 1)
  /-- OFF_Q2 (42_generic R187). -/
  | offQ2 (r : BitVec 1)
  /-- OFF_Q3 (42_generic R187). -/
  | offQ3 (r : BitVec 1)
  /-- OFF_Q4 (42_generic R187). -/
  | offQ4 (r : BitVec 1)
  /-- OFF_Q5 (42_generic R187). -/
  | offQ5 (r : BitVec 1)
  /-- OFF_Q6 (42_generic R187). -/
  | offQ6 (r : BitVec 1)
  /-- OFF_Q7 (42_generic R187). -/
  | offQ7 (r : BitVec 1)
  /-- OFF_Q8 (42_generic R187). -/
  | offQ8 (r : BitVec 1)
  /-- OFF_Q9 (42_generic R187). -/
  | offQ9 (r : BitVec 1)
  /-- OFF_Q10 (42_generic R187). -/
  | offQ10 (r : BitVec 1)
  /-- OFF_Q11 (42_generic R187). -/
  | offQ11 (r : BitVec 1)
  /-- OFF_Q12 (42_generic R187). -/
  | offQ12 (r : BitVec 1)
  /-- OFF_Q13 (42_generic R187). -/
  | offQ13 (r : BitVec 1)
  /-- OFF_Q14 (42_generic R187). -/
  | offQ14 (r : BitVec 1)
  /-- OFF_Q15 (42_generic R187). -/
  | offQ15 (r : BitVec 1)
  /-- OFF_Q16 (42_generic R187). -/
  | offQ16 (r : BitVec 1)
  /-- OFF_INVALID_34_35 (42_generic R187). -/
  | offInvalid34to35 (c : BitVec 9)
  /-- OFF_INVALID_36_39 (42_generic R187). -/
  | offInvalid36to39 (c : BitVec 9)
  /-- OFF_INVALID_40_47 (42_generic R187). -/
  | offInvalid40to47 (c : BitVec 9)
  /-- OFF_INVALID_48_63 (42_generic R187). -/
  | offInvalid48to63 (c : BitVec 9)
  /-- OFF_INVALID_64_127 (42_generic R187). -/
  | offInvalid64to127 (c : BitVec 9)
  /-- OFF_INVALID_128_255 (42_generic R187). -/
  | offInvalid128to255 (c : BitVec 9)
  /-- OFF_INVALID_256_511 (42_generic R187). -/
  | offInvalid256to511 (c : BitVec 9)
  -- HDR: a dictG symbol of a tree header; `rep` is the field rep-1 (30_encoding R84)
  /-- HDR_SKIP (42_generic R181). -/
  | hdrSkip (rep : BitVec 11)
  /-- HDR_ASSIGN_1 (42_generic R181). -/
  | hdrAssign1 (rep : BitVec 11)
  /-- HDR_ASSIGN_2_3 (42_generic R181). -/
  | hdrAssign2to3 (len : BitVec 5) (rep : BitVec 11)
  /-- HDR_ASSIGN_4_7 (42_generic R181). -/
  | hdrAssign4to7 (len : BitVec 5) (rep : BitVec 11)
  /-- HDR_ASSIGN_8_15 (42_generic R181). -/
  | hdrAssign8to15 (len : BitVec 5) (rep : BitVec 11)
  /-- HDR_ASSIGN_16 (42_generic R181). -/
  | hdrAssign16 (rep : BitVec 11)
  /-- HDR_BADLEN_17 (42_generic R183). -/
  | hdrBadlen17 (rep : BitVec 11)
  /-- HDR_BADLEN_18_19 (42_generic R183). -/
  | hdrBadlen18to19 (len : BitVec 5) (rep : BitVec 11)
  /-- HDR_BADLEN_20_23 (42_generic R183). -/
  | hdrBadlen20to23 (len : BitVec 5) (rep : BitVec 11)
  /-- HDR_BADLEN_24_31 (42_generic R183). -/
  | hdrBadlen24to31 (len : BitVec 5) (rep : BitVec 11)
  -- RUN: a dictT count and the flag bits after it (30_encoding R90)
  /-- RUN_COUNT_ZERO (43_texture R229). -/
  | runCountZero
  /-- RUN_ABSENT: the alternate colour and colour passes (43_texture R229). -/
  | runAbsent (count : Sym)
  /-- RUN_ALT_PRESENT (43_texture R230). -/
  | runAltPresent (count : Sym)
  /-- RUN_COLOR_PRESENT (43_texture R232). -/
  | runColorPresent (count : Sym)
  /-- RUN_ALPHA_ABSENT (43_texture R231). -/
  | runAlphaAbsent (count : Sym)
  /-- RUN_ALPHA_ZERO (43_texture R231). -/
  | runAlphaZero (count : Sym)
  /-- RUN_ALPHA_FILL (43_texture R231). -/
  | runAlphaFill (count : Sym)
  -- CFLAGS: the compression-flags word (43_texture R227, R228)
  /-- PASS_ALT_COLOR (43_texture R228, R230). -/
  | passAltColor (cflags : Word)
  /-- PASS_ALPHA (43_texture R228, R231). -/
  | passAlpha (cflags : Word)
  /-- PASS_COLOR (43_texture R228, R232). -/
  | passColor (cflags : Word)
  /-- CFLAGS_UNKNOWN (43_texture R227). -/
  | cflagsUnknown (cflags : Word)
deriving DecidableEq, Repr

end Sys2Proof
end

