-- ==== Sys2Proof/WellFormed.lean ====
section
/-! DEFINITION. Which instructions are well formed: an operand lies in the range of its row of spec/opcode_table.json, and a
CFLAGS row's word has the bit that selects the row, whose masks the configuration gives (43_texture R227, R228). -/

namespace Sys2Proof

/-- `v` lies in `lo..hi`. -/
def inRange {w : Nat} (v : BitVec w) (lo hi : Nat) : Bool :=
  decide (lo ≤ v.toNat) && decide (v.toNat ≤ hi)

/-- The bits of the compression-flags word that no pass uses (43_texture R227). -/
def Config.unknownFlags (cfg : Config) : Word :=
  ~~~(cfg.cfAltColor ||| cfg.cfAlpha ||| cfg.cfColor)

/-- The mask that enables a pass (43_texture R228). -/
def Config.passMask (cfg : Config) : Pass → Word
  | .altColor => cfg.cfAltColor
  | .alpha => cfg.cfAlpha
  | .color => cfg.cfColor

def Instr.wf (cfg : Config) : Instr → Bool
  | .cmdReserved4to7 op _ => inRange op 4 7
  | .cmdReserved8to15 op _ => inRange op 8 15
  | .symNone286to287 s => inRange s 286 287
  | .symNone288to319 s => inRange s 288 319
  | .symNone320to383 s => inRange s 320 383
  | .symNone384to511 s => inRange s 384 511
  | .offInvalid34to35 c => inRange c 34 35
  | .offInvalid36to39 c => inRange c 36 39
  | .offInvalid40to47 c => inRange c 40 47
  | .offInvalid48to63 c => inRange c 48 63
  | .offInvalid64to127 c => inRange c 64 127
  | .offInvalid128to255 c => inRange c 128 255
  | .offInvalid256to511 c => inRange c 256 511
  | .hdrAssign2to3 len _ => inRange len 2 3
  | .hdrAssign4to7 len _ => inRange len 4 7
  | .hdrAssign8to15 len _ => inRange len 8 15
  | .hdrBadlen18to19 len _ => inRange len 18 19
  | .hdrBadlen20to23 len _ => inRange len 20 23
  | .hdrBadlen24to31 len _ => inRange len 24 31
  | .runAbsent count => decide (count ≠ 0)
  | .runAltPresent count => decide (count ≠ 0)
  | .runColorPresent count => decide (count ≠ 0)
  | .runAlphaAbsent count => decide (count ≠ 0)
  | .runAlphaZero count => decide (count ≠ 0)
  | .runAlphaFill count => decide (count ≠ 0)
  | .passAltColor cflags => decide (cflags &&& cfg.cfAltColor ≠ 0)
  | .passAlpha cflags => decide (cflags &&& cfg.cfAlpha ≠ 0)
  | .passColor cflags => decide (cflags &&& cfg.cfColor ≠ 0)
  | .cflagsUnknown cflags => decide (cflags &&& cfg.unknownFlags ≠ 0)
  | .cmdNone _ | .cmdDecodeGeneric _ | .cmdDecodeTexture _ | .cmdReserved3 _ => true
  | .lit _ | .lenQ0 _ | .lenQ1 _ | .lenQ2 _ | .lenQ3 _ | .lenQ4 _ | .lenQ5 _ | .lenQ6 _ => true
  | .lenEsc | .lenInvalid => true
  | .offQ0 _ | .offQ1 _ | .offQ2 _ | .offQ3 _ | .offQ4 _ | .offQ5 _ | .offQ6 _ | .offQ7 _ | .offQ8 _ => true
  | .offQ9 _ | .offQ10 _ | .offQ11 _ | .offQ12 _ | .offQ13 _ | .offQ14 _ | .offQ15 _ | .offQ16 _ => true
  | .hdrSkip _ | .hdrAssign1 _ | .hdrAssign16 _ | .hdrBadlen17 _ => true
  | .runCountZero => true

end Sys2Proof
end

