-- ==== Sys2Proof/Decode.lean ====
section
/-! DEFINITION. The decoder, total on every encoded item and rejecting by name, and after it the encoder (30_encoding).
The engine has no instruction words (R80): an encoded item is a value of one of five alphabets, and the engine's stage, not
the value, says which. `Code` holds the alphabet and the value. -/

namespace Sys2Proof

/-- Which row of the CFLAGS alphabet is asked of a compression-flags word: one pass, or the bits no pass uses (43_texture
R227, R228). One word can select several rows, so the engine asks in turn. -/
inductive FlagRow where
  | pass (p : Pass)
  | unknown
deriving DecidableEq, Repr

/-- An encoded item (30_encoding R80): the alphabet and the bits read in it. -/
inductive Code where
  /-- A word written to CMD (R92). -/
  | cmd (w : Word)
  /-- A symbol-tree symbol (R85). -/
  | sym (v : Sym)
  /-- A copy-tree symbol (R86). -/
  | off (v : Sym)
  /-- A dictG symbol: a header value (R84). -/
  | hdr (v : Sym)
  /-- A run record of a pass: the dictT symbol and the flag bits read after it, in stream order (R90). -/
  | run (p : Pass) (count : Sym) (flags : List Bool)
  /-- A compression-flags word (43_texture R225). -/
  | cflags (row : FlagRow) (w : Word)
deriving DecidableEq, Repr

/-- Why an item stands for no instruction. -/
inductive DecodeError where
  /-- A tree symbol of 512 or more: no row of the symbol or copy alphabet has it (30_encoding R94). -/
  | notATreeValue
  /-- The flag bits do not form a run record of the pass (30_encoding R90). -/
  | notARunRecord
  /-- The compression-flags word does not select the row (43_texture R227, R228). -/
  | rowNotSelected
deriving DecidableEq, Repr

/-- CMD (30_encoding R92, R95): OP is bits 3:0. -/
def decodeCmd (w : Word) : Instr :=
  let op : BitVec 4 := w.setWidth 4
  let args : BitVec 28 := (w >>> 4).setWidth 28
  match op.toNat with
  | 0 => .cmdNone args
  | 1 => .cmdDecodeGeneric args
  | 2 => .cmdDecodeTexture args
  | 3 => .cmdReserved3 args
  | n => if n < 8 then .cmdReserved4to7 op args else .cmdReserved8to15 op args

/-- A length code `c = s - 256` by its quotient q = c / 4 and remainder r = c % 4 (30_encoding R85). -/
def decodeLengthCode (q : Nat) (r : BitVec 2) (s : BitVec 9) : Except DecodeError Instr :=
  match q with
  | 0 => .ok (.lenQ0 r)
  | 1 => .ok (.lenQ1 r)
  | 2 => .ok (.lenQ2 r)
  | 3 => .ok (.lenQ3 r)
  | 4 => .ok (.lenQ4 r)
  | 5 => .ok (.lenQ5 r)
  | 6 => .ok (.lenQ6 r)
  | 7 => if r = 0 then .ok .lenEsc else if r = 1 then .ok .lenInvalid else .ok (.symNone286to287 s)
  | n =>
    if n < 16 then .ok (.symNone288to319 s)
    else if n < 32 then .ok (.symNone320to383 s)
    else .ok (.symNone384to511 s)

/-- A symbol-tree symbol (30_encoding R85). -/
def decodeSym (v : Sym) : Except DecodeError Instr :=
  if v.toNat < 256 then .ok (.lit (v.setWidth 8))
  else if v.toNat < 512 then decodeLengthCode ((v.toNat - 256) / 4) (v.setWidth 2) (v.setWidth 9)
  else .error .notATreeValue

/-- An offset code by its quotient q = c / 2 and remainder r = c % 2 (30_encoding R86). -/
def decodeOffsetCode (q : Nat) (r : BitVec 1) (c : BitVec 9) : Except DecodeError Instr :=
  match q with
  | 0 => .ok (.offQ0 r)
  | 1 => .ok (.offQ1 r)
  | 2 => .ok (.offQ2 r)
  | 3 => .ok (.offQ3 r)
  | 4 => .ok (.offQ4 r)
  | 5 => .ok (.offQ5 r)
  | 6 => .ok (.offQ6 r)
  | 7 => .ok (.offQ7 r)
  | 8 => .ok (.offQ8 r)
  | 9 => .ok (.offQ9 r)
  | 10 => .ok (.offQ10 r)
  | 11 => .ok (.offQ11 r)
  | 12 => .ok (.offQ12 r)
  | 13 => .ok (.offQ13 r)
  | 14 => .ok (.offQ14 r)
  | 15 => .ok (.offQ15 r)
  | 16 => .ok (.offQ16 r)
  | n =>
    if n < 18 then .ok (.offInvalid34to35 c)
    else if n < 20 then .ok (.offInvalid36to39 c)
    else if n < 24 then .ok (.offInvalid40to47 c)
    else if n < 32 then .ok (.offInvalid48to63 c)
    else if n < 64 then .ok (.offInvalid64to127 c)
    else if n < 128 then .ok (.offInvalid128to255 c)
    else .ok (.offInvalid256to511 c)

/-- A copy-tree symbol (30_encoding R86). -/
def decodeOff (v : Sym) : Except DecodeError Instr :=
  if v.toNat < 512 then decodeOffsetCode (v.toNat / 2) (v.setWidth 1) (v.setWidth 9)
  else .error .notATreeValue

/-- A header value (30_encoding R84): len is bits 4:0, rep-1 is bits 15:5. -/
def decodeHdr (v : Sym) : Instr :=
  let len : BitVec 5 := v.setWidth 5
  let rep : BitVec 11 := (v >>> 5).setWidth 11
  match len.toNat with
  | 0 => .hdrSkip rep
  | 1 => .hdrAssign1 rep
  | 16 => .hdrAssign16 rep
  | 17 => .hdrBadlen17 rep
  | n =>
    if n < 4 then .hdrAssign2to3 len rep
    else if n < 8 then .hdrAssign4to7 len rep
    else if n < 16 then .hdrAssign8to15 len rep
    else if n < 20 then .hdrBadlen18to19 len rep
    else if n < 24 then .hdrBadlen20to23 len rep
    else .hdrBadlen24to31 len rep

/-- The flag bits after a count (30_encoding R90). -/
def decodeRunFlags (p : Pass) (count : Sym) (flags : List Bool) : Except DecodeError Instr :=
  match p, flags with
  | .altColor, [false] => .ok (.runAbsent count)
  | .altColor, [true] => .ok (.runAltPresent count)
  | .color, [false] => .ok (.runAbsent count)
  | .color, [true] => .ok (.runColorPresent count)
  | .alpha, [false] => .ok (.runAlphaAbsent count)
  | .alpha, [true, false] => .ok (.runAlphaZero count)
  | .alpha, [true, true] => .ok (.runAlphaFill count)
  | _, _ => .error .notARunRecord

/-- A run record (30_encoding R90): `count = 0` is RUN_COUNT_ZERO before any flag bit is read (43_texture R229). -/
def decodeRun (p : Pass) (count : Sym) (flags : List Bool) : Except DecodeError Instr :=
  if count = 0 then (if flags = [] then .ok .runCountZero else .error .notARunRecord) else decodeRunFlags p count flags

/-- The instruction of a pass. -/
def passInstr (p : Pass) (w : Word) : Instr :=
  match p with
  | .altColor => .passAltColor w
  | .alpha => .passAlpha w
  | .color => .passColor w

/-- One row of the CFLAGS alphabet (43_texture R227, R228). -/
def decodeCflags (cfg : Config) (row : FlagRow) (w : Word) : Except DecodeError Instr :=
  match row with
  | .pass p => if w &&& cfg.passMask p ≠ 0 then .ok (passInstr p w) else .error .rowNotSelected
  | .unknown => if w &&& cfg.unknownFlags ≠ 0 then .ok (.cflagsUnknown w) else .error .rowNotSelected

/-- The decoder: total, rejecting by name. -/
def decode (cfg : Config) : Code → Except DecodeError Instr
  | .cmd w => .ok (decodeCmd w)
  | .sym v => decodeSym v
  | .off v => decodeOff v
  | .hdr v => .ok (decodeHdr v)
  | .run p count flags => decodeRun p count flags
  | .cflags row w => decodeCflags cfg row w

/-! ### The encoder -/

/-- The CMD word of an OP and bits 31:4 (30_encoding R92). -/
def cmdWord (op : BitVec 4) (args : BitVec 28) : Word := args ++ op

/-- The header value of a len and a rep-1 field (30_encoding R84). -/
def hdrValue (len : BitVec 5) (rep : BitVec 11) : Sym := rep ++ len

/-- The encoding of a well-formed instruction (30_encoding R84, R85, R86, R90, R92; 43_texture R227, R228). -/
def encode : Instr → Code
  | .cmdNone args => .cmd (cmdWord 0 args)
  | .cmdDecodeGeneric args => .cmd (cmdWord 1 args)
  | .cmdDecodeTexture args => .cmd (cmdWord 2 args)
  | .cmdReserved3 args => .cmd (cmdWord 3 args)
  | .cmdReserved4to7 op args => .cmd (cmdWord op args)
  | .cmdReserved8to15 op args => .cmd (cmdWord op args)
  | .lit byte => .sym (byte.setWidth 16)
  | .lenQ0 r => .sym (BitVec.ofNat 16 256 + r.setWidth 16)
  | .lenQ1 r => .sym (BitVec.ofNat 16 260 + r.setWidth 16)
  | .lenQ2 r => .sym (BitVec.ofNat 16 264 + r.setWidth 16)
  | .lenQ3 r => .sym (BitVec.ofNat 16 268 + r.setWidth 16)
  | .lenQ4 r => .sym (BitVec.ofNat 16 272 + r.setWidth 16)
  | .lenQ5 r => .sym (BitVec.ofNat 16 276 + r.setWidth 16)
  | .lenQ6 r => .sym (BitVec.ofNat 16 280 + r.setWidth 16)
  | .lenEsc => .sym 284
  | .lenInvalid => .sym 285
  | .symNone286to287 s => .sym (s.setWidth 16)
  | .symNone288to319 s => .sym (s.setWidth 16)
  | .symNone320to383 s => .sym (s.setWidth 16)
  | .symNone384to511 s => .sym (s.setWidth 16)
  | .offQ0 r => .off (BitVec.ofNat 16 0 + r.setWidth 16)
  | .offQ1 r => .off (BitVec.ofNat 16 2 + r.setWidth 16)
  | .offQ2 r => .off (BitVec.ofNat 16 4 + r.setWidth 16)
  | .offQ3 r => .off (BitVec.ofNat 16 6 + r.setWidth 16)
  | .offQ4 r => .off (BitVec.ofNat 16 8 + r.setWidth 16)
  | .offQ5 r => .off (BitVec.ofNat 16 10 + r.setWidth 16)
  | .offQ6 r => .off (BitVec.ofNat 16 12 + r.setWidth 16)
  | .offQ7 r => .off (BitVec.ofNat 16 14 + r.setWidth 16)
  | .offQ8 r => .off (BitVec.ofNat 16 16 + r.setWidth 16)
  | .offQ9 r => .off (BitVec.ofNat 16 18 + r.setWidth 16)
  | .offQ10 r => .off (BitVec.ofNat 16 20 + r.setWidth 16)
  | .offQ11 r => .off (BitVec.ofNat 16 22 + r.setWidth 16)
  | .offQ12 r => .off (BitVec.ofNat 16 24 + r.setWidth 16)
  | .offQ13 r => .off (BitVec.ofNat 16 26 + r.setWidth 16)
  | .offQ14 r => .off (BitVec.ofNat 16 28 + r.setWidth 16)
  | .offQ15 r => .off (BitVec.ofNat 16 30 + r.setWidth 16)
  | .offQ16 r => .off (BitVec.ofNat 16 32 + r.setWidth 16)
  | .offInvalid34to35 c => .off (c.setWidth 16)
  | .offInvalid36to39 c => .off (c.setWidth 16)
  | .offInvalid40to47 c => .off (c.setWidth 16)
  | .offInvalid48to63 c => .off (c.setWidth 16)
  | .offInvalid64to127 c => .off (c.setWidth 16)
  | .offInvalid128to255 c => .off (c.setWidth 16)
  | .offInvalid256to511 c => .off (c.setWidth 16)
  | .hdrSkip rep => .hdr (hdrValue 0 rep)
  | .hdrAssign1 rep => .hdr (hdrValue 1 rep)
  | .hdrAssign2to3 len rep => .hdr (hdrValue len rep)
  | .hdrAssign4to7 len rep => .hdr (hdrValue len rep)
  | .hdrAssign8to15 len rep => .hdr (hdrValue len rep)
  | .hdrAssign16 rep => .hdr (hdrValue 16 rep)
  | .hdrBadlen17 rep => .hdr (hdrValue 17 rep)
  | .hdrBadlen18to19 len rep => .hdr (hdrValue len rep)
  | .hdrBadlen20to23 len rep => .hdr (hdrValue len rep)
  | .hdrBadlen24to31 len rep => .hdr (hdrValue len rep)
  | .runCountZero => .run .altColor 0 []
  | .runAbsent count => .run .altColor count [false]
  | .runAltPresent count => .run .altColor count [true]
  | .runColorPresent count => .run .color count [true]
  | .runAlphaAbsent count => .run .alpha count [false]
  | .runAlphaZero count => .run .alpha count [true, false]
  | .runAlphaFill count => .run .alpha count [true, true]
  | .passAltColor cflags => .cflags (.pass .altColor) cflags
  | .passAlpha cflags => .cflags (.pass .alpha) cflags
  | .passColor cflags => .cflags (.pass .color) cflags
  | .cflagsUnknown cflags => .cflags .unknown cflags

/-! ### Bare table words

A word of spec/opcode_table.json does not name its alphabet, and the rows of different alphabets share words.
`tableCode` picks ONE alphabet for each word (notes/assumptions/13.md, DESIGN CHOICE): wider than 16 bits, a CMD word; of 9 to
16 bits, a copy-tree value below 256, a symbol-tree value of 256 to 511, a header value above; of at most 8 bits, a CMD word
below 16 and a header value above. The bits the table does not number are 0. -/

/-- The encoded item a bare table word is read as (notes/assumptions/13.md). -/
def tableCode (nbits w : Nat) : Code :=
  if 16 < nbits then .cmd (BitVec.ofNat 32 w)
  else if 8 < nbits then
    if w < 256 then .off (BitVec.ofNat 16 w)
    else if w < 512 then .sym (BitVec.ofNat 16 w)
    else .hdr (BitVec.ofNat 16 w)
  else if w < 16 then .cmd (BitVec.ofNat 32 w)
  else .hdr (BitVec.ofNat 16 w)

/-- The instruction the decoder reads from a bare table word (notes/assumptions/13.md). -/
def decodeTableWord (nbits w : Nat) : Option Instr :=
  (decode Config.platform (tableCode nbits w)).toOption

end Sys2Proof
end

