-- ==== Sys2Proof/Machine/State.lean ====
section
/-! DEFINITION. The machine's state (spec/10_state.md), as plain data, and the state right after reset (R47).
Counts and indexes are natural numbers; INVENTORY.md gives their widths. Hidden registers, for which R47 gives no value, are
zero at reset (notes/assumptions/6.md, DESIGN CHOICE, unsafe). -/

namespace Sys2Proof.Machine

/-! ### Why a step can stop -/

/-- Why the machine stops with a fault. -/
inductive Fault where
  /-- An access to a byte that memory does not admit: outside the 2^32-byte space, in the CSR block, or in a hole of the
  platform. "A model gives such an access no step, so the engine is stuck" (20_memory R65). Raised by every memory access of
  the engine and of the host. Safe: the hardware may go on. -/
  | accessNotAdmitted
deriving DecidableEq, Repr

/-- Why the machine refuses a run: the spec gives it no meaning (60_exceptions R311). Each is safe: the model stops where
hardware may go on. -/
inductive Refusal where
  /-- An instruction with no meaning in the model; no arm of `exec` answers so. -/
  | notModelled (mnemonic : String)
  /-- The host writes the input region while BUSY (20_memory R77). Raised by a host write. -/
  | inputModified
  /-- The host reads or writes the output region while BUSY (20_memory R78, 93_implementation_defined section 2,
  92_eei_decisions D38). Raised by a host access. -/
  | outputTouched
  /-- The input region and the bytes the command may write overlap (20_memory R79). Raised at the start of a command. -/
  | regionOverlap
  /-- A CSR access that is not an aligned 32-bit access (10_state R43). Raised by a host access. -/
  | csrAccessWidth
  /-- A compression-flag bit outside the three pass masks (43_texture R227). Raised by CFLAGS_UNKNOWN. -/
  | unknownCompressionFlag
  /-- DICT_GENERIC, DICT_TEXTURE or FORMAT_TABLE is ill-formed (41_huffman R154, 43_texture R240). Raised by a CMD write while
  IDLE whose OP is not 0. -/
  | illFormedConfiguration
  /-- A symbol or copy tree gave a symbol of 512 or more, which no parsed tree holds (30_encoding R94;
  notes/assumptions/20.md). Raised by the fetch of such a symbol. -/
  | notATreeValue
deriving DecidableEq, Repr

/-! ### Errors the hardware reports -/

/-- The error kinds (60_exceptions R300). -/
inductive ErrKind where
  | truncatedInput | emptyTree | tooManySymbols | invalidLengthCode | invalidOffsetCode | unknownFormat | nullInput
  | inconsistentOutputArgs | outputTooSmall | invalidBackReference | invalidCode | invalidTree | illegalCommand | invalidRun
  | sizeOverflow
deriving DecidableEq, Repr

/-! ### Host-visible registers -/

/-- The CSRs that store a value (10_state R30). STATUS is `done`, `error`, `errCode` and the phase (R32); IRQ_EN is `doneIe`
and `errIe` (R33); ID and DICT_STATUS are views (R41, R42). -/
structure Csr where
  cmd : Word
  inBase : Word
  inLen : Word
  outBase : Word
  outCap : Word
  done : Bool
  error : Bool
  errCode : BitVec 8
  doneIe : Bool
  errIe : Bool
  resultSize : Word
  errWord : Word
  errOutpos : Word
deriving DecidableEq, Repr

/-- Visible as STATUS.BUSY (10_state R20). -/
inductive Phase where
  | idle
  | busy
deriving DecidableEq, Repr

/-- The CSR values latched at a launch (10_state R27). -/
structure Launch where
  cmd : Word
  inBase : Word
  inLen : Word
  outBase : Word
  outCap : Word
deriving DecidableEq, Repr

/-! ### Internal registers -/

/-- The bit reader (10_state R23): word count, words loaded, accumulator, valid bits, bits consumed. -/
structure BitReader where
  n : Nat
  w : Nat
  acc : BitVec 64
  bits : Nat
  c : Nat
deriving DecidableEq, Repr

/-- A populated hash slot: `hs` and `hl` (10_state R24). A slot whose valid bit `hv` is 0 is `none`
(notes/assumptions/17.md). -/
structure HashEntry where
  sym : Sym
  len : Nat
deriving DecidableEq, Repr

/-- A comparison entry: `ct`, `cl`, `co` (10_state R24). -/
structure CmpEntry where
  ct : Word
  cl : Nat
  co : Nat
deriving DecidableEq, Repr

/-- A Huffman tree (10_state R24); `nc` is the length of `cmp`. -/
structure Tree where
  hash : List (Option HashEntry)
  cmp : List CmpEntry
  st : List Sym
  empty : Bool
deriving DecidableEq, Repr

/-- The two dynamic trees of a sub-block (42_generic R190). -/
inductive TreeSel where
  | sym
  | copy
deriving DecidableEq, Repr

/-- The dynamic tree header being parsed: `rem` and `lists[1..16]` of 42_generic R180 (entry L-1 is `lists[L]`, 10_state
R25). -/
structure Header where
  rem : Nat
  lists : List (List Sym)
deriving DecidableEq, Repr

/-- The generic decoder's registers (10_state R28), and the copy length of the back-reference being decoded. -/
structure GenericRegs where
  addend : Nat
  maxCount : Nat
  count : Nat
  outPos : Nat
  outSize : Nat
  curLen : Nat
deriving DecidableEq, Repr

/-- The texture decoder's registers (10_state R29). -/
structure TextureRegs where
  fmt : FormatEntry
  width : BitVec 16
  height : BitVec 16
  nb : Nat
  /-- Bits 8:1 of tex.bpb, whose bit 0 is always 0 (`TextureRegs.bpb`; notes/assumptions/16.md). -/
  bpbHigh : BitVec 8
  bpc : Nat
  size : Nat
  cflags : Word
  colorMap : List Bool
  alphaMap : List Bool
  pos : Nat
  fill : Component
  color : Component
  lit : Nat
deriving DecidableEq, Repr

/-- The line of the command's pseudocode the engine runs next (42_generic R180, R190, R191; 43_texture R239;
notes/assumptions/10.md). Between commands it is `start`. -/
inductive Stage where
  /-- checkArgs, dictEnsure, brInit (44_host R274, 41_huffman R153, 40_bit_reader R120). -/
  | start
  /-- The generic header word, the declared size, the addend (42_generic R191). -/
  | genHeader
  | genSize
  | genAddend
  /-- `while gen.out_pos < gen.out_size` (42_generic R191). -/
  | genLoop
  /-- The 16-bit count of a tree header, then its runs (42_generic R180). -/
  | treeCount (t : TreeSel)
  | treeLoop (t : TreeSel)
  /-- The maximum code count M (42_generic R194). -/
  | maxCount
  /-- The inner loop: a symbol-tree code (42_generic R190). -/
  | symLoop
  /-- The copy-tree code of a back-reference (42_generic R190). -/
  | copyCode
  /-- Magic, format tag, dimensions with the derived sizes, size word, compression-flags word (43_texture R220 to R225). -/
  | texMagic
  | texTag
  | texDims
  | texBody
  | texFlags
  /-- The check for unknown flag bits, then the zero fill and the clear bitmaps (43_texture R227, R224, R226). -/
  | texClear
  /-- Whether a pass runs (43_texture R228), and its run records (R229). -/
  | pass (p : Pass)
  | runLoop (p : Pass)
  /-- The rewind and the two literal copies, at a block index (43_texture R235 to R237). -/
  | rewind
  | alphaCopy (i : Nat)
  | colorCopy (i : Nat)
  /-- complete(tex.size) (44_host R275). -/
  | texDone
deriving DecidableEq, Repr

/-! ### The host's moves -/

/-- What the host can do (notes/assumptions/1.md). A CSR access names a byte offset of the CSR block and a width in bytes;
a bus access names a host address and reaches the CSR block or memory (20_memory R66). -/
inductive HostMove where
  | csrRead (offset : BitVec 8) (width : Nat)
  | csrWrite (offset : BitVec 8) (width : Nat) (value : Word)
  | busRead (addr : Word) (width : Nat)
  | busWrite (addr : Word) (bytes : List Byte)
  /-- The platform's reset input (70_reset R340). -/
  | reset
deriving DecidableEq, Repr

/-- Which agent moves next (notes/assumptions/1.md). -/
inductive Move where
  | engine
  | host (m : HostMove)
deriving DecidableEq, Repr

/-! ### Memory -/

/-- Host memory: (address, byte) pairs. -/
abbrev Memory := List Host.Cell

/-- What an unlisted address reads as (notes/assumptions/3.md, DESIGN CHOICE, unsafe: the spec gives the power-on contents
of memory no value). -/
def Memory.unlisted : Byte := 0

/-- The canonical form: addresses strictly rising from `lo`, and no entry equal to what an unlisted address reads as. -/
def Memory.wfFrom (lo : Nat) : Memory → Bool
  | [] => true
  | (a, b) :: rest => decide (lo ≤ a) && decide (b ≠ Memory.unlisted) && Memory.wfFrom (a + 1) rest

def Memory.wf (m : Memory) : Bool := Memory.wfFrom 0 m

/-- Host bytes that hold any value since a draw (60_exceptions R303, 70_reset R341): the byte at address `a` is
`Config.freeByte draw a` until it is written (notes/assumptions/7.md). -/
structure FreeRegion where
  base : Nat
  size : Nat
  draw : Nat
deriving DecidableEq, Repr

/-! ### The state -/

structure State where
  /-- The parameters (00_scope R7); no step changes them. -/
  cfg : Config
  csr : Csr
  phase : Phase
  launch : Launch
  br : BitReader
  dictG : Tree
  dictT : Tree
  dictReadyG : Bool
  dictReadyT : Bool
  symT : Tree
  copyT : Tree
  hdr : Header
  gen : GenericRegs
  tex : TextureRegs
  stage : Stage
  mem : Memory
  /-- The model's own: the bytes of memory that hold any value (notes/assumptions/7.md). -/
  free : List FreeRegion
  /-- The model's own: the host's coming moves and the engine's turns among them (notes/assumptions/1.md). -/
  moves : List Move
  /-- The model's own: the bytes the host's last read returned (notes/assumptions/25.md). -/
  hostData : List Byte
  /-- The model's own: how many draws of free bytes there were (notes/assumptions/7.md). -/
  freeCount : Nat
deriving DecidableEq, Repr

/-! ### Reset values (10_state R47) -/

def Csr.reset : Csr :=
  { cmd := 0, inBase := 0, inLen := 0, outBase := 0, outCap := 0, done := false, error := false, errCode := 0,
    doneIe := false, errIe := false, resultSize := 0, errWord := 0, errOutpos := 0 }

def Launch.reset : Launch := { cmd := 0, inBase := 0, inLen := 0, outBase := 0, outCap := 0 }

def BitReader.reset : BitReader := { n := 0, w := 0, acc := 0, bits := 0, c := 0 }

/-- The tree with no symbol: what `build` starts from (41_huffman R141). -/
def Tree.blank : Tree := { hash := List.replicate 256 Option.none, cmp := [], st := [], empty := true }

def Header.reset : Header := { rem := 0, lists := List.replicate 16 [] }

def GenericRegs.reset : GenericRegs :=
  { addend := 0, maxCount := 0, count := 0, outPos := 0, outSize := 0, curLen := 0 }

def TextureRegs.reset : TextureRegs :=
  { fmt := FormatEntry.zero, width := 0, height := 0, nb := 0, bpbHigh := 0, bpc := 0, size := 0, cflags := 0,
    colorMap := [], alphaMap := [], pos := 0, fill := 0, color := 0, lit := 0 }

/-- The machine right after reset (10_state R47, 70_reset R340), at power-on. -/
def State.reset : State :=
  { cfg := Config.platform, csr := Csr.reset, phase := .idle, launch := Launch.reset, br := BitReader.reset,
    dictG := Tree.blank, dictT := Tree.blank, dictReadyG := false, dictReadyT := false,
    symT := Tree.blank, copyT := Tree.blank, hdr := Header.reset, gen := GenericRegs.reset, tex := TextureRegs.reset,
    stage := .start, mem := [], free := [], moves := [], hostData := [], freeCount := 0 }

end Sys2Proof.Machine
end

