-- ==== Sys2Proof/Machine/Ops.lean ====
section
/-! DEFINITION. The named operations over memory and registers, the outcome of an engine operation, and the error report:
`raiseError` is the one shared operation of 60_exceptions R302 (the engine has no trap entry and no return, R308, R309). -/

namespace Sys2Proof.Machine

/-! ### The outcome of an engine operation -/

/-- An operation of the engine answers a value in a state, raises an error (00_scope R12), or stops. -/
inductive Res (α : Type) where
  | ok (a : α) (s : State)
  | raise (e : ErrKind) (s : State)
  | fault (f : Fault)
  | refuse (r : Refusal)
deriving DecidableEq, Repr

/-- Sequencing: "Nothing after a `raise` in the same pseudocode runs" (00_scope R12). -/
def Res.bind {α β : Type} (x : Res α) (f : α → State → Res β) : Res β :=
  match x with
  | .ok a s => f a s
  | .raise e s => .raise e s
  | .fault r => .fault r
  | .refuse r => .refuse r

/-! ### Bytes of a little-endian number (20_memory R67) -/

/-- The number whose little-endian bytes these are. -/
def leValue : List Byte → Nat
  | [] => 0
  | b :: bs => b.toNat + 256 * leValue bs

/-- The first `n` little-endian bytes of a number. -/
def leBytes : Nat → Nat → List Byte
  | 0, _ => []
  | n + 1, v => BitVec.ofNat 8 v :: leBytes n (v / 256)

/-! ### Memory as data -/

/-- One byte. -/
def Memory.read : Memory → Nat → Byte
  | [], _ => Memory.unlisted
  | (a, b) :: rest, x => if a = x then b else Memory.read rest x

/-- Write one byte, keeping the canonical form: a byte equal to the unlisted value is not listed. -/
def Memory.write : Memory → Nat → Byte → Memory
  | [], x, v => if v = Memory.unlisted then [] else [(x, v)]
  | (a, b) :: rest, x, v =>
    if x < a then
      if v = Memory.unlisted then (a, b) :: rest else (x, v) :: (a, b) :: rest
    else if x = a then
      if v = Memory.unlisted then rest else (x, v) :: rest
    else (a, b) :: Memory.write rest x v

/-- Make the `n` bytes from `base` zero. -/
def Memory.clear (m : Memory) (base n : Nat) : Memory :=
  m.filter fun c => decide (c.1 < base) || decide (base + n ≤ c.1)

/-! ### Bytes that hold any value (notes/assumptions/7.md) -/

def FreeRegion.contains (r : FreeRegion) (a : Nat) : Bool := decide (r.base ≤ a) && decide (a < r.base + r.size)

/-- What is left of a region without the `n` bytes from `lo`. -/
def FreeRegion.without (r : FreeRegion) (lo n : Nat) : List FreeRegion :=
  let stop := r.base + r.size
  (if r.base < min stop lo then [{ r with size := min stop lo - r.base }] else []) ++
    (if max r.base (lo + n) < stop then [{ r with base := max r.base (lo + n), size := stop - max r.base (lo + n) }]
     else [])

/-- The free regions without the `n` bytes from `lo`. -/
def freeWithout (rs : List FreeRegion) (lo n : Nat) : List FreeRegion := rs.flatMap fun r => r.without lo n

/-! ### Memory as the state holds it -/

/-- The byte at a host address. -/
def byteAt (s : State) (a : Nat) : Byte :=
  match s.free.find? fun r => r.contains a with
  | some r => Config.freeByte r.draw a
  | none => s.mem.read a

/-- Write one byte. -/
def setByte (a : Nat) (b : Byte) (s : State) : State :=
  { s with mem := s.mem.write a b, free := freeWithout s.free a 1 }

/-- Write bytes at rising addresses. -/
def setBytes : Nat → List Byte → State → State
  | _, [], s => s
  | a, b :: bs, s => setBytes (a + 1) bs (setByte a b s)

/-- Make the `n` bytes from `base` zero. -/
def zeroBytes (base n : Nat) (s : State) : State :=
  { s with mem := s.mem.clear base n, free := freeWithout s.free base n }

/-- Give the `n` bytes from `base` any value: one draw. -/
def freeBytes (base n : Nat) (s : State) : State :=
  if n = 0 then s
  else
    { s with
      mem := s.mem.clear base n
      free := { base := base, size := n, draw := s.freeCount } :: freeWithout s.free base n
      freeCount := s.freeCount + 1 }

/-- Give several ranges of bytes any value, one draw for each. -/
def freePieces : List FreeRegion → State → State
  | [], s => s
  | r :: rs, s => freePieces rs (freeBytes r.base r.size s)

/-! ### Which addresses memory admits (20_memory R60, R65, R66; notes/assumptions/4.md) -/

/-- The region and the `n` bytes from `base` have a byte in common. -/
def regionMeets (r : Region) (base n : Nat) : Bool :=
  decide (0 < r.size) && decide (0 < n) && decide (r.base < base + n) && decide (base < r.base + r.size)

/-- The CSR block: the engine issues no memory request to it (20_memory R66). A block near 2^32 does not wrap to address 0
(notes/assumptions/30.md, DESIGN CHOICE). -/
def csrBlock (cfg : Config) : Region := { base := cfg.engineBase.toNat, size := Config.csrBlockSize }

/-- Every one of the `n` bytes from `base` is a byte of memory. -/
def admitsRange (cfg : Config) (base n : Nat) : Bool :=
  decide (n = 0) ||
    (decide (base + n ≤ Config.addressSpace) && !regionMeets (csrBlock cfg) base n &&
      cfg.holes.all fun r => !regionMeets r base n)

/-- A byte of memory. -/
def admits (cfg : Config) (a : Nat) : Bool := admitsRange cfg a 1

/-! ### The engine's accesses (20_memory R71) -/

/-- Read one byte. -/
def readByte (a : Nat) (s : State) : Res Byte :=
  if admits s.cfg a then .ok (byteAt s a) s else .fault .accessNotAdmitted

/-- Write bytes at rising addresses (00_scope R11 MemWrite, 20_memory R70: bytewise, at any address). -/
def writeBytes : Nat → List Byte → State → Res Unit
  | _, [], s => .ok () s
  | a, b :: bs, s =>
    if admits s.cfg a then writeBytes (a + 1) bs (setByte a b s) else .fault .accessNotAdmitted

/-- The host address of byte `j` of input word `i`, mod 2^32 (20_memory R61). -/
def inputAddr (s : State) (i j : Nat) : Nat := (s.launch.inBase.toNat + 4 * i + j) % Config.addressSpace

/-- The addresses of input word `i`. -/
def inputAddrs (s : State) (i : Nat) : List Nat := [inputAddr s i 0, inputAddr s i 1, inputAddr s i 2, inputAddr s i 3]

/-- The value of input word `i`: four bytes, little-endian (00_scope R11 InWord, 20_memory R62). -/
def inputWordValue (s : State) (i : Nat) : Nat := leValue ((inputAddrs s i).map (byteAt s))

/-- Every byte of input word `i` is admitted. -/
def inputAdmitted (s : State) (i : Nat) : Bool := (inputAddrs s i).all (admits s.cfg)

/-- InWord(i) (20_memory R62). -/
def inputWord (i : Nat) (s : State) : Res Nat :=
  if inputAdmitted s i then .ok (inputWordValue s i) s else .fault .accessNotAdmitted

/-- The host address of output byte `p` (20_memory R63). It does not wrap: an address of 2^32 or more is outside the host's
memory (notes/assumptions/5.md, DEDUCED, safe). -/
def outputAddr (s : State) (p : Nat) : Nat := s.launch.outBase.toNat + p

/-! ### The launch snapshot's fields (10_state R31) -/

def cmdOp (w : Word) : Nat := w.toNat % 16
def cmdInPresent (w : Word) : Bool := w.getLsbD 8
def cmdOutPresent (w : Word) : Bool := w.getLsbD 9

/-- The running command is a texture decode (OP = 2, 44_host R273). -/
def isTexture (s : State) : Bool := decide (cmdOp s.launch.cmd = 2)

/-! ### Errors (60_exceptions) -/

/-- ERR_CODE (R300). -/
def errCode : ErrKind → BitVec 8
  | .truncatedInput => 1
  | .emptyTree => 2
  | .tooManySymbols => 3
  | .invalidLengthCode => 4
  | .invalidOffsetCode => 5
  | .unknownFormat => 6
  | .nullInput => 7
  | .inconsistentOutputArgs => 8
  | .outputTooSmall => 9
  | .invalidBackReference => 10
  | .invalidCode => 11
  | .invalidTree => 12
  | .illegalCommand => 13
  | .invalidRun => 14
  | .sizeOverflow => 15

/-- tex.bpb, the bytes per pixel block, always even (10_state R29, 43_texture R222; notes/assumptions/16.md). -/
def TextureRegs.bpb (r : TextureRegs) : Nat := r.bpbHigh.toNat * 2

/-- The output position ERR_OUTPOS reports (10_state R40). A launch zeroes the registers, so it is 0 until the command sets
them. -/
def outputPosition (s : State) : Nat := if isTexture s then s.tex.pos * s.tex.bpb else s.gen.outPos

/-- The part of the output size the command has derived, 0 before it derives one (60_exceptions R303). -/
def derivedSize (s : State) : Nat := if isTexture s then s.tex.size else s.gen.outSize

/-- How many bytes of the output region hold any value after an error: `[0, size)` within the region of 20_memory R63 and
within memory (60_exceptions R303; notes/assumptions/18.md). -/
def freeSize (s : State) : Nat :=
  let inMemory := min (derivedSize s) (Config.addressSpace - s.launch.outBase.toNat)
  if cmdOutPresent s.launch.cmd then min inMemory s.launch.outCap.toNat else inMemory

/-- Give the first `n` output bytes any value. -/
def freeOutput (n : Nat) (s : State) : State := freeBytes (outputAddr s 0) n s

/-- `raise E` inside a command (60_exceptions R302, R303): one step. The reader's W is 0 until the reader exists, because a
launch zeroes it (R301). -/
def raiseError (e : ErrKind) (s : State) : State :=
  let t := freeOutput (freeSize s) s
  { t with
    phase := .idle
    stage := .start
    csr := { s.csr with
      errWord := BitVec.ofNat 32 s.br.w
      errOutpos := BitVec.ofNat 32 (outputPosition s)
      resultSize := 0
      errCode := errCode e
      error := true
      done := false } }

/-- The end of a step that works by a `Res`: an error is reported, and is a next state. -/
def Res.finish : Res Unit → Host.Outcome State Fault Refusal
  | .ok _ s => .next s
  | .raise e s => .next (raiseError e s)
  | .fault r => .fault r
  | .refuse r => .refused r

/-- complete(size) (44_host R275): one step. -/
def complete (size : Nat) (s : State) : State :=
  { s with
    phase := .idle
    stage := .start
    csr := { s.csr with resultSize := BitVec.ofNat 32 size, done := true } }

end Sys2Proof.Machine
end

