-- ==== Sys2Proof/Machine/Flags.lean ====
section
/-! DEFINITION. The one-bit state and its views (10_state R44): STATUS, IRQ_EN, DICT_STATUS, the interrupt line, the presence
bitmaps, and the CSR reads and plain writes (10_state R30 to R43). -/

namespace Sys2Proof.Machine

/-! ### Status, enables, dictionary flags -/

/-- Bit `i` of a register, from a flag. -/
def flagBit (b : Bool) (i : Nat) : Word := if b then (1 : Word) <<< i else 0

/-- BUSY (10_state R32). -/
def isBusy (s : State) : Bool := decide (s.phase = .busy)

/-- A read of STATUS (10_state R32): ERR_CODE shows when ERROR = 1, else 0. -/
def statusWord (s : State) : Word :=
  flagBit (isBusy s) 0 ||| flagBit s.csr.done 1 ||| flagBit s.csr.error 2 |||
    (if s.csr.error then (s.csr.errCode.setWidth 32) <<< 8 else 0)

/-- A read of IRQ_EN (10_state R33). -/
def irqEnWord (s : State) : Word := flagBit s.csr.doneIe 0 ||| flagBit s.csr.errIe 1

/-- A read of DICT_STATUS (10_state R42). -/
def dictStatusWord (s : State) : Word := flagBit s.dictReadyG 0 ||| flagBit s.dictReadyT 1

/-- The interrupt line (60_exceptions R306). -/
def irqLine (s : State) : Bool := (s.csr.done && s.csr.doneIe) || (s.csr.error && s.csr.errIe)

/-! ### CSR reads and writes -/

/-- The value a CSR read returns (10_state R30): no side effect, reserved offsets read 0 (R43). `offset` is aligned. -/
def csrValue (offset : Nat) (s : State) : Word :=
  match offset with
  | 0x00 => s.cfg.engineId
  | 0x04 => s.csr.cmd
  | 0x08 => statusWord s
  | 0x0C => irqEnWord s
  | 0x10 => s.csr.inBase
  | 0x14 => s.csr.inLen
  | 0x18 => s.csr.outBase
  | 0x1C => s.csr.outCap
  | 0x20 => s.csr.resultSize
  | 0x24 => s.csr.errWord
  | 0x28 => s.csr.errOutpos
  | 0x2C => dictStatusWord s
  | _ => 0

/-- STATUS write-one-to-clear (44_host R276), ignored while BUSY (R277). -/
def writeStatus (x : Word) (s : State) : State :=
  if isBusy s then s
  else
    { s with csr := { s.csr with
        done := s.csr.done && !x.getLsbD 1
        error := s.csr.error && !x.getLsbD 2
        errCode := if x.getLsbD 2 then 0 else s.csr.errCode } }

/-- A write of a CSR other than CMD (10_state R30 to R43): a read-only or reserved register ignores it. A write while BUSY
does not reach the running command, which reads its launch snapshot (44_host R277). -/
def writeCsr (offset : Nat) (x : Word) (s : State) : State :=
  match offset with
  | 0x08 => writeStatus x s
  | 0x0C => { s with csr := { s.csr with doneIe := x.getLsbD 0, errIe := x.getLsbD 1 } }
  | 0x10 => { s with csr := { s.csr with inBase := x } }
  | 0x14 => { s with csr := { s.csr with inLen := x } }
  | 0x18 => { s with csr := { s.csr with outBase := x } }
  | 0x1C => { s with csr := { s.csr with outCap := x } }
  | _ => s

/-! ### Presence bitmaps (43_texture R226) -/

/-- The bitmap a pass tests (43_texture R230 to R232). -/
def passMap (p : Pass) (s : State) : List Bool :=
  match p with
  | .altColor => s.tex.colorMap
  | .alpha => s.tex.alphaMap
  | .color => s.tex.colorMap

/-- Position `i` is present in a bitmap. -/
def present (map : List Bool) (i : Nat) : Bool := map.getD i false

end Sys2Proof.Machine
end

