-- ==== Sys2Proof/Machine/Operands.lean ====
section
/-! DEFINITION. How the engine reads its operands: the bit reader (spec/40_bit_reader.md), a Huffman code (41_huffman R146 to
R149), and the operand forms of the alphabets: extra bits, run records, literal words (00_scope R13). -/

namespace Sys2Proof.Machine

/-! ### The bit reader -/

/-- brInit (40_bit_reader R120). -/
def brInit (s : State) : State :=
  { s with br := { n := s.launch.inLen.toNat / 4, w := 0, acc := 0, bits := 0, c := 0 } }

/-- The word a refill loads: an input word, or one of the TAIL_ZERO_WORDS zero words past the end (40_bit_reader R121). -/
def refillWord (s : State) : Res Nat :=
  if s.br.w < s.br.n then inputWord s.br.w s else .ok 0 s

/-- Put a word directly below the valid bits (40_bit_reader R121). -/
def pushWord (w : Nat) (s : State) : State :=
  { s with br := { s.br with
      acc := s.br.acc ||| (BitVec.ofNat 64 w <<< (32 - s.br.bits))
      bits := s.br.bits + 32
      w := s.br.w + 1 } }

/-- ensure(n) (40_bit_reader R121): loads exactly one word when fewer than `n` bits are buffered. -/
def ensure (n : Nat) (s : State) : Res Unit :=
  if s.br.bits < n then
    if s.br.n + s.cfg.tailZeroWords ≤ s.br.w then .raise .truncatedInput s
    else (refillWord s).bind fun w s => .ok () (pushWord w s)
  else .ok () s

/-- The top `n` bits of an accumulator (40_bit_reader R122). -/
def topBits (acc : BitVec 64) (n : Nat) : Nat := (acc >>> (64 - n)).toNat

/-- peek(n) (40_bit_reader R122), with the contract checked as R128 asks. -/
def peek (n : Nat) (s : State) : Res Nat :=
  if s.br.bits < n then .raise .truncatedInput s else .ok (topBits s.br.acc n) s

/-- Remove the next `n` bits. -/
def dropBits (n : Nat) (s : State) : State :=
  { s with br := { s.br with acc := s.br.acc <<< n, bits := s.br.bits - n, c := s.br.c + n } }

/-- consume(n) (40_bit_reader R123). -/
def consume (n : Nat) (s : State) : Res Unit :=
  if s.br.bits < n then .raise .truncatedInput s else .ok () (dropBits n s)

/-- readBits(n) (40_bit_reader R124). -/
def readBits (n : Nat) (s : State) : Res Nat :=
  (ensure n s).bind fun _ s => (peek n s).bind fun v s => (consume n s).bind fun _ s => .ok v s

/-! ### A Huffman code -/

/-- The symbol and length that a 32-bit window selects (41_huffman R147, R148); none when no code matches (R149). -/
def Tree.lookup (t : Tree) (window : Nat) : Option (Sym × Nat) :=
  match t.hash.getD (window >>> 24) none with
  | some e => some (e.sym, e.len)
  | none =>
    match t.cmp.find? fun e => decide (e.ct.toNat ≤ window) with
    | some e => (t.st[e.co - ((window - e.ct.toNat) >>> (32 - e.cl))]?).map fun sym => (sym, e.cl)
    | none => none

/-- readCode(T) (41_huffman R146): the empty test comes before any bit is read. -/
def readCode (t : Tree) (s : State) : Res Sym :=
  if t.empty then .raise .emptyTree s
  else
    (ensure 32 s).bind fun _ s => (peek 32 s).bind fun w s =>
      match t.lookup w with
      | some (sym, len) => (consume len s).bind fun _ s => .ok sym s
      | none => .raise .invalidCode s

/-! ### Extra bits (30_encoding R88) -/

/-- `k` extra bits, none issued when `k = 0`. -/
def readExtra (k : Nat) (s : State) : Res Nat := if k = 0 then .ok 0 s else readBits k s

/-- The base of a length code (30_encoding R85). -/
def lengthBase (q r : Nat) : Nat := if q = 0 then r else 2 ^ (q - 1) * (4 + r)

/-- The raw copy length of the length code `4*q + r`, q < 7 (42_generic R185). -/
def readLength (q : Nat) (r : BitVec 2) (s : State) : Res Nat :=
  (readExtra (q - 1) s).bind fun x s => .ok (lengthBase q r.toNat + x) s

/-- The base of an offset code (30_encoding R86), before the final "+ 1". -/
def offsetBase (q r : Nat) : Nat := if q = 0 then r else 2 ^ (q - 1) * (2 + r)

/-- The copy offset of the offset code `2*q + r`, q < 17 (42_generic R187). -/
def readOffset (q : Nat) (r : BitVec 1) (s : State) : Res Nat :=
  (readExtra (q - 1) s).bind fun x s => .ok (offsetBase q r.toNat + x + 1) s

/-! ### Run records (30_encoding R90, 43_texture R229) -/

/-- The flag bits after a count: `p`, and in the alpha pass `s` when `p = 1`. -/
def readRunFlags (p : Pass) (s : State) : Res (List Bool) :=
  (readBits 1 s).bind fun pb s =>
    if pb = 1 ∧ p = .alpha then (readBits 1 s).bind fun sb s => .ok [true, decide (sb = 1)] s
    else .ok [decide (pb = 1)] s

/-- One run record, read against the texture dictionary. A count of 0 reads no flag bit. -/
def readRun (p : Pass) (s : State) : Res Code :=
  (readCode s.dictT s).bind fun count s =>
    if count = 0 then .ok (.run p 0 []) s
    else (readRunFlags p s).bind fun flags s => .ok (.run p count flags) s

/-! ### Literal words (40_bit_reader R129, R131) -/

/-- brRewind (40_bit_reader R129). -/
def rewindLit (s : State) : Nat :=
  if 32 < s.br.bits ∨ (s.cfg.rewindAtExactly32 ∧ s.br.bits = 32) then s.br.w - 1 else s.br.w

/-- litAvail() (40_bit_reader R131). -/
def litAvail (s : State) : Bool := decide (s.tex.lit < s.br.n)

/-- litWord() (40_bit_reader R131), called only when a literal word is left. -/
def litWord (s : State) : Res Nat :=
  (inputWord s.tex.lit s).bind fun w s => .ok w { s with tex := { s.tex with lit := s.tex.lit + 1 } }

end Sys2Proof.Machine
end

