-- ==== Sys2Proof/Machine/Huffman.lean ====
section
/-! DEFINITION. The canonical table builder (41_huffman R140 to R145), the check of a configuration (41_huffman R154,
43_texture R240), and the one-time dictionary build (R153). -/

namespace Sys2Proof.Machine

/-- Put `e` into the `n` entries from index `lo`. -/
def fillRange {α : Type} : Nat → Nat → α → List α → List α
  | _, _, _, [] => []
  | lo + 1, n, e, x :: xs => x :: fillRange lo n e xs
  | 0, 0, _, x :: xs => x :: xs
  | 0, n + 1, e, _ :: xs => e :: fillRange 0 n e xs

/-- Give the symbol `s` the code `c` of length `len`: its hash slots for lengths 1..8 (41_huffman R143), the next entry of the
symbol table for 9..16 (R144). -/
def placeCode (len c : Nat) (s : Sym) (t : Tree) : Tree :=
  if len ≤ Config.hashBits then
    { t with
      hash := fillRange (c * 2 ^ (Config.hashBits - len)) (2 ^ (Config.hashBits - len)) (some { sym := s, len := len })
        t.hash
      empty := false }
  else { t with st := t.st ++ [s], empty := false }

/-- The symbols of one length, in list order, from the counter `c`; none when a symbol would be assigned below 0
(41_huffman R142, R145). -/
def assignLength (len : Nat) : List Sym → Int → Tree → Option (Int × Tree)
  | [], c, t => some (c, t)
  | s :: rest, c, t => if c < 0 then none else assignLength len rest (c - 1) (placeCode len c.toNat s t)

/-- The comparison entry of a non-empty length of 9..16, from the counter after its last symbol (41_huffman R144). -/
def closeLength (len : Nat) (syms : List Sym) (c : Int) (t : Tree) : Tree :=
  if Config.hashBits < len ∧ syms ≠ [] then
    { t with
      cmp := t.cmp ++
        [{ ct := BitVec.ofNat 32 ((c + 1).toNat * 2 ^ (32 - len)), cl := len, co := t.st.length - 1 }] }
  else t

/-- The lengths from `len` on; the counter doubles and gains a one bit at each (41_huffman R142). -/
def buildFrom : Nat → List (List Sym) → Int → Tree → Option Tree
  | _, [], _, t => some t
  | len, syms :: rest, c, t =>
    match assignLength len syms (2 * c + 1) t with
    | none => none
    | some (c', t') => buildFrom (len + 1) rest c' (closeLength len syms c' t')

/-- build(lists) (41_huffman R140); none is `raise InvalidTree`. -/
def build (lists : List (List Sym)) : Option Tree := buildFrom 1 lists 0 Tree.blank

/-! ### Which configurations are well formed -/

/-- The Kraft sum of the lengths from `len` on, in units of 2^-16. -/
def kraftFrom : Nat → List (List Sym) → Nat
  | _, [] => 0
  | len, syms :: rest => syms.length * 2 ^ (Config.maxCodeLen - len) + kraftFrom (len + 1) rest

/-- 41_huffman R154. -/
def dictWf (lists : List (List Sym)) : Bool :=
  decide (lists.length = Config.maxCodeLen) && decide lists.flatten.Nodup &&
    decide ((lists.drop Config.hashBits).flatten.length ≤ Config.maxSymbols) && (build lists).isSome &&
    decide (kraftFrom 1 lists = 2 ^ Config.maxCodeLen)

/-- The bytes per pixel block of a format (43_texture R222). -/
def bytesPerBlock (e : FormatEntry) : Nat := e.bitsPerPixel.toNat * 2

/-- One entry of FORMAT_TABLE (43_texture R240). -/
def formatWf (e : FormatEntry) : Bool :=
  !(e.singleBlock && e.dualBlock) &&
    (e.unsupported || decide (4 ≤ e.bitsPerPixel.toNat)) && (!e.dualBlock || decide (8 ≤ e.bitsPerPixel.toNat))

/-- 43_texture R240. -/
def formatTableWf (tbl : List FormatEntry) : Bool :=
  decide (tbl.length = 9) && decide (tbl.map (·.tag)).Nodup && tbl.all formatWf

/-- The configuration is well formed (41_huffman R154, 43_texture R240). A skipped field is at most 32 bits wide
(40_bit_reader R132). -/
def configWf (cfg : Config) : Bool :=
  dictWf cfg.dictGeneric && dictWf cfg.dictTexture && formatTableWf cfg.formatTable &&
    decide (cfg.addendPrefixSkip ≤ 32)

/-! ### The dictionary trees -/

/-- dictEnsure(G) (41_huffman R153). A well-formed dictionary builds. -/
def dictEnsureG (s : State) : State :=
  if s.dictReadyG then s
  else { s with dictG := (build s.cfg.dictGeneric).getD Tree.blank, dictReadyG := true }

/-- dictEnsure(T) (41_huffman R153). -/
def dictEnsureT (s : State) : State :=
  if s.dictReadyT then s
  else { s with dictT := (build s.cfg.dictTexture).getD Tree.blank, dictReadyT := true }

end Sys2Proof.Machine
end

