-- ==== Sys2Proof/Machine/Command.lean ====
section
/-! DEFINITION. The CMD_* instructions: a host write of CMD (spec/44_host_interface.md R270 to R277; 30_encoding R92, R95).
A CMD write while BUSY is ignored (R277); that check is in `commandWrite`. A command that starts under an ill-formed
configuration is refused; that check is in `startWrite`. -/

namespace Sys2Proof.Machine

/-- Store the command word. -/
def setCmd (w : Word) (s : State) : State := { s with csr := { s.csr with cmd := w } }

/-- launch(op) up to `phase <- BUSY` (44_host R271), with the registers of the command re-initialised (10_state R46;
notes/assumptions/19.md). The rest of R271 is the engine's steps from the stage `start`. -/
def launchCommand (s : State) : State :=
  { s with
    launch := { cmd := s.csr.cmd, inBase := s.csr.inBase, inLen := s.csr.inLen, outBase := s.csr.outBase,
                outCap := s.csr.outCap }
    csr := { s.csr with
      done := false, error := false, errCode := 0, resultSize := 0, errWord := 0, errOutpos := 0 }
    phase := .busy
    stage := .start
    br := BitReader.reset
    hdr := Header.reset
    gen := GenericRegs.reset
    tex := TextureRegs.reset }

/-- reservedCommand() (30_encoding R95): one step, the engine stays IDLE. -/
def reservedCommand (s : State) : State :=
  { s with csr := { s.csr with
      done := false, resultSize := 0, errWord := 0, errOutpos := 0, error := true,
      errCode := errCode .illegalCommand } }

/-- on host write CMD <- x (44_host R270). -/
def commandWrite (w : Word) (effect : State → State) (s : State) : Host.Outcome State Fault Refusal :=
  if isBusy s then .next s else .next (effect (setCmd w s))

/-- A CMD write whose OP is not 0: an ill-formed configuration is refused before any command (41_huffman R154, 43_texture R240;
notes/assumptions/12.md). -/
def startWrite (w : Word) (effect : State → State) (s : State) : Host.Outcome State Fault Refusal :=
  if isBusy s || configWf s.cfg then commandWrite w effect s else .refused .illFormedConfiguration

/-- CMD_NONE (44_host R270): nothing further. -/
def execCmdNone (args : BitVec 28) (s : State) : Host.Outcome State Fault Refusal :=
  commandWrite (cmdWord 0 args) id s

/-- CMD_DECODE_GENERIC (44_host R271, R272). -/
def execCmdDecodeGeneric (args : BitVec 28) (s : State) : Host.Outcome State Fault Refusal :=
  startWrite (cmdWord 1 args) launchCommand s

/-- CMD_DECODE_TEXTURE (44_host R271, R273). -/
def execCmdDecodeTexture (args : BitVec 28) (s : State) : Host.Outcome State Fault Refusal :=
  startWrite (cmdWord 2 args) launchCommand s

/-- CMD_RESERVED_3 (30_encoding R95). -/
def execCmdReserved3 (args : BitVec 28) (s : State) : Host.Outcome State Fault Refusal :=
  startWrite (cmdWord 3 args) reservedCommand s

/-- CMD_RESERVED_4_7 (30_encoding R95). -/
def execCmdReserved4to7 (op : BitVec 4) (args : BitVec 28) (s : State) : Host.Outcome State Fault Refusal :=
  startWrite (cmdWord op args) reservedCommand s

/-- CMD_RESERVED_8_15 (30_encoding R95). -/
def execCmdReserved8to15 (op : BitVec 4) (args : BitVec 28) (s : State) : Host.Outcome State Fault Refusal :=
  startWrite (cmdWord op args) reservedCommand s

end Sys2Proof.Machine
end

