-- ==== Sys2Proof/Machine/Header.lean ====
section
/-! DEFINITION. The header values HDR_* of a dynamic tree (spec/42_generic_decoder.md R180 to R183). -/

namespace Sys2Proof.Machine

/-- lists[len] <- prepend(sym, lists[len]) (42_generic R180, R182); entry L-1 of the list is `lists[L]`. -/
def prependAt : Nat → Sym → List (List Sym) → List (List Sym)
  | _, _, [] => []
  | 0, sym, l :: ls => (sym :: l) :: ls
  | n + 1, sym, l :: ls => l :: prependAt n sym ls

/-- `repeat rep times` of 42_generic R180: the indices go down, and a run of length 0 assigns nothing (R181). -/
def assignRun : Nat → Nat → Header → Header
  | 0, _, h => h
  | n + 1, len, h =>
    assignRun n len
      { rem := h.rem - 1
        lists := if len = 0 then h.lists else prependAt (len - 1) (BitVec.ofNat 16 (h.rem - 1)) h.lists }

/-- A run of `rep + 1` symbols of code length `len`, at most 16 (42_generic R180 to R183). -/
def headerRun (len : Nat) (rep : BitVec 11) (s : State) : Res Unit :=
  if s.hdr.rem < rep.toNat + 1 then .raise .invalidTree s
  else .ok () { s with hdr := assignRun (rep.toNat + 1) len s.hdr }

/-- A code length of 17 to 31 (42_generic R183): checked before the run length. -/
def badHeader (s : State) : Res Unit := .raise .invalidTree s

/-- HDR_SKIP (42_generic R181). -/
def execHdrSkip (rep : BitVec 11) (s : State) : Host.Outcome State Fault Refusal :=
  (headerRun 0 rep s).finish

/-- HDR_ASSIGN_1 (42_generic R181). -/
def execHdrAssign1 (rep : BitVec 11) (s : State) : Host.Outcome State Fault Refusal :=
  (headerRun 1 rep s).finish

/-- HDR_ASSIGN_2_3 (42_generic R181). -/
def execHdrAssign2to3 (len : BitVec 5) (rep : BitVec 11) (s : State) : Host.Outcome State Fault Refusal :=
  (headerRun len.toNat rep s).finish

/-- HDR_ASSIGN_4_7 (42_generic R181). -/
def execHdrAssign4to7 (len : BitVec 5) (rep : BitVec 11) (s : State) : Host.Outcome State Fault Refusal :=
  (headerRun len.toNat rep s).finish

/-- HDR_ASSIGN_8_15 (42_generic R181). -/
def execHdrAssign8to15 (len : BitVec 5) (rep : BitVec 11) (s : State) : Host.Outcome State Fault Refusal :=
  (headerRun len.toNat rep s).finish

/-- HDR_ASSIGN_16 (42_generic R181). -/
def execHdrAssign16 (rep : BitVec 11) (s : State) : Host.Outcome State Fault Refusal :=
  (headerRun 16 rep s).finish

/-- HDR_BADLEN_17 (42_generic R183). -/
def execHdrBadlen17 (_rep : BitVec 11) (s : State) : Host.Outcome State Fault Refusal := (badHeader s).finish

/-- HDR_BADLEN_18_19 (42_generic R183). -/
def execHdrBadlen18to19 (_len : BitVec 5) (_rep : BitVec 11) (s : State) : Host.Outcome State Fault Refusal := (badHeader s).finish

/-- HDR_BADLEN_20_23 (42_generic R183). -/
def execHdrBadlen20to23 (_len : BitVec 5) (_rep : BitVec 11) (s : State) : Host.Outcome State Fault Refusal := (badHeader s).finish

/-- HDR_BADLEN_24_31 (42_generic R183). -/
def execHdrBadlen24to31 (_len : BitVec 5) (_rep : BitVec 11) (s : State) : Host.Outcome State Fault Refusal := (badHeader s).finish

end Sys2Proof.Machine
end

