-- ==== Sys2Proof/Machine/Symbol.lean ====
section
/-! DEFINITION. The symbol-tree instructions LIT, LEN_* and SYM_NONE_* (spec/42_generic_decoder.md R185, R186, R189, R190). -/

namespace Sys2Proof.Machine

/-- Count one symbol-tree code (42_generic R190, R194) and go on with the sub-block's loop. -/
def countCode (s : State) : State := { s with gen := { s.gen with count := s.gen.count + 1 }, stage := .symLoop }

/-- Write one output byte at `gen.out_pos` and advance it (42_generic R188, R189). -/
def putByte (b : Byte) (s : State) : Res Unit :=
  (writeBytes (outputAddr s s.gen.outPos) [b] s).bind fun _ s =>
    .ok () { s with gen := { s.gen with outPos := s.gen.outPos + 1 } }

/-- LIT (42_generic R189). -/
def execLit (byte : Byte) (s : State) : Host.Outcome State Fault Refusal :=
  ((putByte byte s).bind fun _ s => .ok () (countCode s)).finish

/-- Keep the final copy length, the raw length plus the addend (42_generic R186), and go on to the copy-tree code. -/
def takeLength (raw : State → Res Nat) (s : State) : Res Unit :=
  (raw s).bind fun n s =>
    .ok () { s with gen := { s.gen with curLen := n + s.gen.addend }, stage := .copyCode }

/-- A length code outside the scheme (42_generic R185). -/
def badLength (s : State) : Res Unit := .raise .invalidLengthCode s

/-- LEN_Q0 (42_generic R185): no extra bits. -/
def execLenQ0 (r : BitVec 2) (s : State) : Host.Outcome State Fault Refusal := (takeLength (readLength 0 r) s).finish

/-- LEN_Q1 (42_generic R185): no extra bits. -/
def execLenQ1 (r : BitVec 2) (s : State) : Host.Outcome State Fault Refusal := (takeLength (readLength 1 r) s).finish

/-- LEN_Q2 (42_generic R185): 1 extra bit. -/
def execLenQ2 (r : BitVec 2) (s : State) : Host.Outcome State Fault Refusal := (takeLength (readLength 2 r) s).finish

/-- LEN_Q3 (42_generic R185): 2 extra bits. -/
def execLenQ3 (r : BitVec 2) (s : State) : Host.Outcome State Fault Refusal := (takeLength (readLength 3 r) s).finish

/-- LEN_Q4 (42_generic R185): 3 extra bits. -/
def execLenQ4 (r : BitVec 2) (s : State) : Host.Outcome State Fault Refusal := (takeLength (readLength 4 r) s).finish

/-- LEN_Q5 (42_generic R185): 4 extra bits. -/
def execLenQ5 (r : BitVec 2) (s : State) : Host.Outcome State Fault Refusal := (takeLength (readLength 5 r) s).finish

/-- LEN_Q6 (42_generic R185): 5 extra bits. -/
def execLenQ6 (r : BitVec 2) (s : State) : Host.Outcome State Fault Refusal := (takeLength (readLength 6 r) s).finish

/-- LEN_ESC (42_generic R185): the raw length 0xFF, no extra bits. -/
def execLenEsc (s : State) : Host.Outcome State Fault Refusal := (takeLength (fun s => .ok 255 s) s).finish

/-- LEN_INVALID (42_generic R185). -/
def execLenInvalid (s : State) : Host.Outcome State Fault Refusal := (badLength s).finish

/-- SYM_NONE_286_287 (30_encoding R94; 42_generic R185, "any other combination fails with `InvalidLengthCode`";
notes/assumptions/9.md). -/
def execSymNone286to287 (_s : BitVec 9) (s : State) : Host.Outcome State Fault Refusal := (badLength s).finish

/-- SYM_NONE_288_319 (30_encoding R94; 42_generic R185, "any other combination fails with `InvalidLengthCode`";
notes/assumptions/9.md). -/
def execSymNone288to319 (_s : BitVec 9) (s : State) : Host.Outcome State Fault Refusal := (badLength s).finish

/-- SYM_NONE_320_383 (30_encoding R94; 42_generic R185, "any other combination fails with `InvalidLengthCode`";
notes/assumptions/9.md). -/
def execSymNone320to383 (_s : BitVec 9) (s : State) : Host.Outcome State Fault Refusal := (badLength s).finish

/-- SYM_NONE_384_511 (30_encoding R94; 42_generic R185, "any other combination fails with `InvalidLengthCode`";
notes/assumptions/9.md). -/
def execSymNone384to511 (_s : BitVec 9) (s : State) : Host.Outcome State Fault Refusal := (badLength s).finish

end Sys2Proof.Machine
end

