-- ==== Sys2Proof/Machine/Offset.lean ====
section
/-! DEFINITION. The copy-tree instructions OFF_* (spec/42_generic_decoder.md R187, R188, R190). -/

namespace Sys2Proof.Machine

/-- The copy loop of copyBack (42_generic R188): byte by byte, each written before the next is read, stopping early at the
output size. -/
def copyLoop : Nat → Nat → State → Res Unit
  | 0, _, s => .ok () s
  | n + 1, k, s =>
    if s.gen.outSize ≤ s.gen.outPos then .ok () s
    else
      (readByte (outputAddr s (s.gen.outPos - k)) s).bind fun b s =>
        (putByte b s).bind fun _ s => copyLoop n k s

/-- copyBack(L, K) (42_generic R188): the check comes before any byte is written. -/
def copyBack (len k : Nat) (s : State) : Res Unit :=
  if s.gen.outPos < k then .raise .invalidBackReference s else copyLoop len k s

/-- The rest of a back-reference: the offset, the copy, the count (42_generic R190). -/
def backReference (offset : State → Res Nat) (s : State) : Res Unit :=
  (offset s).bind fun k s => (copyBack s.gen.curLen k s).bind fun _ s => .ok () (countCode s)

/-- An offset code with q of 17 or more (42_generic R187). -/
def badOffset (s : State) : Res Unit := .raise .invalidOffsetCode s

/-- OFF_Q0 (42_generic R187): no extra bits. -/
def execOffQ0 (r : BitVec 1) (s : State) : Host.Outcome State Fault Refusal := (backReference (readOffset 0 r) s).finish

/-- OFF_Q1 (42_generic R187): no extra bits. -/
def execOffQ1 (r : BitVec 1) (s : State) : Host.Outcome State Fault Refusal := (backReference (readOffset 1 r) s).finish

/-- OFF_Q2 (42_generic R187): 1 extra bit. -/
def execOffQ2 (r : BitVec 1) (s : State) : Host.Outcome State Fault Refusal := (backReference (readOffset 2 r) s).finish

/-- OFF_Q3 (42_generic R187): 2 extra bits. -/
def execOffQ3 (r : BitVec 1) (s : State) : Host.Outcome State Fault Refusal := (backReference (readOffset 3 r) s).finish

/-- OFF_Q4 (42_generic R187): 3 extra bits. -/
def execOffQ4 (r : BitVec 1) (s : State) : Host.Outcome State Fault Refusal := (backReference (readOffset 4 r) s).finish

/-- OFF_Q5 (42_generic R187): 4 extra bits. -/
def execOffQ5 (r : BitVec 1) (s : State) : Host.Outcome State Fault Refusal := (backReference (readOffset 5 r) s).finish

/-- OFF_Q6 (42_generic R187): 5 extra bits. -/
def execOffQ6 (r : BitVec 1) (s : State) : Host.Outcome State Fault Refusal := (backReference (readOffset 6 r) s).finish

/-- OFF_Q7 (42_generic R187): 6 extra bits. -/
def execOffQ7 (r : BitVec 1) (s : State) : Host.Outcome State Fault Refusal := (backReference (readOffset 7 r) s).finish

/-- OFF_Q8 (42_generic R187): 7 extra bits. -/
def execOffQ8 (r : BitVec 1) (s : State) : Host.Outcome State Fault Refusal := (backReference (readOffset 8 r) s).finish

/-- OFF_Q9 (42_generic R187): 8 extra bits. -/
def execOffQ9 (r : BitVec 1) (s : State) : Host.Outcome State Fault Refusal := (backReference (readOffset 9 r) s).finish

/-- OFF_Q10 (42_generic R187): 9 extra bits. -/
def execOffQ10 (r : BitVec 1) (s : State) : Host.Outcome State Fault Refusal := (backReference (readOffset 10 r) s).finish

/-- OFF_Q11 (42_generic R187): 10 extra bits. -/
def execOffQ11 (r : BitVec 1) (s : State) : Host.Outcome State Fault Refusal := (backReference (readOffset 11 r) s).finish

/-- OFF_Q12 (42_generic R187): 11 extra bits. -/
def execOffQ12 (r : BitVec 1) (s : State) : Host.Outcome State Fault Refusal := (backReference (readOffset 12 r) s).finish

/-- OFF_Q13 (42_generic R187): 12 extra bits. -/
def execOffQ13 (r : BitVec 1) (s : State) : Host.Outcome State Fault Refusal := (backReference (readOffset 13 r) s).finish

/-- OFF_Q14 (42_generic R187): 13 extra bits. -/
def execOffQ14 (r : BitVec 1) (s : State) : Host.Outcome State Fault Refusal := (backReference (readOffset 14 r) s).finish

/-- OFF_Q15 (42_generic R187): 14 extra bits. -/
def execOffQ15 (r : BitVec 1) (s : State) : Host.Outcome State Fault Refusal := (backReference (readOffset 15 r) s).finish

/-- OFF_Q16 (42_generic R187): 15 extra bits. -/
def execOffQ16 (r : BitVec 1) (s : State) : Host.Outcome State Fault Refusal := (backReference (readOffset 16 r) s).finish

/-- OFF_INVALID_34_35 (42_generic R187). -/
def execOffInvalid34to35 (_c : BitVec 9) (s : State) : Host.Outcome State Fault Refusal := (badOffset s).finish

/-- OFF_INVALID_36_39 (42_generic R187). -/
def execOffInvalid36to39 (_c : BitVec 9) (s : State) : Host.Outcome State Fault Refusal := (badOffset s).finish

/-- OFF_INVALID_40_47 (42_generic R187). -/
def execOffInvalid40to47 (_c : BitVec 9) (s : State) : Host.Outcome State Fault Refusal := (badOffset s).finish

/-- OFF_INVALID_48_63 (42_generic R187). -/
def execOffInvalid48to63 (_c : BitVec 9) (s : State) : Host.Outcome State Fault Refusal := (badOffset s).finish

/-- OFF_INVALID_64_127 (42_generic R187). -/
def execOffInvalid64to127 (_c : BitVec 9) (s : State) : Host.Outcome State Fault Refusal := (badOffset s).finish

/-- OFF_INVALID_128_255 (42_generic R187). -/
def execOffInvalid128to255 (_c : BitVec 9) (s : State) : Host.Outcome State Fault Refusal := (badOffset s).finish

/-- OFF_INVALID_256_511 (42_generic R187). -/
def execOffInvalid256to511 (_c : BitVec 9) (s : State) : Host.Outcome State Fault Refusal := (badOffset s).finish

end Sys2Proof.Machine
end

