-- ==== Sys2Proof/Machine/Run.lean ====
section
/-! DEFINITION. The run records RUN_* (spec/43_texture_decoder.md R229 to R234). -/

namespace Sys2Proof.Machine

/-- The host address of byte `off` of pixel block `i` (43_texture R234). -/
def blockAddr (i off : Nat) (s : State) : Nat := outputAddr s (i * s.tex.bpb + off)

/-- colorOff() (43_texture R234). -/
def colorOff (s : State) : Nat := if s.tex.fmt.dualBlock then s.tex.bpc else 0

/-- Write an 8-byte component (20_memory R69). -/
def putComponent (addr : Nat) (v : Component) (s : State) : Res Unit := writeBytes addr (leBytes 8 v.toNat) s

/-- What a run does at an absent position it covers. -/
inductive RunAct where
  /-- p = 0: the position stays absent (43_texture R229). -/
  | leave
  /-- actAlt (43_texture R230). -/
  | alt
  /-- actAlpha with s = 0 or s = 1 (43_texture R231). -/
  | alpha (fill : Bool)
  /-- actColor (43_texture R232). -/
  | color
deriving DecidableEq, Repr

def markColor (i : Nat) (s : State) : State :=
  { s with tex := { s.tex with colorMap := s.tex.colorMap.set i true } }

def markAlpha (i : Nat) (s : State) : State :=
  { s with tex := { s.tex with alphaMap := s.tex.alphaMap.set i true } }

/-- Perform the action at position `i`. -/
def runAct (a : RunAct) (i : Nat) (s : State) : Res Unit :=
  match a with
  | .leave => .ok () s
  | .alt =>
    (putComponent (blockAddr i 0 s) s.cfg.altColorPattern s).bind fun _ s => .ok () (markAlpha i (markColor i s))
  | .alpha fill =>
    (putComponent (blockAddr i 0 s) (if fill then s.tex.fill else 0) s).bind fun _ s => .ok () (markAlpha i s)
  | .color => (putComponent (blockAddr i (colorOff s) s) s.tex.color s).bind fun _ s => .ok () (markColor i s)

/-- tex.pos <- tex.pos + 1. -/
def stepPos (s : State) : State := { s with tex := { s.tex with pos := s.tex.pos + 1 } }

/-- The positions a run covers (43_texture R229): the first argument is how many positions are left, `nb - pos`, the second
the run's remaining count. A position already present in the pass's bitmap is stepped over without counting. -/
def coverRun (map : State → List Bool) (a : RunAct) : Nat → Nat → State → Res Unit
  | _, 0, s => .ok () s
  | 0, _ + 1, s => .raise .invalidRun s
  | n + 1, c + 1, s =>
    if present (map s) s.tex.pos then coverRun map a n (c + 1) (stepPos s)
    else (runAct a s.tex.pos s).bind fun _ s => coverRun map a n c (stepPos s)

/-- Skip the present positions after a run (43_texture R229). -/
def skipPresent (map : State → List Bool) : Nat → State → State
  | 0, s => s
  | n + 1, s => if present (map s) s.tex.pos then skipPresent map n (stepPos s) else s

/-- One run record with a count of at least 1 (43_texture R229). -/
def runRecord (map : State → List Bool) (a : RunAct) (count : Sym) (s : State) : Res Unit :=
  (coverRun map a (s.tex.nb - s.tex.pos) count.toNat s).bind fun _ s =>
    .ok () (skipPresent map (s.tex.nb - s.tex.pos) s)

/-- RUN_COUNT_ZERO (43_texture R229): "a run that cannot advance". -/
def execRunCountZero (s : State) : Host.Outcome State Fault Refusal := (Res.raise .invalidBackReference s).finish

/-- RUN_ABSENT, in the alternate colour and colour passes (43_texture R229). -/
def execRunAbsent (count : Sym) (s : State) : Host.Outcome State Fault Refusal :=
  (runRecord (fun s => s.tex.colorMap) .leave count s).finish

/-- RUN_ALT_PRESENT (43_texture R230). -/
def execRunAltPresent (count : Sym) (s : State) : Host.Outcome State Fault Refusal :=
  (runRecord (fun s => s.tex.colorMap) .alt count s).finish

/-- RUN_COLOR_PRESENT (43_texture R232). -/
def execRunColorPresent (count : Sym) (s : State) : Host.Outcome State Fault Refusal :=
  (runRecord (fun s => s.tex.colorMap) .color count s).finish

/-- RUN_ALPHA_ABSENT (43_texture R231). -/
def execRunAlphaAbsent (count : Sym) (s : State) : Host.Outcome State Fault Refusal :=
  (runRecord (fun s => s.tex.alphaMap) .leave count s).finish

/-- RUN_ALPHA_ZERO (43_texture R231). -/
def execRunAlphaZero (count : Sym) (s : State) : Host.Outcome State Fault Refusal :=
  (runRecord (fun s => s.tex.alphaMap) (.alpha false) count s).finish

/-- RUN_ALPHA_FILL (43_texture R231). -/
def execRunAlphaFill (count : Sym) (s : State) : Host.Outcome State Fault Refusal :=
  (runRecord (fun s => s.tex.alphaMap) (.alpha true) count s).finish

end Sys2Proof.Machine
end

