-- ==== Sys2Proof/Machine/Pass.lean ====
section
/-! DEFINITION. The compression-flag instructions PASS_* and CFLAGS_UNKNOWN (spec/43_texture_decoder.md R227 to R233): each
pass begins, and its run records follow. -/

namespace Sys2Proof.Machine

/-- `tex.pos <- 0`, and the run loop of a pass (43_texture R229). -/
def beginRuns (p : Pass) (s : State) : State := { s with tex := { s.tex with pos := 0 }, stage := .runLoop p }

/-- The alpha byte in all eight bytes: ALPHA_FILL_MODE = REPLICATE8 (43_texture R231). -/
def replicateByte (a : Nat) : Component := BitVec.ofNat 64 (0x0101010101010101 * a)

/-- COLOR_PACK (43_texture R233; notes/assumptions/15.md). -/
def colorPack (cfg : Config) (v : BitVec 24) : Component :=
  match cfg.colorTable.find? fun e => decide (e.1 = v) with
  | some e => e.2
  | none => Config.colorPackRest v

/-- colorValue(v) (43_texture R233); R is bits 23:16, G 15:8, B 7:0 (RGB_ORDER). -/
def colorValue (cfg : Config) (v : BitVec 24) : Component :=
  if v = 0xFFFFFF then cfg.endpointOnes else if v = 0 then cfg.endpointZeros else colorPack cfg v

/-- PASS_ALT_COLOR (43_texture R230). -/
def execPassAltColor (_cflags : Word) (s : State) : Host.Outcome State Fault Refusal := .next (beginRuns .altColor s)

/-- PASS_ALPHA (43_texture R231): the fill byte is read before `tex.pos` is cleared (10_state R40). -/
def execPassAlpha (_cflags : Word) (s : State) : Host.Outcome State Fault Refusal :=
  ((readBits 8 s).bind fun a s =>
    .ok () (beginRuns .alpha { s with tex := { s.tex with fill := replicateByte a } })).finish

/-- PASS_COLOR (43_texture R232): the RGB value is read before `tex.pos` is cleared (10_state R40). -/
def execPassColor (_cflags : Word) (s : State) : Host.Outcome State Fault Refusal :=
  ((readBits 24 s).bind fun v s =>
    .ok () (beginRuns .color { s with tex := { s.tex with color := colorValue s.cfg (BitVec.ofNat 24 v) } })).finish

/-- CFLAGS_UNKNOWN (43_texture R227): `refuse(UnknownCompressionFlag)`. -/
def execCflagsUnknown (_cflags : Word) (_s : State) : Host.Outcome State Fault Refusal := .refused .unknownCompressionFlag

end Sys2Proof.Machine
end

