-- ==== Sys2Proof/Machine/Dispatch.lean ====
section
/-! DEFINITION. The meaning of each instruction: one arm per constructor of Instr. -/

namespace Sys2Proof.Machine

def exec (i : Instr) (s : State) : Host.Outcome State Fault Refusal :=
  match i with
  | .cmdNone args => Sys2Proof.Machine.execCmdNone args s
  | .cmdDecodeGeneric args => Sys2Proof.Machine.execCmdDecodeGeneric args s
  | .cmdDecodeTexture args => Sys2Proof.Machine.execCmdDecodeTexture args s
  | .cmdReserved3 args => Sys2Proof.Machine.execCmdReserved3 args s
  | .cmdReserved4to7 op args => Sys2Proof.Machine.execCmdReserved4to7 op args s
  | .cmdReserved8to15 op args => Sys2Proof.Machine.execCmdReserved8to15 op args s
  | .lit byte => Sys2Proof.Machine.execLit byte s
  | .lenQ0 r => Sys2Proof.Machine.execLenQ0 r s
  | .lenQ1 r => Sys2Proof.Machine.execLenQ1 r s
  | .lenQ2 r => Sys2Proof.Machine.execLenQ2 r s
  | .lenQ3 r => Sys2Proof.Machine.execLenQ3 r s
  | .lenQ4 r => Sys2Proof.Machine.execLenQ4 r s
  | .lenQ5 r => Sys2Proof.Machine.execLenQ5 r s
  | .lenQ6 r => Sys2Proof.Machine.execLenQ6 r s
  | .lenEsc => Sys2Proof.Machine.execLenEsc s
  | .lenInvalid => Sys2Proof.Machine.execLenInvalid s
  | .symNone286to287 v => Sys2Proof.Machine.execSymNone286to287 v s
  | .symNone288to319 v => Sys2Proof.Machine.execSymNone288to319 v s
  | .symNone320to383 v => Sys2Proof.Machine.execSymNone320to383 v s
  | .symNone384to511 v => Sys2Proof.Machine.execSymNone384to511 v s
  | .offQ0 r => Sys2Proof.Machine.execOffQ0 r s
  | .offQ1 r => Sys2Proof.Machine.execOffQ1 r s
  | .offQ2 r => Sys2Proof.Machine.execOffQ2 r s
  | .offQ3 r => Sys2Proof.Machine.execOffQ3 r s
  | .offQ4 r => Sys2Proof.Machine.execOffQ4 r s
  | .offQ5 r => Sys2Proof.Machine.execOffQ5 r s
  | .offQ6 r => Sys2Proof.Machine.execOffQ6 r s
  | .offQ7 r => Sys2Proof.Machine.execOffQ7 r s
  | .offQ8 r => Sys2Proof.Machine.execOffQ8 r s
  | .offQ9 r => Sys2Proof.Machine.execOffQ9 r s
  | .offQ10 r => Sys2Proof.Machine.execOffQ10 r s
  | .offQ11 r => Sys2Proof.Machine.execOffQ11 r s
  | .offQ12 r => Sys2Proof.Machine.execOffQ12 r s
  | .offQ13 r => Sys2Proof.Machine.execOffQ13 r s
  | .offQ14 r => Sys2Proof.Machine.execOffQ14 r s
  | .offQ15 r => Sys2Proof.Machine.execOffQ15 r s
  | .offQ16 r => Sys2Proof.Machine.execOffQ16 r s
  | .offInvalid34to35 c => Sys2Proof.Machine.execOffInvalid34to35 c s
  | .offInvalid36to39 c => Sys2Proof.Machine.execOffInvalid36to39 c s
  | .offInvalid40to47 c => Sys2Proof.Machine.execOffInvalid40to47 c s
  | .offInvalid48to63 c => Sys2Proof.Machine.execOffInvalid48to63 c s
  | .offInvalid64to127 c => Sys2Proof.Machine.execOffInvalid64to127 c s
  | .offInvalid128to255 c => Sys2Proof.Machine.execOffInvalid128to255 c s
  | .offInvalid256to511 c => Sys2Proof.Machine.execOffInvalid256to511 c s
  | .hdrSkip rep => Sys2Proof.Machine.execHdrSkip rep s
  | .hdrAssign1 rep => Sys2Proof.Machine.execHdrAssign1 rep s
  | .hdrAssign2to3 len rep => Sys2Proof.Machine.execHdrAssign2to3 len rep s
  | .hdrAssign4to7 len rep => Sys2Proof.Machine.execHdrAssign4to7 len rep s
  | .hdrAssign8to15 len rep => Sys2Proof.Machine.execHdrAssign8to15 len rep s
  | .hdrAssign16 rep => Sys2Proof.Machine.execHdrAssign16 rep s
  | .hdrBadlen17 rep => Sys2Proof.Machine.execHdrBadlen17 rep s
  | .hdrBadlen18to19 len rep => Sys2Proof.Machine.execHdrBadlen18to19 len rep s
  | .hdrBadlen20to23 len rep => Sys2Proof.Machine.execHdrBadlen20to23 len rep s
  | .hdrBadlen24to31 len rep => Sys2Proof.Machine.execHdrBadlen24to31 len rep s
  | .runCountZero => Sys2Proof.Machine.execRunCountZero s
  | .runAbsent count => Sys2Proof.Machine.execRunAbsent count s
  | .runAltPresent count => Sys2Proof.Machine.execRunAltPresent count s
  | .runColorPresent count => Sys2Proof.Machine.execRunColorPresent count s
  | .runAlphaAbsent count => Sys2Proof.Machine.execRunAlphaAbsent count s
  | .runAlphaZero count => Sys2Proof.Machine.execRunAlphaZero count s
  | .runAlphaFill count => Sys2Proof.Machine.execRunAlphaFill count s
  | .passAltColor cflags => Sys2Proof.Machine.execPassAltColor cflags s
  | .passAlpha cflags => Sys2Proof.Machine.execPassAlpha cflags s
  | .passColor cflags => Sys2Proof.Machine.execPassColor cflags s
  | .cflagsUnknown cflags => Sys2Proof.Machine.execCflagsUnknown cflags s

end Sys2Proof.Machine
end

