-- ==== Sys2Proof/Machine/Engine.lean ====
section
/-! DEFINITION. The steps of a command that run no row of the opcode table: the argument checks, the header fields, the tree
builds, the loop tests, the zero fill, the rewind and the literal copies (spec/42_generic_decoder.md R180, R190 to R194;
43_texture_decoder.md R220 to R228, R235 to R239; 44_host_interface.md R274, R275). One stage is one step
(notes/assumptions/10.md). -/

namespace Sys2Proof.Machine

/-- Go on with a stage. -/
def goTo (st : Stage) (s : State) : State := { s with stage := st }

/-! ### The start of a command -/

/-- clamp(declared) (42_generic R192). -/
def clampSize (declared : Nat) (s : State) : Nat :=
  if cmdOutPresent s.launch.cmd then min declared s.launch.outCap.toNat else declared

/-- lookupFormat(tag) (43_texture R221): an unsupported entry counts as unknown. -/
def lookupFormat (cfg : Config) (tag : Nat) : Option FormatEntry :=
  match cfg.formatTable.find? fun e => decide (e.tag.toNat = tag) with
  | some e => if e.unsupported then none else some e
  | none => none

/-- ceil(a / 4). -/
def blocksAcross (a : Nat) : Nat := (a + 3) / 4

/-- tex.nb (43_texture R222). -/
def blockCount (width height : Nat) : Nat := blocksAcross width * blocksAcross height

/-- tex.bpc (43_texture R222). -/
def bytesPerComponent (e : FormatEntry) : Nat := if e.singleBlock || e.dualBlock then 8 else 0

/-- checkArgs (44_host R274). -/
def checkArgs (s : State) : Res Unit :=
  if cmdInPresent s.launch.cmd = false then .raise .nullInput s
  else if cmdOutPresent s.launch.cmd ∧ s.launch.outCap = 0 then .raise .inconsistentOutputArgs s
  else .ok () s

/-! ### The two regions (20_memory R61, R63) -/

/-- Word `i` as a refill of the command loads it (40_bit_reader R121); none past the end, and none where memory does not admit
the word, because the command is stuck there (20_memory R65). -/
def headerWord (s : State) (i : Nat) : Option Nat :=
  let n := s.launch.inLen.toNat / 4
  if i < n then (if inputAdmitted s i then some (inputWordValue s i) else none) else if i < n + s.cfg.tailZeroWords then some 0 else none

/-- The size a texture command derives from its format tag and dimensions, whether it is then refused or not (43_texture R221,
R222). -/
def textureSize (cfg : Config) (tag dims : Nat) : Option Nat :=
  (lookupFormat cfg tag).map fun e => blockCount (dims / 65536) (dims % 65536) * bytesPerBlock e

/-- The output size the command derives from its input words, if it gets that far (42_generic R192, 43_texture R222;
notes/assumptions/11.md). The input cannot change while BUSY (20_memory R77), so it is known at the launch. -/
def launchSize (s : State) : Option Nat :=
  match checkArgs s with
  | .ok _ _ =>
    if isTexture s then
      match headerWord s 0, headerWord s 1, headerWord s 2 with
      | some _, some tag, some dims => textureSize s.cfg tag dims
      | _, _, _ => none
    else
      match headerWord s 0, headerWord s 1 with
      | some _, some d => some (clampSize d s)
      | _, _ => none
  | _ => none

/-- The output region of a command (20_memory R63): OUT_CAP bytes when OUT_PRESENT = 1, else the bytes of the size it derives, none
before it can derive one (notes/assumptions/8.md). -/
def outputRegion (s : State) : Region :=
  { base := outputAddr s 0
    size := if cmdOutPresent s.launch.cmd then s.launch.outCap.toNat else (launchSize s).getD 0 }

/-- How many bytes of its output region the command may write (20_memory R63, R79): those of its size, within OUT_CAP when
OUT_PRESENT = 1 (notes/assumptions/11.md). -/
def writableSize (s : State) : Nat := clampSize ((launchSize s).getD 0) s

/-- The input region as ranges that do not wrap: it is computed mod 2^32 (20_memory R61). -/
def inputRegions (s : State) : List Region :=
  let lo := s.launch.inBase.toNat
  let len := s.launch.inLen.toNat
  [{ base := lo, size := min len (Config.addressSpace - lo) }, { base := 0, size := lo + len - Config.addressSpace }]

/-- The input region has a byte among the `n` bytes from `base` (20_memory R79). -/
def inputMeets (s : State) (base n : Nat) : Bool := (inputRegions s).any fun r => regionMeets r base n

/-- The regions overlap on a byte the command may write (20_memory R79). -/
def regionsOverlap (s : State) : Bool := inputMeets s (outputAddr s 0) (writableSize s)

/-- The first step of a command: the arguments are checked, the regions are disjoint, the dictionary is built, the reader is
created (44_host R274, 20_memory R79, 41_huffman R153, 40_bit_reader R120). -/
def startCommand (s : State) : Res Unit :=
  (checkArgs s).bind fun _ s =>
    if regionsOverlap s then .refuse .regionOverlap
    else if isTexture s then .ok () (goTo .texMagic (brInit (dictEnsureT s)))
    else .ok () (goTo .genHeader (brInit (dictEnsureG s)))

/-! ### The generic decoder -/

/-- The 32-bit header word, discarded (42_generic R191). -/
def genHeader (s : State) : Res Unit := (readBits 32 s).bind fun _ s => .ok () (goTo .genSize s)

/-- The declared size, clamped (42_generic R191, R192). -/
def genSize (s : State) : Res Unit :=
  (readBits 32 s).bind fun d s =>
    .ok () (goTo .genAddend { s with gen := { s.gen with outSize := clampSize d s } })

/-- The skipped prefix bits, none by default, and the addend (42_generic R191, R193). -/
def genAddend (s : State) : Res Unit :=
  (readExtra s.cfg.addendPrefixSkip s).bind fun _ s =>
    (readBits 4 s).bind fun a s =>
      .ok () (goTo .genLoop { s with gen := { s.gen with addend := a + 1, outPos := 0 } })

/-- The outer loop test (42_generic R191): a sub-block, or the end of the command. -/
def genLoop (s : State) : Res Unit :=
  if s.gen.outPos < s.gen.outSize then .ok () (goTo (.treeCount .sym) s) else .ok () (complete s.gen.outSize s)

/-- The count of a tree header (42_generic R180). -/
def treeCount (t : TreeSel) (s : State) : Res Unit :=
  (readBits 16 s).bind fun n s =>
    if Config.maxSymbols < n then .raise .tooManySymbols s
    else .ok () (goTo (.treeLoop t) { s with hdr := { rem := n, lists := List.replicate 16 [] } })

/-- Keep a built tree: the symbol tree first, then the copy tree, then M (42_generic R190). -/
def storeTree (t : TreeSel) (tree : Tree) (s : State) : State :=
  match t with
  | .sym => goTo (.treeCount .copy) { s with symT := tree }
  | .copy => goTo .maxCount { s with copyT := tree }

/-- The tree build when every symbol is accounted for (42_generic R184). -/
def treeBuild (t : TreeSel) (s : State) : Res Unit :=
  match build s.hdr.lists with
  | none => .raise .invalidTree s
  | some tree => .ok () (storeTree t tree s)

/-- M (42_generic R190, R194). -/
def readMaxCount (s : State) : Res Unit :=
  (readBits 4 s).bind fun m s =>
    .ok () (goTo .symLoop { s with gen := { s.gen with maxCount := (m + 1) * 4096, count := 0 } })

/-- The inner loop of a sub-block goes on (42_generic R190). -/
def codeDue (s : State) : Bool := decide (s.gen.count < s.gen.maxCount) && decide (s.gen.outPos < s.gen.outSize)

/-! ### The texture decoder -/

/-- The magic word, discarded (43_texture R220). -/
def texMagic (s : State) : Res Unit := (readBits 32 s).bind fun _ s => .ok () (goTo .texTag s)

/-- The format tag, looked up before the dimensions are read (43_texture R220, R221). -/
def texTag (s : State) : Res Unit :=
  (readBits 32 s).bind fun tag s =>
    match lookupFormat s.cfg tag with
    | none => .raise .unknownFormat s
    | some e => .ok () (goTo .texDims { s with tex := { s.tex with fmt := e } })

/-- texDerive (43_texture R222): tex.bpb is `bytesPerBlock`, so its bits 8:1 are the format's bits per pixel. tex.size is the whole
product, past the 33 bits of 10_state R29 too (notes/assumptions/32.md, DEDUCED). -/
def texDerive (s : State) : State :=
  let nb := blockCount s.tex.width.toNat s.tex.height.toNat
  { s with tex := { s.tex with
      nb := nb, bpbHigh := s.tex.fmt.bitsPerPixel, bpc := bytesPerComponent s.tex.fmt, size := nb * bytesPerBlock s.tex.fmt } }

/-- texCheckSize (43_texture R223). -/
def texCheckSize (s : State) : Res Unit :=
  if Config.addressSpace ≤ s.tex.size then .raise .sizeOverflow s
  else if cmdOutPresent s.launch.cmd ∧ s.launch.outCap.toNat < s.tex.size then .raise .outputTooSmall s
  else .ok () s

/-- Width, height, the derived geometry and its check (43_texture R220, R222, R223). -/
def texDims (s : State) : Res Unit :=
  (readBits 16 s).bind fun w s =>
    (readBits 16 { s with tex := { s.tex with width := BitVec.ofNat 16 w } }).bind fun h s =>
      (texCheckSize (texDerive { s with tex := { s.tex with height := BitVec.ofNat 16 h } })).bind fun _ s =>
        .ok () (goTo .texBody s)

/-- The compressed-data size word, ignored (43_texture R225). -/
def texBody (s : State) : Res Unit := (readBits 32 s).bind fun _ s => .ok () (goTo .texFlags s)

/-- The compression-flags word (43_texture R225). -/
def texFlags (s : State) : Res Unit :=
  (readBits 32 s).bind fun w s =>
    .ok () (goTo .texClear { s with tex := { s.tex with cflags := BitVec.ofNat 32 w } })

/-- Every position absent (43_texture R226). -/
def clearMaps (s : State) : State :=
  { s with tex := { s.tex with
      colorMap := List.replicate s.tex.nb false, alphaMap := List.replicate s.tex.nb false } }

/-- texZeroFill and the clear bitmaps (43_texture R224, R226). -/
def texClear (s : State) : Res Unit :=
  if admitsRange s.cfg (outputAddr s 0) s.tex.size then
    .ok () (goTo (.pass .altColor) (clearMaps (zeroBytes (outputAddr s 0) s.tex.size s)))
  else .fault .accessNotAdmitted

/-- What follows a pass, run or not (43_texture R228, R239). -/
def afterPass : Pass → Stage
  | .altColor => .pass .alpha
  | .alpha => .pass .color
  | .color => .rewind

/-- A run record is due (43_texture R229). -/
def runDue (s : State) : Bool := decide (s.tex.pos < s.tex.nb)

/-- brRewind (43_texture R235). -/
def rewindStep (s : State) : State := goTo (.alphaCopy 0) { s with tex := { s.tex with lit := rewindLit s } }

/-- The words of copyComponent (43_texture R236); false when the input ended and the whole literal phase stops (R238). -/
def copyWords : Nat → Nat → State → Res Bool
  | 0, _, s => .ok true s
  | n + 1, addr, s =>
    if litAvail s then
      (litWord s).bind fun w s => (writeBytes addr (leBytes 4 w) s).bind fun _ s => copyWords n (addr + 4) s
    else .ok false s

/-- How many words a component has (43_texture R236). -/
def componentWords (s : State) : Nat := if 4 < s.tex.bpc then 2 else 1

/-- Copy the component of an absent block from the literal tail, then go on with the next block, or stop the literal phase
(43_texture R236 to R238). -/
def copyBlock (map : List Bool) (i off : Nat) (next : Stage) (s : State) : Res Unit :=
  if present map i then .ok () (goTo next s)
  else
    (copyWords (componentWords s) (blockAddr i off s) s).bind fun more s =>
      .ok () (goTo (if more then next else .texDone) s)

/-- One block of alphaCopy (43_texture R236). -/
def alphaCopyStep (i : Nat) (s : State) : Res Unit :=
  if s.tex.fmt.hasAlpha ∧ i < s.tex.nb then copyBlock s.tex.alphaMap i 0 (.alphaCopy (i + 1)) s
  else .ok () (goTo (.colorCopy 0) s)

/-- One block of colorCopy (43_texture R237). -/
def colorCopyStep (i : Nat) (s : State) : Res Unit :=
  if s.tex.fmt.hasColor ∧ i < s.tex.nb then copyBlock s.tex.colorMap i (colorOff s) (.colorCopy (i + 1)) s
  else .ok () (goTo .texDone s)

end Sys2Proof.Machine
end

