-- ==== Sys2Proof/Machine/HostPort.lean ====
section
/-! DEFINITION. The host's moves other than a CMD write (spec/10_state.md R43; 20_memory.md R66, R77, R78; 44_host_interface.md
R277, R278; 70_reset_and_hazards.md R340, R341). -/

namespace Sys2Proof.Machine

/-! ### CSR accesses -/

/-- An aligned 32-bit access (10_state R43). -/
def csrAligned (offset : BitVec 8) (width : Nat) : Bool := decide (width = 4) && decide (offset.toNat % 4 = 0)

/-- A CSR read: no side effect on the engine (10_state R43). -/
def hostCsrRead (offset : BitVec 8) (width : Nat) (s : State) : Host.Outcome State Fault Refusal :=
  if csrAligned offset width then .next { s with hostData := leBytes 4 (csrValue offset.toNat s).toNat }
  else .refused .csrAccessWidth

/-- A write of a CSR other than CMD. -/
def hostCsrWrite (offset : BitVec 8) (width : Nat) (v : Word) (s : State) : Host.Outcome State Fault Refusal :=
  if csrAligned offset width then .next (writeCsr offset.toNat v s) else .refused .csrAccessWidth

/-! ### Memory accesses -/

/-- The host touches the output region, which belongs to the engine while BUSY (20_memory R78). -/
def touchesOutput (a n : Nat) (s : State) : Bool := isBusy s && regionMeets (outputRegion s) a n

/-- A host write of memory: refused on either region while BUSY (20_memory R77, R78). The input region is absent when
IN_PRESENT = 0 (R61). A write that meets both regions is refused as one of the input (notes/assumptions/33.md, DESIGN CHOICE). -/
def hostMemWrite (a : Nat) (bytes : List Byte) (s : State) : Host.Outcome State Fault Refusal :=
  if isBusy s && cmdInPresent s.launch.cmd && inputMeets s a bytes.length then .refused .inputModified
  else if touchesOutput a bytes.length s then .refused .outputTouched
  else if admitsRange s.cfg a bytes.length then .next (setBytes a bytes s)
  else .fault .accessNotAdmitted

/-- The `n` bytes from `a`. -/
def bytesAt (s : State) (a n : Nat) : List Byte := (List.range n).map fun k => byteAt s (a + k)

/-- A host read of memory: of the output region while BUSY, refused (93_implementation_defined section 2, 92_eei_decisions D38;
notes/assumptions/8.md). Of the input region while BUSY it returns the bytes (notes/assumptions/31.md, DEDUCED). -/
def hostMemRead (a n : Nat) (s : State) : Host.Outcome State Fault Refusal :=
  if touchesOutput a n s then .refused .outputTouched
  else if admitsRange s.cfg a n then .next { s with hostData := bytesAt s a n }
  else .fault .accessNotAdmitted

/-! ### Accesses by host address (20_memory R66) -/

/-- The access reaches the CSR block. -/
def busIsCsr (addr : Word) (n : Nat) (s : State) : Bool := regionMeets (csrBlock s.cfg) addr.toNat n

/-- The CSR offset of a host address; none when the access is not a naturally aligned one that lies in the block (10_state
R43; notes/assumptions/26.md). -/
def busOffset (addr : Word) (s : State) : Option (BitVec 8) :=
  if s.cfg.engineBase.toNat ≤ addr.toNat ∧ addr.toNat < s.cfg.engineBase.toNat + Config.csrBlockSize ∧ addr.toNat % 4 = 0
  then some (BitVec.ofNat 8 (addr.toNat - s.cfg.engineBase.toNat))
  else none

/-- What a bus access comes to. -/
inductive BusTarget where
  /-- A CSR, at this offset. -/
  | csr (offset : BitVec 8)
  /-- The CSR block, by an access it does not take. -/
  | badCsr
  /-- Memory. -/
  | memory
deriving DecidableEq, Repr

def busTarget (addr : Word) (n : Nat) (s : State) : BusTarget :=
  if busIsCsr addr n s then
    match busOffset addr s with
    | some o => .csr o
    | none => .badCsr
  else .memory

/-! ### Reset -/

/-- The output size the running command has derived; none before it derives one (70_reset R341). -/
def sizeKnown (s : State) : Option Nat :=
  match s.stage with
  | .start | .genHeader | .genSize | .texMagic | .texTag | .texDims => none
  | _ => some (derivedSize s)

/-- How many output bytes a reset leaves with any value (70_reset R341): none while IDLE; while BUSY the derived size, or
everything from OUT_BASE up. -/
def resetFreeSize (s : State) : Nat :=
  if isBusy s then
    let inMemory := Config.addressSpace - s.launch.outBase.toNat
    match sizeKnown s with
    | none => inMemory
    | some n => min n inMemory
  else 0

/-- The ranges of memory a reset leaves with any value: those output bytes, outside the input region, which "is never written,
so it is unchanged" (70_reset R341). -/
def resetPieces (s : State) : List FreeRegion :=
  let whole : FreeRegion := { base := outputAddr s 0, size := resetFreeSize s, draw := 0 }
  if cmdInPresent s.launch.cmd then (inputRegions s).foldl (fun rs i => freeWithout rs i.base i.size) [whole] else [whole]

/-- Reset (70_reset R340, 10_state R47): the reset state, with the configuration, memory (R341) and the host's own schedule
kept. -/
def resetEngine (s : State) : State :=
  let t := freePieces (resetPieces s) s
  { State.reset with
    cfg := s.cfg, mem := t.mem, free := t.free, moves := s.moves, hostData := s.hostData, freeCount := t.freeCount }

end Sys2Proof.Machine
end

