-- ==== Sys2Proof/Machine/Fetch.lean ====
section
/-! DEFINITION. Which instruction the machine runs next. The engine has no program counter (10_state R22): the next
instruction is a CMD write of the host, or the item the engine's stage reads at the bit cursor (30_encoding R80). A step that
runs no row of the opcode table is done here by a shared operation of Machine/Engine.lean or Machine/HostPort.lean. -/

namespace Sys2Proof.Machine

/-- What a step finds to do. -/
inductive Fetched where
  /-- Run this instruction in this state, the item already read. -/
  | instr (i : Instr) (s : State)
  /-- The step is done. -/
  | act (o : Host.Outcome State Fault Refusal)
deriving Repr

/-- Run the instruction of an item. -/
def fetchCode (c : Code) (s : State) : Fetched :=
  match decode s.cfg c with
  | .ok i => .instr i s
  | .error _ => .act (.refused .notATreeValue)

/-- Run the instruction of an item read from the stream; an error of the read ends the command. -/
def fetchRead (r : Res Code) : Fetched :=
  match r with
  | .ok c s => fetchCode c s
  | .raise e s => .act (.next (raiseError e s))
  | .fault f => .act (.fault f)
  | .refuse f => .act (.refused f)

/-- A row of the compression-flags word if the word selects it, else another step (43_texture R227, R228). -/
def fetchFlags (row : FlagRow) (other : Res Unit) (s : State) : Fetched :=
  match decode s.cfg (.cflags row s.tex.cflags) with
  | .ok i => .instr i s
  | .error _ => .act other.finish

/-- The engine's turn. IDLE waits (70_reset R342). -/
def engineFetch (s : State) : Fetched :=
  if isBusy s then
    match s.stage with
    | .start => .act (startCommand s).finish
    | .genHeader => .act (genHeader s).finish
    | .genSize => .act (genSize s).finish
    | .genAddend => .act (genAddend s).finish
    | .genLoop => .act (genLoop s).finish
    | .treeCount t => .act (treeCount t s).finish
    | .treeLoop t =>
      if s.hdr.rem = 0 then .act (treeBuild t s).finish
      else fetchRead ((readCode s.dictG s).bind fun v s => .ok (.hdr v) s)
    | .maxCount => .act (readMaxCount s).finish
    | .symLoop =>
      if codeDue s then fetchRead ((readCode s.symT s).bind fun v s => .ok (.sym v) s)
      else .act (.next (goTo .genLoop s))
    | .copyCode => fetchRead ((readCode s.copyT s).bind fun v s => .ok (.off v) s)
    | .texMagic => .act (texMagic s).finish
    | .texTag => .act (texTag s).finish
    | .texDims => .act (texDims s).finish
    | .texBody => .act (texBody s).finish
    | .texFlags => .act (texFlags s).finish
    | .texClear => fetchFlags .unknown (texClear s) s
    | .pass p => fetchFlags (.pass p) (.ok () (goTo (afterPass p) s)) s
    | .runLoop p => if runDue s then fetchRead (readRun p s) else .act (.next (goTo (afterPass p) s))
    | .rewind => .act (.next (rewindStep s))
    | .alphaCopy i => .act (alphaCopyStep i s).finish
    | .colorCopy i => .act (colorCopyStep i s).finish
    | .texDone => .act (.next (complete s.tex.size s))
  else .act (.next s)

/-- The CSR offset of CMD (10_state R30). -/
def cmdOffset : BitVec 8 := 0x04

/-- A CSR write: of CMD, an instruction (44_host R270); of another register, done. -/
def fetchCsrWrite (offset : BitVec 8) (width : Nat) (v : Word) (s : State) : Fetched :=
  if offset = cmdOffset ∧ width = 4 then fetchCode (.cmd v) s else .act (hostCsrWrite offset width v s)

/-- The host's move. -/
def hostFetch (m : HostMove) (s : State) : Fetched :=
  match m with
  | .csrRead offset width => .act (hostCsrRead offset width s)
  | .csrWrite offset width v => fetchCsrWrite offset width v s
  | .busRead addr n =>
    match busTarget addr n s with
    | .csr offset => .act (hostCsrRead offset n s)
    | .badCsr => .act (.refused .csrAccessWidth)
    | .memory => .act (hostMemRead addr.toNat n s)
  | .busWrite addr bytes =>
    match busTarget addr bytes.length s with
    | .csr offset => fetchCsrWrite offset bytes.length (BitVec.ofNat 32 (leValue bytes)) s
    | .badCsr => .act (.refused .csrAccessWidth)
    | .memory => .act (hostMemWrite addr.toNat bytes s)
  | .reset => .act (.next (resetEngine s))

/-- The next thing to do: the next move of the schedule, and the engine's turn when there is none (notes/assumptions/1.md). -/
def fetch (s : State) : Fetched :=
  match s.moves with
  | [] => engineFetch s
  | .engine :: rest => engineFetch { s with moves := rest }
  | .host m :: rest => hostFetch m { s with moves := rest }

/-! ### Placing an instruction (notes/assumptions/14.md) -/

/-- The tree whose one code is `1`, for the symbol `v`. -/
def oneSymbolTree (v : Sym) : Tree := (build ([v] :: List.replicate 15 [])).getD Tree.blank

/-- A reader whose next bits are a 1 and then zeros: two words loaded, one bit consumed (10_state R23's invariant holds). -/
def oneBitReader : BitReader := { n := 2, w := 2, acc := 0x8000000000000000, bits := 63, c := 1 }

/-- The state in which the next step reads this item. -/
def placeItem (c : Code) (s : State) : State :=
  let t := { s with phase := .busy, br := oneBitReader, moves := .engine :: s.moves }
  match c with
  | .cmd w => { s with moves := .host (.csrWrite cmdOffset 4 w) :: s.moves }
  | .sym v =>
    { t with stage := .symLoop, symT := oneSymbolTree v
             gen := { s.gen with maxCount := s.gen.count + 1, outSize := s.gen.outPos + 1 } }
  | .off v => { t with stage := .copyCode, copyT := oneSymbolTree v }
  | .hdr v =>
    { t with stage := .treeLoop .sym, dictG := oneSymbolTree v
             hdr := { rem := Config.maxSymbols, lists := List.replicate 16 [] } }
  | .run p count _ => { t with stage := .runLoop p, dictT := oneSymbolTree count, tex := { s.tex with nb := s.tex.pos + 1 } }
  | .cflags row w =>
    { t with stage := match row with
                      | .pass p => .pass p
                      | .unknown => .texClear
             tex := { s.tex with cflags := w } }

end Sys2Proof.Machine
end

