-- ==== Sys2Proof/Machine/Step.lean ====
section
/-! DEFINITION. One step of the machine, and the placing of an instruction where the next step reads it. -/

namespace Sys2Proof.Machine

/-- One step: the next instruction is run, or the step that runs none is done (Machine/Fetch.lean). -/
def step (s : State) : Host.Outcome State Fault Refusal :=
  match fetch s with
  | .instr i t => exec i t
  | .act o => o

/-- `s` with the instruction of a bare table word placed where the next step reads it (notes/assumptions/13.md, 14.md). -/
def State.withFetchWord (s : State) (nbits w : Nat) : State := placeItem (tableCode nbits w) s

end Sys2Proof.Machine
end

