-- ==== Sys2Proof/Safety.lean ====
section
/-! DEFINITION. The terms the statements use: whose turn it is, when a field can be read, the invariants of the machine, and
the forms an instruction family has. -/

namespace Sys2Proof.Machine

/-! ### Whose turn it is (notes/assumptions/1.md) -/

/-- The state in which the engine moves, if the next move is the engine's. -/
def engineTurn (s : State) : Option State :=
  match s.moves with
  | [] => some s
  | .engine :: rest => some { s with moves := rest }
  | .host _ :: _ => none

/-- The host's next move and the state it is made in. -/
def hostTurn (s : State) : Option (HostMove × State) :=
  match s.moves with
  | .host m :: rest => some (m, { s with moves := rest })
  | _ => none

/-! ### When the reader has a field (40_bit_reader R121) -/

/-- `n` bits are buffered, or one more word can be loaded. -/
def canRead (n : Nat) (s : State) : Bool :=
  decide (n ≤ s.br.bits) ||
    (decide (s.br.w < s.br.n + s.cfg.tailZeroWords) && (decide (s.br.n ≤ s.br.w) || inputAdmitted s s.br.w))

/-- How many bits the stage's next field or code needs (42_generic R180, R190, R191; 43_texture R220, R225, R229; 41_huffman
R146: 32 for a code of a tree that is not empty). -/
def fieldDue (s : State) : Option Nat :=
  let code (due : Bool) (t : Tree) : Option Nat := if due && !t.empty then some 32 else none
  match s.stage with
  | .genHeader | .genSize | .texMagic | .texTag | .texBody | .texFlags => some 32
  | .treeCount _ | .texDims => some 16
  | .genAddend => some (if s.cfg.addendPrefixSkip = 0 then 4 else s.cfg.addendPrefixSkip)
  | .maxCount => some 4
  | .treeLoop _ => code (decide (s.hdr.rem ≠ 0)) s.dictG
  | .symLoop => code (codeDue s) s.symT
  | .copyCode => code true s.copyT
  | .runLoop _ => code (runDue s) s.dictT
  | _ => none

/-- `n` bits are not buffered, and the refill cannot load a word: the input has ended, or memory does not admit the word
(40_bit_reader R121, 20_memory R65). `out` is what the step comes to. -/
def ReadStops (n : Nat) (s : State) (out : Host.Outcome State Fault Refusal) : Prop :=
  s.br.bits < n ∧
    ((s.br.n + s.cfg.tailZeroWords ≤ s.br.w ∧ out = .next (raiseError .truncatedInput s)) ∨
      (s.br.w < s.br.n ∧ inputAdmitted s s.br.w = false ∧ out = .fault .accessNotAdmitted))

/-- Bit `i` of the compressed stream: bit 31 of word 0 first (20_memory R68). -/
def streamBit (s : State) (i : Nat) : Bool := (inputWordValue s (i / 32)).testBit (31 - i % 32)

/-- The lookahead holds the next bits of the stream. -/
def LookaheadInv (s : State) : Prop := ∀ j, j < s.br.bits → s.br.acc.getMsbD j = streamBit s (s.br.c + j)

/-! ### Invariants -/

/-- Two free regions have no byte in common. -/
def freeApart (a b : FreeRegion) : Bool := decide (a.base + a.size ≤ b.base) || decide (b.base + b.size ≤ a.base)

/-- The free regions are not empty and have no byte in common. -/
def freeWf : List FreeRegion → Bool
  | [] => true
  | r :: rs => decide (0 < r.size) && rs.all (freeApart r) && freeWf rs

/-- The canonical form of memory: the cells' own (State.lean), the free regions', and no cell in a free region. -/
def memCanonical (s : State) : Bool :=
  s.mem.wf && freeWf s.free && s.mem.all fun c => s.free.all fun r => !r.contains c.1

/-- The reader's invariant (10_state R23, 40_bit_reader R126, R127), and the width of the skipped field (R132). -/
structure ReaderInv (s : State) : Prop where
  bits_le : s.br.bits ≤ 63
  count : 32 * s.br.w = s.br.c + s.br.bits
  words : s.br.w ≤ s.br.n + s.cfg.tailZeroWords
  low_zero : s.br.acc.toNat % 2 ^ (64 - s.br.bits) = 0
  prefix_le : s.cfg.addendPrefixSkip ≤ 32

/-- STATUS and the result registers (10_state R32, 70_reset R354). -/
structure StatusInv (s : State) : Prop where
  not_both : ¬(s.csr.done = true ∧ s.csr.error = true)
  code_zero : s.csr.error = false → s.csr.errCode = 0
  busy_clear : s.phase = .busy → s.csr.done = false ∧ s.csr.error = false ∧ s.csr.resultSize = 0 ∧
    s.csr.errWord = 0 ∧ s.csr.errOutpos = 0
  idle_start : s.phase = .idle → s.stage = .start

/-- The dictionaries are what their build gives (41_huffman R153, 10_state R45). -/
structure DictInv (s : State) : Prop where
  generic : s.dictReadyG = true → s.dictG = (build s.cfg.dictGeneric).getD Tree.blank
  texture : s.dictReadyT = true → s.dictT = (build s.cfg.dictTexture).getD Tree.blank

/-- The stages of a generic command after its start. -/
def Stage.isGeneric : Stage → Bool
  | .genHeader | .genSize | .genAddend | .genLoop | .treeCount _ | .treeLoop _ | .maxCount | .symLoop | .copyCode => true
  | _ => false

/-- The stages of a texture command whose sizes are derived (after 43_texture R222, R223). -/
def Stage.isSized : Stage → Bool
  | .texBody | .texFlags | .texClear | .pass _ | .runLoop _ | .rewind | .alphaCopy _ | .colorCopy _ | .texDone => true
  | _ => false

/-- The stages of a texture command with bitmaps (after 43_texture R226). -/
def Stage.isMapped : Stage → Bool
  | .pass _ | .runLoop _ | .rewind | .alphaCopy _ | .colorCopy _ | .texDone => true
  | _ => false

/-- The stages of a texture command after its start. -/
def Stage.isTexture (st : Stage) : Bool := decide (st = .texMagic) || decide (st = .texTag) || decide (st = .texDims) || st.isSized

/-- The geometry of a pixel block leaves room for every write (43_texture R222, R240, R242). -/
structure Geometry (s : State) : Prop where
  size_eq : s.tex.size = s.tex.nb * s.tex.bpb
  block : 8 ≤ s.tex.bpb
  dual : s.tex.fmt.dualBlock = true → 16 ≤ s.tex.bpb
  comp : s.tex.bpc ≤ 8

/-- What a command's registers satisfy at each stage. -/
structure CommandInv (s : State) : Prop where
  generic : s.stage.isGeneric = true → isTexture s = false
  texture : s.stage.isTexture = true → isTexture s = true
  format : s.stage = .texDims → formatWf s.tex.fmt = true ∧ s.tex.fmt.unsupported = false
  sized : s.stage.isSized = true → Geometry s ∧ s.tex.size < Config.addressSpace ∧ s.tex.bpb = bytesPerBlock s.tex.fmt
  mapped : s.stage.isMapped = true → s.tex.colorMap.length = s.tex.nb ∧ s.tex.alphaMap.length = s.tex.nb

/-- The bytes of its output region that belong to a running command, from OUT_BASE up (20_memory R63, R78): OUT_CAP when
OUT_PRESENT = 1, else the size it derives. -/
def ownedSize (s : State) : Option Nat := if s.launch.cmd.getLsbD 9 then some s.launch.outCap.toNat else launchSize s

/-! ### The forms of an instruction family -/

/-- LEN_Q0 to LEN_Q6. -/
def lenInstr (q : Nat) (r : BitVec 2) : Instr :=
  match q with
  | 0 => .lenQ0 r
  | 1 => .lenQ1 r
  | 2 => .lenQ2 r
  | 3 => .lenQ3 r
  | 4 => .lenQ4 r
  | 5 => .lenQ5 r
  | _ => .lenQ6 r

/-- OFF_Q0 to OFF_Q16. -/
def offInstr (q : Nat) (r : BitVec 1) : Instr :=
  match q with
  | 0 => .offQ0 r
  | 1 => .offQ1 r
  | 2 => .offQ2 r
  | 3 => .offQ3 r
  | 4 => .offQ4 r
  | 5 => .offQ5 r
  | 6 => .offQ6 r
  | 7 => .offQ7 r
  | 8 => .offQ8 r
  | 9 => .offQ9 r
  | 10 => .offQ10 r
  | 11 => .offQ11 r
  | 12 => .offQ12 r
  | 13 => .offQ13 r
  | 14 => .offQ14 r
  | 15 => .offQ15 r
  | _ => .offQ16 r

/-- The code length and the repeat count of an HDR_SKIP or HDR_ASSIGN row (30_encoding R84). -/
def headerRunOf : Instr → Option (Nat × Nat)
  | .hdrSkip rep => some (0, rep.toNat + 1)
  | .hdrAssign1 rep => some (1, rep.toNat + 1)
  | .hdrAssign2to3 len rep => some (len.toNat, rep.toNat + 1)
  | .hdrAssign4to7 len rep => some (len.toNat, rep.toNat + 1)
  | .hdrAssign8to15 len rep => some (len.toNat, rep.toNat + 1)
  | .hdrAssign16 rep => some (16, rep.toNat + 1)
  | _ => none

/-- The rows whose own effect is to raise an error, with the error. -/
def raisesOf : Instr → Option ErrKind
  | .lenInvalid => some .invalidLengthCode
  | .symNone286to287 _ | .symNone288to319 _ | .symNone320to383 _ | .symNone384to511 _ => some .invalidLengthCode
  | .offInvalid34to35 _ | .offInvalid36to39 _ | .offInvalid40to47 _ | .offInvalid48to63 _ => some .invalidOffsetCode
  | .offInvalid64to127 _ | .offInvalid128to255 _ | .offInvalid256to511 _ => some .invalidOffsetCode
  | .hdrBadlen17 _ | .hdrBadlen18to19 _ _ | .hdrBadlen20to23 _ _ | .hdrBadlen24to31 _ _ => some .invalidTree
  | .runCountZero => some .invalidBackReference
  | _ => none

/-- The reserved commands (30_encoding R95), with the word written. -/
def reservedOf : Instr → Option Word
  | .cmdReserved3 args => some (cmdWord 3 args)
  | .cmdReserved4to7 op args => some (cmdWord op args)
  | .cmdReserved8to15 op args => some (cmdWord op args)
  | _ => none

/-- The positions of `pos .. nb-1` still absent in a bitmap, in order (43_texture R229). -/
def absentFrom (map : List Bool) (pos nb : Nat) : List Nat :=
  (List.range' pos (nb - pos)).filter fun i => !present map i

/-- The positions a run of `count` covers. -/
def covered (map : List Bool) (pos nb count : Nat) : List Nat := (absentFrom map pos nb).take count

/-- Where a run of `count` leaves `tex.pos`: the next absent position, or the end. -/
def posAfter (map : List Bool) (pos nb count : Nat) : Nat := ((absentFrom map pos nb)[count]?).getD nb

/-- The `n` output bytes from the first are bytes of memory (20_memory R65, 70_reset R344). -/
def OutputAdmitted (n : Nat) (s : State) : Prop := ∀ p, p < n → admits s.cfg (outputAddr s p) = true

/-- What a run, a pass or a literal copy needs of a texture command's registers. -/
structure TextureReady (s : State) : Prop where
  geometry : Geometry s
  colorLength : s.tex.colorMap.length = s.tex.nb
  alphaLength : s.tex.alphaMap.length = s.tex.nb
  pos_le : s.tex.pos ≤ s.tex.nb
  admitted : OutputAdmitted s.tex.size s
  canonical : memCanonical s = true

/-- From `s` to `t`, the 8-byte component `v` was written at byte `off` of these pixel blocks, little-endian (20_memory R69),
and no other byte of memory changed. -/
structure WroteBlocks (s t : State) (blocks : List Nat) (off : Nat) (v : Component) : Prop where
  inside : ∀ i, i ∈ blocks → ∀ k, k < 8 → byteAt t (blockAddr i off s + k) = BitVec.ofNat 8 (v.toNat / 256 ^ k)
  outside : ∀ a, (∀ i, i ∈ blocks → ∀ k, k < 8 → a ≠ blockAddr i off s + k) → byteAt t a = byteAt s a

/-- `after` is the bitmap `before` with these positions marked. -/
def Marked (before after : List Bool) (blocks : List Nat) : Prop :=
  after.length = before.length ∧ ∀ i, present after i = (present before i || decide (i ∈ blocks))

/-- The number whose bits are the `n` stream bits from bit `i`, the first most significant (20_memory R68). -/
def streamField (s : State) (i : Nat) : Nat → Nat
  | 0 => 0
  | n + 1 => 2 * streamField s i n + (if streamBit s (i + n) then 1 else 0)

/-- The counter of the code assignment at the start of length `len` (41_huffman R142, R150), for the lists of the lengths
from 1. -/
def counterFrom : Nat → List (List Sym) → Int → Int
  | 0, _, c => c
  | _ + 1, [], c => c
  | n + 1, l :: ls, c => counterFrom n ls (2 * (c - l.length) + 1)

/-- c_L of 41_huffman R150. -/
def startCounter (lists : List (List Sym)) (len : Nat) : Int := counterFrom (len - 1) lists 1

end Sys2Proof.Machine
end

