-- ==== Sys2Proof/Certificates/Slice0/Obligations.lean ====
section
/-! DEFINITION. The statements for the provers, one for each entry of OBLIGATIONS.json. A step of the engine is stated of
`step`, in a state whose next move is the engine's (`engineTurn`), an instruction of `exec`. -/

open Sys2Proof Sys2Proof.Machine

/-! ### Encodings (30_encoding) -/

/-- 30_encoding R84, R85, R86, R90, R92; 43_texture R227, R228: every well-formed instruction, of every row of the table, with
every operand its encoding admits, is decoded from its encoding. -/
def Obligations.DecodeEncodeAgree : Prop :=
  ∀ (cfg : Config) (i : Instr), i.wf cfg = true → decode cfg (encode i) = .ok i

/-- What the decoder answers is well formed, and encodes to the item it was read from; a run record encodes to the same count
and flag bits, in a pass that has this row (30_encoding R90). A symbol or copy tree gives every value below 512 an instruction
and no other (R85, R86, R94); every header value and every CMD word has one (R84, R92). A run record has one exactly when it is
a zero count with no flag bit, or a count with `p = 0`, with `p = 1` outside the alpha pass, or with `p = 1` and `s` in it; which
one is said row by row (R90). The compression flags have the row of a pass whose mask they meet, and CFLAGS_UNKNOWN when they
have a bit outside the masks (43_texture R227, R228). -/
def Obligations.DecodedItemsAreWellFormed : Prop :=
  ∀ (cfg : Config),
    (∀ (c : Code) (i : Instr), decode cfg c = .ok i →
      i.wf cfg = true ∧
        ((∀ p count flags, c ≠ .run p count flags) → encode i = c) ∧
        (∀ p count flags, c = .run p count flags → ∃ q, encode i = .run q count flags)) ∧
    (∀ v : Sym, (∃ i, decode cfg (.sym v) = .ok i) ↔ v.toNat < 512) ∧
    (∀ v : Sym, (∃ i, decode cfg (.off v) = .ok i) ↔ v.toNat < 512) ∧
    (∀ v : Sym, ∃ i, decode cfg (.hdr v) = .ok i) ∧
    (∀ w : Word, ∃ i, decode cfg (.cmd w) = .ok i) ∧
    (∀ (p : Pass) (count : Sym) (flags : List Bool), (∃ i, decode cfg (.run p count flags) = .ok i) ↔
      (count = 0 ∧ flags = []) ∨
        (count ≠ 0 ∧ (flags = [false] ∨ (p ≠ .alpha ∧ flags = [true]) ∨ (p = .alpha ∧ ∃ b, flags = [true, b])))) ∧
    (∀ (p : Pass) (count : Sym), decode cfg (.run p 0 []) = .ok .runCountZero ∧
      (count ≠ 0 →
        decode cfg (.run p count [false]) = .ok (if p = .alpha then .runAlphaAbsent count else .runAbsent count) ∧
        decode cfg (.run .altColor count [true]) = .ok (.runAltPresent count) ∧
        decode cfg (.run .color count [true]) = .ok (.runColorPresent count) ∧
        decode cfg (.run .alpha count [true, false]) = .ok (.runAlphaZero count) ∧
        decode cfg (.run .alpha count [true, true]) = .ok (.runAlphaFill count))) ∧
    (∀ (p : Pass) (w : Word) (i : Instr),
      decode cfg (.cflags (.pass p) w) = .ok i ↔ w &&& cfg.passMask p ≠ 0 ∧ i = passInstr p w) ∧
    (∀ (w : Word) (i : Instr), decode cfg (.cflags .unknown w) = .ok i ↔
      w &&& ~~~(cfg.cfAltColor ||| cfg.cfAlpha ||| cfg.cfColor) ≠ 0 ∧ i = .cflagsUnknown w)

/-- Words written out from the spec's encodings decode to the instructions they stand for. -/
def Obligations.DecodesSpecWords : Prop :=
  ∀ (cfg : Config),
    decode cfg (.cmd 0x00000301) = .ok (.cmdDecodeGeneric 0x30) ∧
    decode cfg (.cmd 0x00000102) = .ok (.cmdDecodeTexture 0x10) ∧
    decode cfg (.cmd 0x0000000F) = .ok (.cmdReserved8to15 15 0) ∧
    decode cfg (.sym 0x0041) = .ok (.lit 0x41) ∧
    decode cfg (.sym 265) = .ok (.lenQ2 1) ∧
    decode cfg (.sym 284) = .ok .lenEsc ∧
    decode cfg (.off 4) = .ok (.offQ2 0) ∧
    decode cfg (.off 33) = .ok (.offQ16 1) ∧
    decode cfg (.hdr 0x0021) = .ok (.hdrAssign1 1) ∧
    decode cfg (.hdr 0x0040) = .ok (.hdrSkip 2) ∧
    decode cfg (.hdr 0x0011) = .ok (.hdrBadlen17 0) ∧
    decode cfg (.run .alpha 3 [true, false]) = .ok (.runAlphaZero 3) ∧
    decode cfg (.run .color 1 [true]) = .ok (.runColorPresent 1) ∧
    (0x00000002 &&& cfg.cfAlpha ≠ 0 → decode cfg (.cflags (.pass .alpha) 0x00000002) = .ok (.passAlpha 0x00000002))

/-- When the next move is a CMD write, or the engine's stage reads an item at the bit cursor, and the item decodes to `i`, the
step is `exec i`, in the state in which the item has been read. A run record is a code of the texture dictionary, its count, and
then, unless the count is 0, the bit `p`, and in the alpha pass with `p = 1` the bit `s` (30_encoding R90, 43_texture R229). -/
def Obligations.StepRunsTheDecodedInstruction : Prop :=
  (∀ (s t : State) (w : Word) (i : Instr), hostTurn s = some (.csrWrite 0x04 4 w, t) → decode t.cfg (.cmd w) = .ok i →
    step s = exec i t) ∧
  (∀ (s t : State) (addr : Word) (bytes : List Byte) (i : Instr), hostTurn s = some (.busWrite addr bytes, t) →
    bytes.length = 4 → busTarget addr 4 t = .csr 0x04 → decode t.cfg (.cmd (BitVec.ofNat 32 (leValue bytes))) = .ok i →
    step s = exec i t) ∧
  (∀ (s t u : State) (v : Sym) (i : Instr), engineTurn s = some t → t.phase = .busy →
    ((t.stage = .symLoop ∧ t.gen.count < t.gen.maxCount ∧ t.gen.outPos < t.gen.outSize ∧
        readCode t.symT t = .ok v u ∧ decode u.cfg (.sym v) = .ok i) ∨
      (t.stage = .copyCode ∧ readCode t.copyT t = .ok v u ∧ decode u.cfg (.off v) = .ok i) ∨
      ((∃ sel, t.stage = .treeLoop sel) ∧ t.hdr.rem ≠ 0 ∧ readCode t.dictG t = .ok v u ∧ decode u.cfg (.hdr v) = .ok i)) →
    step s = exec i u) ∧
  (∀ (s t u : State) (p : Pass) (count : Sym), engineTurn s = some t → t.phase = .busy → t.stage = .runLoop p →
    t.tex.pos < t.tex.nb → readCode t.dictT t = .ok count u →
    (∀ i, count = 0 → decode u.cfg (.run p 0 []) = .ok i → step s = exec i u) ∧
    (∀ (pBit : Nat) (w : State), count ≠ 0 → readBits 1 u = .ok pBit w →
      (∀ i, ¬(p = .alpha ∧ pBit = 1) → decode w.cfg (.run p count [decide (pBit = 1)]) = .ok i → step s = exec i w) ∧
      (∀ (i : Instr) (sBit : Nat) (x : State), p = .alpha → pBit = 1 → readBits 1 w = .ok sBit x →
        decode x.cfg (.run p count [true, decide (sBit = 1)]) = .ok i → step s = exec i x))) ∧
  (∀ (s t : State) (p : Pass) (i : Instr), engineTurn s = some t → t.phase = .busy → t.stage = .pass p →
    decode t.cfg (.cflags (.pass p) t.tex.cflags) = .ok i → step s = exec i t) ∧
  (∀ (s t : State) (i : Instr), engineTurn s = some t → t.phase = .busy → t.stage = .texClear →
    decode t.cfg (.cflags .unknown t.tex.cflags) = .ok i → step s = exec i t)

/-! ### Reset (10_state R47, 70_reset) -/

/-- 70_reset R340: what reset leaves, and that reset alone clears a `dictReady` flag. -/
def Obligations.ResetStateAndFlags : Prop :=
  (∀ (s t : State), hostTurn s = some (.reset, t) →
    ∃ u, step s = .next u ∧ u.phase = .idle ∧ csrValue 0x00 u = s.cfg.engineId ∧
      (∀ offset : Nat, offset ≠ 0 → csrValue offset u = 0) ∧
      u.dictReadyG = false ∧ u.dictReadyT = false ∧ irqLine u = false ∧ u.cfg = s.cfg ∧
      (s.phase = .idle → ∀ a, byteAt u a = byteAt s a)) ∧
  (∀ (s u : State), step s = .next u →
    ((s.dictReadyG = true ∧ u.dictReadyG = false) ∨ (s.dictReadyT = true ∧ u.dictReadyT = false)) →
    ∃ t, hostTurn s = some (.reset, t))

/-- 70_reset R341: a reset while BUSY reports neither DONE nor ERROR. The bytes the command could write, `[OUT_BASE, OUT_BASE +
size)` once a size is derived and everything from OUT_BASE up before, hold free values; the input region and every other byte
are unchanged. That an input byte among the output bytes is unchanged rather than free, and that addresses end at 2^32, are the
model's (notes/assumptions/27.md, 5.md), and so is the form of a free value, a new draw for each range (7.md). -/
def Obligations.ResetWhileBusy : Prop :=
  ∀ (s t : State), hostTurn s = some (.reset, t) → s.phase = .busy →
    let size := if cmdOp s.launch.cmd = 2 then s.tex.size else s.gen.outSize
    let top := if s.stage ∈ [.start, .genHeader, .genSize, .texMagic, .texTag, .texDims] then 4294967296
      else min 4294967296 (s.launch.outBase.toNat + size)
    let isInput : Nat → Prop := fun a => s.launch.cmd.getLsbD 8 = true ∧
      ∃ j, j < s.launch.inLen.toNat ∧ (s.launch.inBase.toNat + j) % 4294967296 = a
    ∃ u, step s = .next u ∧ u.csr.done = false ∧ u.csr.error = false ∧
      ∀ a,
        (a < s.launch.outBase.toNat ∨ top ≤ a ∨ isInput a → byteAt u a = byteAt s a) ∧
        (s.launch.outBase.toNat ≤ a → a < top → ¬isInput a →
          ∃ draw, s.freeCount ≤ draw ∧ byteAt u a = Config.freeByte draw a)

/-- The machine right after reset satisfies every invariant stated below; it is IDLE with no dictionary built, and the engine
waits in IDLE: its turn changes nothing (70_reset R342). 10_state R47 leaves the reader, the header and the decoders' registers
unspecified: that ReaderInv, CommandInv and the stage clause of StatusInv hold rests on the zeros and the stage `start` the model
gives them (notes/assumptions/6.md, a design choice). -/
def Obligations.ResetMeetsTheInvariants : Prop :=
  memCanonical State.reset = true ∧ State.reset.mem.wf = true ∧ ReaderInv State.reset ∧ StatusInv State.reset ∧
    DictInv State.reset ∧ CommandInv State.reset ∧ State.reset.phase = .idle ∧ dictStatusWord State.reset = 0 ∧
    ∀ (s t : State), engineTurn s = some t → t.phase = .idle → step s = .next t

/-! ### The host's commands (44_host) -/

/-- 44_host R270, R271, 10_state R27, R31: CMD_NONE stores its word and changes nothing else; CMD_DECODE_GENERIC and
CMD_DECODE_TEXTURE, under a well-formed configuration, latch the argument registers, clear the results and set BUSY. A launch
re-initialises the reader, the header and the working registers (10_state R46); nothing else changes. That the words loaded, the
output position and the block position are 0 from the launch on, so that an error raised before the reader and the sizes exist
reports 0 (60_exceptions R301), is the model's way of doing so (notes/assumptions/19.md). -/
def Obligations.CommandsWhileIdle : Prop :=
  (∀ (args : BitVec 28) (s : State), s.phase = .idle →
    exec (.cmdNone args) s = .next { s with csr := { s.csr with cmd := args ++ (0 : BitVec 4) } }) ∧
  ∀ (i : Instr) (w : Word) (s : State), s.phase = .idle → configWf s.cfg = true →
    ((∃ args, i = .cmdDecodeGeneric args ∧ w = args ++ (1 : BitVec 4)) ∨
      (∃ args, i = .cmdDecodeTexture args ∧ w = args ++ (2 : BitVec 4))) →
    ∃ t, exec i s = .next t ∧
      t = { s with
        launch := { cmd := w, inBase := s.csr.inBase, inLen := s.csr.inLen, outBase := s.csr.outBase, outCap := s.csr.outCap }
        csr := { s.csr with
          cmd := w, done := false, error := false, errCode := 0, resultSize := 0, errWord := 0, errOutpos := 0 }
        phase := .busy, stage := .start, br := t.br, hdr := t.hdr, gen := t.gen, tex := t.tex } ∧
      t.br.w = 0 ∧ t.gen.outPos = 0 ∧ t.tex.pos = 0 ∧ statusWord t = 1

/-- 30_encoding R95: a reserved command, under a well-formed configuration (`CommandStartChecks` says what an ill-formed one
comes to, notes/assumptions/12.md). -/
def Obligations.ReservedCommandReportsIllegalCommand : Prop :=
  (∀ (cfg : Config) (w : Word), 3 ≤ cmdOp w → ∃ i, decode cfg (.cmd w) = .ok i ∧ reservedOf i = some w) ∧
  ∀ (i : Instr) (w : Word) (s : State), reservedOf i = some w → s.phase = .idle → configWf s.cfg = true →
    exec i s = .next { s with csr := { s.csr with
      cmd := w, done := false, resultSize := 0, errWord := 0, errOutpos := 0, error := true, errCode := 13 } }

/-- 44_host R277: writes while BUSY: CMD and STATUS ignore them. IRQ_EN and the argument registers store them, in either phase
(10_state R33 to R37). -/
def Obligations.WritesWhileBusy : Prop :=
  (∀ (cfg : Config) (w : Word) (i : Instr) (s : State), s.phase = .busy → decode cfg (.cmd w) = .ok i → exec i s = .next s) ∧
  ∀ (s t : State) (offset : BitVec 8) (x : Word), hostTurn s = some (.csrWrite offset 4 x, t) →
    (offset = 0x04 → t.phase = .busy → step s = .next t) ∧
    (offset = 0x08 → t.phase = .busy → step s = .next t) ∧
    (offset = 0x0C → step s = .next { t with csr := { t.csr with doneIe := x.getLsbD 0, errIe := x.getLsbD 1 } }) ∧
    (offset = 0x10 → step s = .next { t with csr := { t.csr with inBase := x } }) ∧
    (offset = 0x14 → step s = .next { t with csr := { t.csr with inLen := x } }) ∧
    (offset = 0x18 → step s = .next { t with csr := { t.csr with outBase := x } }) ∧
    (offset = 0x1C → step s = .next { t with csr := { t.csr with outCap := x } })

/-- 44_host R276: STATUS is write-one-to-clear while IDLE, and drops its part of the interrupt line. -/
def Obligations.StatusWriteOneToClear : Prop :=
  ∀ (s t : State) (x : Word), hostTurn s = some (.csrWrite 0x08 4 x, t) → t.phase = .idle →
    ∃ u, step s = .next u ∧
      u = { t with csr := { t.csr with done := u.csr.done, error := u.csr.error, errCode := u.csr.errCode } } ∧
      (x.getLsbD 1 = true → u.csr.done = false) ∧ (x.getLsbD 1 = false → u.csr.done = t.csr.done) ∧
      (x.getLsbD 2 = true → u.csr.error = false ∧ u.csr.errCode = 0) ∧
      (x.getLsbD 2 = false → u.csr.error = t.csr.error ∧ u.csr.errCode = t.csr.errCode) ∧
      (x.getLsbD 1 = true → x.getLsbD 2 = true → irqLine u = false)

/-- 10_state R43: how the CSR block is accessed, by offset and by host address (20_memory R66). An aligned 4-byte write by host
address does what the write by offset does. -/
def Obligations.CsrAccessRules : Prop :=
  (∀ (s t : State) (offset : BitVec 8) (n : Nat), hostTurn s = some (.csrRead offset n, t) →
    (n = 4 ∧ offset.toNat % 4 = 0 → step s = .next { t with hostData := leBytes 4 (csrValue offset.toNat t).toNat }) ∧
    (¬(n = 4 ∧ offset.toNat % 4 = 0) → step s = .refused .csrAccessWidth)) ∧
  (∀ (s t : State) (offset : BitVec 8) (n : Nat) (x : Word), hostTurn s = some (.csrWrite offset n x, t) →
    (¬(n = 4 ∧ offset.toNat % 4 = 0) → step s = .refused .csrAccessWidth) ∧
    (n = 4 ∧ offset.toNat % 4 = 0 → 0x30 ≤ offset.toNat → step s = .next t ∧ csrValue offset.toNat t = 0) ∧
    (n = 4 → offset = 0x00 ∨ offset = 0x20 ∨ offset = 0x24 ∨ offset = 0x28 ∨ offset = 0x2C → step s = .next t)) ∧
  (∀ (s t : State) (addr : Word) (bytes : List Byte), hostTurn s = some (.busWrite addr bytes, t) →
    t.cfg.engineBase.toNat ≤ addr.toNat → addr.toNat < t.cfg.engineBase.toNat + 256 → 0 < bytes.length →
    ¬(bytes.length = 4 ∧ addr.toNat % 4 = 0) → step s = .refused .csrAccessWidth) ∧
  (∀ (s s' t : State) (addr : Word) (bytes : List Byte), hostTurn s = some (.busWrite addr bytes, t) →
    t.cfg.engineBase.toNat ≤ addr.toNat → addr.toNat < t.cfg.engineBase.toNat + 256 → bytes.length = 4 → addr.toNat % 4 = 0 →
    hostTurn s' =
      some (.csrWrite (BitVec.ofNat 8 (addr.toNat - t.cfg.engineBase.toNat)) 4 (BitVec.ofNat 32 (leValue bytes)), t) →
    step s = step s') ∧
  (∀ (s t : State) (addr : Word) (n : Nat), hostTurn s = some (.busRead addr n, t) →
    t.cfg.engineBase.toNat ≤ addr.toNat → addr.toNat < t.cfg.engineBase.toNat + 256 → 0 < n →
    (n = 4 ∧ addr.toNat % 4 = 0 ∧ t.cfg.engineBase.toNat % 4 = 0 →
      step s = .next { t with hostData := leBytes 4 (csrValue (addr.toNat - t.cfg.engineBase.toNat) t).toNat }) ∧
    (¬(n = 4 ∧ addr.toNat % 4 = 0) → step s = .refused .csrAccessWidth))

/-- 70_reset R354: what a CSR reads as while BUSY. -/
def Obligations.CsrReadsWhileBusy : Prop :=
  ∀ (s : State), StatusInv s → s.phase = .busy →
    csrValue 0x08 s = 1 ∧ csrValue 0x20 s = 0 ∧ csrValue 0x24 s = 0 ∧ csrValue 0x28 s = 0 ∧
    csrValue 0x2C s = (if s.dictReadyG then 1 else 0) + (if s.dictReadyT then 2 else 0) ∧
    csrValue 0x04 s = s.csr.cmd ∧ csrValue 0x10 s = s.csr.inBase ∧ csrValue 0x14 s = s.csr.inLen ∧
    csrValue 0x18 s = s.csr.outBase ∧ csrValue 0x1C s = s.csr.outCap ∧
    csrValue 0x0C s = (if s.csr.doneIe then 1 else 0) + (if s.csr.errIe then 2 else 0) ∧ csrValue 0x00 s = s.cfg.engineId

/-- 60_exceptions R306: the interrupt line is a function of the STATUS and IRQ_EN words a host reads. -/
def Obligations.InterruptLine : Prop :=
  ∀ (s : State), irqLine s =
    (((csrValue 0x08 s).getLsbD 1 && (csrValue 0x0C s).getLsbD 0) || ((csrValue 0x08 s).getLsbD 2 && (csrValue 0x0C s).getLsbD 1))

/-- What starts a command and its first step. An ill-formed configuration is refused before any command (41_huffman R154,
43_texture R240); that this is at the CMD write, for every OP but 0, is the model's reading (notes/assumptions/12.md). The first
step makes the argument checks (44_host R274), builds the dictionary (41_huffman R153) and creates the reader (40_bit_reader
R120); that an overlap (20_memory R79) is refused there, between the checks and the build, is the model's reading (11.md). -/
def Obligations.CommandStartChecks : Prop :=
  (∀ (i : Instr) (args : BitVec 28) (s : State), s.phase = .idle → configWf s.cfg = false →
    (i = .cmdDecodeGeneric args ∨ i = .cmdDecodeTexture args ∨ ∃ w, reservedOf i = some w) →
    exec i s = .refused .illFormedConfiguration) ∧
  ∀ (s t : State), engineTurn s = some t → t.phase = .busy → t.stage = .start →
    (t.launch.cmd.getLsbD 8 = false → step s = .next (raiseError .nullInput t)) ∧
    (t.launch.cmd.getLsbD 8 = true → t.launch.cmd.getLsbD 9 = true → t.launch.outCap = 0 →
      step s = .next (raiseError .inconsistentOutputArgs t)) ∧
    (t.launch.cmd.getLsbD 8 = true → (t.launch.cmd.getLsbD 9 = true → t.launch.outCap ≠ 0) →
      (regionsOverlap t = true → step s = .refused .regionOverlap) ∧
      (regionsOverlap t = false → cmdOp t.launch.cmd = 2 →
        step s = .next { t with
          dictT := if t.dictReadyT then t.dictT else (build t.cfg.dictTexture).getD Tree.blank
          dictReadyT := true
          br := { n := t.launch.inLen.toNat / 4, w := 0, acc := 0, bits := 0, c := 0 }
          stage := .texMagic }) ∧
      (regionsOverlap t = false → cmdOp t.launch.cmd ≠ 2 →
        step s = .next { t with
          dictG := if t.dictReadyG then t.dictG else (build t.cfg.dictGeneric).getD Tree.blank
          dictReadyG := true
          br := { n := t.launch.inLen.toNat / 4, w := 0, acc := 0, bits := 0, c := 0 }
          stage := .genHeader }))

/-- 20_memory R79, R61, R63: the overlap the launch refuses is a byte of the input region, wrapped mod 2^32, among the bytes
`[OUT_BASE, OUT_BASE + size)` the command may write, and with OUT_PRESENT = 1 among the OUT_CAP bytes of its region. `launchSize`
is the size the command's own header steps derive, be it then accepted or refused (42_generic R192, 43_texture R222, R223); a
command stuck at a header word that memory does not admit derives none (R65). That the size is taken at the launch is the
model's (notes/assumptions/11.md). -/
def Obligations.OverlapIsASharedByte : Prop :=
  (∀ (s : State), regionsOverlap s = true ↔
    ∃ size j p, launchSize s = some size ∧ j < s.launch.inLen.toNat ∧ p < size ∧
      (s.launch.cmd.getLsbD 9 = true → p < s.launch.outCap.toNat) ∧
      (s.launch.inBase.toNat + j) % 4294967296 = s.launch.outBase.toNat + p) ∧
  (∀ (s : State) (i : Nat), i ≤ (if cmdOp s.launch.cmd = 2 then 2 else 1) → i < s.launch.inLen.toNat / 4 →
    inputAdmitted s i = false → launchSize s = none) ∧
  ∀ (s u : State), s.moves = [] → s.phase = .busy → s.stage = .start →
    (cmdOp s.launch.cmd ≠ 2 → Host.Core.run Sys2Proof.core 3 s = .next u → u.stage = .genAddend →
      launchSize s = some u.gen.outSize) ∧
    (cmdOp s.launch.cmd = 2 → Host.Core.run Sys2Proof.core 4 s = .next u →
      (u.stage = .texBody ∨ u.csr.errCode = errCode .sizeOverflow ∨ u.csr.errCode = errCode .outputTooSmall) →
      launchSize s = some u.tex.size)

/-- 44_host R275, 10_state R38: completion, of a generic and of a texture command. -/
def Obligations.CommandCompletes : Prop :=
  ∀ (s t : State), engineTurn s = some t → t.phase = .busy →
    (t.stage = .genLoop → t.gen.outSize ≤ t.gen.outPos →
      step s = .next { t with
        phase := .idle, stage := .start
        csr := { t.csr with resultSize := BitVec.ofNat 32 t.gen.outSize, done := true } }) ∧
    (t.stage = .texDone →
      step s = .next { t with
        phase := .idle, stage := .start
        csr := { t.csr with resultSize := BitVec.ofNat 32 t.tex.size, done := true } })

/-! ### Errors (60_exceptions) -/

/-- 60_exceptions R300: the codes, and what STATUS reads after an error. -/
def Obligations.ErrorCodes : Prop :=
  [ErrKind.truncatedInput, .emptyTree, .tooManySymbols, .invalidLengthCode, .invalidOffsetCode, .unknownFormat, .nullInput,
    .inconsistentOutputArgs, .outputTooSmall, .invalidBackReference, .invalidCode, .invalidTree, .illegalCommand, .invalidRun,
    .sizeOverflow].map (fun e => (errCode e).toNat) = [1, 2, 3, 4, 5, 6, 7, 8, 9, 10, 11, 12, 13, 14, 15] ∧
  ∀ (e : ErrKind) (s : State), 1 ≤ (errCode e).toNat ∧ (errCode e).toNat ≤ 15 ∧
    statusWord (raiseError e s) = BitVec.ofNat 32 (4 + 256 * (errCode e).toNat)

/-- 60_exceptions R302: what a raise inside a command does, and that it is a next state of the step. -/
def Obligations.RaiseReportsTheError : Prop :=
  ∀ (e : ErrKind) (s : State),
    Res.finish (.raise e s) = .next (raiseError e s) ∧
    (∀ t, engineTurn t = some s → s.phase = .busy → s.stage = .copyCode → readCode s.copyT s = .raise e s →
      step t = .next (raiseError e s)) ∧
    raiseError e s = { s with
      phase := .idle
      stage := .start
      csr := { s.csr with
        errWord := BitVec.ofNat 32 s.br.w
        errOutpos := BitVec.ofNat 32 (if cmdOp s.launch.cmd = 2 then s.tex.pos * s.tex.bpb else s.gen.outPos)
        resultSize := 0
        errCode := errCode e
        error := true
        done := false }
      mem := (raiseError e s).mem
      free := (raiseError e s).free
      freeCount := (raiseError e s).freeCount }

/-- 60_exceptions R303: after an error the output bytes of the derived size hold free values, within the region of 20_memory R63
and within memory (the clip is the model's, notes/assumptions/18.md), and every other byte is unchanged. -/
def Obligations.OutputAfterAnError : Prop :=
  ∀ (e : ErrKind) (s : State) (p : Nat), let size := if cmdOp s.launch.cmd = 2 then s.tex.size else s.gen.outSize
    (p < size → (s.launch.cmd.getLsbD 9 = true → p < s.launch.outCap.toNat) → s.launch.outBase.toNat + p < 4294967296 →
      byteAt (raiseError e s) (s.launch.outBase.toNat + p) = Config.freeByte s.freeCount (s.launch.outBase.toNat + p)) ∧
    (size ≤ p ∨ (s.launch.cmd.getLsbD 9 = true ∧ s.launch.outCap.toNat ≤ p) ∨ 4294967296 ≤ s.launch.outBase.toNat + p →
      byteAt (raiseError e s) (s.launch.outBase.toNat + p) = byteAt s (s.launch.outBase.toNat + p)) ∧
    (∀ a, a < s.launch.outBase.toNat → byteAt (raiseError e s) a = byteAt s a)

/-- 42_generic R183, R185, R187, 43_texture R229: the instructions whose own effect is to raise an error raise it before
anything else. The SYM_NONE rows are in `SymNoneRaises`. -/
def Obligations.RaisingInstructions : Prop :=
  (∀ s, exec .lenInvalid s = .next (raiseError .invalidLengthCode s)) ∧
  (∀ (c : BitVec 9) (s : State) (i : Instr),
    i ∈ [.offInvalid34to35 c, .offInvalid36to39 c, .offInvalid40to47 c, .offInvalid48to63 c, .offInvalid64to127 c,
      .offInvalid128to255 c, .offInvalid256to511 c] → exec i s = .next (raiseError .invalidOffsetCode s)) ∧
  (∀ (len : BitVec 5) (rep : BitVec 11) (s : State) (i : Instr),
    i ∈ [.hdrBadlen17 rep, .hdrBadlen18to19 len rep, .hdrBadlen20to23 len rep, .hdrBadlen24to31 len rep] →
    exec i s = .next (raiseError .invalidTree s)) ∧
  (∀ s, exec .runCountZero s = .next (raiseError .invalidBackReference s))

/-- The model's choice (notes/assumptions/9.md): 30_encoding R94 gives the symbol-tree values 286 to 511 no meaning and says
that they are never produced; they raise InvalidLengthCode, as 42_generic R185 says of "any other combination". -/
def Obligations.SymNoneRaises : Prop :=
  ∀ (v : BitVec 9) (s : State) (i : Instr),
    i ∈ [.symNone286to287 v, .symNone288to319 v, .symNone320to383 v, .symNone384to511 v] →
    exec i s = .next (raiseError .invalidLengthCode s)

/-! ### The bit reader (40_bit_reader) -/

/-- 40_bit_reader R121: ensure loads exactly one word, and only when fewer than `n` bits are buffered. -/
def Obligations.EnsureLoadsOneWord : Prop :=
  ∀ (n : Nat) (s : State), 1 ≤ n → n ≤ 32 →
    (n ≤ s.br.bits → ensure n s = .ok () s) ∧
    (s.br.bits < n → s.br.n + s.cfg.tailZeroWords ≤ s.br.w → ensure n s = .raise .truncatedInput s) ∧
    (s.br.bits < n → s.br.w < s.br.n + s.cfg.tailZeroWords → (s.br.w < s.br.n → inputAdmitted s s.br.w = true) →
      let word := if s.br.w < s.br.n then inputWordValue s s.br.w else 0
      ensure n s = .ok () { s with br := { s.br with
        acc := s.br.acc ||| (BitVec.ofNat 64 word <<< (32 - s.br.bits))
        bits := s.br.bits + 32
        w := s.br.w + 1 } } ∧ n ≤ s.br.bits + 32)

/-- 40_bit_reader R124, 20_memory R68: readBits returns the next bits of the stream, the first most significant, and only the
reader changes. With TAIL_ZERO_WORDS at its default. -/
def Obligations.ReadBitsReturnsTheStream : Prop :=
  ∀ (n : Nat) (s : State), 1 ≤ n → n ≤ 32 → s.cfg.tailZeroWords = 0 → ReaderInv s → LookaheadInv s → canRead n s = true →
    ∃ t, readBits n s = .ok (streamField s s.br.c n) t ∧ t = { s with br := t.br } ∧
      t.br.c = s.br.c + n ∧ t.br.n = s.br.n ∧ ReaderInv t ∧ LookaheadInv t

/-- 40_bit_reader R124, R121, 20_memory R65: a field that is not buffered raises TruncatedInput at the end of the input, and is
stuck where memory does not admit the word a refill loads: the operands of LEN_*, OFF_*, PASS_ALPHA and PASS_COLOR, and at every
stage the field or code the step reads. -/
def Obligations.TruncatedFieldsRaise : Prop :=
  (∀ (n : Nat) (s : State), s.br.bits < n → s.br.n + s.cfg.tailZeroWords ≤ s.br.w →
    readBits n s = .raise .truncatedInput s) ∧
  (∀ (n : Nat) (s : State), s.br.bits < n → s.br.w < s.br.n → inputAdmitted s s.br.w = false →
    readBits n s = .fault .accessNotAdmitted) ∧
  (∀ (n : Nat) (s : State) (out : Host.Outcome State Fault Refusal), ReadStops n s out →
    (∀ (q : Nat) (r : BitVec 2), q ≤ 6 → n = q - 1 → exec (lenInstr q r) s = out) ∧
    (∀ (q : Nat) (r : BitVec 1), q ≤ 16 → n = q - 1 → exec (offInstr q r) s = out) ∧
    (∀ w, n = 8 → exec (.passAlpha w) s = out) ∧
    (∀ w, n = 24 → exec (.passColor w) s = out) ∧
    (∀ z, engineTurn z = some s → s.phase = .busy → fieldDue s = some n → step z = out)) ∧
  ∀ (z s u : State) (v : Nat) (out : Host.Outcome State Fault Refusal), engineTurn z = some s → s.phase = .busy →
    (s.stage = .texDims → readBits 16 s = .ok v u →
      ReadStops 16 { u with tex := { u.tex with width := BitVec.ofNat 16 v } } out → step z = out) ∧
    (s.stage = .genAddend → readExtra s.cfg.addendPrefixSkip s = .ok v u → ReadStops 4 u out → step z = out)

/-- 10_state R23, 40_bit_reader R126, R127: the reader's invariant. -/
def Obligations.StepKeepsReaderInvariant : Prop :=
  ∀ (s t : State), ReaderInv s → step s = .next t → ReaderInv t

/-! ### Huffman trees (41_huffman) -/

/-- 41_huffman R145: build fails exactly when the lengths over-subscribe the code space, and a tree is empty exactly when no
symbol is assigned. -/
def Obligations.BuildFailsOnOversubscription : Prop :=
  ∀ (lists : List (List Sym)), lists.length = 16 →
    (build lists = none ↔ 65536 < kraftFrom 1 lists) ∧
    (∀ t, build lists = some t → (t.empty = true ↔ ∀ l, l ∈ lists → l = []))

/-- 41_huffman R150: the codes are in range, all ones for the first symbol of the shortest length, and no code is a prefix of
another. A code is `c_L - j` for the `j`-th symbol of length `L`. -/
def Obligations.CodesArePrefixFree : Prop :=
  ∀ (lists : List (List Sym)) (t : Tree), lists.length = 16 → build lists = some t →
    (∀ (a j : Nat) (l : List Sym), lists[a]? = some l → j < l.length →
      0 ≤ startCounter lists (a + 1) - j ∧ startCounter lists (a + 1) - j < 2 ^ (a + 1)) ∧
    (∀ (a : Nat) (l : List Sym), lists[a]? = some l → l ≠ [] → (∀ b, b < a → lists[b]? = some []) →
      startCounter lists (a + 1) = 2 ^ (a + 1) - 1) ∧
    (∀ (a b i j : Nat) (la lb : List Sym), a ≤ b → lists[a]? = some la → lists[b]? = some lb → i < la.length →
      j < lb.length → (a, i) ≠ (b, j) →
      (startCounter lists (b + 1) - j) / 2 ^ (b - a) ≠ startCounter lists (a + 1) - i)

/-- 41_huffman R151: a window that starts with the code of a symbol selects that symbol and its length, and readCode returns the
symbol and consumes exactly that many bits. -/
def Obligations.BuildReadRoundTrip : Prop :=
  ∀ (lists : List (List Sym)) (t : Tree) (a j : Nat) (l : List Sym) (sym : Sym), lists.length = 16 → build lists = some t →
    lists[a]? = some l → l[j]? = some sym →
    (∀ window : Nat, window < 4294967296 → ((window / 2 ^ (31 - a) : Nat) : Int) = startCounter lists (a + 1) - j →
      t.lookup window = some (sym, a + 1)) ∧
    (∀ (s u : State) (window : Nat), ensure 32 s = .ok () u → peek 32 u = .ok window u →
      ((window / 2 ^ (31 - a) : Nat) : Int) = startCounter lists (a + 1) - j →
      readCode t s = .ok sym { u with br := { u.br with
        acc := u.br.acc <<< (a + 1), bits := u.br.bits - (a + 1), c := u.br.c + (a + 1) } })

/-- 41_huffman R146, R149, 60_exceptions R305: the errors of a code, EmptyTree before TruncatedInput before InvalidCode. A
window that no code of the tree matches selects nothing; one whose comparison entry points past the symbol table, which no tree
that `build` gives has, selects nothing either, by the model's choice (notes/assumptions/23.md). -/
def Obligations.CodeErrors : Prop :=
  ∀ (t : Tree) (s : State),
    (t.empty = true → readCode t s = .raise .emptyTree s) ∧
    (t.empty = false → s.br.bits < 32 → s.br.n + s.cfg.tailZeroWords ≤ s.br.w → readCode t s = .raise .truncatedInput s) ∧
    (t.empty = false → ∀ (u : State) (window : Nat), ensure 32 s = .ok () u → peek 32 u = .ok window u →
      t.lookup window = none → readCode t s = .raise .invalidCode u) ∧
    (∀ window : Nat, t.hash.getD (window / 2 ^ 24) none = none → (∀ e, e ∈ t.cmp → window < e.ct.toNat) →
      t.lookup window = none) ∧
    (∀ window : Nat, t.lookup window = none →
      t.hash.getD (window / 2 ^ 24) none = none ∧
        ∀ e, t.cmp.find? (fun e => decide (e.ct.toNat ≤ window)) = some e →
          t.st[e.co - ((window - e.ct.toNat) >>> (32 - e.cl))]? = none)

/-- 41_huffman R156: once built, a dictionary is what its build gives and no step but a reset changes it or its flag, an error
included. -/
def Obligations.DictionariesAreImmutable : Prop :=
  (∀ (s t : State), DictInv s → step s = .next t → DictInv t) ∧
  ∀ (s t : State), step s = .next t → (∀ u, hostTurn s ≠ some (.reset, u)) →
    (s.dictReadyG = true → t.dictG = s.dictG ∧ t.dictReadyG = true) ∧
    (s.dictReadyT = true → t.dictT = s.dictT ∧ t.dictReadyT = true)

/-! ### The generic decoder (42_generic) -/

/-- 42_generic R189: LIT; where memory does not admit the byte, the engine is stuck (20_memory R65). -/
def Obligations.LiteralWritesOneByte : Prop :=
  (∀ (byte : Byte) (s : State), admits s.cfg (s.launch.outBase.toNat + s.gen.outPos) = false →
    exec (.lit byte) s = .fault .accessNotAdmitted) ∧
  ∀ (byte : Byte) (s : State), memCanonical s = true → admits s.cfg (s.launch.outBase.toNat + s.gen.outPos) = true →
    ∃ t, exec (.lit byte) s = .next t ∧
      t = { s with
        gen := { s.gen with outPos := s.gen.outPos + 1, count := s.gen.count + 1 }
        stage := .symLoop, mem := t.mem, free := t.free } ∧
      byteAt t (s.launch.outBase.toNat + s.gen.outPos) = byte ∧
      ∀ a, a ≠ s.launch.outBase.toNat + s.gen.outPos → byteAt t a = byteAt s a

/-- 42_generic R185, R186: LEN_Q0 to LEN_Q6 and LEN_ESC keep the raw length plus the addend. The extra bits are the field
`readExtra` reads, of `q - 1` bits (none for q of 0 or 1). -/
def Obligations.LengthCodes : Prop :=
  (∀ (q : Nat) (r : BitVec 2) (s : State), q ≤ 6 → (q ≤ 1 ∨ canRead (q - 1) s = true) →
    ∃ x u, (if q ≤ 1 then Res.ok 0 s else readBits (q - 1) s) = .ok x u ∧ u = { s with br := u.br } ∧ x < 2 ^ (q - 1) ∧
      (q ≤ 1 → u = s) ∧
      exec (lenInstr q r) s = .next { u with
        gen := { s.gen with
          curLen := (if q = 0 then r.toNat else 2 ^ (q - 1) * (4 + r.toNat)) + x + s.gen.addend }
        stage := .copyCode }) ∧
  ∀ s : State, exec .lenEsc s = .next { s with gen := { s.gen with curLen := 0xFF + s.gen.addend }, stage := .copyCode }

/-- 42_generic R187, R188: OFF_Q0 to OFF_Q16 copy `n` bytes one by one, `n` being the copy length or what is left of the output:
each byte of the copy equals the one `k` places before it, every other byte is unchanged. An offset that reaches before output
byte 0 raises InvalidBackReference with nothing copied. A copy onto a byte memory does not admit is stuck (20_memory R65). -/
def Obligations.OffsetCodesCopy : Prop :=
  (∀ (len k p : Nat) (s : State), k ≤ s.gen.outPos → s.gen.outPos ≤ p →
    p < s.gen.outPos + min len (s.gen.outSize - s.gen.outPos) → admits s.cfg (outputAddr s p) = false →
    copyBack len k s = .fault .accessNotAdmitted) ∧
  ∀ (q : Nat) (r : BitVec 1) (s : State), q ≤ 16 → (q ≤ 1 ∨ canRead (q - 1) s = true) → memCanonical s = true →
    OutputAdmitted s.gen.outSize s →
    ∃ x u, (if q ≤ 1 then Res.ok 0 s else readBits (q - 1) s) = .ok x u ∧ u = { s with br := u.br } ∧ x < 2 ^ (q - 1) ∧
      let k := (if q = 0 then r.toNat else 2 ^ (q - 1) * (2 + r.toNat)) + x + 1
      let n := min s.gen.curLen (s.gen.outSize - s.gen.outPos)
      (k ≤ s.gen.outPos →
        ∃ t, exec (offInstr q r) s = .next t ∧
          t = { u with
            gen := { s.gen with outPos := s.gen.outPos + n, count := s.gen.count + 1 }
            stage := .symLoop, mem := t.mem, free := t.free } ∧
          (∀ p, s.gen.outPos ≤ p → p < s.gen.outPos + n → byteAt t (outputAddr s p) = byteAt t (outputAddr s (p - k))) ∧
          ∀ a, (∀ p, s.gen.outPos ≤ p → p < s.gen.outPos + n → a ≠ outputAddr s p) → byteAt t a = byteAt s a) ∧
      (s.gen.outPos < k → exec (offInstr q r) s = .next (raiseError .invalidBackReference u))

/-- 42_generic R198: a copy longer than its offset repeats the last `k` bytes. -/
def Obligations.CopyIsPeriodic : Prop :=
  ∀ (len k : Nat) (s : State), memCanonical s = true → 1 ≤ k → k ≤ s.gen.outPos → OutputAdmitted s.gen.outSize s →
    ∃ t, copyBack len k s = .ok () t ∧
      ∀ i, i < min len (s.gen.outSize - s.gen.outPos) →
        byteAt t (outputAddr s (s.gen.outPos + i)) = byteAt s (outputAddr s (s.gen.outPos - k + i % k))

/-- 42_generic R180 to R182: HDR_SKIP and HDR_ASSIGN give the next `rep` indices, downward, the code length; each list stays in
the order the smallest index first. Nothing but the header changes. -/
def Obligations.HeaderRuns : Prop :=
  ∀ (i : Instr) (len rep : Nat) (s : State), headerRunOf i = some (len, rep) → i.wf s.cfg = true →
    s.hdr.lists.length = 16 → rep ≤ s.hdr.rem →
    ∃ lists, exec i s = .next { s with hdr := { rem := s.hdr.rem - rep, lists := lists } } ∧ lists.length = 16 ∧
      ∀ a, a < 16 → lists[a]? =
        if a + 1 = len then (s.hdr.lists[a]?).map fun l => (List.range' (s.hdr.rem - rep) rep).map (BitVec.ofNat 16) ++ l
        else s.hdr.lists[a]?

/-- 42_generic R183: a code length of 17 to 31, and a run longer than the indices left, raise InvalidTree, before any index is
assigned. -/
def Obligations.HeaderErrors : Prop :=
  (∀ (cfg : Config) (v : Sym), 17 ≤ v.toNat % 32 → ∃ i, decode cfg (.hdr v) = .ok i ∧
    ∀ s, exec i s = .next (raiseError .invalidTree s)) ∧
  (∀ (i : Instr) (len rep : Nat) (s : State), headerRunOf i = some (len, rep) → s.hdr.rem < rep →
    exec i s = .next (raiseError .invalidTree s))

/-- 42_generic R180, R184, R190: the count of a tree header, at most 286; the build when every index is covered, the symbol tree
first and then the copy tree; M. -/
def Obligations.TreeHeaderSteps : Prop :=
  ∀ (s t : State), engineTurn s = some t → t.phase = .busy →
    (∀ (sel : TreeSel) (n : Nat) (u : State), t.stage = .treeCount sel → readBits 16 t = .ok n u →
      (n ≤ 286 → step s = .next { u with stage := .treeLoop sel, hdr := { rem := n, lists := List.replicate 16 [] } }) ∧
      (286 < n → step s = .next (raiseError .tooManySymbols u))) ∧
    (∀ (tree : Tree), t.hdr.rem = 0 → build t.hdr.lists = some tree →
      (t.stage = .treeLoop .sym → step s = .next { t with symT := tree, stage := .treeCount .copy }) ∧
      (t.stage = .treeLoop .copy → step s = .next { t with copyT := tree, stage := .maxCount })) ∧
    (∀ (sel : TreeSel), t.hdr.rem = 0 → t.stage = .treeLoop sel → build t.hdr.lists = none →
      step s = .next (raiseError .invalidTree t)) ∧
    (∀ (m : Nat) (u : State), t.stage = .maxCount → readBits 4 t = .ok m u →
      step s = .next { u with gen := { u.gen with maxCount := (m + 1) * 4096, count := 0 }, stage := .symLoop })

/-- 42_generic R191 to R193: the header word is discarded, the size clamped to the caller's capacity when one was given, the
addend read once; the loops go on until the output is full. -/
def Obligations.GenericHeaderSteps : Prop :=
  ∀ (s t u : State) (v : Nat), engineTurn s = some t → t.phase = .busy →
    (t.stage = .genHeader → readBits 32 t = .ok v u → step s = .next { u with stage := .genSize }) ∧
    (t.stage = .genSize → readBits 32 t = .ok v u →
      step s = .next { u with
        gen := { u.gen with outSize := if u.launch.cmd.getLsbD 9 then min v u.launch.outCap.toNat else v }, stage := .genAddend }) ∧
    (t.stage = .genAddend → t.cfg.addendPrefixSkip = 0 → readBits 4 t = .ok v u →
      step s = .next { u with gen := { u.gen with addend := v + 1, outPos := 0 }, stage := .genLoop }) ∧
    (t.stage = .genLoop → t.gen.outPos < t.gen.outSize → step s = .next { t with stage := .treeCount .sym }) ∧
    (t.stage = .symLoop → ¬(t.gen.count < t.gen.maxCount ∧ t.gen.outPos < t.gen.outSize) →
      step s = .next { t with stage := .genLoop })

/-! ### The texture decoder (43_texture) -/

/-- 43_texture R220 to R223, R225: the header of a texture command, the format, the geometry and the size checks. The bytes per
block and the size are the whole products of R222. That the 8 bits 10_state R29 gives tex.bpb are its bits 8:1 is the model's
(notes/assumptions/16.md), and so is that tex.size keeps the whole product where R29 gives it 33 bits, also after SizeOverflow
(32.md). -/
def Obligations.TextureHeaderSteps : Prop :=
  ∀ (s t u : State) (v : Nat), engineTurn s = some t → t.phase = .busy →
    (t.stage = .texMagic → readBits 32 t = .ok v u → step s = .next { u with stage := .texTag }) ∧
    (t.stage = .texTag → readBits 32 t = .ok v u →
      (∀ e, e ∈ u.cfg.formatTable → (u.cfg.formatTable.map (·.tag)).Nodup → e.tag.toNat = v →
        (e.unsupported = false → step s = .next { u with tex := { u.tex with fmt := e }, stage := .texDims }) ∧
        (e.unsupported = true → step s = .next (raiseError .unknownFormat u))) ∧
      ((∀ e, e ∈ u.cfg.formatTable → e.tag.toNat ≠ v) → step s = .next (raiseError .unknownFormat u))) ∧
    (∀ (h : Nat) (x : State), t.stage = .texDims → readBits 16 t = .ok v u →
      readBits 16 { u with tex := { u.tex with width := BitVec.ofNat 16 v } } = .ok h x →
      let nb := ((x.tex.width.toNat + 3) / 4) * ((h % 65536 + 3) / 4)
      let bpb := x.tex.fmt.bitsPerPixel.toNat * 2
      let y := { x with tex := { x.tex with
        height := BitVec.ofNat 16 h, nb := nb, bpbHigh := x.tex.fmt.bitsPerPixel, size := nb * bpb
        bpc := if x.tex.fmt.singleBlock || x.tex.fmt.dualBlock then 8 else 0 } }
      y.tex.bpb = bpb ∧
      (4294967296 ≤ nb * bpb → step s = .next (raiseError .sizeOverflow y)) ∧
      (nb * bpb < 4294967296 → y.launch.cmd.getLsbD 9 = true → y.launch.outCap.toNat < nb * bpb →
        step s = .next (raiseError .outputTooSmall y)) ∧
      (nb * bpb < 4294967296 → (y.launch.cmd.getLsbD 9 = true → nb * bpb ≤ y.launch.outCap.toNat) →
        step s = .next { y with stage := .texBody })) ∧
    (t.stage = .texBody → readBits 32 t = .ok v u → step s = .next { u with stage := .texFlags }) ∧
    (t.stage = .texFlags → readBits 32 t = .ok v u →
      step s = .next { u with tex := { u.tex with cflags := BitVec.ofNat 32 v }, stage := .texClear })

/-- 43_texture R227: a compression-flag bit outside the three masks is refused, before any output byte is written. -/
def Obligations.UnknownCompressionFlagIsRefused : Prop :=
  (∀ (w : Word) (s : State), exec (.cflagsUnknown w) s = .refused .unknownCompressionFlag) ∧
  (∀ (s t : State), engineTurn s = some t → t.phase = .busy → t.stage = .texClear →
    t.tex.cflags &&& ~~~(t.cfg.cfAltColor ||| t.cfg.cfAlpha ||| t.cfg.cfColor) ≠ 0 →
    step s = .refused .unknownCompressionFlag)

/-- 43_texture R224, R226: before any pass every output byte is zero and every position absent; no other byte changes. Where
memory does not admit the output, the engine is stuck (20_memory R65). -/
def Obligations.ZeroFillBeforeThePasses : Prop :=
  ∀ (s t : State), engineTurn s = some t → t.phase = .busy → t.stage = .texClear →
    t.tex.cflags &&& ~~~(t.cfg.cfAltColor ||| t.cfg.cfAlpha ||| t.cfg.cfColor) = 0 →
    (admitsRange t.cfg t.launch.outBase.toNat t.tex.size = false → step s = .fault .accessNotAdmitted) ∧
    (admitsRange t.cfg t.launch.outBase.toNat t.tex.size = true →
    ∃ u, step s = .next u ∧
      u = { t with
        tex := { t.tex with
          colorMap := List.replicate t.tex.nb false, alphaMap := List.replicate t.tex.nb false }
        stage := .pass .altColor, mem := u.mem, free := u.free } ∧
      (∀ p, p < t.tex.size → byteAt u (outputAddr t p) = 0) ∧
      ∀ a, (∀ p, p < t.tex.size → a ≠ outputAddr t p) → byteAt u a = byteAt t a)

/-- 43_texture R228: the three passes in order, each only when a bit of its mask is set; the rewind follows. -/
def Obligations.PassesRunInOrder : Prop :=
  ∀ (s t : State) (p : Pass), engineTurn s = some t → t.phase = .busy →
    (t.stage = .pass p → t.tex.cflags &&& t.cfg.passMask p ≠ 0 → step s = exec (passInstr p t.tex.cflags) t) ∧
    ((t.stage = .pass p ∧ t.tex.cflags &&& t.cfg.passMask p = 0) ∨ (t.stage = .runLoop p ∧ t.tex.nb ≤ t.tex.pos) →
      step s = .next { t with stage := match p with
                                       | .altColor => .pass .alpha
                                       | .alpha => .pass .color
                                       | .color => .rewind })

/-- 43_texture R230 to R233: how PASS_ALT_COLOR, PASS_ALPHA and PASS_COLOR begin: the raw value is read and kept, the position
is 0. -/
def Obligations.PassesBegin : Prop :=
  (∀ (w : Word) (s : State),
    exec (.passAltColor w) s = .next { s with tex := { s.tex with pos := 0 }, stage := .runLoop .altColor }) ∧
  (∀ (w : Word) (s : State), canRead 8 s = true →
    ∃ a u, readBits 8 s = .ok a u ∧ u = { s with br := u.br } ∧ a < 256 ∧
      ∃ fill : Component, (∀ k, k < 8 → fill.toNat / 256 ^ k % 256 = a) ∧
        exec (.passAlpha w) s = .next { u with tex := { s.tex with fill := fill, pos := 0 }, stage := .runLoop .alpha }) ∧
  (∀ (w : Word) (s : State), canRead 24 s = true →
    ∃ v u, readBits 24 s = .ok v u ∧ u = { s with br := u.br } ∧ v < 16777216 ∧
      exec (.passColor w) s = .next { u with
        tex := { s.tex with
          color := if v = 0xFFFFFF then s.cfg.endpointOnes else if v = 0 then s.cfg.endpointZeros
            else colorPack s.cfg (BitVec.ofNat 24 v)
          pos := 0 }
        stage := .runLoop .color })

/-- 43_texture R229: RUN_ABSENT (in the alternate colour and colour passes) and RUN_ALPHA_ABSENT leave the next `count` absent
positions absent and move past them, and past the present positions after them. -/
def Obligations.AbsentRuns : Prop :=
  ∀ (count : Sym) (s : State), s.tex.pos ≤ s.tex.nb →
    (count.toNat ≤ (absentFrom s.tex.colorMap s.tex.pos s.tex.nb).length →
      exec (.runAbsent count) s =
        .next { s with tex := { s.tex with pos := posAfter s.tex.colorMap s.tex.pos s.tex.nb count.toNat } }) ∧
    (count.toNat ≤ (absentFrom s.tex.alphaMap s.tex.pos s.tex.nb).length →
      exec (.runAlphaAbsent count) s =
        .next { s with tex := { s.tex with pos := posAfter s.tex.alphaMap s.tex.pos s.tex.nb count.toNat } })

/-- 43_texture R229, R230: RUN_ALT_PRESENT writes ALT_COLOR_PATTERN at offset 0 of the next `count` absent positions and marks
both bitmaps. -/
def Obligations.AltColorRuns : Prop :=
  ∀ (count : Sym) (s : State), TextureReady s →
    count.toNat ≤ (absentFrom s.tex.colorMap s.tex.pos s.tex.nb).length →
    let blocks := covered s.tex.colorMap s.tex.pos s.tex.nb count.toNat
    ∃ t, exec (.runAltPresent count) s = .next t ∧
      t = { s with
        tex := { s.tex with
          pos := posAfter s.tex.colorMap s.tex.pos s.tex.nb count.toNat, colorMap := t.tex.colorMap, alphaMap := t.tex.alphaMap }
        mem := t.mem, free := t.free } ∧
      Marked s.tex.colorMap t.tex.colorMap blocks ∧ Marked s.tex.alphaMap t.tex.alphaMap blocks ∧
      WroteBlocks s t blocks 0 s.cfg.altColorPattern

/-- 43_texture R229, R231: RUN_ALPHA_ZERO and RUN_ALPHA_FILL write zero or the fill value at offset 0 of the next `count`
positions absent in the alpha bitmap, and mark that bitmap. -/
def Obligations.AlphaRuns : Prop :=
  ∀ (count : Sym) (s : State) (i : Instr) (v : Component), TextureReady s →
    count.toNat ≤ (absentFrom s.tex.alphaMap s.tex.pos s.tex.nb).length →
    ((i = .runAlphaZero count ∧ v = 0) ∨ (i = .runAlphaFill count ∧ v = s.tex.fill)) →
    let blocks := covered s.tex.alphaMap s.tex.pos s.tex.nb count.toNat
    ∃ t, exec i s = .next t ∧
      t = { s with
        tex := { s.tex with
          pos := posAfter s.tex.alphaMap s.tex.pos s.tex.nb count.toNat, alphaMap := t.tex.alphaMap }
        mem := t.mem, free := t.free } ∧
      Marked s.tex.alphaMap t.tex.alphaMap blocks ∧ WroteBlocks s t blocks 0 v

/-- 43_texture R229, R232, R234: RUN_COLOR_PRESENT writes the colour at the colour offset of the next `count` positions absent
in the colour bitmap, and marks that bitmap. -/
def Obligations.ColorRuns : Prop :=
  ∀ (count : Sym) (s : State), TextureReady s →
    count.toNat ≤ (absentFrom s.tex.colorMap s.tex.pos s.tex.nb).length →
    let blocks := covered s.tex.colorMap s.tex.pos s.tex.nb count.toNat
    ∃ t, exec (.runColorPresent count) s = .next t ∧
      t = { s with
        tex := { s.tex with
          pos := posAfter s.tex.colorMap s.tex.pos s.tex.nb count.toNat, colorMap := t.tex.colorMap }
        mem := t.mem, free := t.free } ∧
      Marked s.tex.colorMap t.tex.colorMap blocks ∧
      WroteBlocks s t blocks (if s.tex.fmt.dualBlock then s.tex.bpc else 0) s.tex.color

/-- 43_texture R229, R230 to R232: a run that needs more absent positions than remain raises InvalidRun, at the end of the bitmap,
after its action at every absent position that remained. RUN_ABSENT and RUN_ALPHA_ABSENT store nothing and mark nothing; the
others wrote their component in those blocks, no other byte, and marked the bitmaps of their pass. -/
def Obligations.OverlongRunsRaise : Prop :=
  ∀ (count : Sym) (s : State),
    ((absentFrom s.tex.colorMap s.tex.pos s.tex.nb).length < count.toNat →
      let blocks := absentFrom s.tex.colorMap s.tex.pos s.tex.nb
      (s.tex.pos ≤ s.tex.nb →
        exec (.runAbsent count) s = .next (raiseError .invalidRun { s with tex := { s.tex with pos := s.tex.nb } })) ∧
      (TextureReady s →
        (∃ u, exec (.runAltPresent count) s = .next (raiseError .invalidRun u) ∧
          u = { s with
            tex := { s.tex with pos := s.tex.nb, colorMap := u.tex.colorMap, alphaMap := u.tex.alphaMap }
            mem := u.mem, free := u.free } ∧
          Marked s.tex.colorMap u.tex.colorMap blocks ∧ Marked s.tex.alphaMap u.tex.alphaMap blocks ∧
          WroteBlocks s u blocks 0 s.cfg.altColorPattern) ∧
        (∃ u, exec (.runColorPresent count) s = .next (raiseError .invalidRun u) ∧
          u = { s with tex := { s.tex with pos := s.tex.nb, colorMap := u.tex.colorMap }, mem := u.mem, free := u.free } ∧
          Marked s.tex.colorMap u.tex.colorMap blocks ∧
          WroteBlocks s u blocks (if s.tex.fmt.dualBlock then s.tex.bpc else 0) s.tex.color))) ∧
    ((absentFrom s.tex.alphaMap s.tex.pos s.tex.nb).length < count.toNat →
      let blocks := absentFrom s.tex.alphaMap s.tex.pos s.tex.nb
      (s.tex.pos ≤ s.tex.nb →
        exec (.runAlphaAbsent count) s = .next (raiseError .invalidRun { s with tex := { s.tex with pos := s.tex.nb } })) ∧
      (TextureReady s →
        ∀ (i : Instr) (v : Component), ((i = .runAlphaZero count ∧ v = 0) ∨ (i = .runAlphaFill count ∧ v = s.tex.fill)) →
          ∃ u, exec i s = .next (raiseError .invalidRun u) ∧
            u = { s with tex := { s.tex with pos := s.tex.nb, alphaMap := u.tex.alphaMap }, mem := u.mem, free := u.free } ∧
            Marked s.tex.alphaMap u.tex.alphaMap blocks ∧ WroteBlocks s u blocks 0 v))

/-- 40_bit_reader R129, 43_texture R235: the rewind. -/
def Obligations.RewindSetsTheLiteralCursor : Prop :=
  ∀ (s t : State), engineTurn s = some t → t.phase = .busy → t.stage = .rewind →
    (32 < t.br.bits ∨ (t.cfg.rewindAtExactly32 = true ∧ t.br.bits = 32) →
      step s = .next { t with tex := { t.tex with lit := t.br.w - 1 }, stage := .alphaCopy 0 }) ∧
    (¬(32 < t.br.bits ∨ (t.cfg.rewindAtExactly32 = true ∧ t.br.bits = 32)) →
      step s = .next { t with tex := { t.tex with lit := t.br.w }, stage := .alphaCopy 0 })

/-- 43_texture R236 to R238, 20_memory R69: a literal copy that has no block left, or whose format flag is clear, ends, the
colour copy after the alpha copy; else one block of a literal copy. An absent component takes one input word, or two
when the component has more than 4 bytes, byte for byte; when the input ends, the words that are left are copied and the literal
phase is over. -/
def Obligations.LiteralCopy : Prop :=
  (∀ (s t : State) (i : Nat), engineTurn s = some t → t.phase = .busy →
    (t.stage = .alphaCopy i → (t.tex.fmt.hasAlpha = false ∨ t.tex.nb ≤ i) → step s = .next { t with stage := .colorCopy 0 }) ∧
    (t.stage = .colorCopy i → (t.tex.fmt.hasColor = false ∨ t.tex.nb ≤ i) → step s = .next { t with stage := .texDone })) ∧
  ∀ (s t : State) (i off : Nat) (map : List Bool) (next : Stage), engineTurn s = some t → t.phase = .busy → i < t.tex.nb →
    ((t.stage = .alphaCopy i ∧ t.tex.fmt.hasAlpha = true ∧ map = t.tex.alphaMap ∧ off = 0 ∧ next = .alphaCopy (i + 1)) ∨
      (t.stage = .colorCopy i ∧ t.tex.fmt.hasColor = true ∧ map = t.tex.colorMap ∧
        off = (if t.tex.fmt.dualBlock then t.tex.bpc else 0) ∧ next = .colorCopy (i + 1))) →
    let words := if 4 < t.tex.bpc then 2 else 1
    let m := min words (t.br.n - t.tex.lit)
    (present map i = true → step s = .next { t with stage := next }) ∧
    (present map i = false → memCanonical t = true →
      (∀ j, j < m → inputAdmitted t (t.tex.lit + j) = true) →
      (∀ k, k < 4 * m → admits t.cfg (blockAddr i off t + k) = true) →
      (∀ j b k, j < m → b < 4 → k < 4 * m → inputAddr t (t.tex.lit + j) b ≠ blockAddr i off t + k) →
      ∃ u, step s = .next u ∧
        u = { t with
          tex := { t.tex with lit := t.tex.lit + m }
          stage := if m = words then next else .texDone
          mem := u.mem, free := u.free } ∧
        (∀ k, k < 4 * m → byteAt u (blockAddr i off t + k) = byteAt t (inputAddr t (t.tex.lit + k / 4) (k % 4))) ∧
        ∀ a, (∀ k, k < 4 * m → a ≠ blockAddr i off t + k) → byteAt u a = byteAt t a)

/-! ### Memory (20_memory) -/

/-- 20_memory R77: a host write to the input region while BUSY is refused. That a write which meets the output region too has this
refusal and not that of R78 is the model's (notes/assumptions/33.md). -/
def Obligations.InputWritesWhileBusyAreRefused : Prop :=
  ∀ (s t : State) (addr : Word) (bytes : List Byte), hostTurn s = some (.busWrite addr bytes, t) →
    busTarget addr bytes.length t = .memory → t.phase = .busy → t.launch.cmd.getLsbD 8 = true →
    (∃ j k, j < t.launch.inLen.toNat ∧ k < bytes.length ∧
      (t.launch.inBase.toNat + j) % 4294967296 = addr.toNat + k) →
    step s = .refused .inputModified

/-- 20_memory R63, R78, 93_implementation_defined section 2, 60_exceptions R311: a host access that touches the output region while
BUSY is refused, a write and a read alike: OUT_CAP bytes when OUT_PRESENT = 1, else the bytes of the size the command derives. Any
other read returns the bytes and changes nothing else; that this is so of the input while BUSY is the model's
(notes/assumptions/31.md), and so is that a read of a byte memory does not admit has no step (28.md). That R63 says what the
region is, and that the derived size is `launchSize`, is the model's too (8.md, 11.md). -/
def Obligations.OutputBelongsToTheEngine : Prop :=
  (∀ (s t : State) (addr : Word) (bytes : List Byte) (size k p : Nat), hostTurn s = some (.busWrite addr bytes, t) →
    busTarget addr bytes.length t = .memory → t.phase = .busy → ownedSize t = some size → k < bytes.length → p < size →
    addr.toNat + k = t.launch.outBase.toNat + p →
    (t.launch.cmd.getLsbD 8 = true → ∀ j k', j < t.launch.inLen.toNat → k' < bytes.length →
      (t.launch.inBase.toNat + j) % 4294967296 ≠ addr.toNat + k') →
    step s = .refused .outputTouched) ∧
  (∀ (s t : State) (addr : Word) (n : Nat), hostTurn s = some (.busRead addr n, t) → busTarget addr n t = .memory →
    (∀ size k p, t.phase = .busy → ownedSize t = some size → k < n → p < size →
      addr.toNat + k = t.launch.outBase.toNat + p → step s = .refused .outputTouched) ∧
    ((t.phase = .busy → ∀ size k p, ownedSize t = some size → k < n → p < size →
        addr.toNat + k ≠ t.launch.outBase.toNat + p) →
      (admitsRange t.cfg addr.toNat n = true →
        ∃ data, step s = .next { t with hostData := data } ∧ data.length = n ∧
          ∀ k, k < n → data[k]? = some (byteAt t (addr.toNat + k))) ∧
      (admitsRange t.cfg addr.toNat n = false → step s = .fault .accessNotAdmitted)))

/-- 20_memory R60, R63, 44_host R278: a host write of memory while IDLE, or while BUSY outside both regions, stores its bytes and
changes no other byte. That the machine has no step for a host write to a byte memory does not admit is the model's
(notes/assumptions/28.md; 20_memory R65 speaks of the engine). -/
def Obligations.HostWritesMemory : Prop :=
  ∀ (s t : State) (addr : Word) (bytes : List Byte), hostTurn s = some (.busWrite addr bytes, t) →
    busTarget addr bytes.length t = .memory → memCanonical t = true →
    (t.phase = .busy →
      (t.launch.cmd.getLsbD 8 = true → ∀ j k, j < t.launch.inLen.toNat → k < bytes.length →
        (t.launch.inBase.toNat + j) % 4294967296 ≠ addr.toNat + k) ∧
      (∀ size k p, ownedSize t = some size → k < bytes.length → p < size →
        addr.toNat + k ≠ t.launch.outBase.toNat + p)) →
    (admitsRange t.cfg addr.toNat bytes.length = true →
      ∃ u, step s = .next u ∧ u = { t with mem := u.mem, free := u.free } ∧
        (∀ k, k < bytes.length → some (byteAt u (addr.toNat + k)) = bytes[k]?) ∧
        ∀ a, (∀ k, k < bytes.length → a ≠ addr.toNat + k) → byteAt u a = byteAt t a) ∧
    (admitsRange t.cfg addr.toNat bytes.length = false → step s = .fault .accessNotAdmitted)

/-- Every step keeps the canonical form of memory. -/
def Obligations.StepKeepsMemoryCanonical : Prop :=
  ∀ (s t : State), memCanonical s = true → step s = .next t → memCanonical t = true

/-- 20_memory R63, 43_texture R242, 60_exceptions R303: a step of the engine changes no byte outside the output
`[OUT_BASE, OUT_BASE + size)` of the size the command has derived. -/
def Obligations.EngineWritesOnlyTheOutput : Prop :=
  ∀ (s t u : State) (a : Nat), engineTurn s = some t → step s = .next u → CommandInv t →
    (a < t.launch.outBase.toNat ∨
      t.launch.outBase.toNat + (if cmdOp t.launch.cmd = 2 then u.tex.size else u.gen.outSize) ≤ a) →
    byteAt u a = byteAt s a

/-! ### Whole-machine invariants -/

/-- 10_state R32, 70_reset R354: DONE and ERROR are never both 1, ERR_CODE is 0 without ERROR, and no result shows while BUSY. -/
def Obligations.StepKeepsStatusLegal : Prop :=
  ∀ (s t : State), StatusInv s → step s = .next t → StatusInv t

/-- 43_texture R222, R226, R240: what a command's registers satisfy at each of its stages, under a well-formed FORMAT_TABLE. -/
def Obligations.StepKeepsCommandInvariant : Prop :=
  ∀ (s t : State), formatTableWf s.cfg.formatTable = true → CommandInv s → step s = .next t → CommandInv t

/-- 00_scope R7, 70_reset R343: no step changes the configuration; the engine's steps leave IRQ_EN and the argument registers as
the host wrote them. -/
def Obligations.StepKeepsConfiguration : Prop :=
  (∀ (s t : State), step s = .next t → t.cfg = s.cfg) ∧
  ∀ (s t u : State), engineTurn s = some t → step s = .next u →
    u.csr.cmd = s.csr.cmd ∧ u.csr.inBase = s.csr.inBase ∧ u.csr.inLen = s.csr.inLen ∧ u.csr.outBase = s.csr.outBase ∧
    u.csr.outCap = s.csr.outCap ∧ u.csr.doneIe = s.csr.doneIe ∧ u.csr.errIe = s.csr.errIe ∧ u.launch = s.launch ∧
    u.moves = t.moves

/-- 42_generic R195, 70_reset R352, 60_exceptions R310: every command ends. After a launch, with no further move of the host,
the engine's turns reach IDLE, unless the machine stops (a refusal, or an access memory does not admit). -/
def Obligations.EveryCommandEnds : Prop :=
  ∀ (i : Instr) (args : BitVec 28) (s t : State), s.phase = .idle → s.moves = [] →
    (i = .cmdDecodeGeneric args ∨ i = .cmdDecodeTexture args) → exec i s = .next t →
    ∃ n, ∀ u, Host.Core.run Sys2Proof.core n t = .next u → u.phase = .idle
end

