-- ==== Sys2Proof/Laws/Build.lean ====
section
/-! SUPPORT. The canonical table builder (41_huffman R140 to R151): when it succeeds, and what a window selects in a built tree.
The proofs follow the left-justified bound below every code assigned so far. -/

namespace Sys2Proof.Machine

/-! ### Assigning one length -/

/-- The symbols of one length, from the number of codes still free. -/
def placeAll (len : Nat) : List Sym → Nat → Tree → Tree
  | [], _, t => t
  | s :: rest, m, t => placeAll len rest (m - 1) (placeCode len (m - 1) s t)

theorem assignLength_eq (len : Nat) (syms : List Sym) (m : Nat) (t : Tree) :
    assignLength len syms ((m : Int) - 1) t =
      if syms.length ≤ m then some (((m - syms.length : Nat) : Int) - 1, placeAll len syms m t) else none := by
  induction syms generalizing m t with
  | nil => simp [assignLength, placeAll]
  | cons s rest ih =>
    unfold assignLength
    cases m with
    | zero => simp
    | succ m =>
      rw [if_neg (by omega), show ((m + 1 : Nat) : Int) - 1 - 1 = (m : Int) - 1 by omega,
        show (((m + 1 : Nat) : Int) - 1).toNat = m by omega, ih]
      simp only [List.length_cons, placeAll, Nat.add_sub_cancel]
      by_cases h : rest.length ≤ m
      · rw [if_pos h, if_pos (by omega), Nat.add_sub_add_right]
      · rw [if_neg h, if_neg (by omega)]

theorem placeAll_long {len : Nat} (hl : 8 < len) (syms : List Sym) (m : Nat) (t : Tree) :
    placeAll len syms m t = { t with st := t.st ++ syms, empty := if syms = [] then t.empty else false } := by
  induction syms generalizing m t with
  | nil => simp [placeAll]
  | cons s rest ih =>
    rw [placeAll, ih, placeCode, if_neg (by unfold Config.hashBits; omega)]
    simp

theorem placeAll_empty (len : Nat) (syms : List Sym) (m : Nat) (t : Tree) :
    (placeAll len syms m t).empty = if syms = [] then t.empty else false := by
  induction syms generalizing m t with
  | nil => rfl
  | cons s rest ih =>
    rw [placeAll, ih, if_neg (List.cons_ne_nil _ _)]
    split
    · unfold placeCode; split <;> rfl
    · rfl

theorem closeLength_empty (len : Nat) (syms : List Sym) (c : Int) (t : Tree) : (closeLength len syms c t).empty = t.empty := by
  unfold closeLength; split <;> rfl

/-- One length of the build, from the number of codes of the length before that are still free. -/
theorem buildFrom_cons (len : Nat) (syms : List Sym) (rest : List (List Sym)) (f : Nat) (t : Tree) :
    buildFrom len (syms :: rest) ((f : Int) - 1) t =
      if syms.length ≤ 2 * f then
        buildFrom (len + 1) rest (((2 * f - syms.length : Nat) : Int) - 1)
          (closeLength len syms (((2 * f - syms.length : Nat) : Int) - 1) (placeAll len syms (2 * f) t))
      else none := by
  rw [buildFrom, show 2 * ((f : Int) - 1) + 1 = ((2 * f : Nat) : Int) - 1 by omega, assignLength_eq]
  by_cases h : syms.length ≤ 2 * f
  · rw [if_pos h, if_pos h]
  · rw [if_neg h, if_neg h]

/-! ### When a build succeeds (41_huffman R145) -/

theorem buildFrom_none (len : Nat) (lists : List (List Sym)) (f : Nat) (t : Tree) (h : len + lists.length = 17) :
    buildFrom len lists ((f : Int) - 1) t = none ↔ f * 2 ^ (17 - len) < kraftFrom len lists := by
  induction lists generalizing len f t with
  | nil => simp [buildFrom, kraftFrom]
  | cons syms rest ih =>
    rw [buildFrom_cons]
    simp only [List.length_cons] at h
    have hp : 2 ^ (17 - len) = 2 * 2 ^ (16 - len) := by
      rw [← Nat.pow_succ']
      congr 1
      omega
    have hk : kraftFrom len (syms :: rest) = syms.length * 2 ^ (16 - len) + kraftFrom (len + 1) rest := rfl
    have e1 : f * 2 ^ (17 - len) = 2 * f * 2 ^ (16 - len) := by rw [hp]; ac_rfl
    split
    · rename_i hle
      rw [ih _ _ _ (by omega), hk, e1, show 17 - (len + 1) = 16 - len by omega, Nat.sub_mul]
      have : syms.length * 2 ^ (16 - len) ≤ 2 * f * 2 ^ (16 - len) := Nat.mul_le_mul_right _ hle
      omega
    · rename_i hle
      simp only [true_iff]
      rw [hk, e1]
      have : 2 * f * 2 ^ (16 - len) < syms.length * 2 ^ (16 - len) :=
        Nat.mul_lt_mul_of_pos_right (by omega) (Nat.two_pow_pos _)
      omega

theorem build_none (lists : List (List Sym)) (h : lists.length = 16) : build lists = none ↔ 65536 < kraftFrom 1 lists := by
  have := buildFrom_none 1 lists 1 Tree.blank (by omega)
  simpa [build] using this

theorem buildFrom_empty {len : Nat} {lists : List (List Sym)} {f : Nat} {t u : Tree}
    (h : buildFrom len lists ((f : Int) - 1) t = some u) : u.empty = true ↔ t.empty = true ∧ ∀ l, l ∈ lists → l = [] := by
  induction lists generalizing len f t with
  | nil => cases h; simp
  | cons syms rest ih =>
    rw [buildFrom_cons] at h
    split at h
    · rw [ih h, closeLength_empty, placeAll_empty]
      by_cases hs : syms = []
      · simp [hs]
      · simp [hs]
    · cases h

/-! ### What a window selects (41_huffman R143, R144, R147, R148) -/

/-- Every code assigned so far is at or above the left-justified bound `g`, and every window from `g` on has a code. -/
structure TreeInv (g : Nat) (t : Tree) : Prop where
  hashLength : t.hash.length = 256
  below : ∀ i, i * 16777216 < g → t.hash.getD i none = none
  cmpAbove : ∀ e, e ∈ t.cmp → g ≤ e.ct.toNat
  coLt : ∀ e, e ∈ t.cmp → e.co < t.st.length
  covered : ∀ w, g ≤ w → w < 2 ^ 32 → t.hash.getD (w >>> 24) none ≠ none ∨ ∃ e, e ∈ t.cmp ∧ e.ct.toNat ≤ w

theorem blank_inv : TreeInv (2 ^ 32) Tree.blank :=
  { hashLength := List.length_replicate
    below := by
      intro i _
      simp only [Tree.blank, List.getD_eq_getElem?_getD, List.getElem?_replicate]
      split <;> rfl
    cmpAbove := fun _ h => absurd h List.not_mem_nil
    coLt := fun _ h => absurd h List.not_mem_nil
    covered := fun w h h' => absurd h (by omega) }

theorem fillRange_length {α : Type} (lo n : Nat) (e : α) (xs : List α) : (fillRange lo n e xs).length = xs.length := by
  induction xs generalizing lo n with
  | nil => simp [fillRange]
  | cons x xs ih =>
    cases lo with
    | succ lo => simp [fillRange, ih]
    | zero => cases n <;> simp [fillRange, ih]

theorem fillRange_getD {α : Type} (lo n : Nat) (e d : α) (xs : List α) (i : Nat) :
    (fillRange lo n e xs).getD i d = if lo ≤ i ∧ i < lo + n ∧ i < xs.length then e else xs.getD i d := by
  induction xs generalizing lo n i with
  | nil => simp [fillRange]
  | cons x xs ih =>
    cases lo with
    | succ lo =>
      cases i with
      | zero => simp [fillRange]
      | succ i =>
        simp only [fillRange, List.getD_cons_succ, ih, List.length_cons]
        by_cases h : lo ≤ i ∧ i < lo + n ∧ i < xs.length
        · rw [if_pos h, if_pos (by omega)]
        · rw [if_neg h, if_neg (by omega)]
    | zero =>
      cases n with
      | zero =>
        simp only [fillRange]
        rw [if_neg (by omega)]
      | succ n =>
        cases i with
        | zero => simp [fillRange]
        | succ i =>
          simp only [fillRange, List.getD_cons_succ, ih, List.length_cons]
          by_cases h : 0 ≤ i ∧ i < 0 + n ∧ i < xs.length
          · rw [if_pos h, if_pos (by omega)]
          · rw [if_neg h, if_neg (by omega)]

/-- What assigning codes down from the bound `g` to `g'` does to the windows. -/
structure Extends (g g' : Nat) (t t' : Tree) : Prop where
  inv : TreeInv g' t'
  keep : ∀ w, g ≤ w → w < 2 ^ 32 → t'.lookup w = t.lookup w

theorem Extends.refl {g : Nat} {t : Tree} (h : TreeInv g t) : Extends g g t t := ⟨h, fun _ _ _ => rfl⟩

theorem Extends.trans {g g' g'' : Nat} {t t' t'' : Tree} (h : Extends g g' t t') (h' : Extends g' g'' t' t'') (hg : g' ≤ g) :
    Extends g g'' t t'' :=
  ⟨h'.inv, fun w hw hw' => (h'.keep w (Nat.le_trans hg hw) hw').trans (h.keep w hw hw')⟩

theorem pow_split {len : Nat} (h : len ≤ 8) : 2 ^ (32 - len) = 2 ^ (8 - len) * 16777216 := by
  rw [show 16777216 = 2 ^ 24 from rfl, ← Nat.pow_add]
  congr 1
  omega

/-- A short code (41_huffman R143). -/
theorem placeCode_short {len k : Nat} (hl : 1 ≤ len) (hl' : len ≤ 8) (s : Sym) {t : Tree} (hk : k < 2 ^ len)
    (h : TreeInv ((k + 1) * 2 ^ (32 - len)) t) :
    Extends ((k + 1) * 2 ^ (32 - len)) (k * 2 ^ (32 - len)) t (placeCode len k s t) ∧
      ∀ w, w / 2 ^ (32 - len) = k → (placeCode len k s t).lookup w = some (s, len) := by
  have hp := pow_split hl'
  have hpos : 0 < 2 ^ (8 - len) := Nat.two_pow_pos _
  have hcode : placeCode len k s t =
      { t with hash := fillRange (k * 2 ^ (8 - len)) (2 ^ (8 - len)) (some { sym := s, len := len }) t.hash, empty := false } := by
    unfold placeCode Config.hashBits
    rw [if_pos hl']
  have hslot : ∀ i, (placeCode len k s t).hash.getD i none =
      if k * 2 ^ (8 - len) ≤ i ∧ i < k * 2 ^ (8 - len) + 2 ^ (8 - len) ∧ i < 256 then some { sym := s, len := len }
      else t.hash.getD i none := by
    intro i
    rw [hcode]
    simp only
    rw [fillRange_getD, h.hashLength]
  have hcmp : (placeCode len k s t).cmp = t.cmp := by rw [hcode]
  have hst : (placeCode len k s t).st = t.st := by rw [hcode]
  have hend : (k + 1) * 2 ^ (32 - len) = (k * 2 ^ (8 - len) + 2 ^ (8 - len)) * 16777216 := by
    rw [hp, ← Nat.mul_assoc, Nat.succ_mul]
  have hbeg : k * 2 ^ (32 - len) = k * 2 ^ (8 - len) * 16777216 := by rw [hp, ← Nat.mul_assoc]
  have htop : k * 2 ^ (8 - len) + 2 ^ (8 - len) ≤ 256 := by
    rw [← Nat.succ_mul]
    calc (k + 1) * 2 ^ (8 - len) ≤ 2 ^ len * 2 ^ (8 - len) := Nat.mul_le_mul_right _ hk
      _ = 2 ^ 8 := by rw [← Nat.pow_add]; congr 1; omega
      _ = 256 := rfl
  have hin : ∀ w, k * 2 ^ (32 - len) ≤ w → w < (k + 1) * 2 ^ (32 - len) →
      (placeCode len k s t).hash.getD (w >>> 24) none = some { sym := s, len := len } := by
    intro w h1 h2
    rw [hslot, if_pos]
    rw [Nat.shiftRight_eq_div_pow]
    rw [hbeg] at h1
    rw [hend] at h2
    omega
  have hout : ∀ w, (k + 1) * 2 ^ (32 - len) ≤ w →
      (placeCode len k s t).hash.getD (w >>> 24) none = t.hash.getD (w >>> 24) none := by
    intro w h1
    rw [hslot, if_neg]
    rw [Nat.shiftRight_eq_div_pow]
    rw [hend] at h1
    omega
  refine ⟨⟨?_, ?_⟩, ?_⟩
  · refine
      { hashLength := by rw [hcode]; simp only; rw [fillRange_length]; exact h.hashLength
        below := ?_
        cmpAbove := ?_
        coLt := ?_
        covered := ?_ }
    · intro i hi
      rw [hbeg] at hi
      have hi : i < k * 2 ^ (8 - len) := Nat.lt_of_mul_lt_mul_right hi
      rw [hslot, if_neg (by omega)]
      refine h.below i ?_
      rw [hend]
      exact Nat.mul_lt_mul_of_pos_right (by omega) (by decide)
    · intro e he
      rw [hcmp] at he
      have := h.cmpAbove e he
      rw [hend] at this
      rw [hbeg]
      exact Nat.le_trans (Nat.mul_le_mul_right _ (Nat.le_add_right _ _)) this
    · intro e he
      rw [hcmp] at he
      rw [hst]
      exact h.coLt e he
    · intro w hw hw'
      rcases Nat.lt_or_ge w ((k + 1) * 2 ^ (32 - len)) with hlt | hge
      · exact .inl (by rw [hin w hw hlt]; simp)
      · rw [hout w hge, hcmp]
        exact h.covered w hge hw'
  · intro w hw _
    unfold Tree.lookup
    rw [hout w hw, hcmp, hst]
  · intro w hw
    have h0 : 0 < 2 ^ (32 - len) := Nat.two_pow_pos _
    have h1 : k * 2 ^ (32 - len) ≤ w := by
      rw [← hw]
      exact Nat.div_mul_le_self _ _
    have h2 : w < (k + 1) * 2 ^ (32 - len) := by
      rw [← hw]
      exact Nat.lt_mul_of_div_lt (Nat.lt_succ_self _) h0
    unfold Tree.lookup
    rw [hin w h1 h2]

/-- The short codes of one length. -/
theorem placeAll_short {len : Nat} (hl : 1 ≤ len) (hl' : len ≤ 8) (syms : List Sym) (m : Nat) (t : Tree) (hn : syms.length ≤ m)
    (hm : m ≤ 2 ^ len) (h : TreeInv (m * 2 ^ (32 - len)) t) :
    Extends (m * 2 ^ (32 - len)) ((m - syms.length) * 2 ^ (32 - len)) t (placeAll len syms m t) ∧
      ∀ j sym, syms[j]? = some sym → ∀ w, w < 2 ^ 32 → w / 2 ^ (32 - len) = m - 1 - j →
        (placeAll len syms m t).lookup w = some (sym, len) := by
  induction syms generalizing m t with
  | nil => exact ⟨.refl h, fun j sym hj => by simp at hj⟩
  | cons s rest ih =>
    cases m with
    | zero => simp at hn
    | succ k =>
      simp only [List.length_cons] at hn
      obtain ⟨h1, h2⟩ := placeCode_short hl hl' s (by omega) h
      obtain ⟨h3, h4⟩ := ih k (placeCode len k s t) (by omega) (by omega) h1.inv
      have hle : k * 2 ^ (32 - len) ≤ (k + 1) * 2 ^ (32 - len) := Nat.mul_le_mul_right _ (Nat.le_succ k)
      have h5 := h1.trans h3 hle
      rw [placeAll, Nat.add_sub_cancel]
      refine ⟨by rw [List.length_cons, Nat.add_sub_add_right]; exact h5, ?_⟩
      intro j sym hj w hw hq
      cases j with
      | zero =>
        simp only [List.getElem?_cons_zero, Option.some.injEq] at hj
        subst hj
        simp only [Nat.sub_zero] at hq
        rw [h3.keep w (by rw [← hq]; exact Nat.div_mul_le_self _ _) hw]
        exact h2 w hq
      | succ j =>
        rw [List.getElem?_cons_succ] at hj
        exact h4 j sym hj w hw (by omega)

/-- The codes of one length, short or long. -/
theorem length_extends {len : Nat} (hl : 1 ≤ len) (hl' : len ≤ 16) (syms : List Sym) (m : Nat) (t : Tree) (hn : syms.length ≤ m)
    (hm : m ≤ 2 ^ len) (h : TreeInv (m * 2 ^ (32 - len)) t) :
    let t' := closeLength len syms (((m - syms.length : Nat) : Int) - 1) (placeAll len syms m t)
    Extends (m * 2 ^ (32 - len)) ((m - syms.length) * 2 ^ (32 - len)) t t' ∧
      ∀ j sym, syms[j]? = some sym → ∀ w, w < 2 ^ 32 → w / 2 ^ (32 - len) = m - 1 - j → t'.lookup w = some (sym, len) := by
  intro t'
  by_cases h8 : len ≤ 8
  · have : t' = placeAll len syms m t := by
      show closeLength _ _ _ _ = _
      unfold closeLength Config.hashBits
      rw [if_neg (by omega)]
    rw [this]
    exact placeAll_short hl h8 syms m t hn hm h
  · by_cases hs : syms = []
    · have : t' = t := by
        show closeLength _ _ _ _ = _
        unfold closeLength
        rw [if_neg (by simp [hs]), hs]
        rfl
      rw [this, hs]
      exact ⟨.refl h, fun j sym hj => by simp at hj⟩
    · have hpos : 0 < syms.length := List.length_pos_iff.mpr hs
      have hp0 : 0 < 2 ^ (32 - len) := Nat.two_pow_pos _
      have hlt : (m - syms.length) * 2 ^ (32 - len) < 2 ^ 32 := by
        calc (m - syms.length) * 2 ^ (32 - len) < 2 ^ len * 2 ^ (32 - len) := Nat.mul_lt_mul_of_pos_right (by omega) hp0
          _ = 2 ^ 32 := by rw [← Nat.pow_add]; congr 1; omega
      have hle : (m - syms.length) * 2 ^ (32 - len) ≤ m * 2 ^ (32 - len) := Nat.mul_le_mul_right _ (Nat.sub_le _ _)
      have hlt' : (m - syms.length) * 2 ^ (32 - len) < m * 2 ^ (32 - len) := Nat.mul_lt_mul_of_pos_right (by omega) hp0
      have ht : t' = { t with
          st := t.st ++ syms, empty := false
          cmp := t.cmp ++ [{ ct := BitVec.ofNat 32 ((m - syms.length) * 2 ^ (32 - len)), cl := len, co := (t.st ++ syms).length - 1 }] } := by
        show closeLength _ _ _ _ = _
        unfold closeLength Config.hashBits
        rw [if_pos ⟨by omega, hs⟩, placeAll_long (by omega)]
        simp only [if_neg hs]
        rw [show (((m - syms.length : Nat) : Int) - 1 + 1).toNat = m - syms.length by omega]
      have hct : (BitVec.ofNat 32 ((m - syms.length) * 2 ^ (32 - len))).toNat = (m - syms.length) * 2 ^ (32 - len) := by
        rw [BitVec.toNat_ofNat]
        exact Nat.mod_eq_of_lt hlt
      rw [ht]
      refine ⟨⟨?_, ?_⟩, ?_⟩
      · refine
          { hashLength := h.hashLength
            below := fun i hi => h.below i (Nat.lt_of_lt_of_le hi hle)
            cmpAbove := ?_
            coLt := ?_
            covered := ?_ }
        · intro e he
          rcases List.mem_append.mp he with he | he
          · exact Nat.le_trans hle (h.cmpAbove e he)
          · rw [List.mem_singleton] at he
            subst he
            exact Nat.le_of_eq hct.symm
        · intro e he
          simp only [List.length_append]
          rcases List.mem_append.mp he with he | he
          · have := h.coLt e he
            omega
          · rw [List.mem_singleton] at he
            subst he
            simp only [List.length_append]
            omega
        · intro w hw _
          exact .inr ⟨_, List.mem_append_right _ (List.mem_singleton.mpr rfl), by rw [hct]; exact hw⟩
      · intro w hw hw'
        unfold Tree.lookup
        cases hh : t.hash.getD (w >>> 24) none with
        | some e => rfl
        | none =>
          simp only
          rcases h.covered w hw hw' with hc | ⟨e, he, hle⟩
          · exact absurd hh hc
          · rw [List.find?_append]
            cases hf : t.cmp.find? fun e => decide (e.ct.toNat ≤ w) with
            | none =>
              have := List.find?_eq_none.mp hf e he
              simp [hle] at this
            | some e' =>
              simp only [Option.some_or]
              rw [List.getElem?_append_left]
              exact Nat.lt_of_le_of_lt (Nat.sub_le _ _) (h.coLt e' (List.mem_of_find?_eq_some hf))
      · intro j sym hj w hw hq
        have hjl : j < syms.length := by
          rw [List.getElem?_eq_some_iff] at hj
          exact hj.1
        have h1 : (m - 1 - j) * 2 ^ (32 - len) ≤ w := by
          rw [← hq]
          exact Nat.div_mul_le_self _ _
        have h2 : w < (m - 1 - j + 1) * 2 ^ (32 - len) := by
          rw [← hq]
          exact Nat.lt_mul_of_div_lt (Nat.lt_succ_self _) hp0
        have hwg : w < m * 2 ^ (32 - len) :=
          Nat.lt_of_lt_of_le h2 (Nat.mul_le_mul_right _ (by omega))
        have hgw : (m - syms.length) * 2 ^ (32 - len) ≤ w :=
          Nat.le_trans (Nat.mul_le_mul_right _ (by omega)) h1
        have hslot : t.hash.getD (w >>> 24) none = none := by
          refine h.below _ ?_
          rw [Nat.shiftRight_eq_div_pow]
          exact Nat.lt_of_le_of_lt (Nat.div_mul_le_self _ _) hwg
        have hf : t.cmp.find? (fun e => decide (e.ct.toNat ≤ w)) = none := by
          rw [List.find?_eq_none]
          intro e he
          have := h.cmpAbove e he
          simp only [decide_eq_true_eq]
          omega
        unfold Tree.lookup
        simp only [hslot]
        rw [List.find?_append, hf, Option.none_or, List.find?_cons]
        simp only [hct, decide_eq_true hgw]
        have hidx : (t.st ++ syms).length - 1 - ((w - (m - syms.length) * 2 ^ (32 - len)) >>> (32 - len)) = t.st.length + j := by
          rw [Nat.shiftRight_eq_div_pow, Nat.mul_comm, Nat.sub_mul_div, hq, List.length_append]
          omega
        rw [hidx, List.getElem?_append_right (Nat.le_add_right _ _), Nat.add_sub_cancel_left, hj]
        rfl

/-- The windows of every length from `len` on (41_huffman R151). -/
theorem buildFrom_lookup {len : Nat} {lists : List (List Sym)} {f : Nat} {t u : Tree} (hl : 1 ≤ len)
    (hlen : len + lists.length = 17) (hf : f ≤ 2 ^ (len - 1)) (h : TreeInv (f * 2 ^ (33 - len)) t)
    (hb : buildFrom len lists ((f : Int) - 1) t = some u) :
    (∀ w, f * 2 ^ (33 - len) ≤ w → w < 2 ^ 32 → u.lookup w = t.lookup w) ∧
      ∀ (a j : Nat) (l : List Sym) (sym : Sym), lists[a]? = some l → l[j]? = some sym →
        ∀ w, w < 2 ^ 32 → ((w / 2 ^ (32 - (len + a)) : Nat) : Int) = counterFrom a lists (2 * (f : Int) - 1) - j →
          u.lookup w = some (sym, len + a) := by
  induction lists generalizing len f t with
  | nil =>
    cases hb
    exact ⟨fun _ _ _ => rfl, fun a j l sym ha => by simp at ha⟩
  | cons syms rest ih =>
    simp only [List.length_cons] at hlen
    rw [buildFrom_cons] at hb
    split at hb
    · rename_i hn
      have hp : f * 2 ^ (33 - len) = 2 * f * 2 ^ (32 - len) := by
        rw [show 33 - len = 32 - len + 1 by omega, Nat.pow_succ']
        ac_rfl
      have hm : 2 * f ≤ 2 ^ len := by
        have : 2 ^ len = 2 * 2 ^ (len - 1) := by
          rw [← Nat.pow_succ']
          congr 1
          omega
        omega
      rw [hp] at h ⊢
      obtain ⟨h1, h2⟩ := length_extends hl (by omega) syms (2 * f) t hn hm h
      obtain ⟨h3, h4⟩ := ih (len := len + 1) (by omega) (by omega) (by simp only [Nat.add_sub_cancel]; omega)
        (by rw [show 33 - (len + 1) = 32 - len by omega]; exact h1.inv) hb
      rw [show 33 - (len + 1) = 32 - len by omega] at h3
      have hle : (2 * f - syms.length) * 2 ^ (32 - len) ≤ 2 * f * 2 ^ (32 - len) := Nat.mul_le_mul_right _ (Nat.sub_le _ _)
      refine ⟨fun w hw hw' => (h3 w (Nat.le_trans hle hw) hw').trans (h1.keep w hw hw'), ?_⟩
      intro a j l sym ha hj w hw hq
      cases a with
      | zero =>
        simp only [List.getElem?_cons_zero, Option.some.injEq] at ha
        subst ha
        have hjl : j < syms.length := by
          rw [List.getElem?_eq_some_iff] at hj
          exact hj.1
        simp only [counterFrom, Nat.add_zero] at hq
        have hq' : w / 2 ^ (32 - len) = 2 * f - 1 - j := by omega
        rw [h3 w ?_ hw]
        · exact h2 j sym hj w hw hq'
        · refine Nat.le_trans (Nat.mul_le_mul_right _ ?_) (Nat.div_mul_le_self w (2 ^ (32 - len)))
          omega
      | succ a =>
        rw [List.getElem?_cons_succ] at ha
        have := h4 a j l sym ha hj w hw (by
          rw [show len + 1 + a = len + (a + 1) by omega, hq, counterFrom]
          congr 2
          omega)
        rwa [show len + 1 + a = len + (a + 1) by omega] at this
    · cases hb

/-- The symbol and length a window selects in a built tree (41_huffman R151). -/
theorem build_lookup {lists : List (List Sym)} {u : Tree} (hlen : lists.length = 16) (hb : build lists = some u) {a j : Nat}
    {l : List Sym} {sym : Sym} (ha : lists[a]? = some l) (hj : l[j]? = some sym) {w : Nat} (hw : w < 2 ^ 32)
    (hq : ((w / 2 ^ (31 - a) : Nat) : Int) = startCounter lists (a + 1) - j) : u.lookup w = some (sym, a + 1) := by
  have h := buildFrom_lookup (len := 1) (f := 1) (by omega) (by omega) (by omega) (by simpa using blank_inv) hb
  have := h.2 a j l sym ha hj w hw (by
    rw [show 32 - (1 + a) = 31 - a by omega, hq]
    rfl)
  rwa [Nat.add_comm] at this

/-! ### The codes (41_huffman R150) -/

/-- The number of codes free at the start of length `a + 1` after `len - 1`, and how many symbols it takes. -/
theorem counterFrom_bounds {len : Nat} {lists : List (List Sym)} {f : Nat} {t u : Tree}
    (hf : f ≤ 2 ^ (len - 1)) (hl : 1 ≤ len) (hb : buildFrom len lists ((f : Int) - 1) t = some u) {a : Nat} {l : List Sym}
    (ha : lists[a]? = some l) :
    ∃ m : Nat, counterFrom a lists (2 * (f : Int) - 1) = (m : Int) - 1 ∧ l.length ≤ m ∧ m ≤ 2 ^ (len + a) ∧ m ≤ 2 * f * 2 ^ a := by
  induction lists generalizing len f t a with
  | nil => simp at ha
  | cons syms rest ih =>
    rw [buildFrom_cons] at hb
    split at hb
    · rename_i hn
      have hm : 2 * f ≤ 2 ^ len := by
        have : 2 ^ len = 2 * 2 ^ (len - 1) := by
          rw [← Nat.pow_succ']
          congr 1
          omega
        omega
      cases a with
      | zero =>
        simp only [List.getElem?_cons_zero, Option.some.injEq] at ha
        subst ha
        exact ⟨2 * f, by simp [counterFrom], hn, by simpa using hm, by simp⟩
      | succ a =>
        rw [List.getElem?_cons_succ] at ha
        obtain ⟨m, h1, h2, h3, h4⟩ := ih (len := len + 1) (by simp only [Nat.add_sub_cancel]; omega) (by omega) hb ha
        refine ⟨m, ?_, h2, by rwa [show len + (a + 1) = len + 1 + a by omega], ?_⟩
        · rw [counterFrom, ← h1]
          congr 1
          omega
        · refine Nat.le_trans h4 ?_
          rw [Nat.pow_succ', ← Nat.mul_assoc]
          refine Nat.mul_le_mul_right _ ?_
          omega
    · cases hb

end Sys2Proof.Machine
end

