-- ==== Sys2Proof/Laws/Encoding.lean ====
section
/-! SUPPORT. The decoder on the encoder's words: the fields of a CMD word and of a header value come back, and a 9-bit symbol is
read whole. -/

namespace Sys2Proof

theorem low_of_append {n k : Nat} (x : BitVec n) (y : BitVec k) : (x ++ y).setWidth k = y := by
  apply BitVec.eq_of_getLsbD_eq
  intro i hi
  rw [BitVec.getLsbD_setWidth, BitVec.getLsbD_append]
  simp [hi]

theorem high_of_append {n k : Nat} (x : BitVec n) (y : BitVec k) : ((x ++ y) >>> k).setWidth n = x := by
  apply BitVec.eq_of_getLsbD_eq
  intro i hi
  rw [BitVec.getLsbD_setWidth, BitVec.getLsbD_ushiftRight, BitVec.getLsbD_append]
  simp [hi]

theorem append_of_parts {n k : Nat} (w : BitVec (n + k)) : ((w >>> k).setWidth n : BitVec n) ++ (w.setWidth k : BitVec k) = w := by
  apply BitVec.eq_of_getLsbD_eq
  intro i hi
  rw [BitVec.getLsbD_append, BitVec.getLsbD_setWidth, BitVec.getLsbD_setWidth, BitVec.getLsbD_ushiftRight]
  by_cases h : i < k
  · simp [h]
  · simp only [h, decide_false]
    rw [show k + (i - k) = i by omega]
    simp
    omega

/-- The OP and the argument bits of a CMD word. -/
theorem cmdWord_low (op : BitVec 4) (args : BitVec 28) : (cmdWord op args).setWidth 4 = op := low_of_append args op

theorem cmdWord_high (op : BitVec 4) (args : BitVec 28) : ((cmdWord op args) >>> 4).setWidth 28 = args := high_of_append args op

theorem cmdWord_of_parts (w : Word) : cmdWord (w.setWidth 4) ((w >>> 4).setWidth 28) = w := append_of_parts (n := 28) (k := 4) w

/-- The len and rep-1 fields of a header value. -/
theorem hdrValue_low (len : BitVec 5) (rep : BitVec 11) : (hdrValue len rep).setWidth 5 = len := low_of_append rep len

theorem hdrValue_high (len : BitVec 5) (rep : BitVec 11) : ((hdrValue len rep) >>> 5).setWidth 11 = rep := high_of_append rep len

theorem hdrValue_of_parts (v : Sym) : hdrValue (v.setWidth 5) ((v >>> 5).setWidth 11) = v := append_of_parts (n := 11) (k := 5) v

/-- A symbol-tree value of 256 to 511, as its 9 bits. -/
theorem decodeSym_nine (s : BitVec 9) (h : 256 ≤ s.toNat) :
    decodeSym (s.setWidth 16) = decodeLengthCode ((s.toNat - 256) / 4) (s.setWidth 2) s := by
  have hl := s.isLt
  have h1 : (s.setWidth 16).toNat = s.toNat := by rw [BitVec.toNat_setWidth]; omega
  unfold decodeSym
  rw [h1, if_neg (by omega), if_pos (by omega), BitVec.setWidth_setWidth_of_le _ (by omega),
    BitVec.setWidth_setWidth_of_le _ (by omega), BitVec.setWidth_eq]

/-- A copy-tree value below 512, as its 9 bits. -/
theorem decodeOff_nine (s : BitVec 9) : decodeOff (s.setWidth 16) = decodeOffsetCode (s.toNat / 2) (s.setWidth 1) s := by
  have hl := s.isLt
  have h1 : (s.setWidth 16).toNat = s.toNat := by rw [BitVec.toNat_setWidth]; omega
  unfold decodeOff
  rw [h1, if_pos (by omega), BitVec.setWidth_setWidth_of_le _ (by omega), BitVec.setWidth_setWidth_of_le _ (by omega),
    BitVec.setWidth_eq]

end Sys2Proof
end

