-- ==== Sys2Proof/Laws/State.lean ====
section
/-! SUPPORT. What each update of the state changes and keeps, one lemma per field: later proofs rewrite with these and unfold no
record update. -/

namespace Sys2Proof.Machine

/-! ### setByte -/
@[simp] theorem setByte_cfg (a : Nat) (b : Byte) (s : State) : (setByte a b s).cfg = s.cfg := rfl
@[simp] theorem setByte_csr (a : Nat) (b : Byte) (s : State) : (setByte a b s).csr = s.csr := rfl
@[simp] theorem setByte_phase (a : Nat) (b : Byte) (s : State) : (setByte a b s).phase = s.phase := rfl
@[simp] theorem setByte_launch (a : Nat) (b : Byte) (s : State) : (setByte a b s).launch = s.launch := rfl
@[simp] theorem setByte_br (a : Nat) (b : Byte) (s : State) : (setByte a b s).br = s.br := rfl
@[simp] theorem setByte_dictG (a : Nat) (b : Byte) (s : State) : (setByte a b s).dictG = s.dictG := rfl
@[simp] theorem setByte_dictT (a : Nat) (b : Byte) (s : State) : (setByte a b s).dictT = s.dictT := rfl
@[simp] theorem setByte_dictReadyG (a : Nat) (b : Byte) (s : State) : (setByte a b s).dictReadyG = s.dictReadyG := rfl
@[simp] theorem setByte_dictReadyT (a : Nat) (b : Byte) (s : State) : (setByte a b s).dictReadyT = s.dictReadyT := rfl
@[simp] theorem setByte_symT (a : Nat) (b : Byte) (s : State) : (setByte a b s).symT = s.symT := rfl
@[simp] theorem setByte_copyT (a : Nat) (b : Byte) (s : State) : (setByte a b s).copyT = s.copyT := rfl
@[simp] theorem setByte_hdr (a : Nat) (b : Byte) (s : State) : (setByte a b s).hdr = s.hdr := rfl
@[simp] theorem setByte_gen (a : Nat) (b : Byte) (s : State) : (setByte a b s).gen = s.gen := rfl
@[simp] theorem setByte_tex (a : Nat) (b : Byte) (s : State) : (setByte a b s).tex = s.tex := rfl
@[simp] theorem setByte_stage (a : Nat) (b : Byte) (s : State) : (setByte a b s).stage = s.stage := rfl
@[simp] theorem setByte_mem (a : Nat) (b : Byte) (s : State) : (setByte a b s).mem = s.mem.write a b := rfl
@[simp] theorem setByte_free (a : Nat) (b : Byte) (s : State) : (setByte a b s).free = freeWithout s.free a 1 := rfl
@[simp] theorem setByte_moves (a : Nat) (b : Byte) (s : State) : (setByte a b s).moves = s.moves := rfl
@[simp] theorem setByte_hostData (a : Nat) (b : Byte) (s : State) : (setByte a b s).hostData = s.hostData := rfl
@[simp] theorem setByte_freeCount (a : Nat) (b : Byte) (s : State) : (setByte a b s).freeCount = s.freeCount := rfl

/-! ### zeroBytes -/
@[simp] theorem zeroBytes_cfg (base n : Nat) (s : State) : (zeroBytes base n s).cfg = s.cfg := rfl
@[simp] theorem zeroBytes_csr (base n : Nat) (s : State) : (zeroBytes base n s).csr = s.csr := rfl
@[simp] theorem zeroBytes_phase (base n : Nat) (s : State) : (zeroBytes base n s).phase = s.phase := rfl
@[simp] theorem zeroBytes_launch (base n : Nat) (s : State) : (zeroBytes base n s).launch = s.launch := rfl
@[simp] theorem zeroBytes_br (base n : Nat) (s : State) : (zeroBytes base n s).br = s.br := rfl
@[simp] theorem zeroBytes_dictG (base n : Nat) (s : State) : (zeroBytes base n s).dictG = s.dictG := rfl
@[simp] theorem zeroBytes_dictT (base n : Nat) (s : State) : (zeroBytes base n s).dictT = s.dictT := rfl
@[simp] theorem zeroBytes_dictReadyG (base n : Nat) (s : State) : (zeroBytes base n s).dictReadyG = s.dictReadyG := rfl
@[simp] theorem zeroBytes_dictReadyT (base n : Nat) (s : State) : (zeroBytes base n s).dictReadyT = s.dictReadyT := rfl
@[simp] theorem zeroBytes_symT (base n : Nat) (s : State) : (zeroBytes base n s).symT = s.symT := rfl
@[simp] theorem zeroBytes_copyT (base n : Nat) (s : State) : (zeroBytes base n s).copyT = s.copyT := rfl
@[simp] theorem zeroBytes_hdr (base n : Nat) (s : State) : (zeroBytes base n s).hdr = s.hdr := rfl
@[simp] theorem zeroBytes_gen (base n : Nat) (s : State) : (zeroBytes base n s).gen = s.gen := rfl
@[simp] theorem zeroBytes_tex (base n : Nat) (s : State) : (zeroBytes base n s).tex = s.tex := rfl
@[simp] theorem zeroBytes_stage (base n : Nat) (s : State) : (zeroBytes base n s).stage = s.stage := rfl
@[simp] theorem zeroBytes_mem (base n : Nat) (s : State) : (zeroBytes base n s).mem = s.mem.clear base n := rfl
@[simp] theorem zeroBytes_free (base n : Nat) (s : State) : (zeroBytes base n s).free = freeWithout s.free base n := rfl
@[simp] theorem zeroBytes_moves (base n : Nat) (s : State) : (zeroBytes base n s).moves = s.moves := rfl
@[simp] theorem zeroBytes_hostData (base n : Nat) (s : State) : (zeroBytes base n s).hostData = s.hostData := rfl
@[simp] theorem zeroBytes_freeCount (base n : Nat) (s : State) : (zeroBytes base n s).freeCount = s.freeCount := rfl

/-! ### brInit -/
@[simp] theorem brInit_cfg (s : State) : (brInit s).cfg = s.cfg := rfl
@[simp] theorem brInit_csr (s : State) : (brInit s).csr = s.csr := rfl
@[simp] theorem brInit_phase (s : State) : (brInit s).phase = s.phase := rfl
@[simp] theorem brInit_launch (s : State) : (brInit s).launch = s.launch := rfl
@[simp] theorem brInit_br (s : State) :
    (brInit s).br = { n := s.launch.inLen.toNat / 4, w := 0, acc := 0, bits := 0, c := 0 } := rfl
@[simp] theorem brInit_dictG (s : State) : (brInit s).dictG = s.dictG := rfl
@[simp] theorem brInit_dictT (s : State) : (brInit s).dictT = s.dictT := rfl
@[simp] theorem brInit_dictReadyG (s : State) : (brInit s).dictReadyG = s.dictReadyG := rfl
@[simp] theorem brInit_dictReadyT (s : State) : (brInit s).dictReadyT = s.dictReadyT := rfl
@[simp] theorem brInit_symT (s : State) : (brInit s).symT = s.symT := rfl
@[simp] theorem brInit_copyT (s : State) : (brInit s).copyT = s.copyT := rfl
@[simp] theorem brInit_hdr (s : State) : (brInit s).hdr = s.hdr := rfl
@[simp] theorem brInit_gen (s : State) : (brInit s).gen = s.gen := rfl
@[simp] theorem brInit_tex (s : State) : (brInit s).tex = s.tex := rfl
@[simp] theorem brInit_stage (s : State) : (brInit s).stage = s.stage := rfl
@[simp] theorem brInit_mem (s : State) : (brInit s).mem = s.mem := rfl
@[simp] theorem brInit_free (s : State) : (brInit s).free = s.free := rfl
@[simp] theorem brInit_moves (s : State) : (brInit s).moves = s.moves := rfl
@[simp] theorem brInit_hostData (s : State) : (brInit s).hostData = s.hostData := rfl
@[simp] theorem brInit_freeCount (s : State) : (brInit s).freeCount = s.freeCount := rfl

/-! ### pushWord -/
@[simp] theorem pushWord_cfg (w : Nat) (s : State) : (pushWord w s).cfg = s.cfg := rfl
@[simp] theorem pushWord_csr (w : Nat) (s : State) : (pushWord w s).csr = s.csr := rfl
@[simp] theorem pushWord_phase (w : Nat) (s : State) : (pushWord w s).phase = s.phase := rfl
@[simp] theorem pushWord_launch (w : Nat) (s : State) : (pushWord w s).launch = s.launch := rfl
@[simp] theorem pushWord_br (w : Nat) (s : State) :
    (pushWord w s).br = { s.br with acc := s.br.acc ||| (BitVec.ofNat 64 w <<< (32 - s.br.bits)), bits := s.br.bits + 32, w := s.br.w + 1 } := rfl
@[simp] theorem pushWord_dictG (w : Nat) (s : State) : (pushWord w s).dictG = s.dictG := rfl
@[simp] theorem pushWord_dictT (w : Nat) (s : State) : (pushWord w s).dictT = s.dictT := rfl
@[simp] theorem pushWord_dictReadyG (w : Nat) (s : State) : (pushWord w s).dictReadyG = s.dictReadyG := rfl
@[simp] theorem pushWord_dictReadyT (w : Nat) (s : State) : (pushWord w s).dictReadyT = s.dictReadyT := rfl
@[simp] theorem pushWord_symT (w : Nat) (s : State) : (pushWord w s).symT = s.symT := rfl
@[simp] theorem pushWord_copyT (w : Nat) (s : State) : (pushWord w s).copyT = s.copyT := rfl
@[simp] theorem pushWord_hdr (w : Nat) (s : State) : (pushWord w s).hdr = s.hdr := rfl
@[simp] theorem pushWord_gen (w : Nat) (s : State) : (pushWord w s).gen = s.gen := rfl
@[simp] theorem pushWord_tex (w : Nat) (s : State) : (pushWord w s).tex = s.tex := rfl
@[simp] theorem pushWord_stage (w : Nat) (s : State) : (pushWord w s).stage = s.stage := rfl
@[simp] theorem pushWord_mem (w : Nat) (s : State) : (pushWord w s).mem = s.mem := rfl
@[simp] theorem pushWord_free (w : Nat) (s : State) : (pushWord w s).free = s.free := rfl
@[simp] theorem pushWord_moves (w : Nat) (s : State) : (pushWord w s).moves = s.moves := rfl
@[simp] theorem pushWord_hostData (w : Nat) (s : State) : (pushWord w s).hostData = s.hostData := rfl
@[simp] theorem pushWord_freeCount (w : Nat) (s : State) : (pushWord w s).freeCount = s.freeCount := rfl

/-! ### dropBits -/
@[simp] theorem dropBits_cfg (n : Nat) (s : State) : (dropBits n s).cfg = s.cfg := rfl
@[simp] theorem dropBits_csr (n : Nat) (s : State) : (dropBits n s).csr = s.csr := rfl
@[simp] theorem dropBits_phase (n : Nat) (s : State) : (dropBits n s).phase = s.phase := rfl
@[simp] theorem dropBits_launch (n : Nat) (s : State) : (dropBits n s).launch = s.launch := rfl
@[simp] theorem dropBits_br (n : Nat) (s : State) :
    (dropBits n s).br = { s.br with acc := s.br.acc <<< n, bits := s.br.bits - n, c := s.br.c + n } := rfl
@[simp] theorem dropBits_dictG (n : Nat) (s : State) : (dropBits n s).dictG = s.dictG := rfl
@[simp] theorem dropBits_dictT (n : Nat) (s : State) : (dropBits n s).dictT = s.dictT := rfl
@[simp] theorem dropBits_dictReadyG (n : Nat) (s : State) : (dropBits n s).dictReadyG = s.dictReadyG := rfl
@[simp] theorem dropBits_dictReadyT (n : Nat) (s : State) : (dropBits n s).dictReadyT = s.dictReadyT := rfl
@[simp] theorem dropBits_symT (n : Nat) (s : State) : (dropBits n s).symT = s.symT := rfl
@[simp] theorem dropBits_copyT (n : Nat) (s : State) : (dropBits n s).copyT = s.copyT := rfl
@[simp] theorem dropBits_hdr (n : Nat) (s : State) : (dropBits n s).hdr = s.hdr := rfl
@[simp] theorem dropBits_gen (n : Nat) (s : State) : (dropBits n s).gen = s.gen := rfl
@[simp] theorem dropBits_tex (n : Nat) (s : State) : (dropBits n s).tex = s.tex := rfl
@[simp] theorem dropBits_stage (n : Nat) (s : State) : (dropBits n s).stage = s.stage := rfl
@[simp] theorem dropBits_mem (n : Nat) (s : State) : (dropBits n s).mem = s.mem := rfl
@[simp] theorem dropBits_free (n : Nat) (s : State) : (dropBits n s).free = s.free := rfl
@[simp] theorem dropBits_moves (n : Nat) (s : State) : (dropBits n s).moves = s.moves := rfl
@[simp] theorem dropBits_hostData (n : Nat) (s : State) : (dropBits n s).hostData = s.hostData := rfl
@[simp] theorem dropBits_freeCount (n : Nat) (s : State) : (dropBits n s).freeCount = s.freeCount := rfl

/-! ### setCmd -/
@[simp] theorem setCmd_cfg (w : Word) (s : State) : (setCmd w s).cfg = s.cfg := rfl
@[simp] theorem setCmd_csr (w : Word) (s : State) : (setCmd w s).csr = { s.csr with cmd := w } := rfl
@[simp] theorem setCmd_phase (w : Word) (s : State) : (setCmd w s).phase = s.phase := rfl
@[simp] theorem setCmd_launch (w : Word) (s : State) : (setCmd w s).launch = s.launch := rfl
@[simp] theorem setCmd_br (w : Word) (s : State) : (setCmd w s).br = s.br := rfl
@[simp] theorem setCmd_dictG (w : Word) (s : State) : (setCmd w s).dictG = s.dictG := rfl
@[simp] theorem setCmd_dictT (w : Word) (s : State) : (setCmd w s).dictT = s.dictT := rfl
@[simp] theorem setCmd_dictReadyG (w : Word) (s : State) : (setCmd w s).dictReadyG = s.dictReadyG := rfl
@[simp] theorem setCmd_dictReadyT (w : Word) (s : State) : (setCmd w s).dictReadyT = s.dictReadyT := rfl
@[simp] theorem setCmd_symT (w : Word) (s : State) : (setCmd w s).symT = s.symT := rfl
@[simp] theorem setCmd_copyT (w : Word) (s : State) : (setCmd w s).copyT = s.copyT := rfl
@[simp] theorem setCmd_hdr (w : Word) (s : State) : (setCmd w s).hdr = s.hdr := rfl
@[simp] theorem setCmd_gen (w : Word) (s : State) : (setCmd w s).gen = s.gen := rfl
@[simp] theorem setCmd_tex (w : Word) (s : State) : (setCmd w s).tex = s.tex := rfl
@[simp] theorem setCmd_stage (w : Word) (s : State) : (setCmd w s).stage = s.stage := rfl
@[simp] theorem setCmd_mem (w : Word) (s : State) : (setCmd w s).mem = s.mem := rfl
@[simp] theorem setCmd_free (w : Word) (s : State) : (setCmd w s).free = s.free := rfl
@[simp] theorem setCmd_moves (w : Word) (s : State) : (setCmd w s).moves = s.moves := rfl
@[simp] theorem setCmd_hostData (w : Word) (s : State) : (setCmd w s).hostData = s.hostData := rfl
@[simp] theorem setCmd_freeCount (w : Word) (s : State) : (setCmd w s).freeCount = s.freeCount := rfl

/-! ### launchCommand -/
@[simp] theorem launchCommand_cfg (s : State) : (launchCommand s).cfg = s.cfg := rfl
@[simp] theorem launchCommand_csr (s : State) :
    (launchCommand s).csr = { s.csr with done := false, error := false, errCode := 0, resultSize := 0, errWord := 0, errOutpos := 0 } := rfl
@[simp] theorem launchCommand_phase (s : State) : (launchCommand s).phase = .busy := rfl
@[simp] theorem launchCommand_launch (s : State) :
    (launchCommand s).launch = { cmd := s.csr.cmd, inBase := s.csr.inBase, inLen := s.csr.inLen, outBase := s.csr.outBase, outCap := s.csr.outCap } := rfl
@[simp] theorem launchCommand_br (s : State) : (launchCommand s).br = BitReader.reset := rfl
@[simp] theorem launchCommand_dictG (s : State) : (launchCommand s).dictG = s.dictG := rfl
@[simp] theorem launchCommand_dictT (s : State) : (launchCommand s).dictT = s.dictT := rfl
@[simp] theorem launchCommand_dictReadyG (s : State) : (launchCommand s).dictReadyG = s.dictReadyG := rfl
@[simp] theorem launchCommand_dictReadyT (s : State) : (launchCommand s).dictReadyT = s.dictReadyT := rfl
@[simp] theorem launchCommand_symT (s : State) : (launchCommand s).symT = s.symT := rfl
@[simp] theorem launchCommand_copyT (s : State) : (launchCommand s).copyT = s.copyT := rfl
@[simp] theorem launchCommand_hdr (s : State) : (launchCommand s).hdr = Header.reset := rfl
@[simp] theorem launchCommand_gen (s : State) : (launchCommand s).gen = GenericRegs.reset := rfl
@[simp] theorem launchCommand_tex (s : State) : (launchCommand s).tex = TextureRegs.reset := rfl
@[simp] theorem launchCommand_stage (s : State) : (launchCommand s).stage = .start := rfl
@[simp] theorem launchCommand_mem (s : State) : (launchCommand s).mem = s.mem := rfl
@[simp] theorem launchCommand_free (s : State) : (launchCommand s).free = s.free := rfl
@[simp] theorem launchCommand_moves (s : State) : (launchCommand s).moves = s.moves := rfl
@[simp] theorem launchCommand_hostData (s : State) : (launchCommand s).hostData = s.hostData := rfl
@[simp] theorem launchCommand_freeCount (s : State) : (launchCommand s).freeCount = s.freeCount := rfl

/-! ### reservedCommand -/
@[simp] theorem reservedCommand_cfg (s : State) : (reservedCommand s).cfg = s.cfg := rfl
@[simp] theorem reservedCommand_csr (s : State) :
    (reservedCommand s).csr = { s.csr with done := false, resultSize := 0, errWord := 0, errOutpos := 0, error := true, errCode := errCode .illegalCommand } := rfl
@[simp] theorem reservedCommand_phase (s : State) : (reservedCommand s).phase = s.phase := rfl
@[simp] theorem reservedCommand_launch (s : State) : (reservedCommand s).launch = s.launch := rfl
@[simp] theorem reservedCommand_br (s : State) : (reservedCommand s).br = s.br := rfl
@[simp] theorem reservedCommand_dictG (s : State) : (reservedCommand s).dictG = s.dictG := rfl
@[simp] theorem reservedCommand_dictT (s : State) : (reservedCommand s).dictT = s.dictT := rfl
@[simp] theorem reservedCommand_dictReadyG (s : State) : (reservedCommand s).dictReadyG = s.dictReadyG := rfl
@[simp] theorem reservedCommand_dictReadyT (s : State) : (reservedCommand s).dictReadyT = s.dictReadyT := rfl
@[simp] theorem reservedCommand_symT (s : State) : (reservedCommand s).symT = s.symT := rfl
@[simp] theorem reservedCommand_copyT (s : State) : (reservedCommand s).copyT = s.copyT := rfl
@[simp] theorem reservedCommand_hdr (s : State) : (reservedCommand s).hdr = s.hdr := rfl
@[simp] theorem reservedCommand_gen (s : State) : (reservedCommand s).gen = s.gen := rfl
@[simp] theorem reservedCommand_tex (s : State) : (reservedCommand s).tex = s.tex := rfl
@[simp] theorem reservedCommand_stage (s : State) : (reservedCommand s).stage = s.stage := rfl
@[simp] theorem reservedCommand_mem (s : State) : (reservedCommand s).mem = s.mem := rfl
@[simp] theorem reservedCommand_free (s : State) : (reservedCommand s).free = s.free := rfl
@[simp] theorem reservedCommand_moves (s : State) : (reservedCommand s).moves = s.moves := rfl
@[simp] theorem reservedCommand_hostData (s : State) : (reservedCommand s).hostData = s.hostData := rfl
@[simp] theorem reservedCommand_freeCount (s : State) : (reservedCommand s).freeCount = s.freeCount := rfl

/-! ### countCode -/
@[simp] theorem countCode_cfg (s : State) : (countCode s).cfg = s.cfg := rfl
@[simp] theorem countCode_csr (s : State) : (countCode s).csr = s.csr := rfl
@[simp] theorem countCode_phase (s : State) : (countCode s).phase = s.phase := rfl
@[simp] theorem countCode_launch (s : State) : (countCode s).launch = s.launch := rfl
@[simp] theorem countCode_br (s : State) : (countCode s).br = s.br := rfl
@[simp] theorem countCode_dictG (s : State) : (countCode s).dictG = s.dictG := rfl
@[simp] theorem countCode_dictT (s : State) : (countCode s).dictT = s.dictT := rfl
@[simp] theorem countCode_dictReadyG (s : State) : (countCode s).dictReadyG = s.dictReadyG := rfl
@[simp] theorem countCode_dictReadyT (s : State) : (countCode s).dictReadyT = s.dictReadyT := rfl
@[simp] theorem countCode_symT (s : State) : (countCode s).symT = s.symT := rfl
@[simp] theorem countCode_copyT (s : State) : (countCode s).copyT = s.copyT := rfl
@[simp] theorem countCode_hdr (s : State) : (countCode s).hdr = s.hdr := rfl
@[simp] theorem countCode_gen (s : State) : (countCode s).gen = { s.gen with count := s.gen.count + 1 } := rfl
@[simp] theorem countCode_tex (s : State) : (countCode s).tex = s.tex := rfl
@[simp] theorem countCode_stage (s : State) : (countCode s).stage = .symLoop := rfl
@[simp] theorem countCode_mem (s : State) : (countCode s).mem = s.mem := rfl
@[simp] theorem countCode_free (s : State) : (countCode s).free = s.free := rfl
@[simp] theorem countCode_moves (s : State) : (countCode s).moves = s.moves := rfl
@[simp] theorem countCode_hostData (s : State) : (countCode s).hostData = s.hostData := rfl
@[simp] theorem countCode_freeCount (s : State) : (countCode s).freeCount = s.freeCount := rfl

/-! ### markColor -/
@[simp] theorem markColor_cfg (i : Nat) (s : State) : (markColor i s).cfg = s.cfg := rfl
@[simp] theorem markColor_csr (i : Nat) (s : State) : (markColor i s).csr = s.csr := rfl
@[simp] theorem markColor_phase (i : Nat) (s : State) : (markColor i s).phase = s.phase := rfl
@[simp] theorem markColor_launch (i : Nat) (s : State) : (markColor i s).launch = s.launch := rfl
@[simp] theorem markColor_br (i : Nat) (s : State) : (markColor i s).br = s.br := rfl
@[simp] theorem markColor_dictG (i : Nat) (s : State) : (markColor i s).dictG = s.dictG := rfl
@[simp] theorem markColor_dictT (i : Nat) (s : State) : (markColor i s).dictT = s.dictT := rfl
@[simp] theorem markColor_dictReadyG (i : Nat) (s : State) : (markColor i s).dictReadyG = s.dictReadyG := rfl
@[simp] theorem markColor_dictReadyT (i : Nat) (s : State) : (markColor i s).dictReadyT = s.dictReadyT := rfl
@[simp] theorem markColor_symT (i : Nat) (s : State) : (markColor i s).symT = s.symT := rfl
@[simp] theorem markColor_copyT (i : Nat) (s : State) : (markColor i s).copyT = s.copyT := rfl
@[simp] theorem markColor_hdr (i : Nat) (s : State) : (markColor i s).hdr = s.hdr := rfl
@[simp] theorem markColor_gen (i : Nat) (s : State) : (markColor i s).gen = s.gen := rfl
@[simp] theorem markColor_tex (i : Nat) (s : State) :
    (markColor i s).tex = { s.tex with colorMap := s.tex.colorMap.set i true } := rfl
@[simp] theorem markColor_stage (i : Nat) (s : State) : (markColor i s).stage = s.stage := rfl
@[simp] theorem markColor_mem (i : Nat) (s : State) : (markColor i s).mem = s.mem := rfl
@[simp] theorem markColor_free (i : Nat) (s : State) : (markColor i s).free = s.free := rfl
@[simp] theorem markColor_moves (i : Nat) (s : State) : (markColor i s).moves = s.moves := rfl
@[simp] theorem markColor_hostData (i : Nat) (s : State) : (markColor i s).hostData = s.hostData := rfl
@[simp] theorem markColor_freeCount (i : Nat) (s : State) : (markColor i s).freeCount = s.freeCount := rfl

/-! ### markAlpha -/
@[simp] theorem markAlpha_cfg (i : Nat) (s : State) : (markAlpha i s).cfg = s.cfg := rfl
@[simp] theorem markAlpha_csr (i : Nat) (s : State) : (markAlpha i s).csr = s.csr := rfl
@[simp] theorem markAlpha_phase (i : Nat) (s : State) : (markAlpha i s).phase = s.phase := rfl
@[simp] theorem markAlpha_launch (i : Nat) (s : State) : (markAlpha i s).launch = s.launch := rfl
@[simp] theorem markAlpha_br (i : Nat) (s : State) : (markAlpha i s).br = s.br := rfl
@[simp] theorem markAlpha_dictG (i : Nat) (s : State) : (markAlpha i s).dictG = s.dictG := rfl
@[simp] theorem markAlpha_dictT (i : Nat) (s : State) : (markAlpha i s).dictT = s.dictT := rfl
@[simp] theorem markAlpha_dictReadyG (i : Nat) (s : State) : (markAlpha i s).dictReadyG = s.dictReadyG := rfl
@[simp] theorem markAlpha_dictReadyT (i : Nat) (s : State) : (markAlpha i s).dictReadyT = s.dictReadyT := rfl
@[simp] theorem markAlpha_symT (i : Nat) (s : State) : (markAlpha i s).symT = s.symT := rfl
@[simp] theorem markAlpha_copyT (i : Nat) (s : State) : (markAlpha i s).copyT = s.copyT := rfl
@[simp] theorem markAlpha_hdr (i : Nat) (s : State) : (markAlpha i s).hdr = s.hdr := rfl
@[simp] theorem markAlpha_gen (i : Nat) (s : State) : (markAlpha i s).gen = s.gen := rfl
@[simp] theorem markAlpha_tex (i : Nat) (s : State) :
    (markAlpha i s).tex = { s.tex with alphaMap := s.tex.alphaMap.set i true } := rfl
@[simp] theorem markAlpha_stage (i : Nat) (s : State) : (markAlpha i s).stage = s.stage := rfl
@[simp] theorem markAlpha_mem (i : Nat) (s : State) : (markAlpha i s).mem = s.mem := rfl
@[simp] theorem markAlpha_free (i : Nat) (s : State) : (markAlpha i s).free = s.free := rfl
@[simp] theorem markAlpha_moves (i : Nat) (s : State) : (markAlpha i s).moves = s.moves := rfl
@[simp] theorem markAlpha_hostData (i : Nat) (s : State) : (markAlpha i s).hostData = s.hostData := rfl
@[simp] theorem markAlpha_freeCount (i : Nat) (s : State) : (markAlpha i s).freeCount = s.freeCount := rfl

/-! ### stepPos -/
@[simp] theorem stepPos_cfg (s : State) : (stepPos s).cfg = s.cfg := rfl
@[simp] theorem stepPos_csr (s : State) : (stepPos s).csr = s.csr := rfl
@[simp] theorem stepPos_phase (s : State) : (stepPos s).phase = s.phase := rfl
@[simp] theorem stepPos_launch (s : State) : (stepPos s).launch = s.launch := rfl
@[simp] theorem stepPos_br (s : State) : (stepPos s).br = s.br := rfl
@[simp] theorem stepPos_dictG (s : State) : (stepPos s).dictG = s.dictG := rfl
@[simp] theorem stepPos_dictT (s : State) : (stepPos s).dictT = s.dictT := rfl
@[simp] theorem stepPos_dictReadyG (s : State) : (stepPos s).dictReadyG = s.dictReadyG := rfl
@[simp] theorem stepPos_dictReadyT (s : State) : (stepPos s).dictReadyT = s.dictReadyT := rfl
@[simp] theorem stepPos_symT (s : State) : (stepPos s).symT = s.symT := rfl
@[simp] theorem stepPos_copyT (s : State) : (stepPos s).copyT = s.copyT := rfl
@[simp] theorem stepPos_hdr (s : State) : (stepPos s).hdr = s.hdr := rfl
@[simp] theorem stepPos_gen (s : State) : (stepPos s).gen = s.gen := rfl
@[simp] theorem stepPos_tex (s : State) : (stepPos s).tex = { s.tex with pos := s.tex.pos + 1 } := rfl
@[simp] theorem stepPos_stage (s : State) : (stepPos s).stage = s.stage := rfl
@[simp] theorem stepPos_mem (s : State) : (stepPos s).mem = s.mem := rfl
@[simp] theorem stepPos_free (s : State) : (stepPos s).free = s.free := rfl
@[simp] theorem stepPos_moves (s : State) : (stepPos s).moves = s.moves := rfl
@[simp] theorem stepPos_hostData (s : State) : (stepPos s).hostData = s.hostData := rfl
@[simp] theorem stepPos_freeCount (s : State) : (stepPos s).freeCount = s.freeCount := rfl

/-! ### beginRuns -/
@[simp] theorem beginRuns_cfg (p : Pass) (s : State) : (beginRuns p s).cfg = s.cfg := rfl
@[simp] theorem beginRuns_csr (p : Pass) (s : State) : (beginRuns p s).csr = s.csr := rfl
@[simp] theorem beginRuns_phase (p : Pass) (s : State) : (beginRuns p s).phase = s.phase := rfl
@[simp] theorem beginRuns_launch (p : Pass) (s : State) : (beginRuns p s).launch = s.launch := rfl
@[simp] theorem beginRuns_br (p : Pass) (s : State) : (beginRuns p s).br = s.br := rfl
@[simp] theorem beginRuns_dictG (p : Pass) (s : State) : (beginRuns p s).dictG = s.dictG := rfl
@[simp] theorem beginRuns_dictT (p : Pass) (s : State) : (beginRuns p s).dictT = s.dictT := rfl
@[simp] theorem beginRuns_dictReadyG (p : Pass) (s : State) : (beginRuns p s).dictReadyG = s.dictReadyG := rfl
@[simp] theorem beginRuns_dictReadyT (p : Pass) (s : State) : (beginRuns p s).dictReadyT = s.dictReadyT := rfl
@[simp] theorem beginRuns_symT (p : Pass) (s : State) : (beginRuns p s).symT = s.symT := rfl
@[simp] theorem beginRuns_copyT (p : Pass) (s : State) : (beginRuns p s).copyT = s.copyT := rfl
@[simp] theorem beginRuns_hdr (p : Pass) (s : State) : (beginRuns p s).hdr = s.hdr := rfl
@[simp] theorem beginRuns_gen (p : Pass) (s : State) : (beginRuns p s).gen = s.gen := rfl
@[simp] theorem beginRuns_tex (p : Pass) (s : State) : (beginRuns p s).tex = { s.tex with pos := 0 } := rfl
@[simp] theorem beginRuns_stage (p : Pass) (s : State) : (beginRuns p s).stage = .runLoop p := rfl
@[simp] theorem beginRuns_mem (p : Pass) (s : State) : (beginRuns p s).mem = s.mem := rfl
@[simp] theorem beginRuns_free (p : Pass) (s : State) : (beginRuns p s).free = s.free := rfl
@[simp] theorem beginRuns_moves (p : Pass) (s : State) : (beginRuns p s).moves = s.moves := rfl
@[simp] theorem beginRuns_hostData (p : Pass) (s : State) : (beginRuns p s).hostData = s.hostData := rfl
@[simp] theorem beginRuns_freeCount (p : Pass) (s : State) : (beginRuns p s).freeCount = s.freeCount := rfl

/-! ### goTo -/
@[simp] theorem goTo_cfg (st : Stage) (s : State) : (goTo st s).cfg = s.cfg := rfl
@[simp] theorem goTo_csr (st : Stage) (s : State) : (goTo st s).csr = s.csr := rfl
@[simp] theorem goTo_phase (st : Stage) (s : State) : (goTo st s).phase = s.phase := rfl
@[simp] theorem goTo_launch (st : Stage) (s : State) : (goTo st s).launch = s.launch := rfl
@[simp] theorem goTo_br (st : Stage) (s : State) : (goTo st s).br = s.br := rfl
@[simp] theorem goTo_dictG (st : Stage) (s : State) : (goTo st s).dictG = s.dictG := rfl
@[simp] theorem goTo_dictT (st : Stage) (s : State) : (goTo st s).dictT = s.dictT := rfl
@[simp] theorem goTo_dictReadyG (st : Stage) (s : State) : (goTo st s).dictReadyG = s.dictReadyG := rfl
@[simp] theorem goTo_dictReadyT (st : Stage) (s : State) : (goTo st s).dictReadyT = s.dictReadyT := rfl
@[simp] theorem goTo_symT (st : Stage) (s : State) : (goTo st s).symT = s.symT := rfl
@[simp] theorem goTo_copyT (st : Stage) (s : State) : (goTo st s).copyT = s.copyT := rfl
@[simp] theorem goTo_hdr (st : Stage) (s : State) : (goTo st s).hdr = s.hdr := rfl
@[simp] theorem goTo_gen (st : Stage) (s : State) : (goTo st s).gen = s.gen := rfl
@[simp] theorem goTo_tex (st : Stage) (s : State) : (goTo st s).tex = s.tex := rfl
@[simp] theorem goTo_stage (st : Stage) (s : State) : (goTo st s).stage = st := rfl
@[simp] theorem goTo_mem (st : Stage) (s : State) : (goTo st s).mem = s.mem := rfl
@[simp] theorem goTo_free (st : Stage) (s : State) : (goTo st s).free = s.free := rfl
@[simp] theorem goTo_moves (st : Stage) (s : State) : (goTo st s).moves = s.moves := rfl
@[simp] theorem goTo_hostData (st : Stage) (s : State) : (goTo st s).hostData = s.hostData := rfl
@[simp] theorem goTo_freeCount (st : Stage) (s : State) : (goTo st s).freeCount = s.freeCount := rfl

/-! ### complete -/
@[simp] theorem complete_cfg (size : Nat) (s : State) : (complete size s).cfg = s.cfg := rfl
@[simp] theorem complete_csr (size : Nat) (s : State) :
    (complete size s).csr = { s.csr with resultSize := BitVec.ofNat 32 size, done := true } := rfl
@[simp] theorem complete_phase (size : Nat) (s : State) : (complete size s).phase = .idle := rfl
@[simp] theorem complete_launch (size : Nat) (s : State) : (complete size s).launch = s.launch := rfl
@[simp] theorem complete_br (size : Nat) (s : State) : (complete size s).br = s.br := rfl
@[simp] theorem complete_dictG (size : Nat) (s : State) : (complete size s).dictG = s.dictG := rfl
@[simp] theorem complete_dictT (size : Nat) (s : State) : (complete size s).dictT = s.dictT := rfl
@[simp] theorem complete_dictReadyG (size : Nat) (s : State) : (complete size s).dictReadyG = s.dictReadyG := rfl
@[simp] theorem complete_dictReadyT (size : Nat) (s : State) : (complete size s).dictReadyT = s.dictReadyT := rfl
@[simp] theorem complete_symT (size : Nat) (s : State) : (complete size s).symT = s.symT := rfl
@[simp] theorem complete_copyT (size : Nat) (s : State) : (complete size s).copyT = s.copyT := rfl
@[simp] theorem complete_hdr (size : Nat) (s : State) : (complete size s).hdr = s.hdr := rfl
@[simp] theorem complete_gen (size : Nat) (s : State) : (complete size s).gen = s.gen := rfl
@[simp] theorem complete_tex (size : Nat) (s : State) : (complete size s).tex = s.tex := rfl
@[simp] theorem complete_stage (size : Nat) (s : State) : (complete size s).stage = .start := rfl
@[simp] theorem complete_mem (size : Nat) (s : State) : (complete size s).mem = s.mem := rfl
@[simp] theorem complete_free (size : Nat) (s : State) : (complete size s).free = s.free := rfl
@[simp] theorem complete_moves (size : Nat) (s : State) : (complete size s).moves = s.moves := rfl
@[simp] theorem complete_hostData (size : Nat) (s : State) : (complete size s).hostData = s.hostData := rfl
@[simp] theorem complete_freeCount (size : Nat) (s : State) : (complete size s).freeCount = s.freeCount := rfl

/-! ### texDerive -/
@[simp] theorem texDerive_cfg (s : State) : (texDerive s).cfg = s.cfg := rfl
@[simp] theorem texDerive_csr (s : State) : (texDerive s).csr = s.csr := rfl
@[simp] theorem texDerive_phase (s : State) : (texDerive s).phase = s.phase := rfl
@[simp] theorem texDerive_launch (s : State) : (texDerive s).launch = s.launch := rfl
@[simp] theorem texDerive_br (s : State) : (texDerive s).br = s.br := rfl
@[simp] theorem texDerive_dictG (s : State) : (texDerive s).dictG = s.dictG := rfl
@[simp] theorem texDerive_dictT (s : State) : (texDerive s).dictT = s.dictT := rfl
@[simp] theorem texDerive_dictReadyG (s : State) : (texDerive s).dictReadyG = s.dictReadyG := rfl
@[simp] theorem texDerive_dictReadyT (s : State) : (texDerive s).dictReadyT = s.dictReadyT := rfl
@[simp] theorem texDerive_symT (s : State) : (texDerive s).symT = s.symT := rfl
@[simp] theorem texDerive_copyT (s : State) : (texDerive s).copyT = s.copyT := rfl
@[simp] theorem texDerive_hdr (s : State) : (texDerive s).hdr = s.hdr := rfl
@[simp] theorem texDerive_gen (s : State) : (texDerive s).gen = s.gen := rfl
@[simp] theorem texDerive_stage (s : State) : (texDerive s).stage = s.stage := rfl
@[simp] theorem texDerive_mem (s : State) : (texDerive s).mem = s.mem := rfl
@[simp] theorem texDerive_free (s : State) : (texDerive s).free = s.free := rfl
@[simp] theorem texDerive_moves (s : State) : (texDerive s).moves = s.moves := rfl
@[simp] theorem texDerive_hostData (s : State) : (texDerive s).hostData = s.hostData := rfl
@[simp] theorem texDerive_freeCount (s : State) : (texDerive s).freeCount = s.freeCount := rfl

/-! ### clearMaps -/
@[simp] theorem clearMaps_cfg (s : State) : (clearMaps s).cfg = s.cfg := rfl
@[simp] theorem clearMaps_csr (s : State) : (clearMaps s).csr = s.csr := rfl
@[simp] theorem clearMaps_phase (s : State) : (clearMaps s).phase = s.phase := rfl
@[simp] theorem clearMaps_launch (s : State) : (clearMaps s).launch = s.launch := rfl
@[simp] theorem clearMaps_br (s : State) : (clearMaps s).br = s.br := rfl
@[simp] theorem clearMaps_dictG (s : State) : (clearMaps s).dictG = s.dictG := rfl
@[simp] theorem clearMaps_dictT (s : State) : (clearMaps s).dictT = s.dictT := rfl
@[simp] theorem clearMaps_dictReadyG (s : State) : (clearMaps s).dictReadyG = s.dictReadyG := rfl
@[simp] theorem clearMaps_dictReadyT (s : State) : (clearMaps s).dictReadyT = s.dictReadyT := rfl
@[simp] theorem clearMaps_symT (s : State) : (clearMaps s).symT = s.symT := rfl
@[simp] theorem clearMaps_copyT (s : State) : (clearMaps s).copyT = s.copyT := rfl
@[simp] theorem clearMaps_hdr (s : State) : (clearMaps s).hdr = s.hdr := rfl
@[simp] theorem clearMaps_gen (s : State) : (clearMaps s).gen = s.gen := rfl
@[simp] theorem clearMaps_tex (s : State) :
    (clearMaps s).tex = { s.tex with colorMap := List.replicate s.tex.nb false, alphaMap := List.replicate s.tex.nb false } := rfl
@[simp] theorem clearMaps_stage (s : State) : (clearMaps s).stage = s.stage := rfl
@[simp] theorem clearMaps_mem (s : State) : (clearMaps s).mem = s.mem := rfl
@[simp] theorem clearMaps_free (s : State) : (clearMaps s).free = s.free := rfl
@[simp] theorem clearMaps_moves (s : State) : (clearMaps s).moves = s.moves := rfl
@[simp] theorem clearMaps_hostData (s : State) : (clearMaps s).hostData = s.hostData := rfl
@[simp] theorem clearMaps_freeCount (s : State) : (clearMaps s).freeCount = s.freeCount := rfl

/-! ### rewindStep -/
@[simp] theorem rewindStep_cfg (s : State) : (rewindStep s).cfg = s.cfg := rfl
@[simp] theorem rewindStep_csr (s : State) : (rewindStep s).csr = s.csr := rfl
@[simp] theorem rewindStep_phase (s : State) : (rewindStep s).phase = s.phase := rfl
@[simp] theorem rewindStep_launch (s : State) : (rewindStep s).launch = s.launch := rfl
@[simp] theorem rewindStep_br (s : State) : (rewindStep s).br = s.br := rfl
@[simp] theorem rewindStep_dictG (s : State) : (rewindStep s).dictG = s.dictG := rfl
@[simp] theorem rewindStep_dictT (s : State) : (rewindStep s).dictT = s.dictT := rfl
@[simp] theorem rewindStep_dictReadyG (s : State) : (rewindStep s).dictReadyG = s.dictReadyG := rfl
@[simp] theorem rewindStep_dictReadyT (s : State) : (rewindStep s).dictReadyT = s.dictReadyT := rfl
@[simp] theorem rewindStep_symT (s : State) : (rewindStep s).symT = s.symT := rfl
@[simp] theorem rewindStep_copyT (s : State) : (rewindStep s).copyT = s.copyT := rfl
@[simp] theorem rewindStep_hdr (s : State) : (rewindStep s).hdr = s.hdr := rfl
@[simp] theorem rewindStep_gen (s : State) : (rewindStep s).gen = s.gen := rfl
@[simp] theorem rewindStep_tex (s : State) : (rewindStep s).tex = { s.tex with lit := rewindLit s } := rfl
@[simp] theorem rewindStep_stage (s : State) : (rewindStep s).stage = .alphaCopy 0 := rfl
@[simp] theorem rewindStep_mem (s : State) : (rewindStep s).mem = s.mem := rfl
@[simp] theorem rewindStep_free (s : State) : (rewindStep s).free = s.free := rfl
@[simp] theorem rewindStep_moves (s : State) : (rewindStep s).moves = s.moves := rfl
@[simp] theorem rewindStep_hostData (s : State) : (rewindStep s).hostData = s.hostData := rfl
@[simp] theorem rewindStep_freeCount (s : State) : (rewindStep s).freeCount = s.freeCount := rfl

/-! ### freeBytes, raiseError, dictEnsureG, dictEnsureT -/
@[simp] theorem freeBytes_cfg (base n : Nat) (s : State) : (freeBytes base n s).cfg = s.cfg := by
  unfold freeBytes; split <;> rfl
@[simp] theorem freeBytes_csr (base n : Nat) (s : State) : (freeBytes base n s).csr = s.csr := by
  unfold freeBytes; split <;> rfl
@[simp] theorem freeBytes_phase (base n : Nat) (s : State) : (freeBytes base n s).phase = s.phase := by
  unfold freeBytes; split <;> rfl
@[simp] theorem freeBytes_launch (base n : Nat) (s : State) : (freeBytes base n s).launch = s.launch := by
  unfold freeBytes; split <;> rfl
@[simp] theorem freeBytes_br (base n : Nat) (s : State) : (freeBytes base n s).br = s.br := by
  unfold freeBytes; split <;> rfl
@[simp] theorem freeBytes_dictG (base n : Nat) (s : State) : (freeBytes base n s).dictG = s.dictG := by
  unfold freeBytes; split <;> rfl
@[simp] theorem freeBytes_dictT (base n : Nat) (s : State) : (freeBytes base n s).dictT = s.dictT := by
  unfold freeBytes; split <;> rfl
@[simp] theorem freeBytes_dictReadyG (base n : Nat) (s : State) : (freeBytes base n s).dictReadyG = s.dictReadyG := by
  unfold freeBytes; split <;> rfl
@[simp] theorem freeBytes_dictReadyT (base n : Nat) (s : State) : (freeBytes base n s).dictReadyT = s.dictReadyT := by
  unfold freeBytes; split <;> rfl
@[simp] theorem freeBytes_symT (base n : Nat) (s : State) : (freeBytes base n s).symT = s.symT := by
  unfold freeBytes; split <;> rfl
@[simp] theorem freeBytes_copyT (base n : Nat) (s : State) : (freeBytes base n s).copyT = s.copyT := by
  unfold freeBytes; split <;> rfl
@[simp] theorem freeBytes_hdr (base n : Nat) (s : State) : (freeBytes base n s).hdr = s.hdr := by
  unfold freeBytes; split <;> rfl
@[simp] theorem freeBytes_gen (base n : Nat) (s : State) : (freeBytes base n s).gen = s.gen := by
  unfold freeBytes; split <;> rfl
@[simp] theorem freeBytes_tex (base n : Nat) (s : State) : (freeBytes base n s).tex = s.tex := by
  unfold freeBytes; split <;> rfl
@[simp] theorem freeBytes_stage (base n : Nat) (s : State) : (freeBytes base n s).stage = s.stage := by
  unfold freeBytes; split <;> rfl
@[simp] theorem freeBytes_moves (base n : Nat) (s : State) : (freeBytes base n s).moves = s.moves := by
  unfold freeBytes; split <;> rfl
@[simp] theorem freeBytes_hostData (base n : Nat) (s : State) : (freeBytes base n s).hostData = s.hostData := by
  unfold freeBytes; split <;> rfl
@[simp] theorem raiseError_cfg (e : ErrKind) (s : State) : (raiseError e s).cfg = s.cfg :=
  freeBytes_cfg _ _ _
@[simp] theorem raiseError_csr (e : ErrKind) (s : State) :
    (raiseError e s).csr = { s.csr with errWord := BitVec.ofNat 32 s.br.w, errOutpos := BitVec.ofNat 32 (outputPosition s), resultSize := 0, errCode := errCode e, error := true, done := false } := rfl
@[simp] theorem raiseError_phase (e : ErrKind) (s : State) :
    (raiseError e s).phase = .idle := rfl
@[simp] theorem raiseError_launch (e : ErrKind) (s : State) : (raiseError e s).launch = s.launch :=
  freeBytes_launch _ _ _
@[simp] theorem raiseError_br (e : ErrKind) (s : State) : (raiseError e s).br = s.br :=
  freeBytes_br _ _ _
@[simp] theorem raiseError_dictG (e : ErrKind) (s : State) : (raiseError e s).dictG = s.dictG :=
  freeBytes_dictG _ _ _
@[simp] theorem raiseError_dictT (e : ErrKind) (s : State) : (raiseError e s).dictT = s.dictT :=
  freeBytes_dictT _ _ _
@[simp] theorem raiseError_dictReadyG (e : ErrKind) (s : State) : (raiseError e s).dictReadyG = s.dictReadyG :=
  freeBytes_dictReadyG _ _ _
@[simp] theorem raiseError_dictReadyT (e : ErrKind) (s : State) : (raiseError e s).dictReadyT = s.dictReadyT :=
  freeBytes_dictReadyT _ _ _
@[simp] theorem raiseError_symT (e : ErrKind) (s : State) : (raiseError e s).symT = s.symT :=
  freeBytes_symT _ _ _
@[simp] theorem raiseError_copyT (e : ErrKind) (s : State) : (raiseError e s).copyT = s.copyT :=
  freeBytes_copyT _ _ _
@[simp] theorem raiseError_hdr (e : ErrKind) (s : State) : (raiseError e s).hdr = s.hdr :=
  freeBytes_hdr _ _ _
@[simp] theorem raiseError_gen (e : ErrKind) (s : State) : (raiseError e s).gen = s.gen :=
  freeBytes_gen _ _ _
@[simp] theorem raiseError_tex (e : ErrKind) (s : State) : (raiseError e s).tex = s.tex :=
  freeBytes_tex _ _ _
@[simp] theorem raiseError_stage (e : ErrKind) (s : State) :
    (raiseError e s).stage = .start := rfl
@[simp] theorem raiseError_mem (e : ErrKind) (s : State) :
    (raiseError e s).mem = (freeOutput (freeSize s) s).mem := rfl
@[simp] theorem raiseError_free (e : ErrKind) (s : State) :
    (raiseError e s).free = (freeOutput (freeSize s) s).free := rfl
@[simp] theorem raiseError_moves (e : ErrKind) (s : State) : (raiseError e s).moves = s.moves :=
  freeBytes_moves _ _ _
@[simp] theorem raiseError_hostData (e : ErrKind) (s : State) : (raiseError e s).hostData = s.hostData :=
  freeBytes_hostData _ _ _
@[simp] theorem raiseError_freeCount (e : ErrKind) (s : State) :
    (raiseError e s).freeCount = (freeOutput (freeSize s) s).freeCount := rfl
@[simp] theorem dictEnsureG_cfg (s : State) : (dictEnsureG s).cfg = s.cfg := by
  unfold dictEnsureG; split <;> rfl
@[simp] theorem dictEnsureG_csr (s : State) : (dictEnsureG s).csr = s.csr := by
  unfold dictEnsureG; split <;> rfl
@[simp] theorem dictEnsureG_phase (s : State) : (dictEnsureG s).phase = s.phase := by
  unfold dictEnsureG; split <;> rfl
@[simp] theorem dictEnsureG_launch (s : State) : (dictEnsureG s).launch = s.launch := by
  unfold dictEnsureG; split <;> rfl
@[simp] theorem dictEnsureG_br (s : State) : (dictEnsureG s).br = s.br := by
  unfold dictEnsureG; split <;> rfl
@[simp] theorem dictEnsureG_dictT (s : State) : (dictEnsureG s).dictT = s.dictT := by
  unfold dictEnsureG; split <;> rfl
@[simp] theorem dictEnsureG_dictReadyT (s : State) : (dictEnsureG s).dictReadyT = s.dictReadyT := by
  unfold dictEnsureG; split <;> rfl
@[simp] theorem dictEnsureG_symT (s : State) : (dictEnsureG s).symT = s.symT := by
  unfold dictEnsureG; split <;> rfl
@[simp] theorem dictEnsureG_copyT (s : State) : (dictEnsureG s).copyT = s.copyT := by
  unfold dictEnsureG; split <;> rfl
@[simp] theorem dictEnsureG_hdr (s : State) : (dictEnsureG s).hdr = s.hdr := by
  unfold dictEnsureG; split <;> rfl
@[simp] theorem dictEnsureG_gen (s : State) : (dictEnsureG s).gen = s.gen := by
  unfold dictEnsureG; split <;> rfl
@[simp] theorem dictEnsureG_tex (s : State) : (dictEnsureG s).tex = s.tex := by
  unfold dictEnsureG; split <;> rfl
@[simp] theorem dictEnsureG_stage (s : State) : (dictEnsureG s).stage = s.stage := by
  unfold dictEnsureG; split <;> rfl
@[simp] theorem dictEnsureG_mem (s : State) : (dictEnsureG s).mem = s.mem := by
  unfold dictEnsureG; split <;> rfl
@[simp] theorem dictEnsureG_free (s : State) : (dictEnsureG s).free = s.free := by
  unfold dictEnsureG; split <;> rfl
@[simp] theorem dictEnsureG_moves (s : State) : (dictEnsureG s).moves = s.moves := by
  unfold dictEnsureG; split <;> rfl
@[simp] theorem dictEnsureG_hostData (s : State) : (dictEnsureG s).hostData = s.hostData := by
  unfold dictEnsureG; split <;> rfl
@[simp] theorem dictEnsureG_freeCount (s : State) : (dictEnsureG s).freeCount = s.freeCount := by
  unfold dictEnsureG; split <;> rfl
@[simp] theorem dictEnsureG_dictReadyG (s : State) : (dictEnsureG s).dictReadyG = true := by
  unfold dictEnsureG; split <;> simp_all
@[simp] theorem dictEnsureT_cfg (s : State) : (dictEnsureT s).cfg = s.cfg := by
  unfold dictEnsureT; split <;> rfl
@[simp] theorem dictEnsureT_csr (s : State) : (dictEnsureT s).csr = s.csr := by
  unfold dictEnsureT; split <;> rfl
@[simp] theorem dictEnsureT_phase (s : State) : (dictEnsureT s).phase = s.phase := by
  unfold dictEnsureT; split <;> rfl
@[simp] theorem dictEnsureT_launch (s : State) : (dictEnsureT s).launch = s.launch := by
  unfold dictEnsureT; split <;> rfl
@[simp] theorem dictEnsureT_br (s : State) : (dictEnsureT s).br = s.br := by
  unfold dictEnsureT; split <;> rfl
@[simp] theorem dictEnsureT_dictG (s : State) : (dictEnsureT s).dictG = s.dictG := by
  unfold dictEnsureT; split <;> rfl
@[simp] theorem dictEnsureT_dictReadyG (s : State) : (dictEnsureT s).dictReadyG = s.dictReadyG := by
  unfold dictEnsureT; split <;> rfl
@[simp] theorem dictEnsureT_symT (s : State) : (dictEnsureT s).symT = s.symT := by
  unfold dictEnsureT; split <;> rfl
@[simp] theorem dictEnsureT_copyT (s : State) : (dictEnsureT s).copyT = s.copyT := by
  unfold dictEnsureT; split <;> rfl
@[simp] theorem dictEnsureT_hdr (s : State) : (dictEnsureT s).hdr = s.hdr := by
  unfold dictEnsureT; split <;> rfl
@[simp] theorem dictEnsureT_gen (s : State) : (dictEnsureT s).gen = s.gen := by
  unfold dictEnsureT; split <;> rfl
@[simp] theorem dictEnsureT_tex (s : State) : (dictEnsureT s).tex = s.tex := by
  unfold dictEnsureT; split <;> rfl
@[simp] theorem dictEnsureT_stage (s : State) : (dictEnsureT s).stage = s.stage := by
  unfold dictEnsureT; split <;> rfl
@[simp] theorem dictEnsureT_mem (s : State) : (dictEnsureT s).mem = s.mem := by
  unfold dictEnsureT; split <;> rfl
@[simp] theorem dictEnsureT_free (s : State) : (dictEnsureT s).free = s.free := by
  unfold dictEnsureT; split <;> rfl
@[simp] theorem dictEnsureT_moves (s : State) : (dictEnsureT s).moves = s.moves := by
  unfold dictEnsureT; split <;> rfl
@[simp] theorem dictEnsureT_hostData (s : State) : (dictEnsureT s).hostData = s.hostData := by
  unfold dictEnsureT; split <;> rfl
@[simp] theorem dictEnsureT_freeCount (s : State) : (dictEnsureT s).freeCount = s.freeCount := by
  unfold dictEnsureT; split <;> rfl
@[simp] theorem dictEnsureT_dictReadyT (s : State) : (dictEnsureT s).dictReadyT = true := by
  unfold dictEnsureT; split <;> simp_all

end Sys2Proof.Machine
end

