-- ==== Sys2Proof/Laws/Memory.lean ====
section
/-! SUPPORT. What the memory operations do: reads after writes, and the canonical form each of them keeps. -/

namespace Sys2Proof.Machine

/-! ### Cells -/

theorem Memory.wfFrom_mono {lo hi : Nat} (h : lo ≤ hi) (m : Memory) (w : Memory.wfFrom hi m = true) : Memory.wfFrom lo m = true := by
  cases m with
  | nil => rfl
  | cons c rest =>
    simp only [Memory.wfFrom, Bool.and_eq_true, decide_eq_true_eq] at w ⊢
    exact ⟨⟨by omega, w.1.2⟩, w.2⟩

theorem Memory.read_below {lo x : Nat} (m : Memory) (w : Memory.wfFrom lo m = true) (h : x < lo) : m.read x = Memory.unlisted := by
  induction m generalizing lo with
  | nil => rfl
  | cons c rest ih =>
    simp only [Memory.wfFrom, Bool.and_eq_true, decide_eq_true_eq] at w
    rw [Memory.read, if_neg (by omega)]
    exact ih w.2 (by omega)

theorem Memory.write_wfFrom {lo x : Nat} (m : Memory) (v : Byte) (w : Memory.wfFrom lo m = true) (h : lo ≤ x) :
    Memory.wfFrom lo (m.write x v) = true := by
  induction m generalizing lo with
  | nil =>
    unfold Memory.write
    split
    · rfl
    · simp only [Memory.wfFrom, Bool.and_true, Bool.and_eq_true, decide_eq_true_eq]
      exact ⟨h, by assumption⟩
  | cons c rest ih =>
    simp only [Memory.wfFrom, Bool.and_eq_true, decide_eq_true_eq] at w
    obtain ⟨⟨h1, h2⟩, h3⟩ := w
    unfold Memory.write
    split
    · split
      · simp only [Memory.wfFrom, Bool.and_eq_true, decide_eq_true_eq]
        exact ⟨⟨h1, h2⟩, h3⟩
      · simp only [Memory.wfFrom, Bool.and_eq_true, decide_eq_true_eq]
        exact ⟨⟨h, by assumption⟩, ⟨by omega, h2⟩, h3⟩
    · split
      · subst x
        split
        · exact Memory.wfFrom_mono (by omega) _ h3
        · simp only [Memory.wfFrom, Bool.and_eq_true, decide_eq_true_eq]
          exact ⟨⟨h, by assumption⟩, h3⟩
      · simp only [Memory.wfFrom, Bool.and_eq_true, decide_eq_true_eq]
        exact ⟨⟨h1, h2⟩, ih h3 (by omega)⟩

theorem Memory.write_wf (m : Memory) (x : Nat) (v : Byte) (w : m.wf = true) : (m.write x v).wf = true :=
  Memory.write_wfFrom m v w (Nat.zero_le x)

theorem Memory.read_write_same {lo : Nat} (m : Memory) (x : Nat) (v : Byte) (w : Memory.wfFrom lo m = true) :
    (m.write x v).read x = v := by
  induction m generalizing lo with
  | nil => unfold Memory.write; split <;> simp_all [Memory.read]
  | cons c rest ih =>
    have w' := w
    simp only [Memory.wfFrom, Bool.and_eq_true, decide_eq_true_eq] at w
    unfold Memory.write
    split
    · split
      · rw [Memory.read_below (lo := c.1)]
        · simp_all
        · simp only [Memory.wfFrom, Bool.and_eq_true, decide_eq_true_eq]
          exact ⟨⟨Nat.le_refl _, w.1.2⟩, w.2⟩
        · assumption
      · simp [Memory.read]
    · split
      · subst x
        split
        · rw [Memory.read_below _ w.2 (Nat.lt_succ_self _)]; simp_all
        · simp [Memory.read]
      · rw [Memory.read, if_neg (by omega)]
        exact ih w.2

theorem Memory.read_write_other (m : Memory) {x y : Nat} (v : Byte) (h : x ≠ y) : (m.write x v).read y = m.read y := by
  induction m with
  | nil => unfold Memory.write; split <;> simp_all [Memory.read]
  | cons c rest ih =>
    unfold Memory.write
    split
    · split
      · rfl
      · rw [Memory.read, if_neg h]
    · split
      · subst x
        split
        · rw [Memory.read, if_neg h]
        · rw [Memory.read, if_neg h, Memory.read, if_neg h]
      · rw [Memory.read, Memory.read, ih]

theorem Memory.mem_write {m : Memory} {x : Nat} {v : Byte} {c : Host.Cell} (h : c ∈ m.write x v) : c = (x, v) ∨ c ∈ m := by
  induction m with
  | nil =>
    unfold Memory.write at h
    split at h <;> simp_all
  | cons d rest ih =>
    unfold Memory.write at h
    split at h
    · split at h <;> simp_all
    · split at h
      · split at h <;> simp_all
        cases h <;> simp_all
      · simp only [List.mem_cons] at h ⊢
        rcases h with h | h
        · exact .inr (.inl h)
        · rcases ih h with h | h <;> simp_all

theorem Memory.clear_wfFrom {lo : Nat} (m : Memory) (base n : Nat) (w : Memory.wfFrom lo m = true) :
    Memory.wfFrom lo (m.clear base n) = true := by
  induction m generalizing lo with
  | nil => rfl
  | cons c rest ih =>
    simp only [Memory.wfFrom, Bool.and_eq_true, decide_eq_true_eq] at w
    unfold Memory.clear
    rw [List.filter_cons]
    split
    · simp only [Memory.wfFrom, Bool.and_eq_true, decide_eq_true_eq]
      exact ⟨w.1, ih w.2⟩
    · exact Memory.wfFrom_mono (by omega) _ (ih w.2)

theorem Memory.clear_wf (m : Memory) (base n : Nat) (w : m.wf = true) : (m.clear base n).wf = true :=
  Memory.clear_wfFrom m base n w

theorem Memory.read_clear (m : Memory) (base n x : Nat) :
    (m.clear base n).read x = if base ≤ x ∧ x < base + n then Memory.unlisted else m.read x := by
  induction m with
  | nil => simp [Memory.clear, Memory.read]
  | cons c rest ih =>
    unfold Memory.clear at ih ⊢
    rw [List.filter_cons]
    split
    · rw [Memory.read, ih, Memory.read]
      rename_i h
      simp only [Bool.or_eq_true, decide_eq_true_eq] at h
      split <;> split <;> simp_all <;> omega
    · rw [ih, Memory.read]
      rename_i h
      simp only [Bool.or_eq_true, decide_eq_true_eq, not_or, Nat.not_lt, Nat.not_le] at h
      by_cases h1 : base ≤ x ∧ x < base + n
      · simp only [h1, and_self, if_true]
      · rw [if_neg h1, if_neg h1, if_neg (by omega)]

theorem Memory.mem_clear {m : Memory} {base n : Nat} {c : Host.Cell} :
    c ∈ m.clear base n ↔ c ∈ m ∧ (c.1 < base ∨ base + n ≤ c.1) := by
  simp [Memory.clear]

/-! ### Free regions -/

theorem FreeRegion.mem_without {r r' : FreeRegion} {lo n : Nat} (h : r' ∈ r.without lo n) :
    r'.draw = r.draw ∧ 0 < r'.size ∧ r.base ≤ r'.base ∧ r'.base + r'.size ≤ r.base + r.size ∧
      (r'.base + r'.size ≤ lo ∨ lo + n ≤ r'.base) := by
  unfold FreeRegion.without at h
  simp only [List.mem_append] at h
  rcases h with h | h
  · split at h
    · simp only [List.mem_singleton] at h
      subst h
      simp only [true_and]
      omega
    · simp at h
  · split at h
    · simp only [List.mem_singleton] at h
      subst h
      simp only [true_and]
      omega
    · simp at h

theorem find_single {α : Type} (c : Prop) [Decidable c] (x : α) (p : α → Bool) :
    (if c then [x] else []).find? p = if c ∧ p x = true then some x else none := by
  by_cases hc : c <;> by_cases hp : p x = true <;> simp [hc, hp]

theorem FreeRegion.find_without (r : FreeRegion) (lo n a : Nat) :
    ((r.without lo n).find? fun r' => r'.contains a).map (·.draw) =
      if r.contains a = true ∧ ¬(lo ≤ a ∧ a < lo + n) then some r.draw else none := by
  unfold FreeRegion.without
  simp only [List.find?_append, find_single, FreeRegion.contains, Bool.and_eq_true, decide_eq_true_eq]
  by_cases h1 : (r.base ≤ a ∧ a < r.base + r.size) ∧ a < lo
  · rw [if_pos (by omega), Option.some_or, if_pos (by omega)]
    rfl
  · rw [if_neg (by omega), Option.none_or]
    by_cases h2 : (r.base ≤ a ∧ a < r.base + r.size) ∧ lo + n ≤ a
    · rw [if_pos (by omega), if_pos (by omega)]
      rfl
    · rw [if_neg (by omega), if_neg (by omega)]
      rfl

theorem find_freeWithout (rs : List FreeRegion) (lo n a : Nat) :
    ((freeWithout rs lo n).find? fun r => r.contains a).map (·.draw) =
      if lo ≤ a ∧ a < lo + n then none else (rs.find? fun r => r.contains a).map (·.draw) := by
  induction rs with
  | nil => simp [freeWithout]
  | cons r rs ih =>
    unfold freeWithout at ih ⊢
    rw [List.flatMap_cons, List.find?_append, Option.map_or, ih, FreeRegion.find_without, List.find?_cons]
    by_cases h : lo ≤ a ∧ a < lo + n <;> by_cases h' : r.contains a = true <;> simp [h, h']

theorem mem_freeWithout {rs : List FreeRegion} {lo n : Nat} {r' : FreeRegion} (h : r' ∈ freeWithout rs lo n) :
    ∃ r ∈ rs, r'.draw = r.draw ∧ 0 < r'.size ∧ r.base ≤ r'.base ∧ r'.base + r'.size ≤ r.base + r.size ∧
      (r'.base + r'.size ≤ lo ∨ lo + n ≤ r'.base) := by
  unfold freeWithout at h
  obtain ⟨r, hr, h⟩ := List.mem_flatMap.mp h
  exact ⟨r, hr, FreeRegion.mem_without h⟩

theorem freeWf_append {xs ys : List FreeRegion} :
    freeWf (xs ++ ys) = true ↔ freeWf xs = true ∧ freeWf ys = true ∧ ∀ x ∈ xs, ∀ y ∈ ys, freeApart x y = true := by
  induction xs with
  | nil => simp [freeWf]
  | cons x xs ih =>
    simp only [List.cons_append, freeWf, Bool.and_eq_true, decide_eq_true_eq, List.all_append, List.all_eq_true, ih, List.mem_cons]
    constructor
    · rintro ⟨⟨h1, h2, h3⟩, h4, h5, h6⟩
      refine ⟨⟨⟨h1, h2⟩, h4⟩, h5, ?_⟩
      rintro z (rfl | hz) y hy
      · exact h3 y hy
      · exact h6 z hz y hy
    · rintro ⟨⟨⟨h1, h2⟩, h4⟩, h5, h6⟩
      exact ⟨⟨h1, h2, fun y hy => h6 x (.inl rfl) y hy⟩, h4, h5, fun z hz y hy => h6 z (.inr hz) y hy⟩

theorem FreeRegion.without_wf (r : FreeRegion) (lo n : Nat) : freeWf (r.without lo n) = true := by
  unfold FreeRegion.without
  by_cases h1 : r.base < min (r.base + r.size) lo <;> by_cases h2 : max r.base (lo + n) < r.base + r.size
  all_goals simp [h1, h2, freeWf, freeApart]
  all_goals omega

theorem freeWithout_wf (rs : List FreeRegion) (lo n : Nat) (w : freeWf rs = true) : freeWf (freeWithout rs lo n) = true := by
  induction rs with
  | nil => rfl
  | cons r rs ih =>
    simp only [freeWf, Bool.and_eq_true, decide_eq_true_eq, List.all_eq_true] at w
    show freeWf (r.without lo n ++ freeWithout rs lo n) = true
    refine freeWf_append.mpr ⟨r.without_wf lo n, ih w.2, ?_⟩
    intro x hx y hy
    have hx := FreeRegion.mem_without hx
    obtain ⟨r', hr', hy⟩ := mem_freeWithout hy
    have := w.1.2 r' hr'
    simp only [freeApart, Bool.or_eq_true, decide_eq_true_eq] at this ⊢
    omega

/-! ### The byte at an address -/

theorem byteAt_eq (s : State) (a : Nat) :
    byteAt s a = (((s.free.find? fun r => r.contains a).map (·.draw)).map fun d => Config.freeByte d a).getD (s.mem.read a) := by
  unfold byteAt
  cases s.free.find? fun r => r.contains a <;> rfl

theorem memCanonical_iff (s : State) :
    memCanonical s = true ↔
      s.mem.wf = true ∧ freeWf s.free = true ∧ ∀ c ∈ s.mem, ∀ r ∈ s.free, r.contains c.1 = false := by
  simp [memCanonical, and_assoc]

theorem memCanonical_congr {s t : State} (hm : t.mem = s.mem) (hf : t.free = s.free) (h : memCanonical s = true) :
    memCanonical t = true := by
  rw [memCanonical_iff] at h ⊢
  rw [hm, hf]
  exact h

theorem byteAt_congr {s t : State} (hm : t.mem = s.mem) (hf : t.free = s.free) (a : Nat) : byteAt t a = byteAt s a := by
  unfold byteAt
  rw [hm, hf]

theorem byteAt_setByte_same (a : Nat) (b : Byte) (s : State) (h : memCanonical s = true) : byteAt (setByte a b s) a = b := by
  rw [memCanonical_iff] at h
  rw [byteAt_eq, setByte_free, setByte_mem, find_freeWithout, if_pos ⟨Nat.le_refl a, Nat.lt_succ_self a⟩]
  exact Memory.read_write_same s.mem a b h.1

theorem byteAt_setByte_other {a x : Nat} (b : Byte) (s : State) (h : a ≠ x) : byteAt (setByte a b s) x = byteAt s x := by
  rw [byteAt_eq, byteAt_eq, setByte_free, setByte_mem, find_freeWithout, if_neg (by omega), Memory.read_write_other _ _ h]

theorem byteAt_zeroBytes (base n : Nat) (s : State) (a : Nat) :
    byteAt (zeroBytes base n s) a = if base ≤ a ∧ a < base + n then 0 else byteAt s a := by
  rw [byteAt_eq, byteAt_eq, zeroBytes_free, zeroBytes_mem, find_freeWithout, Memory.read_clear]
  split <;> rfl

theorem freeBytes_mem (base n : Nat) (s : State) : (freeBytes base n s).mem = if n = 0 then s.mem else s.mem.clear base n := by
  unfold freeBytes; split <;> rfl

theorem freeBytes_free (base n : Nat) (s : State) :
    (freeBytes base n s).free =
      if n = 0 then s.free else { base := base, size := n, draw := s.freeCount } :: freeWithout s.free base n := by
  unfold freeBytes; split <;> rfl

theorem byteAt_freeBytes (base n : Nat) (s : State) (a : Nat) :
    byteAt (freeBytes base n s) a =
      if base ≤ a ∧ a < base + n then Config.freeByte s.freeCount a else byteAt s a := by
  rw [byteAt_eq, byteAt_eq, freeBytes_mem, freeBytes_free]
  split
  · rw [if_neg (by omega)]
  · rw [List.find?_cons]
    by_cases h : base ≤ a ∧ a < base + n
    · simp [FreeRegion.contains, h]
    · have h' : FreeRegion.contains { base := base, size := n, draw := s.freeCount } a = false := by
        simp only [FreeRegion.contains, Bool.and_eq_false_iff, decide_eq_false_iff_not]
        omega
      rw [h', if_neg h, find_freeWithout, if_neg h, Memory.read_clear, if_neg h]

/-! ### Every operation keeps the canonical form -/

theorem setByte_canonical (a : Nat) (b : Byte) (s : State) (h : memCanonical s = true) : memCanonical (setByte a b s) = true := by
  rw [memCanonical_iff] at h ⊢
  obtain ⟨h1, h2, h3⟩ := h
  rw [setByte_mem, setByte_free]
  refine ⟨Memory.write_wf _ _ _ h1, freeWithout_wf _ _ _ h2, ?_⟩
  intro c hc r' hr'
  obtain ⟨r, hr, -, -, h4, h5, h6⟩ := mem_freeWithout hr'
  rcases Memory.mem_write hc with rfl | hc
  · simp only [FreeRegion.contains, Bool.and_eq_false_iff, decide_eq_false_iff_not]
    omega
  · have := h3 c hc r hr
    simp only [FreeRegion.contains, Bool.and_eq_false_iff, decide_eq_false_iff_not] at this ⊢
    omega

theorem clear_canonical {s t : State} (base n : Nat) (hm : t.mem = s.mem.clear base n) (h : memCanonical s = true)
    (hf : ∀ r' ∈ t.free, (base ≤ r'.base ∧ r'.base + r'.size ≤ base + n) ∨ ∃ r ∈ s.free, r.base ≤ r'.base ∧ r'.base + r'.size ≤ r.base + r.size)
    (w : freeWf t.free = true) : memCanonical t = true := by
  rw [memCanonical_iff] at h ⊢
  rw [hm]
  refine ⟨Memory.clear_wf _ _ _ h.1, w, ?_⟩
  intro c hc r' hr'
  obtain ⟨hc, ho⟩ := Memory.mem_clear.mp hc
  rcases hf r' hr' with h' | ⟨r, hr, h'⟩
  · simp only [FreeRegion.contains, Bool.and_eq_false_iff, decide_eq_false_iff_not]
    omega
  · have := h.2.2 c hc r hr
    simp only [FreeRegion.contains, Bool.and_eq_false_iff, decide_eq_false_iff_not] at this ⊢
    omega

theorem zeroBytes_canonical (base n : Nat) (s : State) (h : memCanonical s = true) : memCanonical (zeroBytes base n s) = true := by
  refine clear_canonical base n rfl h ?_ (freeWithout_wf _ _ _ ((memCanonical_iff s).mp h).2.1)
  intro r' hr'
  obtain ⟨r, hr, -, -, h4, h5, -⟩ := mem_freeWithout hr'
  exact .inr ⟨r, hr, h4, h5⟩

theorem freeBytes_canonical (base n : Nat) (s : State) (h : memCanonical s = true) : memCanonical (freeBytes base n s) = true := by
  by_cases hn : n = 0
  · simpa [freeBytes, hn] using h
  · refine clear_canonical base n (by rw [freeBytes_mem, if_neg hn]) h ?_ ?_
    · intro r' hr'
      rw [freeBytes_free, if_neg hn, List.mem_cons] at hr'
      rcases hr' with rfl | hr'
      · exact .inl ⟨Nat.le_refl _, Nat.le_refl _⟩
      · obtain ⟨r, hr, -, -, h4, h5, -⟩ := mem_freeWithout hr'
        exact .inr ⟨r, hr, h4, h5⟩
    · rw [freeBytes_free, if_neg hn]
      simp only [freeWf, Bool.and_eq_true, decide_eq_true_eq, List.all_eq_true]
      refine ⟨⟨by omega, ?_⟩, freeWithout_wf _ _ _ ((memCanonical_iff s).mp h).2.1⟩
      intro r' hr'
      obtain ⟨r, hr, -, -, -, -, h6⟩ := mem_freeWithout hr'
      simp only [freeApart, Bool.or_eq_true, decide_eq_true_eq]
      omega

theorem freePieces_canonical (rs : List FreeRegion) (s : State) (h : memCanonical s = true) :
    memCanonical (freePieces rs s) = true := by
  induction rs generalizing s with
  | nil => exact h
  | cons r rs ih => exact ih _ (freeBytes_canonical _ _ s h)

theorem setBytes_canonical (bs : List Byte) (a : Nat) (s : State) (h : memCanonical s = true) :
    memCanonical (setBytes a bs s) = true := by
  induction bs generalizing a s with
  | nil => exact h
  | cons b bs ih => exact ih _ _ (setByte_canonical _ _ _ h)

theorem raiseError_canonical (e : ErrKind) (s : State) (h : memCanonical s = true) : memCanonical (raiseError e s) = true :=
  memCanonical_congr (s := freeOutput (freeSize s) s) rfl rfl (freeBytes_canonical _ _ _ h)

/-! ### Runs of bytes -/

/-- What a run of written bytes leaves: a state that differs in memory alone. -/
theorem setBytes_eq (bs : List Byte) (a : Nat) (s : State) :
    setBytes a bs s = { s with mem := (setBytes a bs s).mem, free := (setBytes a bs s).free } := by
  induction bs generalizing a s with
  | nil => rfl
  | cons b bs ih => rw [setBytes, ih]; rfl

/-! ### setBytes, field by field -/
@[simp] theorem setBytes_cfg (a : Nat) (bs : List Byte) (s : State) : (setBytes a bs s).cfg = s.cfg := by rw [setBytes_eq]
@[simp] theorem setBytes_csr (a : Nat) (bs : List Byte) (s : State) : (setBytes a bs s).csr = s.csr := by rw [setBytes_eq]
@[simp] theorem setBytes_phase (a : Nat) (bs : List Byte) (s : State) : (setBytes a bs s).phase = s.phase := by rw [setBytes_eq]
@[simp] theorem setBytes_launch (a : Nat) (bs : List Byte) (s : State) : (setBytes a bs s).launch = s.launch := by rw [setBytes_eq]
@[simp] theorem setBytes_br (a : Nat) (bs : List Byte) (s : State) : (setBytes a bs s).br = s.br := by rw [setBytes_eq]
@[simp] theorem setBytes_dictG (a : Nat) (bs : List Byte) (s : State) : (setBytes a bs s).dictG = s.dictG := by rw [setBytes_eq]
@[simp] theorem setBytes_dictT (a : Nat) (bs : List Byte) (s : State) : (setBytes a bs s).dictT = s.dictT := by rw [setBytes_eq]
@[simp] theorem setBytes_dictReadyG (a : Nat) (bs : List Byte) (s : State) : (setBytes a bs s).dictReadyG = s.dictReadyG := by rw [setBytes_eq]
@[simp] theorem setBytes_dictReadyT (a : Nat) (bs : List Byte) (s : State) : (setBytes a bs s).dictReadyT = s.dictReadyT := by rw [setBytes_eq]
@[simp] theorem setBytes_symT (a : Nat) (bs : List Byte) (s : State) : (setBytes a bs s).symT = s.symT := by rw [setBytes_eq]
@[simp] theorem setBytes_copyT (a : Nat) (bs : List Byte) (s : State) : (setBytes a bs s).copyT = s.copyT := by rw [setBytes_eq]
@[simp] theorem setBytes_hdr (a : Nat) (bs : List Byte) (s : State) : (setBytes a bs s).hdr = s.hdr := by rw [setBytes_eq]
@[simp] theorem setBytes_gen (a : Nat) (bs : List Byte) (s : State) : (setBytes a bs s).gen = s.gen := by rw [setBytes_eq]
@[simp] theorem setBytes_tex (a : Nat) (bs : List Byte) (s : State) : (setBytes a bs s).tex = s.tex := by rw [setBytes_eq]
@[simp] theorem setBytes_stage (a : Nat) (bs : List Byte) (s : State) : (setBytes a bs s).stage = s.stage := by rw [setBytes_eq]
@[simp] theorem setBytes_moves (a : Nat) (bs : List Byte) (s : State) : (setBytes a bs s).moves = s.moves := by rw [setBytes_eq]
@[simp] theorem setBytes_hostData (a : Nat) (bs : List Byte) (s : State) : (setBytes a bs s).hostData = s.hostData := by rw [setBytes_eq]
@[simp] theorem setBytes_freeCount (a : Nat) (bs : List Byte) (s : State) : (setBytes a bs s).freeCount = s.freeCount := by rw [setBytes_eq]

theorem byteAt_setBytes_outside (bs : List Byte) (a : Nat) (s : State) (x : Nat) (h : x < a ∨ a + bs.length ≤ x) :
    byteAt (setBytes a bs s) x = byteAt s x := by
  induction bs generalizing a s with
  | nil => rfl
  | cons b bs ih =>
    rw [List.length_cons] at h
    rw [setBytes, ih _ _ (by omega), byteAt_setByte_other _ _ (by omega)]

theorem byteAt_setBytes_inside (bs : List Byte) (a : Nat) (s : State) (h : memCanonical s = true) (k : Nat) (hk : k < bs.length) :
    byteAt (setBytes a bs s) (a + k) = bs[k] := by
  induction bs generalizing a s k with
  | nil => simp at hk
  | cons b bs ih =>
    rw [setBytes]
    cases k with
    | zero =>
      rw [byteAt_setBytes_outside _ _ _ _ (by omega), Nat.add_zero, byteAt_setByte_same _ _ _ h]
      rfl
    | succ k =>
      have := ih (a + 1) (setByte a b s) (setByte_canonical a b s h) k (by simpa using hk)
      rw [show a + (k + 1) = a + 1 + k by omega, this]
      rfl

theorem leBytes_length (n v : Nat) : (leBytes n v).length = n := by
  induction n generalizing v with
  | zero => rfl
  | succ n ih => simp [leBytes, ih]

theorem leBytes_get (n v k : Nat) (h : k < (leBytes n v).length) : (leBytes n v)[k] = BitVec.ofNat 8 (v / 256 ^ k) := by
  induction n generalizing v k with
  | zero => simp [leBytes] at h
  | succ n ih =>
    cases k with
    | zero => simp [leBytes]
    | succ k =>
      simp only [leBytes, List.getElem_cons_succ]
      rw [ih, Nat.div_div_eq_div_mul, Nat.pow_succ, Nat.mul_comm]

/-- writeBytes (00_scope R11 MemWrite) writes every byte when memory admits them all. -/
theorem writeBytes_of_admitted {bs : List Byte} {a : Nat} {s : State}
    (h : ∀ k, k < bs.length → admits s.cfg (a + k) = true) : writeBytes a bs s = .ok () (setBytes a bs s) := by
  induction bs generalizing a s with
  | nil => rfl
  | cons b bs ih =>
    rw [writeBytes, if_pos (by simpa using h 0 (by simp)), ih]
    · rfl
    · intro k hk
      have := h (k + 1) (by simpa using hk)
      rwa [show a + (k + 1) = a + 1 + k by omega] at this

theorem reset_memory_wf : State.reset.mem.wf = true := rfl

theorem reset_memCanonical : memCanonical State.reset = true := rfl

end Sys2Proof.Machine
end

