-- ==== Sys2Proof/Laws/Operations.lean ====
section
/-! SUPPORT. What each shared operation can answer, said once: `Res.Sat` holds of every value it can answer and every error it
can raise. Later proofs cite these and do not unfold the operations. -/

namespace Sys2Proof.Machine

/-! ### The outcome of an operation -/

/-- Every answer satisfies `Q`, every raise satisfies `R`; nothing is said of a stop. -/
def Res.Sat {α : Type} (r : Res α) (Q : α → State → Prop) (R : ErrKind → State → Prop) : Prop :=
  match r with
  | .ok a s => Q a s
  | .raise e s => R e s
  | .fault _ => True
  | .refuse _ => True

@[simp] theorem Res.bind_ok {α β : Type} (a : α) (s : State) (f : α → State → Res β) : (Res.ok a s).bind f = f a s := rfl
@[simp] theorem Res.bind_raise {α β : Type} (e : ErrKind) (s : State) (f : α → State → Res β) :
    (Res.raise e s : Res α).bind f = .raise e s := rfl
@[simp] theorem Res.bind_fault {α β : Type} (x : Fault) (f : α → State → Res β) : (Res.fault x : Res α).bind f = .fault x := rfl
@[simp] theorem Res.bind_refuse {α β : Type} (x : Refusal) (f : α → State → Res β) :
    (Res.refuse x : Res α).bind f = .refuse x := rfl

theorem Res.Sat.mono {α : Type} {r : Res α} {Q Q' : α → State → Prop} {R R' : ErrKind → State → Prop} (h : r.Sat Q R)
    (hq : ∀ a s, Q a s → Q' a s) (hr : ∀ e s, R e s → R' e s) : r.Sat Q' R' := by
  cases r with
  | ok a s => exact hq a s h
  | raise e s => exact hr e s h
  | fault => trivial
  | refuse => trivial

theorem Res.Sat.bind {α β : Type} {r : Res α} {f : α → State → Res β} {Q : α → State → Prop} {Q' : β → State → Prop}
    {R R' : ErrKind → State → Prop} (h : r.Sat Q R) (hf : ∀ a s, Q a s → (f a s).Sat Q' R') (hr : ∀ e s, R e s → R' e s) :
    (r.bind f).Sat Q' R' := by
  cases r with
  | ok a s => exact hf a s h
  | raise e s => exact hr e s h
  | fault => trivial
  | refuse => trivial

/-- A step's next state is an answer's state or an error's report. -/
theorem Res.Sat.finish {r : Res Unit} {Q : Unit → State → Prop} {R : ErrKind → State → Prop} {P : State → Prop} {t : State}
    (h : r.Sat Q R) (hq : ∀ s, Q () s → P s) (hr : ∀ e s, R e s → P (raiseError e s)) (ht : r.finish = .next t) : P t := by
  cases r with
  | ok a s => cases ht; exact hq _ h
  | raise e s => cases ht; exact hr _ _ h
  | fault => cases ht
  | refuse => cases ht

theorem Res.bind_eq_ok {α β : Type} {r : Res α} {f : α → State → Res β} {b : β} {t : State} :
    r.bind f = .ok b t ↔ ∃ a s, r = .ok a s ∧ f a s = .ok b t := by
  cases r with
  | ok a s =>
    constructor
    · exact fun h => ⟨a, s, rfl, h⟩
    · rintro ⟨a', s', h, h'⟩
      cases h
      exact h'
  | raise => simp
  | fault => simp
  | refuse => simp

/-! ### The bit reader -/

/-- Only the reader differs. -/
def OnlyReader (s t : State) : Prop := t = { s with br := t.br }

theorem OnlyReader.refl (s : State) : OnlyReader s s := rfl

theorem OnlyReader.trans {s t u : State} (h : OnlyReader s t) (h' : OnlyReader t u) : OnlyReader s u := by
  unfold OnlyReader at h h' ⊢
  rw [h', h]

theorem onlyReader_pushWord (w : Nat) (s : State) : OnlyReader s (pushWord w s) := rfl
theorem onlyReader_dropBits (n : Nat) (s : State) : OnlyReader s (dropBits n s) := rfl

theorem inputWord_eq (i : Nat) (s : State) :
    inputWord i s = if inputAdmitted s i then .ok (inputWordValue s i) s else .fault .accessNotAdmitted := rfl

theorem leValue_lt (bs : List Byte) : leValue bs < 256 ^ bs.length := by
  induction bs with
  | nil => simp [leValue]
  | cons b bs ih =>
    have := b.isLt
    simp only [leValue, List.length_cons, Nat.pow_succ]
    omega

theorem inputWordValue_lt (s : State) (i : Nat) : inputWordValue s i < 4294967296 :=
  Nat.lt_of_lt_of_eq (leValue_lt _) (by simp [inputAddrs])

/-- ensure (40_bit_reader R121). -/
theorem ensure_sat (n : Nat) (s : State) :
    (ensure n s).Sat
      (fun _ t =>
        (n ≤ s.br.bits ∧ t = s) ∨
          (s.br.bits < n ∧ s.br.w < s.br.n + s.cfg.tailZeroWords ∧
            t = pushWord (if s.br.w < s.br.n then inputWordValue s s.br.w else 0) s))
      (fun e t => e = .truncatedInput ∧ t = s ∧ s.br.bits < n ∧ s.br.n + s.cfg.tailZeroWords ≤ s.br.w) := by
  unfold ensure
  split
  · split
    · exact ⟨rfl, rfl, ‹_›, ‹_›⟩
    · unfold refillWord
      by_cases h : s.br.w < s.br.n
      · rw [if_pos h, inputWord_eq]
        by_cases h' : inputAdmitted s s.br.w = true
        · rw [if_pos h', Res.bind_ok]
          exact .inr ⟨‹_›, by omega, by rw [if_pos h]⟩
        · rw [if_neg h', Res.bind_fault]
          trivial
      · rw [if_neg h, Res.bind_ok]
        exact .inr ⟨‹_›, by omega, by rw [if_neg h]⟩
  · exact .inl ⟨by omega, rfl⟩

/-- The buffered bits after an ensure of a legal width. -/
theorem ensure_bits (n : Nat) (s : State) (hn : n ≤ 32) :
    (ensure n s).Sat (fun _ t => n ≤ t.br.bits ∧ OnlyReader s t ∧ t.br.c = s.br.c ∧ t.br.n = s.br.n)
      (fun e t => e = .truncatedInput ∧ t = s) := by
  refine (ensure_sat n s).mono ?_ fun e t h => ⟨h.1, h.2.1⟩
  rintro _ t (⟨h, rfl⟩ | ⟨h, -, rfl⟩)
  · exact ⟨h, .refl _, rfl, rfl⟩
  · exact ⟨by simp; omega, onlyReader_pushWord _ _, rfl, rfl⟩

/-- When the field can be read, ensure answers. -/
theorem ensure_of_canRead {n : Nat} {s : State} (h : canRead n s = true) : ∃ t, ensure n s = .ok () t := by
  unfold canRead at h
  simp only [Bool.or_eq_true, decide_eq_true_eq, Bool.and_eq_true] at h
  unfold ensure
  by_cases h1 : s.br.bits < n
  · have h2 : s.br.w < s.br.n + s.cfg.tailZeroWords := by omega
    rw [if_pos h1, if_neg (by omega)]
    unfold refillWord
    by_cases h3 : s.br.w < s.br.n
    · have h4 : inputAdmitted s s.br.w = true := by
        rcases h with h | ⟨-, h | h⟩
        · omega
        · omega
        · exact h
      rw [if_pos h3, inputWord_eq, if_pos h4]
      exact ⟨_, rfl⟩
    · rw [if_neg h3]
      exact ⟨_, rfl⟩
  · rw [if_neg h1]
    exact ⟨_, rfl⟩

theorem topBits_lt (acc : BitVec 64) (n : Nat) (hn : n ≤ 64) : topBits acc n < 2 ^ n := by
  unfold topBits
  rw [BitVec.toNat_ushiftRight, Nat.shiftRight_eq_div_pow, Nat.div_lt_iff_lt_mul (Nat.two_pow_pos _), ← Nat.pow_add,
    show n + (64 - n) = 64 by omega]
  exact acc.isLt

/-- readBits (40_bit_reader R124) of a legal width: the top bits after the ensure. -/
theorem readBits_sat (n : Nat) (s : State) (hn : n ≤ 32) :
    (readBits n s).Sat
      (fun v u => ∃ t, ensure n s = .ok () t ∧ n ≤ t.br.bits ∧ v = topBits t.br.acc n ∧ u = dropBits n t)
      (fun e t => e = .truncatedInput ∧ t = s) := by
  unfold readBits
  have h := ensure_bits n s hn
  cases he : ensure n s with
  | ok a t =>
    rw [he] at h
    have hb : ¬t.br.bits < n := by have := h.1; omega
    simp only [Res.bind_ok, peek, if_neg hb, consume]
    exact ⟨t, rfl, h.1, rfl, rfl⟩
  | raise e t =>
    rw [he] at h
    exact h
  | fault => trivial
  | refuse => trivial

theorem readBits_of_ensure {n : Nat} {s t : State} (hn : n ≤ 32) (h : ensure n s = .ok () t) :
    readBits n s = .ok (topBits t.br.acc n) (dropBits n t) := by
  have hb := ensure_bits n s hn
  rw [h] at hb
  have : ¬t.br.bits < n := by have := hb.1; omega
  unfold readBits
  rw [h]
  simp only [Res.bind_ok, peek, if_neg this, consume]

/-- readBits changes the reader alone, and its value has the field's width. -/
theorem readBits_reader (n : Nat) (s : State) (hn : n ≤ 32) :
    (readBits n s).Sat (fun v u => OnlyReader s u ∧ v < 2 ^ n ∧ u.br.c = s.br.c + n)
      (fun e t => e = .truncatedInput ∧ t = s) := by
  refine (readBits_sat n s hn).mono ?_ fun _ _ h => h
  rintro v u ⟨t, ht, -, rfl, rfl⟩
  have h := ensure_bits n s hn
  rw [ht] at h
  exact ⟨h.2.1.trans (onlyReader_dropBits _ _), topBits_lt _ _ (by omega), by simp [h.2.2.1]⟩

theorem readBits_of_canRead {n : Nat} {s : State} (hn : n ≤ 32) (h : canRead n s = true) :
    ∃ v u, readBits n s = .ok v u ∧ OnlyReader s u ∧ v < 2 ^ n := by
  obtain ⟨t, ht⟩ := ensure_of_canRead h
  refine ⟨_, _, readBits_of_ensure hn ht, ?_, topBits_lt _ _ (by omega)⟩
  have hb := ensure_bits n s hn
  rw [ht] at hb
  exact hb.2.1.trans (onlyReader_dropBits _ _)

/-- readCode (41_huffman R146): what it can answer. -/
theorem readCode_sat (tree : Tree) (s : State) :
    (readCode tree s).Sat
      (fun v u => ∃ t len, ensure 32 s = .ok () t ∧ tree.empty = false ∧ tree.lookup (topBits t.br.acc 32) = some (v, len) ∧
        len ≤ t.br.bits ∧ u = dropBits len t)
      (fun e u => OnlyReader s u ∧
        ((e = .emptyTree ∧ tree.empty = true ∧ u = s) ∨ (e = .truncatedInput ∧ tree.empty = false) ∨
          (e = .invalidCode ∧ ensure 32 s = .ok () u ∧ tree.lookup (topBits u.br.acc 32) = none))) := by
  unfold readCode
  by_cases h : tree.empty = true
  · rw [if_pos h]
    exact ⟨.refl _, .inl ⟨rfl, h, rfl⟩⟩
  · rw [if_neg h]
    have h : tree.empty = false := by simpa using h
    have he := ensure_bits 32 s (Nat.le_refl _)
    cases hs : ensure 32 s with
    | ok a t =>
      rw [hs] at he
      have hb : ¬t.br.bits < 32 := by have := he.1; omega
      simp only [Res.bind_ok, peek, if_neg hb]
      cases hl : tree.lookup (topBits t.br.acc 32) with
      | none => exact ⟨he.2.1, .inr (.inr ⟨rfl, rfl, hl⟩)⟩
      | some p =>
        by_cases hc : t.br.bits < p.2
        · simp only [consume, if_pos hc]
          exact ⟨he.2.1, .inr (.inl ⟨rfl, h⟩)⟩
        · simp only [consume, if_neg hc, Res.bind_ok]
          exact ⟨t, p.2, rfl, h, hl, by omega, rfl⟩
    | raise e t =>
      rw [hs] at he
      obtain ⟨rfl, rfl⟩ := he
      exact ⟨.refl _, .inr (.inl ⟨rfl, h⟩)⟩
    | fault => trivial
    | refuse => trivial

/-- readCode changes the reader alone. -/
theorem readCode_reader (tree : Tree) (s : State) :
    (readCode tree s).Sat (fun _ u => OnlyReader s u) (fun _ u => OnlyReader s u) := by
  refine (readCode_sat tree s).mono ?_ fun _ _ h => h.1
  rintro v u ⟨t, len, ht, -, -, -, rfl⟩
  have h := ensure_bits 32 s (Nat.le_refl _)
  rw [ht] at h
  exact h.2.1.trans (onlyReader_dropBits _ _)

theorem readExtra_reader (n : Nat) (s : State) (hn : n ≤ 32) :
    (readExtra n s).Sat (fun v u => OnlyReader s u ∧ v < 2 ^ n) (fun e t => e = .truncatedInput ∧ t = s) := by
  unfold readExtra
  split
  · exact ⟨.refl _, Nat.two_pow_pos _⟩
  · exact (readBits_reader n s hn).mono (fun _ _ h => ⟨h.1, h.2.1⟩) fun _ _ h => h

theorem readRun_reader (p : Pass) (s : State) :
    (readRun p s).Sat (fun c u => OnlyReader s u ∧ ∃ count flags, c = .run p count flags) (fun _ u => OnlyReader s u) := by
  unfold readRun
  refine (readCode_reader s.dictT s).bind ?_ fun _ _ h => h
  intro count t ht
  split
  · exact ⟨ht, 0, [], rfl⟩
  · refine Res.Sat.bind (Q := fun _ u => OnlyReader s u) (R := fun _ u => OnlyReader s u) ?_ ?_ fun _ _ h => h
    · unfold readRunFlags
      refine (readBits_reader 1 t (by omega)).bind ?_ ?_
      · intro v u hu
        split
        · refine (readBits_reader 1 u (by omega)).bind ?_ ?_
          · intro w x hx
            exact ht.trans (hu.1.trans hx.1)
          · rintro e x ⟨-, rfl⟩
            exact ht.trans hu.1
        · exact ht.trans hu.1
      · rintro e x ⟨-, rfl⟩
        exact ht
    · intro flags u hu
      exact ⟨hu, count, flags, rfl⟩

/-! ### Output -/

/-- writeBytes writes every byte or stops; it raises no error. -/
theorem writeBytes_sat (a : Nat) (bs : List Byte) (s : State) :
    (writeBytes a bs s).Sat (fun _ t => t = setBytes a bs s) (fun _ _ => False) := by
  induction bs generalizing a s with
  | nil => rfl
  | cons b bs ih =>
    rw [writeBytes]
    split
    · exact ih _ _
    · trivial

theorem putByte_eq (b : Byte) (s : State) :
    putByte b s =
      if admits s.cfg (outputAddr s s.gen.outPos) then
        .ok () { setByte (outputAddr s s.gen.outPos) b s with gen := { s.gen with outPos := s.gen.outPos + 1 } }
      else .fault .accessNotAdmitted := by
  unfold putByte writeBytes
  split <;> rfl

theorem putComponent_of_admitted {addr : Nat} {v : Component} {s : State} (h : ∀ k, k < 8 → admits s.cfg (addr + k) = true) :
    putComponent addr v s = .ok () (setBytes addr (leBytes 8 v.toNat) s) :=
  writeBytes_of_admitted (by rwa [leBytes_length])

theorem putComponent_sat (addr : Nat) (v : Component) (s : State) :
    (putComponent addr v s).Sat (fun _ t => t = setBytes addr (leBytes 8 v.toNat) s) (fun _ _ => False) :=
  writeBytes_sat _ _ _

/-- What an operation on the output region keeps: everything but memory, the working registers and the stage. -/
def OnlyOutput (s t : State) : Prop := t = { s with gen := t.gen, tex := t.tex, stage := t.stage, mem := t.mem, free := t.free }

theorem OnlyOutput.refl (s : State) : OnlyOutput s s := rfl

theorem OnlyOutput.trans {s t u : State} (h : OnlyOutput s t) (h' : OnlyOutput t u) : OnlyOutput s u := by
  unfold OnlyOutput at h h' ⊢
  rw [h', h]

theorem onlyOutput_setBytes (a : Nat) (bs : List Byte) (s : State) : OnlyOutput s (setBytes a bs s) := by
  unfold OnlyOutput
  rw [setBytes_eq]

end Sys2Proof.Machine
end

