-- ==== Sys2Proof/Laws/Generic.lean ====
section
/-! SUPPORT. The generic decoder's operations: the copy loop of a back-reference, and the runs of a tree header. -/

namespace Sys2Proof.Machine

/-! ### The copy of a back-reference (42_generic R188) -/

/-- How many bytes a copy of `n` writes: the rest of the output, at most. -/
def copySize (n : Nat) (s : State) : Nat := min n (s.gen.outSize - s.gen.outPos)

/-- From `s` to `t`, the `m` output bytes from `gen.out_pos` were written and the position advanced; nothing else. -/
structure Wrote (m : Nat) (s t : State) : Prop where
  state : t = { s with gen := { s.gen with outPos := s.gen.outPos + m }, mem := t.mem, free := t.free }
  canonical : memCanonical s = true → memCanonical t = true
  outside : ∀ a, (∀ p, s.gen.outPos ≤ p → p < s.gen.outPos + m → a ≠ outputAddr s p) → byteAt t a = byteAt s a

theorem Wrote.refl (s : State) : Wrote 0 s s := ⟨rfl, id, fun _ _ => rfl⟩

theorem putByte_sat (b : Byte) (s : State) :
    (putByte b s).Sat (fun _ t => Wrote 1 s t ∧ (memCanonical s = true → byteAt t (outputAddr s s.gen.outPos) = b))
      (fun _ _ => False) := by
  rw [putByte_eq]
  split
  · refine ⟨⟨rfl, fun h => memCanonical_congr rfl rfl (setByte_canonical _ b s h), ?_⟩, ?_⟩
    · intro a h
      have : outputAddr s s.gen.outPos ≠ a := fun e => h s.gen.outPos (Nat.le_refl _) (Nat.lt_succ_self _) e.symm
      exact (byteAt_congr rfl rfl a).trans (byteAt_setByte_other b s this)
    · intro h
      exact (byteAt_congr rfl rfl _).trans (byteAt_setByte_same _ b s h)
  · trivial

theorem Wrote.outputAddr_eq {m : Nat} {s t : State} (h : Wrote m s t) (p : Nat) : outputAddr t p = outputAddr s p := by
  rw [h.state]
  rfl

theorem Wrote.outPos_eq {m : Nat} {s t : State} (h : Wrote m s t) : t.gen.outPos = s.gen.outPos + m := by
  rw [h.state]

theorem Wrote.outSize_eq {m : Nat} {s t : State} (h : Wrote m s t) : t.gen.outSize = s.gen.outSize := by
  rw [h.state]

theorem Wrote.cfg_eq {m : Nat} {s t : State} (h : Wrote m s t) : t.cfg = s.cfg := by
  rw [h.state]

theorem Wrote.trans {m n : Nat} {s t u : State} (h : Wrote m s t) (h' : Wrote n t u) : Wrote (m + n) s u := by
  refine ⟨?_, fun c => h'.canonical (h.canonical c), ?_⟩
  · have h2 := h'.state
    rw [h.state] at h2
    rw [h2, Nat.add_assoc]
  · intro a ha
    rw [h'.outside a, h.outside a]
    · intro p h1 h2
      exact ha p h1 (by omega)
    · intro p h1 h2
      rw [h.outputAddr_eq]
      rw [h.outPos_eq] at h1 h2
      exact ha p (by omega) (by omega)

/-- copyLoop writes the bytes of the copy and nothing else, or stops; it raises no error. -/
theorem copyLoop_sat (n k : Nat) (s : State) :
    (copyLoop n k s).Sat (fun _ t => Wrote (copySize n s) s t) (fun _ _ => False) := by
  induction n generalizing s with
  | zero =>
    show Wrote (copySize 0 s) s s
    rw [copySize, Nat.zero_min]
    exact .refl s
  | succ n ih =>
    unfold copyLoop
    split
    · show Wrote (copySize (n + 1) s) s s
      have : copySize (n + 1) s = 0 := by unfold copySize; omega
      rw [this]
      exact .refl s
    · unfold readByte
      split
      · rw [Res.bind_ok]
        refine (putByte_sat _ s).bind ?_ fun _ _ h => h
        rintro _ t ⟨ht, -⟩
        refine (ih t).mono ?_ fun _ _ h => h
        intro _ u hu
        have h := ht.trans hu
        have : 1 + copySize n t = copySize (n + 1) s := by
          unfold copySize
          rw [ht.outPos_eq, ht.outSize_eq]
          omega
        rwa [this] at h
      · trivial

/-- In admitted memory copyLoop answers, and each byte of the copy equals the one `k` places before it. -/
theorem copyLoop_ok (n k : Nat) (s : State) (hc : memCanonical s = true) (hk : 1 ≤ k) (hk' : k ≤ s.gen.outPos)
    (ha : OutputAdmitted s.gen.outSize s) :
    ∃ t, copyLoop n k s = .ok () t ∧ Wrote (copySize n s) s t ∧
      ∀ p, s.gen.outPos ≤ p → p < s.gen.outPos + copySize n s →
        byteAt t (outputAddr s p) = byteAt t (outputAddr s (p - k)) := by
  induction n generalizing s with
  | zero =>
    refine ⟨s, rfl, ?_, ?_⟩
    · rw [copySize, Nat.zero_min]; exact .refl s
    · intro p h1 h2
      rw [copySize, Nat.zero_min] at h2
      omega
  | succ n ih =>
    unfold copyLoop
    by_cases h : s.gen.outSize ≤ s.gen.outPos
    · rw [if_pos h]
      have h0 : copySize (n + 1) s = 0 := by unfold copySize; omega
      refine ⟨s, rfl, ?_, ?_⟩
      · rw [h0]; exact .refl s
      · intro p h1 h2
        omega
    · rw [if_neg h]
      have ha1 : admits s.cfg (outputAddr s (s.gen.outPos - k)) = true := ha _ (by omega)
      have ha2 : admits s.cfg (outputAddr s s.gen.outPos) = true := ha _ (by omega)
      have hp := putByte_sat (byteAt s (outputAddr s (s.gen.outPos - k))) s
      rw [readByte, if_pos ha1, Res.bind_ok]
      cases hr : putByte (byteAt s (outputAddr s (s.gen.outPos - k))) s with
      | ok x s1 =>
        rw [hr] at hp
        obtain ⟨hw, hb⟩ := hp
        have hb := hb hc
        obtain ⟨t, ht, hwt, hbt⟩ := ih s1 (hw.canonical hc) (by rw [hw.outPos_eq]; omega) (by
          intro p hp
          rw [hw.outSize_eq] at hp
          rw [hw.cfg_eq, hw.outputAddr_eq]
          exact ha p hp)
        have hsize : 1 + copySize n s1 = copySize (n + 1) s := by
          unfold copySize
          rw [hw.outPos_eq, hw.outSize_eq]
          omega
        refine ⟨t, ht, hsize ▸ hw.trans hwt, ?_⟩
        intro p h1 h2
        have keep : ∀ q, q ≤ s.gen.outPos → byteAt t (outputAddr s q) = byteAt s1 (outputAddr s q) := by
          intro q hq
          refine hwt.outside _ fun p' h1' _ => ?_
          rw [hw.outputAddr_eq]
          rw [hw.outPos_eq] at h1'
          unfold outputAddr
          omega
        by_cases hpe : p = s.gen.outPos
        · subst hpe
          rw [keep _ (Nat.le_refl _), keep _ (Nat.sub_le _ _), hb]
          refine (hw.outside _ fun p' h1' _ => ?_).symm
          unfold outputAddr
          omega
        · have := hbt p (by rw [hw.outPos_eq]; omega) (by rw [hw.outPos_eq]; omega)
          rwa [hw.outputAddr_eq, hw.outputAddr_eq] at this
      | raise e u => rw [hr] at hp; exact hp.elim
      | fault => rw [putByte_eq, if_pos ha2] at hr; cases hr
      | refuse => rw [putByte_eq, if_pos ha2] at hr; cases hr

/-! ### Header runs (42_generic R180 to R182) -/

theorem prependAt_length (n : Nat) (sym : Sym) (ls : List (List Sym)) : (prependAt n sym ls).length = ls.length := by
  induction ls generalizing n with
  | nil => cases n <;> rfl
  | cons l ls ih => cases n <;> simp [prependAt, ih]

theorem prependAt_get (n : Nat) (sym : Sym) (ls : List (List Sym)) (a : Nat) :
    (prependAt n sym ls)[a]? = if a = n then (ls[a]?).map (sym :: ·) else ls[a]? := by
  induction ls generalizing n a with
  | nil => cases n <;> simp [prependAt]
  | cons l ls ih =>
    cases n with
    | zero => cases a <;> simp [prependAt]
    | succ n =>
      cases a with
      | zero => simp [prependAt]
      | succ a => simp [prependAt, ih]

/-- assignRun: `rep` indices go from the top, each to the front of its list, so that the smallest comes first. -/
theorem assignRun_spec (rep len : Nat) (h : Header) (hr : rep ≤ h.rem) :
    (assignRun rep len h).rem = h.rem - rep ∧ (assignRun rep len h).lists.length = h.lists.length ∧
      ∀ a, (assignRun rep len h).lists[a]? =
        if a + 1 = len then (h.lists[a]?).map fun l => (List.range' (h.rem - rep) rep).map (BitVec.ofNat 16) ++ l
        else h.lists[a]? := by
  induction rep generalizing h with
  | zero => simp [assignRun]
  | succ n ih =>
    rw [assignRun]
    obtain ⟨h1, h2, h3⟩ := ih { rem := h.rem - 1, lists := if len = 0 then h.lists else prependAt (len - 1) (BitVec.ofNat 16 (h.rem - 1)) h.lists } (by simp only; omega)
    refine ⟨by rw [h1]; simp only; omega, ?_, ?_⟩
    · rw [h2]
      simp only
      split
      · rfl
      · exact prependAt_length _ _ _
    · intro a
      rw [h3]
      simp only
      by_cases hz : len = 0
      · rw [if_pos hz, if_neg (by omega), if_neg (by omega)]
      · rw [if_neg hz, prependAt_get]
        by_cases ha : a + 1 = len
        · rw [if_pos ha, if_pos ha, if_pos (by omega)]
          cases h.lists[a]? with
          | none => rfl
          | some l =>
            simp only [Option.map_some, Option.some.injEq]
            rw [show h.rem - 1 - n = h.rem - (n + 1) by omega, List.range'_concat, List.map_append, List.append_assoc]
            simp only [List.map_cons, List.map_nil, List.singleton_append, Nat.one_mul]
            rw [show h.rem - (n + 1) + n = h.rem - 1 by omega]
        · rw [if_neg ha, if_neg ha, if_neg (by omega)]

end Sys2Proof.Machine
end

