-- ==== Sys2Proof/Laws/Step.lean ====
section
/-! SUPPORT. What one step can be: the engine's turn or the host's move, and the instructions each alphabet gives. -/

namespace Sys2Proof.Machine

/-! ### Whose turn it is -/

/-- What a step makes of what it fetched. -/
def runFetched : Fetched → Host.Outcome State Fault Refusal
  | .instr i u => exec i u
  | .act o => o

theorem step_eq (s : State) : step s = runFetched (fetch s) := by
  unfold step
  cases fetch s <;> rfl

theorem step_of_engineTurn {s t : State} (h : engineTurn s = some t) : step s = runFetched (engineFetch t) := by
  unfold engineTurn at h
  rw [step_eq]
  unfold fetch
  split at h <;> simp_all

theorem step_of_hostTurn {s t : State} {m : HostMove} (h : hostTurn s = some (m, t)) : step s = runFetched (hostFetch m t) := by
  unfold hostTurn at h
  rw [step_eq]
  unfold fetch
  split at h <;> simp_all

/-- Every step is the engine's or the host's. -/
theorem turn_cases (s : State) : (∃ t, engineTurn s = some t) ∨ ∃ m t, hostTurn s = some (m, t) := by
  unfold engineTurn hostTurn
  cases s.moves with
  | nil => exact .inl ⟨s, rfl⟩
  | cons m rest =>
    cases m with
    | engine => exact .inl ⟨_, rfl⟩
    | host m => exact .inr ⟨m, _, rfl⟩

theorem engineTurn_eq {s t : State} (h : engineTurn s = some t) : t = { s with moves := t.moves } := by
  unfold engineTurn at h
  split at h <;> cases h <;> rfl

theorem hostTurn_eq {s t : State} {m : HostMove} (h : hostTurn s = some (m, t)) : t = { s with moves := t.moves } := by
  unfold hostTurn at h
  split at h <;> cases h
  rfl

theorem engineTurn_not_host {s t u : State} {m : HostMove} (h : engineTurn s = some t) : hostTurn s ≠ some (m, u) := by
  unfold engineTurn at h
  unfold hostTurn
  split at h <;> simp_all

/-! ### The engine's turn, stage by stage -/

/-- The operation of a stage that reads no item. -/
def stageWork (s : State) : Option (Res Unit) :=
  match s.stage with
  | .start => some (startCommand s)
  | .genHeader => some (genHeader s)
  | .genSize => some (genSize s)
  | .genAddend => some (genAddend s)
  | .genLoop => some (genLoop s)
  | .treeCount t => some (treeCount t s)
  | .treeLoop t => if s.hdr.rem = 0 then some (treeBuild t s) else none
  | .maxCount => some (readMaxCount s)
  | .symLoop => if codeDue s then none else some (.ok () (goTo .genLoop s))
  | .copyCode => none
  | .texMagic => some (texMagic s)
  | .texTag => some (texTag s)
  | .texDims => some (texDims s)
  | .texBody => some (texBody s)
  | .texFlags => some (texFlags s)
  | .texClear => if s.tex.cflags &&& s.cfg.unknownFlags ≠ 0 then none else some (texClear s)
  | .pass p => if s.tex.cflags &&& s.cfg.passMask p ≠ 0 then none else some (.ok () (goTo (afterPass p) s))
  | .runLoop p => if runDue s then none else some (.ok () (goTo (afterPass p) s))
  | .rewind => some (.ok () (rewindStep s))
  | .alphaCopy i => some (alphaCopyStep i s)
  | .colorCopy i => some (colorCopyStep i s)
  | .texDone => some (.ok () (complete s.tex.size s))

/-- The item a stage reads. -/
def stageItem (s : State) : Option (Res Code) :=
  match s.stage with
  | .treeLoop _ => if s.hdr.rem = 0 then none else some ((readCode s.dictG s).bind fun v s => .ok (.hdr v) s)
  | .symLoop => if codeDue s then some ((readCode s.symT s).bind fun v s => .ok (.sym v) s) else none
  | .copyCode => some ((readCode s.copyT s).bind fun v s => .ok (.off v) s)
  | .runLoop p => if runDue s then some (readRun p s) else none
  | .texClear => if s.tex.cflags &&& s.cfg.unknownFlags ≠ 0 then some (.ok (.cflags .unknown s.tex.cflags) s) else none
  | .pass p => if s.tex.cflags &&& s.cfg.passMask p ≠ 0 then some (.ok (.cflags (.pass p) s.tex.cflags) s) else none
  | _ => none

/-- The engine waits, works, or runs the instruction of the item it reads. -/
theorem engineFetch_cases (s : State) :
    (s.phase = .idle ∧ engineFetch s = .act (.next s)) ∨
      (s.phase = .busy ∧ ∃ r, stageWork s = some r ∧ engineFetch s = .act r.finish) ∨
      (s.phase = .busy ∧ ∃ r, stageItem s = some r ∧ engineFetch s = fetchRead r) := by
  cases hp : s.phase with
  | idle =>
    refine .inl ⟨rfl, ?_⟩
    simp [engineFetch, isBusy, hp]
  | busy =>
    refine .inr ?_
    have hb : isBusy s = true := by simp [isBusy, hp]
    unfold engineFetch
    rw [if_pos hb]
    unfold stageWork stageItem
    cases s.stage with
    | treeLoop t =>
      by_cases h : s.hdr.rem = 0
      · exact .inl ⟨rfl, _, if_pos h, by simp only [if_pos h]⟩
      · exact .inr ⟨rfl, _, if_neg h, by simp only [if_neg h]⟩
    | symLoop =>
      by_cases h : codeDue s = true
      · exact .inr ⟨rfl, _, if_pos h, by simp only [if_pos h]⟩
      · exact .inl ⟨rfl, _, if_neg h, by simp only [if_neg h]; rfl⟩
    | runLoop p =>
      by_cases h : runDue s = true
      · exact .inr ⟨rfl, _, if_pos h, by simp only [if_pos h]⟩
      · exact .inl ⟨rfl, _, if_neg h, by simp only [if_neg h]; rfl⟩
    | texClear =>
      by_cases h : s.tex.cflags &&& s.cfg.unknownFlags ≠ 0
      · refine .inr ⟨rfl, _, if_pos h, ?_⟩
        simp only [fetchFlags, fetchRead, fetchCode, decode, decodeCflags, if_pos h]
      · refine .inl ⟨rfl, _, if_neg h, ?_⟩
        simp only [fetchFlags, decode, decodeCflags, if_neg h]
    | pass p =>
      by_cases h : s.tex.cflags &&& s.cfg.passMask p ≠ 0
      · refine .inr ⟨rfl, _, if_pos h, ?_⟩
        simp only [fetchFlags, fetchRead, fetchCode, decode, decodeCflags, if_pos h]
      · refine .inl ⟨rfl, _, if_neg h, ?_⟩
        simp only [fetchFlags, decode, decodeCflags, if_neg h]
    | copyCode => exact .inr ⟨rfl, _, rfl, rfl⟩
    | _ => exact .inl ⟨rfl, _, rfl, rfl⟩

/-- The step of a stage that works. -/
theorem step_work {s t : State} {r : Res Unit} (h : engineTurn s = some t) (hb : t.phase = .busy) (hw : stageWork t = some r) :
    step s = r.finish := by
  rw [step_of_engineTurn h]
  rcases engineFetch_cases t with ⟨hp, -⟩ | ⟨-, r', hr, he⟩ | ⟨-, r', hr, he⟩
  · rw [hp] at hb; cases hb
  · rw [he]
    rw [hw] at hr
    cases hr
    rfl
  · exfalso
    unfold stageWork at hw
    unfold stageItem at hr
    split at hw <;> simp_all

/-- The step of a stage that reads an item which decodes. -/
theorem step_item {s t u : State} {r : Res Code} {c : Code} {i : Instr} (h : engineTurn s = some t) (hb : t.phase = .busy)
    (hw : stageItem t = some r) (hr : r = .ok c u) (hd : decode u.cfg c = .ok i) : step s = exec i u := by
  rw [step_of_engineTurn h]
  rcases engineFetch_cases t with ⟨hp, -⟩ | ⟨-, r', hr', he⟩ | ⟨-, r', hr', he⟩
  · rw [hp] at hb; cases hb
  · exfalso
    unfold stageWork at hr'
    unfold stageItem at hw
    split at hw <;> simp_all
  · rw [hw] at hr'
    cases hr'
    rw [he, hr]
    simp only [fetchRead, fetchCode, hd, runFetched]

/-- The step of a stage whose item raises. -/
theorem step_item_raise {s t u : State} {r : Res Code} {e : ErrKind} (h : engineTurn s = some t) (hb : t.phase = .busy)
    (hw : stageItem t = some r) (hr : r = .raise e u) : step s = .next (raiseError e u) := by
  rw [step_of_engineTurn h]
  rcases engineFetch_cases t with ⟨hp, -⟩ | ⟨-, r', hr', he⟩ | ⟨-, r', hr', he⟩
  · rw [hp] at hb; cases hb
  · exfalso
    unfold stageWork at hr'
    unfold stageItem at hw
    split at hw <;> simp_all
  · rw [hw] at hr'
    cases hr'
    rw [he, hr]
    rfl

/-- A next state of the engine's turn. -/
theorem engine_cases {s t v : State} (h : engineTurn s = some t) (hs : step s = .next v) :
    (t.phase = .idle ∧ v = t) ∨
      (t.phase = .busy ∧ ∃ r, stageWork t = some r ∧ r.finish = .next v) ∨
      (t.phase = .busy ∧ ∃ r e u, stageItem t = some r ∧ r = .raise e u ∧ v = raiseError e u) ∨
      (t.phase = .busy ∧ ∃ r c u i, stageItem t = some r ∧ r = .ok c u ∧ decode u.cfg c = .ok i ∧ exec i u = .next v) := by
  rw [step_of_engineTurn h] at hs
  rcases engineFetch_cases t with ⟨hp, he⟩ | ⟨hp, r, hr, he⟩ | ⟨hp, r, hr, he⟩
  · rw [he] at hs
    cases hs
    exact .inl ⟨hp, rfl⟩
  · rw [he] at hs
    exact .inr (.inl ⟨hp, r, hr, hs⟩)
  · rw [he] at hs
    cases hrc : r with
    | ok c u =>
      rw [hrc] at hs
      simp only [fetchRead, fetchCode, runFetched] at hs
      cases hd : decode u.cfg c with
      | ok i =>
        rw [hd] at hs
        exact .inr (.inr (.inr ⟨hp, r, c, u, i, hr, hrc, hd, hs⟩))
      | error => rw [hd] at hs; cases hs
    | raise e u =>
      rw [hrc] at hs
      cases hs
      exact .inr (.inr (.inl ⟨hp, r, e, u, hr, hrc, rfl⟩))
    | fault => rw [hrc] at hs; cases hs
    | refuse => rw [hrc] at hs; cases hs

/-! ### Which instructions an alphabet gives -/

/-- The rows of an alphabet. -/
inductive Alphabet where
  | cmd
  | sym
  | off
  | hdr
  | run
  | pass
  | unknown
deriving DecidableEq, Repr

/-- The alphabet of an instruction's row (30_encoding R80). -/
def alphabetOf : Instr → Alphabet
  | .cmdNone _ | .cmdDecodeGeneric _ | .cmdDecodeTexture _ | .cmdReserved3 _ | .cmdReserved4to7 _ _ | .cmdReserved8to15 _ _ => .cmd
  | .lit _ | .lenQ0 _ | .lenQ1 _ | .lenQ2 _ | .lenQ3 _ | .lenQ4 _ | .lenQ5 _ | .lenQ6 _ | .lenEsc | .lenInvalid
  | .symNone286to287 _ | .symNone288to319 _ | .symNone320to383 _ | .symNone384to511 _ => .sym
  | .offQ0 _ | .offQ1 _ | .offQ2 _ | .offQ3 _ | .offQ4 _ | .offQ5 _ | .offQ6 _ | .offQ7 _ | .offQ8 _ | .offQ9 _ | .offQ10 _
  | .offQ11 _ | .offQ12 _ | .offQ13 _ | .offQ14 _ | .offQ15 _ | .offQ16 _ | .offInvalid34to35 _ | .offInvalid36to39 _
  | .offInvalid40to47 _ | .offInvalid48to63 _ | .offInvalid64to127 _ | .offInvalid128to255 _ | .offInvalid256to511 _ => .off
  | .hdrSkip _ | .hdrAssign1 _ | .hdrAssign2to3 _ _ | .hdrAssign4to7 _ _ | .hdrAssign8to15 _ _ | .hdrAssign16 _
  | .hdrBadlen17 _ | .hdrBadlen18to19 _ _ | .hdrBadlen20to23 _ _ | .hdrBadlen24to31 _ _ => .hdr
  | .runCountZero | .runAbsent _ | .runAltPresent _ | .runColorPresent _ | .runAlphaAbsent _ | .runAlphaZero _
  | .runAlphaFill _ => .run
  | .passAltColor _ | .passAlpha _ | .passColor _ => .pass
  | .cflagsUnknown _ => .unknown

/-- The alphabet of an item. -/
def alphabetOfCode : Code → Alphabet
  | .cmd _ => .cmd
  | .sym _ => .sym
  | .off _ => .off
  | .hdr _ => .hdr
  | .run _ _ _ => .run
  | .cflags (.pass _) _ => .pass
  | .cflags .unknown _ => .unknown

theorem decodeCmd_alphabet (w : Word) : alphabetOf (decodeCmd w) = .cmd := by
  unfold decodeCmd
  simp only []
  split <;> (try split) <;> rfl

theorem decodeSym_alphabet {v : Sym} {i : Instr} (h : decodeSym v = .ok i) : alphabetOf i = .sym := by
  unfold decodeSym decodeLengthCode at h
  repeat' split at h
  all_goals first | cases h; rfl | cases h

theorem decodeOff_alphabet {v : Sym} {i : Instr} (h : decodeOff v = .ok i) : alphabetOf i = .off := by
  unfold decodeOff decodeOffsetCode at h
  repeat' split at h
  all_goals first | cases h; rfl | cases h

theorem decodeHdr_alphabet (v : Sym) : alphabetOf (decodeHdr v) = .hdr := by
  unfold decodeHdr
  simp only []
  repeat' split
  all_goals rfl

theorem decodeRun_alphabet {p : Pass} {count : Sym} {flags : List Bool} {i : Instr} (h : decodeRun p count flags = .ok i) :
    alphabetOf i = .run := by
  unfold decodeRun decodeRunFlags at h
  repeat' split at h
  all_goals first | cases h; rfl | cases h

/-- A decoded instruction is of its item's alphabet. -/
theorem decode_alphabet {cfg : Config} {c : Code} {i : Instr} (h : decode cfg c = .ok i) : alphabetOf i = alphabetOfCode c := by
  cases c with
  | cmd w => cases h; exact decodeCmd_alphabet w
  | sym v => exact decodeSym_alphabet h
  | off v => exact decodeOff_alphabet h
  | hdr v => cases h; exact decodeHdr_alphabet v
  | run p count flags => exact decodeRun_alphabet h
  | cflags row w =>
    unfold decode decodeCflags at h
    cases row with
    | pass p =>
      simp only [] at h
      split at h
      · cases h; cases p <;> rfl
      · cases h
    | unknown =>
      simp only [] at h
      split at h
      · cases h; rfl
      · cases h

/-- The alphabets a stage can read, each with the change the read makes: the reader alone. -/
theorem stageItem_cases {s : State} {r : Res Code} (h : stageItem s = some r) :
    r.Sat
      (fun c u => OnlyReader s u ∧
        (((∃ t, s.stage = .treeLoop t) ∧ s.hdr.rem ≠ 0 ∧ alphabetOfCode c = .hdr) ∨
          (s.stage = .symLoop ∧ codeDue s = true ∧ alphabetOfCode c = .sym) ∨
          (s.stage = .copyCode ∧ alphabetOfCode c = .off) ∨
          (∃ p, s.stage = .runLoop p ∧ runDue s = true ∧ ∃ count flags, c = .run p count flags) ∨
          (s.stage = .texClear ∧ c = .cflags .unknown s.tex.cflags ∧ u = s) ∨
          (∃ p, s.stage = .pass p ∧ c = .cflags (.pass p) s.tex.cflags ∧ u = s)))
      (fun _ u => OnlyReader s u) := by
  unfold stageItem at h
  split at h
  · rename_i t hst
    split at h
    · cases h
    · cases h
      refine (readCode_reader _ s).bind ?_ fun _ _ h => h
      intro v u hu
      exact ⟨hu, .inl ⟨⟨t, hst⟩, ‹_›, rfl⟩⟩
  · rename_i hst
    split at h
    · cases h
      refine (readCode_reader _ s).bind ?_ fun _ _ h => h
      intro v u hu
      exact ⟨hu, .inr (.inl ⟨hst, ‹_›, rfl⟩)⟩
    · cases h
  · rename_i hst
    cases h
    refine (readCode_reader _ s).bind ?_ fun _ _ h => h
    intro v u hu
    exact ⟨hu, .inr (.inr (.inl ⟨hst, rfl⟩))⟩
  · rename_i p hst
    split at h
    · cases h
      refine (readRun_reader p s).mono ?_ fun _ _ h => h
      rintro c u ⟨hu, hc⟩
      exact ⟨hu, .inr (.inr (.inr (.inl ⟨p, hst, ‹_›, hc⟩)))⟩
    · cases h
  · rename_i hst
    split at h
    · cases h
      exact ⟨.refl _, .inr (.inr (.inr (.inr (.inl ⟨hst, rfl, rfl⟩))))⟩
    · cases h
  · rename_i p hst
    split at h
    · cases h
      exact ⟨.refl _, .inr (.inr (.inr (.inr (.inr ⟨p, hst, rfl, rfl⟩))))⟩
    · cases h
  · cases h

end Sys2Proof.Machine
end

