-- ==== Sys2Proof/Laws/Reader.lean ====
section
/-! SUPPORT. The bit reader's invariant under every read: a field or a code moves the reader and nothing else, and keeps
`ReaderInv`. -/

namespace Sys2Proof.Machine

theorem ReaderInv.congr {s t : State} (hb : t.br = s.br) (hc : t.cfg = s.cfg) (h : ReaderInv s) : ReaderInv t :=
  { bits_le := by rw [hb]; exact h.bits_le
    count := by rw [hb]; exact h.count
    words := by rw [hb, hc]; exact h.words
    low_zero := by rw [hb]; exact h.low_zero
    prefix_le := by rw [hc]; exact h.prefix_le }

/-- Bits of the accumulator below the valid ones are zero. -/
theorem low_zero_iff (acc : BitVec 64) (n : Nat) (hn : n ≤ 64) :
    acc.toNat % 2 ^ (64 - n) = 0 ↔ ∀ j, n ≤ j → acc.getMsbD j = false := by
  have key : ∀ i, acc.toNat.testBit i = acc.getLsbD i := fun i => rfl
  constructor
  · intro h j hj
    rw [BitVec.getMsbD]
    by_cases hj' : j < 64
    · simp only [hj', decide_true, Bool.true_and]
      rw [← key]
      have : (acc.toNat % 2 ^ (64 - n)).testBit (64 - 1 - j) = false := by rw [h]; simp
      rw [Nat.testBit_mod_two_pow] at this
      simpa [show 64 - 1 - j < 64 - n by omega] using this
    · simp [hj']
  · intro h
    apply Nat.eq_of_testBit_eq
    intro i
    rw [Nat.testBit_mod_two_pow, Nat.zero_testBit]
    by_cases hi : i < 64 - n
    · simp only [hi, decide_true, Bool.true_and]
      rw [key]
      have := h (63 - i) (by omega)
      rw [BitVec.getMsbD] at this
      simp only [show 63 - i < 64 by omega, decide_true, Bool.true_and] at this
      rwa [show 64 - 1 - (63 - i) = i by omega] at this
    · simp [hi]

theorem getMsbD_shiftLeft (acc : BitVec 64) (n j : Nat) : (acc <<< n).getMsbD j = acc.getMsbD (j + n) := by
  rw [BitVec.getMsbD_shiftLeft]

/-- The accumulator after a refill (40_bit_reader R121). -/
theorem pushed_msb (acc : BitVec 64) (w bits j : Nat) (hb : bits ≤ 31) (hz : ∀ j, bits ≤ j → acc.getMsbD j = false) (hw : w < 2 ^ 32) :
    (acc ||| (BitVec.ofNat 64 w <<< (32 - bits))).getMsbD j =
      if j < bits then acc.getMsbD j else if j < bits + 32 then w.testBit (31 - (j - bits)) else false := by
  rw [BitVec.getMsbD_or, BitVec.getMsbD_shiftLeft]
  have hn : (BitVec.ofNat 64 w).getMsbD (j + (32 - bits)) =
      if j < bits then false else if j < bits + 32 then w.testBit (31 - (j - bits)) else false := by
    rw [BitVec.getMsbD, BitVec.getLsbD_ofNat]
    by_cases h1 : j < bits
    · rw [if_pos h1]
      have : w.testBit (64 - 1 - (j + (32 - bits))) = false := Nat.testBit_lt_two_pow (Nat.lt_of_lt_of_le hw (Nat.pow_le_pow_right (by omega) (by omega)))
      simp [this]
    · rw [if_neg h1]
      by_cases h2 : j < bits + 32
      · rw [if_pos h2]
        simp only [show j + (32 - bits) < 64 by omega, show 64 - 1 - (j + (32 - bits)) < 64 by omega, decide_true, Bool.true_and]
        rw [show 64 - 1 - (j + (32 - bits)) = 31 - (j - bits) by omega]
      · rw [if_neg h2]
        simp [show ¬(j + (32 - bits) < 64) by omega]
  rw [hn]
  by_cases h1 : j < bits
  · simp [h1]
  · simp [h1, hz j (by omega)]

theorem ReaderInv.pushWord {s : State} (h : ReaderInv s) (hb : s.br.bits ≤ 31) (hw : s.br.w < s.br.n + s.cfg.tailZeroWords) (w : Nat)
    (hlt : w < 2 ^ 32) : ReaderInv (pushWord w s) := by
  have hz := (low_zero_iff s.br.acc s.br.bits (by omega)).mp h.low_zero
  refine { bits_le := by simp only [pushWord_br]; omega, count := ?_, words := ?_, low_zero := ?_, prefix_le := h.prefix_le }
  · have := h.count
    simp only [pushWord_br]
    omega
  · simp only [pushWord_br, pushWord_cfg]
    omega
  · simp only [pushWord_br]
    rw [low_zero_iff _ _ (by omega)]
    intro j hj
    rw [pushed_msb _ _ _ _ hb hz hlt, if_neg (by omega), if_neg (by omega)]

theorem ReaderInv.dropBits {s : State} (h : ReaderInv s) {n : Nat} (hn : n ≤ s.br.bits) : ReaderInv (dropBits n s) := by
  have hb := h.bits_le
  have hz := (low_zero_iff s.br.acc s.br.bits (by omega)).mp h.low_zero
  refine { bits_le := by simp only [dropBits_br]; omega, count := ?_, words := h.words, low_zero := ?_, prefix_le := h.prefix_le }
  · have := h.count
    simp only [dropBits_br]
    omega
  · simp only [dropBits_br]
    rw [low_zero_iff _ _ (by omega)]
    intro j hj
    rw [getMsbD_shiftLeft]
    exact hz _ (by omega)

/-- A read: the reader alone differs, and its invariant is kept. -/
structure ReaderStep (s t : State) : Prop where
  only : OnlyReader s t
  inv : ReaderInv s → ReaderInv t
  forward : s.br.c ≤ t.br.c
  words : t.br.n = s.br.n

theorem ReaderStep.refl (s : State) : ReaderStep s s := ⟨.refl s, id, Nat.le_refl _, rfl⟩

theorem ReaderStep.trans {s t u : State} (h : ReaderStep s t) (h' : ReaderStep t u) : ReaderStep s u :=
  ⟨h.only.trans h'.only, fun i => h'.inv (h.inv i), Nat.le_trans h.forward h'.forward, h'.words.trans h.words⟩

theorem ensure_step (n : Nat) (s : State) (hn : n ≤ 32) :
    (ensure n s).Sat (fun _ t => ReaderStep s t ∧ n ≤ t.br.bits) (fun _ t => ReaderStep s t) := by
  refine (ensure_sat n s).mono ?_ ?_
  · rintro _ t (⟨h, rfl⟩ | ⟨h, hw, rfl⟩)
    · exact ⟨.refl _, h⟩
    · refine ⟨⟨onlyReader_pushWord _ _, fun i => i.pushWord (by omega) hw _ ?_, Nat.le_refl _, rfl⟩, by simp only [pushWord_br]; omega⟩
      split
      · exact inputWordValue_lt _ _
      · decide
  · rintro e t ⟨-, rfl, -, -⟩
    exact .refl _

theorem readBits_step (n : Nat) (s : State) (hn : n ≤ 32) :
    (readBits n s).Sat (fun v t => ReaderStep s t ∧ v < 2 ^ n) (fun _ t => ReaderStep s t) := by
  have h := ensure_step n s hn
  refine (readBits_sat n s hn).mono ?_ ?_
  · rintro v t ⟨u, hu, hb, rfl, rfl⟩
    rw [hu] at h
    exact ⟨h.1.trans ⟨onlyReader_dropBits _ _, fun i => i.dropBits hb, Nat.le_add_right _ _, rfl⟩, topBits_lt _ _ (by omega)⟩
  · rintro e t ⟨-, rfl⟩
    exact .refl _

theorem readCode_step (tree : Tree) (s : State) :
    (readCode tree s).Sat (fun _ t => ReaderStep s t) (fun _ t => ReaderStep s t) := by
  have he := ensure_step 32 s (Nat.le_refl _)
  unfold readCode
  split
  · exact .refl _
  · cases hs : ensure 32 s with
    | ok a t =>
      rw [hs] at he
      have hb : ¬t.br.bits < 32 := by have := he.2; omega
      simp only [Res.bind_ok, peek, if_neg hb]
      cases tree.lookup (topBits t.br.acc 32) with
      | none => exact he.1
      | some p =>
        simp only [consume]
        split
        · exact he.1
        · exact he.1.trans ⟨onlyReader_dropBits _ _, fun i => i.dropBits (by omega), Nat.le_add_right _ _, rfl⟩
    | raise e t =>
      rw [hs] at he
      exact he
    | fault => trivial
    | refuse => trivial

theorem readExtra_step (n : Nat) (s : State) (hn : n ≤ 32) :
    (readExtra n s).Sat (fun _ t => ReaderStep s t) (fun _ t => ReaderStep s t) := by
  unfold readExtra
  split
  · exact .refl _
  · exact (readBits_step n s hn).mono (fun _ _ h => h.1) fun _ _ h => h

/-- A skipped field of any width (42_generic R191): the invariant says that it is at most 32 bits wide. -/
theorem readPrefix_step (s : State) :
    (readExtra s.cfg.addendPrefixSkip s).Sat (fun _ t => ReaderStep s t) (fun _ t => ReaderStep s t) := by
  by_cases hn : s.cfg.addendPrefixSkip ≤ 32
  · exact readExtra_step _ s hn
  · have noinv : ∀ {t : State}, OnlyReader s t → s.br.c ≤ t.br.c → t.br.n = s.br.n → ReaderStep s t :=
      fun h h' h'' => ⟨h, fun i => absurd i.prefix_le hn, h', h''⟩
    unfold readExtra
    rw [if_neg (by omega)]
    unfold readBits
    refine (ensure_sat _ s).bind (Q' := fun _ t => ReaderStep s t) ?_ ?_
    · intro _ t ht
      have ho : OnlyReader s t ∧ s.br.c ≤ t.br.c ∧ t.br.n = s.br.n := by
        rcases ht with ⟨-, rfl⟩ | ⟨-, -, rfl⟩
        · exact ⟨.refl _, Nat.le_refl _, rfl⟩
        · exact ⟨onlyReader_pushWord _ _, Nat.le_refl _, rfl⟩
      unfold peek consume
      split
      · exact noinv ho.1 ho.2.1 ho.2.2
      · rw [Res.bind_ok, if_neg ‹_›]
        exact noinv (ho.1.trans (onlyReader_dropBits _ _)) (Nat.le_trans ho.2.1 (Nat.le_add_right _ _)) ho.2.2
    · rintro e t ⟨-, rfl, -⟩
      exact .refl _

theorem readRun_step (p : Pass) (s : State) :
    (readRun p s).Sat (fun c t => ReaderStep s t ∧ ∃ count flags, c = .run p count flags) (fun _ t => ReaderStep s t) := by
  unfold readRun
  refine (readCode_step s.dictT s).bind ?_ fun _ _ h => h
  intro count t ht
  split
  · exact ⟨ht, 0, [], rfl⟩
  · refine Res.Sat.bind (Q := fun _ u => ReaderStep s u) (R := fun _ u => ReaderStep s u) ?_ ?_ fun _ _ h => h
    · unfold readRunFlags
      refine (readBits_step 1 t (by omega)).bind ?_ fun _ _ h => ht.trans h
      intro v u hu
      split
      · exact (readBits_step 1 u (by omega)).bind (fun w x hx => ht.trans (hu.1.trans hx.1)) fun _ _ h => ht.trans (hu.1.trans h)
      · exact ht.trans hu.1
    · intro flags u hu
      exact ⟨hu, count, flags, rfl⟩

/-- The item a stage reads. -/
theorem stageItem_step {s : State} {r : Res Code} (h : stageItem s = some r) :
    r.Sat
      (fun c u => ReaderStep s u ∧
        (((∃ t, s.stage = .treeLoop t) ∧ s.hdr.rem ≠ 0 ∧ alphabetOfCode c = .hdr) ∨
          (s.stage = .symLoop ∧ codeDue s = true ∧ alphabetOfCode c = .sym) ∨
          (s.stage = .copyCode ∧ alphabetOfCode c = .off) ∨
          (∃ p, s.stage = .runLoop p ∧ runDue s = true ∧ ∃ count flags, c = .run p count flags) ∨
          (s.stage = .texClear ∧ c = .cflags .unknown s.tex.cflags ∧ u = s) ∨
          (∃ p, s.stage = .pass p ∧ c = .cflags (.pass p) s.tex.cflags ∧ u = s)))
      (fun _ u => ReaderStep s u) := by
  have hc := stageItem_cases h
  have hr : r.Sat (fun _ u => ReaderStep s u) (fun _ u => ReaderStep s u) := by
    unfold stageItem at h
    split at h
    · split at h
      · cases h
      · cases h; exact (readCode_step _ s).bind (fun _ _ h => h) fun _ _ h => h
    · split at h
      · cases h; exact (readCode_step _ s).bind (fun _ _ h => h) fun _ _ h => h
      · cases h
    · cases h; exact (readCode_step _ s).bind (fun _ _ h => h) fun _ _ h => h
    · split at h
      · cases h; exact (readRun_step _ s).mono (fun _ _ h => h.1) fun _ _ h => h
      · cases h
    · split at h
      · cases h; exact .refl _
      · cases h
    · split at h
      · cases h; exact .refl _
      · cases h
    · cases h
  cases r with
  | ok c u => exact ⟨hr, hc.2⟩
  | raise e u => exact hr
  | fault => trivial
  | refuse => trivial

end Sys2Proof.Machine
end

