-- ==== Sys2Proof/Laws/Texture.lean ====
section
/-! SUPPORT. The texture decoder's operations: run records (43_texture R229 to R232) and literal copies (R236 to R238). -/

namespace Sys2Proof.Machine

/-! ### Bitmaps -/

theorem present_set (map : List Bool) (i j : Nat) :
    present (map.set i true) j = (present map j || decide (j = i ∧ i < map.length)) := by
  unfold present
  rw [List.getD_eq_getElem?_getD, List.getD_eq_getElem?_getD, List.getElem?_set]
  by_cases h : i = j
  · subst h
    by_cases h' : i < map.length
    · simp [h']
    · simp [h']
  · simp [h, Ne.symm h]

theorem absentFrom_end (map : List Bool) {pos nb : Nat} (h : nb ≤ pos) : absentFrom map pos nb = [] := by
  simp [absentFrom, Nat.sub_eq_zero_of_le h]

theorem absentFrom_step (map : List Bool) {pos nb : Nat} (h : pos < nb) :
    absentFrom map pos nb =
      if present map pos then absentFrom map (pos + 1) nb else pos :: absentFrom map (pos + 1) nb := by
  unfold absentFrom
  rw [show nb - pos = nb - (pos + 1) + 1 by omega, List.range'_succ, List.filter_cons]
  cases present map pos <;> rfl

theorem mem_absentFrom {map : List Bool} {pos nb i : Nat} :
    i ∈ absentFrom map pos nb ↔ pos ≤ i ∧ i < nb ∧ present map i = false := by
  unfold absentFrom
  simp only [List.mem_filter, List.mem_range'_1, Bool.not_eq_true']
  constructor
  · rintro ⟨⟨h1, h2⟩, h3⟩
    exact ⟨h1, by omega, h3⟩
  · rintro ⟨h1, h2, h3⟩
    exact ⟨⟨h1, by omega⟩, h3⟩

theorem absentFrom_congr {map map' : List Bool} {pos nb : Nat} (h : ∀ i, pos ≤ i → present map i = present map' i) :
    absentFrom map pos nb = absentFrom map' pos nb := by
  unfold absentFrom
  refine List.filter_congr fun i hi => ?_
  rw [h i (List.mem_range'_1.mp hi).1]

/-! ### The action of a run -/

def actWrites : RunAct → Bool
  | .leave => false
  | _ => true

/-- The offset in the block and the value an action writes. -/
def actOff (a : RunAct) (s : State) : Nat :=
  match a with
  | .color => colorOff s
  | _ => 0

def actValue (a : RunAct) (s : State) : Component :=
  match a with
  | .leave => 0
  | .alt => s.cfg.altColorPattern
  | .alpha fill => if fill then s.tex.fill else 0
  | .color => s.tex.color

/-- The bitmaps an action marks. -/
def actColor : RunAct → Bool
  | .alt | .color => true
  | _ => false

def actAlpha : RunAct → Bool
  | .alt | .alpha _ => true
  | _ => false

/-- Memory after an action at position `i`. -/
def actMem (a : RunAct) (i : Nat) (s : State) : State :=
  if actWrites a then setBytes (blockAddr i (actOff a s) s) (leBytes 8 (actValue a s).toNat) s else s

/-- The state after an action at position `i`. -/
def actState (a : RunAct) (i : Nat) (s : State) : State :=
  { s with
    tex := { s.tex with
      colorMap := if actColor a then s.tex.colorMap.set i true else s.tex.colorMap
      alphaMap := if actAlpha a then s.tex.alphaMap.set i true else s.tex.alphaMap }
    mem := (actMem a i s).mem
    free := (actMem a i s).free }

theorem runAct_sat (a : RunAct) (i : Nat) (s : State) :
    (runAct a i s).Sat (fun _ t => t = actState a i s) (fun _ _ => False) := by
  cases a with
  | leave => rfl
  | alt =>
    refine (putComponent_sat _ _ s).bind ?_ fun _ _ h => h
    rintro _ t rfl
    show markAlpha i (markColor i (setBytes _ _ s)) = _
    rw [setBytes_eq]
    simp [actState, actMem, actWrites, actOff, actValue, actColor, actAlpha, markAlpha, markColor]
  | alpha fill =>
    refine (putComponent_sat _ _ s).bind ?_ fun _ _ h => h
    rintro _ t rfl
    show markAlpha i (setBytes _ _ s) = _
    rw [setBytes_eq]
    simp [actState, actMem, actWrites, actOff, actValue, actColor, actAlpha, markAlpha]
  | color =>
    refine (putComponent_sat _ _ s).bind ?_ fun _ _ h => h
    rintro _ t rfl
    show markColor i (setBytes _ _ s) = _
    rw [setBytes_eq]
    simp [actState, actMem, actWrites, actOff, actValue, actColor, actAlpha, markColor]

/-- Every byte of the component is admitted. -/
def ActAdmitted (a : RunAct) (i : Nat) (s : State) : Prop :=
  actWrites a = true → ∀ k, k < 8 → admits s.cfg (blockAddr i (actOff a s) s + k) = true

theorem runAct_ok (a : RunAct) (i : Nat) (s : State) (h : ActAdmitted a i s) : runAct a i s = .ok () (actState a i s) := by
  have hs := runAct_sat a i s
  have key : ∃ t, runAct a i s = .ok () t := by
    unfold ActAdmitted actOff at h
    cases a with
    | leave => exact ⟨_, rfl⟩
    | _ => exact ⟨_, by rw [runAct, putComponent_of_admitted (h rfl), Res.bind_ok]⟩
  obtain ⟨t, ht⟩ := key
  rw [ht] at hs ⊢
  rw [show t = actState a i s from hs]

/-- What an action keeps of a state. -/
theorem actState_eq (a : RunAct) (i : Nat) (s : State) :
    actState a i s = { s with
      tex := { s.tex with colorMap := (actState a i s).tex.colorMap, alphaMap := (actState a i s).tex.alphaMap }
      mem := (actState a i s).mem, free := (actState a i s).free } := rfl

theorem actState_canonical (a : RunAct) (i : Nat) (s : State) (h : memCanonical s = true) :
    memCanonical (actState a i s) = true := by
  refine memCanonical_congr (s := actMem a i s) rfl rfl ?_
  unfold actMem
  split
  · exact setBytes_canonical _ _ s h
  · exact h

theorem actState_outside (a : RunAct) (i : Nat) (s : State) (x : Nat)
    (h : actWrites a = true → ∀ k, k < 8 → x ≠ blockAddr i (actOff a s) s + k) : byteAt (actState a i s) x = byteAt s x := by
  refine (byteAt_congr (s := actMem a i s) rfl rfl x).trans ?_
  unfold actMem
  split
  · rename_i hw
    have h := h hw
    refine byteAt_setBytes_outside _ _ _ _ ?_
    rw [leBytes_length]
    rcases Nat.lt_or_ge x (blockAddr i (actOff a s) s) with h1 | h1
    · exact .inl h1
    · rcases Nat.lt_or_ge x (blockAddr i (actOff a s) s + 8) with h2 | h2
      · exact absurd (show x = blockAddr i (actOff a s) s + (x - blockAddr i (actOff a s) s) by omega)
          (h _ (by omega))
      · exact .inr h2
  · rfl

theorem actState_inside (a : RunAct) (i : Nat) (s : State) (hc : memCanonical s = true) (hw : actWrites a = true) (k : Nat)
    (hk : k < 8) :
    byteAt (actState a i s) (blockAddr i (actOff a s) s + k) = BitVec.ofNat 8 ((actValue a s).toNat / 256 ^ k) := by
  refine (byteAt_congr (s := actMem a i s) rfl rfl _).trans ?_
  unfold actMem
  rw [if_pos hw]
  have hl : k < (leBytes 8 (actValue a s).toNat).length := by rw [leBytes_length]; exact hk
  exact (byteAt_setBytes_inside _ _ _ hc k hl).trans (leBytes_get _ _ _ hl)

theorem actState_colorMap (a : RunAct) (i : Nat) (s : State) :
    (actState a i s).tex.colorMap = if actColor a then s.tex.colorMap.set i true else s.tex.colorMap := by
  unfold actState; rfl

theorem actState_alphaMap (a : RunAct) (i : Nat) (s : State) :
    (actState a i s).tex.alphaMap = if actAlpha a then s.tex.alphaMap.set i true else s.tex.alphaMap := by
  unfold actState; rfl

/-! ### Runs -/

/-- The bitmap a pass tests is one of the two. -/
def IsMap (map : State → List Bool) : Prop := map = (fun s => s.tex.colorMap) ∨ map = (fun s => s.tex.alphaMap)

theorem IsMap.actState {map : State → List Bool} (h : IsMap map) (a : RunAct) (i j : Nat) (s : State) (hj : j ≠ i) :
    present (map (actState a i s)) j = present (map s) j := by
  rcases h with rfl | rfl
  · simp only [actState_colorMap]
    split
    · rw [present_set]; simp [hj]
    · rfl
  · simp only [actState_alphaMap]
    split
    · rw [present_set]; simp [hj]
    · rfl

theorem IsMap.stepPos {map : State → List Bool} (h : IsMap map) (s : State) : map (stepPos s) = map s := by
  rcases h with rfl | rfl <;> rfl

/-- From `s` to `t`, an action was performed at these positions, in this order. -/
structure Ran (a : RunAct) (blocks : List Nat) (s t : State) : Prop where
  state : t = { s with
    tex := { s.tex with pos := t.tex.pos, colorMap := t.tex.colorMap, alphaMap := t.tex.alphaMap }
    mem := t.mem, free := t.free }
  canonical : memCanonical s = true → memCanonical t = true
  colorLength : t.tex.colorMap.length = s.tex.colorMap.length
  alphaLength : t.tex.alphaMap.length = s.tex.alphaMap.length
  color : (∀ i, i ∈ blocks → i < s.tex.colorMap.length) → Marked s.tex.colorMap t.tex.colorMap (if actColor a then blocks else [])
  alpha : (∀ i, i ∈ blocks → i < s.tex.alphaMap.length) → Marked s.tex.alphaMap t.tex.alphaMap (if actAlpha a then blocks else [])
  outside : ∀ x, (actWrites a = true → ∀ i, i ∈ blocks → ∀ k, k < 8 → x ≠ blockAddr i (actOff a s) s + k) →
    byteAt t x = byteAt s x
  inside : memCanonical s = true → actWrites a = true → 8 ≤ s.tex.bpb →
    ∀ i, i ∈ blocks → ∀ k, k < 8 → byteAt t (blockAddr i (actOff a s) s + k) = BitVec.ofNat 8 ((actValue a s).toNat / 256 ^ k)

theorem Marked.refl (m : List Bool) (b : Bool) : Marked m m (if b then [] else []) := by
  refine ⟨rfl, fun i => ?_⟩
  cases b <;> simp

theorem Ran.refl (a : RunAct) (s : State) : Ran a [] s s :=
  { state := rfl, canonical := id, colorLength := rfl, alphaLength := rfl,
    color := fun _ => .refl _ _, alpha := fun _ => .refl _ _, outside := fun _ _ => rfl,
    inside := fun _ _ _ i hi => absurd hi (by simp) }

/-- Moving the position. -/
theorem Ran.setPos {a : RunAct} {blocks : List Nat} {s t : State} (h : Ran a blocks s t) (p : Nat) :
    Ran a blocks s { t with tex := { t.tex with pos := p } } :=
  { state := by
      have := h.state
      rw [this]
    canonical := fun c => memCanonical_congr rfl rfl (h.canonical c)
    colorLength := h.colorLength
    alphaLength := h.alphaLength
    color := h.color
    alpha := h.alpha
    outside := fun x hx => (byteAt_congr rfl rfl x).trans (h.outside x hx)
    inside := fun c w b i hi k hk => (byteAt_congr rfl rfl _).trans (h.inside c w b i hi k hk) }

theorem Ran.ofPos {a : RunAct} {blocks : List Nat} {s t : State} {p : Nat}
    (h : Ran a blocks { s with tex := { s.tex with pos := p } } t) : Ran a blocks s t :=
  { state := by
      have := h.state
      rw [this]
    canonical := fun c => h.canonical (memCanonical_congr rfl rfl c)
    colorLength := h.colorLength
    alphaLength := h.alphaLength
    color := h.color
    alpha := h.alpha
    outside := fun x hx => (h.outside x hx).trans (byteAt_congr rfl rfl x)
    inside := fun c w b i hi k hk => h.inside (memCanonical_congr rfl rfl c) w b i hi k hk }

theorem blockAddr_congr {s t : State} (hl : t.launch = s.launch) (hb : t.tex.bpb = s.tex.bpb) (i off : Nat) :
    blockAddr i off t = blockAddr i off s := by
  unfold blockAddr outputAddr
  rw [hl, hb]

theorem marked_cons {m m' m'' : List Bool} {i : Nat} {blocks : List Nat} (b : Bool) (hi : i < m.length)
    (h1 : m' = if b then m.set i true else m) (h2 : Marked m' m'' (if b then blocks else [])) :
    Marked m m'' (if b then i :: blocks else []) := by
  cases b with
  | false =>
    simp only [Bool.false_eq_true, if_false] at h1 h2 ⊢
    subst h1
    exact h2
  | true =>
    simp only [if_true] at h1 h2 ⊢
    subst h1
    refine ⟨by rw [h2.1, List.length_set], fun j => ?_⟩
    rw [h2.2, present_set]
    by_cases hj : j = i <;> simp [hj, hi]

/-- An action at one position, then more at later positions. -/
theorem Ran.cons {a : RunAct} {i : Nat} {blocks : List Nat} {s t : State} (hb : ∀ j, j ∈ blocks → i < j)
    (h : Ran a blocks (actState a i s) t) : Ran a (i :: blocks) s t := by
  have hs := actState_eq a i s
  have hoff : actOff a (actState a i s) = actOff a s := by
    rw [hs]
    cases a <;> rfl
  have hval : actValue a (actState a i s) = actValue a s := by
    rw [hs]
    cases a <;> rfl
  have hbpb : (actState a i s).tex.bpb = s.tex.bpb := by rw [hs]; rfl
  have hlaunch : (actState a i s).launch = s.launch := by rw [hs]
  have haddr : ∀ j off, blockAddr j off (actState a i s) = blockAddr j off s := blockAddr_congr hlaunch hbpb
  have hcl : (actState a i s).tex.colorMap.length = s.tex.colorMap.length := by
    rw [actState_colorMap]; split <;> simp
  have hal : (actState a i s).tex.alphaMap.length = s.tex.alphaMap.length := by
    rw [actState_alphaMap]; split <;> simp
  refine
    { state := ?_, canonical := fun c => h.canonical (actState_canonical a i s c),
      colorLength := h.colorLength.trans hcl, alphaLength := h.alphaLength.trans hal, color := ?_, alpha := ?_,
      outside := ?_, inside := ?_ }
  · have := h.state
    rw [hs] at this
    rw [this]
  · intro hlt
    exact marked_cons _ (hlt i (by simp)) (actState_colorMap a i s)
      (h.color fun j hj => by rw [hcl]; exact hlt j (by simp [hj]))
  · intro hlt
    exact marked_cons _ (hlt i (by simp)) (actState_alphaMap a i s)
      (h.alpha fun j hj => by rw [hal]; exact hlt j (by simp [hj]))
  · intro x hx
    rw [h.outside x, actState_outside]
    · exact fun w => hx w i (by simp)
    · intro w j hj
      rw [hoff, haddr]
      exact hx w j (by simp [hj])
  · intro c w b j hj k hk
    rcases List.mem_cons.mp hj with rfl | hj
    · rw [h.outside, actState_inside a j s c w k hk]
      intro _ j' hj' k' hk'
      rw [hoff, haddr]
      have := hb j' hj'
      unfold blockAddr outputAddr
      have h8 : j * s.tex.bpb + s.tex.bpb ≤ j' * s.tex.bpb := by
        rw [← Nat.succ_mul]
        exact Nat.mul_le_mul_right _ this
      omega
    · have := h.inside (actState_canonical a i s c) w (by rw [hbpb]; exact b) j hj k hk
      rwa [hoff, haddr, hval] at this

/-- coverRun: it covers the next `c` positions absent in the bitmap, or reaches the end and raises InvalidRun. -/
theorem coverRun_sat {map : State → List Bool} (hm : IsMap map) (a : RunAct) (n c : Nat) (s : State) :
    (coverRun map a n c s).Sat
      (fun _ t =>
        c ≤ (absentFrom (map s) s.tex.pos (s.tex.pos + n)).length ∧
          Ran a ((absentFrom (map s) s.tex.pos (s.tex.pos + n)).take c) s t ∧
          s.tex.pos ≤ t.tex.pos ∧ t.tex.pos ≤ s.tex.pos + n ∧ (0 < c → s.tex.pos < t.tex.pos) ∧
          (∀ j, t.tex.pos ≤ j → present (map t) j = present (map s) j) ∧
          absentFrom (map s) t.tex.pos (s.tex.pos + n) = (absentFrom (map s) s.tex.pos (s.tex.pos + n)).drop c)
      (fun e t =>
        e = .invalidRun ∧ (absentFrom (map s) s.tex.pos (s.tex.pos + n)).length < c ∧
          Ran a (absentFrom (map s) s.tex.pos (s.tex.pos + n)) s t ∧ t.tex.pos = s.tex.pos + n) := by
  induction n generalizing c s with
  | zero =>
    cases c with
    | zero =>
      refine ⟨Nat.zero_le _, ?_, Nat.le_refl _, Nat.le_refl _, fun h => absurd h (Nat.lt_irrefl _), fun _ _ => rfl, ?_⟩
      · rw [List.take_zero]; exact .refl a s
      · rw [List.drop_zero]
    | succ c =>
      have h0 : absentFrom (map s) s.tex.pos (s.tex.pos + 0) = [] := absentFrom_end _ (Nat.le_refl _)
      refine ⟨rfl, ?_, ?_, rfl⟩
      · rw [h0]; exact Nat.succ_pos _
      · rw [h0]; exact .refl a s
  | succ n ih =>
    cases c with
    | zero =>
      refine ⟨Nat.zero_le _, ?_, Nat.le_refl _, Nat.le_add_right _ _, fun h => absurd h (Nat.lt_irrefl _), fun _ _ => rfl, ?_⟩
      · rw [List.take_zero]; exact .refl a s
      · rw [List.drop_zero]
    | succ c =>
      have hlt : s.tex.pos < s.tex.pos + (n + 1) := by omega
      have hend : s.tex.pos + (n + 1) = s.tex.pos + 1 + n := by omega
      unfold coverRun
      by_cases hp : present (map s) s.tex.pos = true
      · rw [if_pos hp]
        have hstep := absentFrom_step (map s) hlt
        rw [if_pos hp] at hstep
        rw [hstep, hend]
        have h := ih (c + 1) (stepPos s)
        rw [hm.stepPos] at h
        refine h.mono ?_ ?_
        · rintro _ t ⟨h1, h2, h3, h4, h5, h6, h7⟩
          simp only [stepPos_tex] at h1 h2 h3 h4 h5 h7
          exact ⟨h1, h2.ofPos, by omega, h4, fun _ => by omega, h6, h7⟩
        · rintro e t ⟨h1, h2, h3, h4⟩
          simp only [stepPos_tex] at h2 h3 h4
          exact ⟨h1, h2, h3.ofPos, h4⟩
      · rw [if_neg hp]
        have hstep := absentFrom_step (map s) hlt
        rw [if_neg hp] at hstep
        rw [hstep, hend]
        refine (runAct_sat a s.tex.pos s).bind ?_ fun _ _ h => h.elim
        rintro _ _ rfl
        have hpos : (actState a s.tex.pos s).tex.pos = s.tex.pos := by rw [actState_eq]
        have hcong : absentFrom (map (actState a s.tex.pos s)) (s.tex.pos + 1) (s.tex.pos + 1 + n) =
            absentFrom (map s) (s.tex.pos + 1) (s.tex.pos + 1 + n) :=
          absentFrom_congr fun j hj => hm.actState a _ j s (by omega)
        have h := ih c (stepPos (actState a s.tex.pos s))
        rw [hm.stepPos] at h
        simp only [stepPos_tex, hpos, hcong] at h
        have hgt : ∀ j, j ∈ absentFrom (map s) (s.tex.pos + 1) (s.tex.pos + 1 + n) → s.tex.pos < j := by
          intro j hj
          have := (mem_absentFrom.mp hj).1
          omega
        refine h.mono ?_ ?_
        · rintro _ t ⟨h1, h2, h3, h4, h5, h6, h7⟩
          refine ⟨by simpa using h1, ?_, by omega, h4, fun _ => by omega, ?_, ?_⟩
          · rw [List.take_succ_cons]
            exact Ran.cons (fun j hj => hgt j (List.mem_of_mem_take hj)) h2.ofPos
          · intro j hj
            rw [h6 j hj]
            exact hm.actState a _ j s (by omega)
          · rw [List.drop_succ_cons, ← h7]
            exact (absentFrom_congr fun j hj => hm.actState a _ j s (by omega)).symm
        · rintro e t ⟨h1, h2, h3, h4⟩
          exact ⟨h1, by simpa using h2, Ran.cons hgt h3.ofPos, h4⟩

/-- In admitted memory coverRun answers or raises; it does not stop. -/
theorem coverRun_no_stop {map : State → List Bool} (a : RunAct) (n c : Nat) (s : State)
    (h : ∀ i, s.tex.pos ≤ i → i < s.tex.pos + n → ActAdmitted a i s) :
    (∃ t, coverRun map a n c s = .ok () t) ∨ ∃ e t, coverRun map a n c s = .raise e t := by
  induction n generalizing c s with
  | zero =>
    cases c with
    | zero => exact .inl ⟨s, rfl⟩
    | succ c => exact .inr ⟨_, s, rfl⟩
  | succ n ih =>
    cases c with
    | zero => exact .inl ⟨s, by unfold coverRun; rfl⟩
    | succ c =>
      unfold coverRun
      split
      · refine ih (c + 1) (stepPos s) fun i h1 h2 => ?_
        simp only [stepPos_tex] at h1 h2
        exact h i (by omega) (by omega)
      · rw [runAct_ok a _ s (h _ (Nat.le_refl _) (by omega)), Res.bind_ok]
        have hs := actState_eq a s.tex.pos s
        have hpos : (actState a s.tex.pos s).tex.pos = s.tex.pos := by rw [hs]
        refine ih c (stepPos (actState a s.tex.pos s)) fun i h1 h2 => ?_
        simp only [stepPos_tex, hpos] at h1 h2
        have := h i (by omega) (by omega)
        unfold ActAdmitted at this ⊢
        intro w k hk
        have := this w k hk
        have hoff : actOff a (stepPos (actState a s.tex.pos s)) = actOff a s := by
          rw [hs]
          cases a <;> rfl
        rw [hoff, blockAddr_congr (s := s) (by rw [hs]; rfl) (by rw [hs]; rfl), show (stepPos (actState a s.tex.pos s)).cfg = s.cfg by rw [hs]; rfl]
        exact this

theorem skipPresent_eq (map : State → List Bool) (n : Nat) (s : State) :
    skipPresent map n s = { s with tex := { s.tex with pos := (skipPresent map n s).tex.pos } } := by
  induction n generalizing s with
  | zero => rfl
  | succ n ih =>
    unfold skipPresent
    split
    · rw [ih]; rfl
    · rfl

theorem skipPresent_pos {map : State → List Bool} (hm : IsMap map) (n : Nat) (s : State) :
    (skipPresent map n s).tex.pos = ((absentFrom (map s) s.tex.pos (s.tex.pos + n)).head?).getD (s.tex.pos + n) := by
  induction n generalizing s with
  | zero => rw [absentFrom_end (map s) (pos := s.tex.pos) (nb := s.tex.pos + 0) (Nat.le_refl _)]; rfl
  | succ n ih =>
    have hstep := absentFrom_step (map s) (show s.tex.pos < s.tex.pos + (n + 1) by omega)
    unfold skipPresent
    split
    · rename_i h
      rw [if_pos h] at hstep
      rw [ih, hm.stepPos, hstep]
      simp only [stepPos_tex]
      rw [show s.tex.pos + 1 + n = s.tex.pos + (n + 1) by omega]
    · rename_i h
      rw [if_neg h] at hstep
      rw [hstep]
      rfl

/-- runRecord (43_texture R229): what a run record does. -/
theorem runRecord_sat {map : State → List Bool} (hm : IsMap map) (a : RunAct) (count : Sym) (s : State) (hp : s.tex.pos ≤ s.tex.nb) :
    (runRecord map a count s).Sat
      (fun _ t =>
        count.toNat ≤ (absentFrom (map s) s.tex.pos s.tex.nb).length ∧
          Ran a (covered (map s) s.tex.pos s.tex.nb count.toNat) s t ∧
          t.tex.pos = posAfter (map s) s.tex.pos s.tex.nb count.toNat ∧ s.tex.pos ≤ t.tex.pos ∧
          (0 < count.toNat → s.tex.pos < t.tex.pos))
      (fun e t =>
        e = .invalidRun ∧ (absentFrom (map s) s.tex.pos s.tex.nb).length < count.toNat ∧
          Ran a (absentFrom (map s) s.tex.pos s.tex.nb) s t ∧ t.tex.pos = s.tex.nb) := by
  have h := coverRun_sat hm a (s.tex.nb - s.tex.pos) count.toNat s
  rw [show s.tex.pos + (s.tex.nb - s.tex.pos) = s.tex.nb by omega] at h
  unfold runRecord
  refine h.bind ?_ fun _ _ h => h
  rintro _ t ⟨h1, h2, h3, h4, h5, h6, h7⟩
  have hnb : t.tex.nb = s.tex.nb := by rw [h2.state]
  have hpos := skipPresent_pos hm (t.tex.nb - t.tex.pos) t
  rw [show t.tex.pos + (t.tex.nb - t.tex.pos) = s.tex.nb by omega, absentFrom_congr h6, h7] at hpos
  have hle : t.tex.pos ≤ (skipPresent map (t.tex.nb - t.tex.pos) t).tex.pos := by
    rw [hpos]
    cases hd : (absentFrom (map s) s.tex.pos s.tex.nb).drop count.toNat with
    | nil => simpa using h4
    | cons x xs =>
      have : x ∈ absentFrom (map s) t.tex.pos s.tex.nb := by rw [h7, hd]; simp
      simpa using (mem_absentFrom.mp this).1
  refine ⟨h1, ?_, ?_, by omega, fun h => by have := h5 h; omega⟩
  · rw [skipPresent_eq]
    exact h2.setPos _
  · rw [hpos, posAfter, List.head?_drop]

/-- Only tex.pos differs, and the operation answers or raises. -/
def OnlyPos (s : State) (r : Res Unit) : Prop :=
  ∃ p, r = .ok () { s with tex := { s.tex with pos := p } } ∨ ∃ e, r = .raise e { s with tex := { s.tex with pos := p } }

/-- Leaving positions absent stores nothing and marks nothing (43_texture R229). -/
theorem coverRun_leave (map : State → List Bool) (n c : Nat) (s : State) : OnlyPos s (coverRun map .leave n c s) := by
  induction n generalizing c s with
  | zero =>
    cases c with
    | zero => exact ⟨s.tex.pos, .inl rfl⟩
    | succ c => exact ⟨s.tex.pos, .inr ⟨_, rfl⟩⟩
  | succ n ih =>
    cases c with
    | zero => exact ⟨s.tex.pos, .inl rfl⟩
    | succ c =>
      unfold coverRun
      split
      · exact ih (c + 1) (stepPos s)
      · exact ih c (stepPos s)

/-- RUN_ABSENT and RUN_ALPHA_ABSENT change tex.pos only. -/
theorem runRecord_leave (map : State → List Bool) (count : Sym) (s : State) : OnlyPos s (runRecord map .leave count s) := by
  unfold runRecord
  rcases coverRun_leave map (s.tex.nb - s.tex.pos) count.toNat s with ⟨p, h | ⟨e, h⟩⟩
  · rw [h, Res.bind_ok, skipPresent_eq]
    exact ⟨_, .inl rfl⟩
  · rw [h]
    exact ⟨p, .inr ⟨e, rfl⟩⟩

theorem Ran.tex_eq {a : RunAct} {blocks : List Nat} {s t : State} (h : Ran a blocks s t) :
    t.tex = { s.tex with pos := t.tex.pos, colorMap := t.tex.colorMap, alphaMap := t.tex.alphaMap } :=
  congrArg State.tex h.state

/-- A block's component lies in the output (43_texture R234, R242). -/
theorem block_in_output {s : State} (g : Geometry s) {i : Nat} (hi : i < s.tex.nb) (a : RunAct) :
    i * s.tex.bpb + actOff a s + 8 ≤ s.tex.size := by
  have h1 : i * s.tex.bpb + s.tex.bpb ≤ s.tex.nb * s.tex.bpb := by
    rw [← Nat.succ_mul]
    exact Nat.mul_le_mul_right _ hi
  have h2 : actOff a s + 8 ≤ s.tex.bpb := by
    have := g.block
    cases a with
    | color =>
      show colorOff s + 8 ≤ s.tex.bpb
      unfold colorOff
      by_cases h : s.tex.fmt.dualBlock = true
      · have := g.dual h
        have := g.comp
        rw [if_pos h]
        omega
      · rw [if_neg h]
        omega
    | _ => simp only [actOff]; omega
  rw [g.size_eq]
  omega

theorem textureReady_admitted {s : State} (h : TextureReady s) (a : RunAct) (i : Nat) (hi : i < s.tex.nb) : ActAdmitted a i s := by
  intro _ k hk
  have := block_in_output h.geometry hi a
  have := h.admitted (i * s.tex.bpb + actOff a s + k) (by omega)
  unfold blockAddr outputAddr
  unfold outputAddr at this
  rwa [show s.launch.outBase.toNat + (i * s.tex.bpb + actOff a s) + k = s.launch.outBase.toNat + (i * s.tex.bpb + actOff a s + k) by omega]

/-- In a texture command that is ready, a run record answers or raises InvalidRun. -/
theorem runRecord_no_stop {map : State → List Bool} (a : RunAct) (count : Sym) {s : State} (h : TextureReady s) :
    (∃ t, runRecord map a count s = .ok () t) ∨ ∃ e t, runRecord map a count s = .raise e t := by
  unfold runRecord
  have hp := h.pos_le
  rcases coverRun_no_stop (map := map) a (s.tex.nb - s.tex.pos) count.toNat s fun i h1 h2 =>
      textureReady_admitted h a i (by omega) with ⟨t, ht⟩ | ⟨e, t, ht⟩
  · rw [ht]; exact .inl ⟨_, rfl⟩
  · rw [ht]; exact .inr ⟨e, t, rfl⟩

/-- Each byte of the fill component is the byte read (43_texture R231). -/
theorem replicateByte_byte {a k : Nat} (ha : a < 256) (hk : k < 8) : (replicateByte a).toNat / 256 ^ k % 256 = a := by
  have e : (replicateByte a).toNat = a * 72340172838076673 := by
    unfold replicateByte
    rw [BitVec.toNat_ofNat, Nat.mul_comm]
    exact Nat.mod_eq_of_lt (by omega)
  rw [e]
  have key : ∀ q r : Nat, 72340172838076673 = (256 * q + 1) * 256 ^ k + r → 255 * r < 256 ^ k →
      a * 72340172838076673 / 256 ^ k % 256 = a := by
    intro q r h h'
    have hr : a * r < 256 ^ k := Nat.lt_of_le_of_lt (Nat.mul_le_mul_right r (by omega)) h'
    rw [h, show a * ((256 * q + 1) * 256 ^ k + r) = a * r + a * (256 * q + 1) * 256 ^ k by
      rw [Nat.mul_add, Nat.mul_assoc, Nat.add_comm], Nat.add_mul_div_right _ _ (Nat.pow_pos (by omega)), Nat.div_eq_of_lt hr,
      Nat.zero_add, Nat.mul_add, Nat.mul_one, show a * (256 * q) = 256 * (a * q) by ac_rfl, Nat.mul_add_mod]
    exact Nat.mod_eq_of_lt ha
  have : k = 0 ∨ k = 1 ∨ k = 2 ∨ k = 3 ∨ k = 4 ∨ k = 5 ∨ k = 6 ∨ k = 7 := by omega
  rcases this with rfl | rfl | rfl | rfl | rfl | rfl | rfl | rfl
  · exact key 0x01010101010101 0 (by decide) (by decide)
  · exact key 0x010101010101 0x01 (by decide) (by decide)
  · exact key 0x0101010101 0x0101 (by decide) (by decide)
  · exact key 0x01010101 0x010101 (by decide) (by decide)
  · exact key 0x010101 0x01010101 (by decide) (by decide)
  · exact key 0x0101 0x0101010101 (by decide) (by decide)
  · exact key 0x01 0x010101010101 (by decide) (by decide)
  · exact key 0 0x01010101010101 (by decide) (by decide)

end Sys2Proof.Machine
end

