-- ==== Sys2Proof/Laws/Inversion.lean ====
section
/-! SUPPORT. What one step can do, said once: `engine_next` for the engine's turn, `host_next` for the host's move. Every
invariant is derived from these two. -/

namespace Sys2Proof.Machine

/-! ### The steps of the engine -/

/-- The steps that only go on to another stage. -/
inductive Moves (u : State) : Stage → Prop where
  | genHeader : u.stage = .genHeader → Moves u .genSize
  | genLoop : u.stage = .genLoop → u.gen.outPos < u.gen.outSize → Moves u (.treeCount .sym)
  | symLoop : u.stage = .symLoop → codeDue u = false → Moves u .genLoop
  | texMagic : u.stage = .texMagic → Moves u .texTag
  | texBody : u.stage = .texBody → Moves u .texFlags
  | pass (p : Pass) : u.stage = .pass p → Moves u (afterPass p)
  | runLoop (p : Pass) : u.stage = .runLoop p → Moves u (afterPass p)
  | alphaNext (i : Nat) : u.stage = .alphaCopy i → i < u.tex.nb → Moves u (.alphaCopy (i + 1))
  | alphaEnd (i : Nat) : u.stage = .alphaCopy i → Moves u (.colorCopy 0)
  | colorNext (i : Nat) : u.stage = .colorCopy i → i < u.tex.nb → Moves u (.colorCopy (i + 1))
  | colorEnd (i : Nat) : u.stage = .colorCopy i → Moves u .texDone

/-- The geometry a texture command derives from its dimensions (43_texture R222). -/
def dimsState (w h : Nat) (s : State) : State :=
  texDerive { s with tex := { s.tex with width := BitVec.ofNat 16 w, height := BitVec.ofNat 16 h } }

/-- A literal copy of `m` words to output byte `off` of block `i` (43_texture R236). -/
structure Copied (i off m : Nat) (u w : State) : Prop where
  state : w = { u with tex := { u.tex with lit := u.tex.lit + m }, mem := w.mem, free := w.free }
  canonical : memCanonical u = true → memCanonical w = true
  outside : ∀ a, (∀ k, k < 4 * m → a ≠ blockAddr i off u + k) → byteAt w a = byteAt u a

/-- From `u`, in which the engine has read what it reads, to the next state. -/
inductive EngineNext (u : State) : State → Prop where
  | startG : u.stage = .start → regionsOverlap u = false → isTexture u = false →
      EngineNext u (goTo .genHeader (brInit (dictEnsureG u)))
  | startT : u.stage = .start → regionsOverlap u = false → isTexture u = true →
      EngineNext u (goTo .texMagic (brInit (dictEnsureT u)))
  | move (st : Stage) : Moves u st → EngineNext u (goTo st u)
  | genSize (d : Nat) : u.stage = .genSize →
      EngineNext u (goTo .genAddend { u with gen := { u.gen with outSize := clampSize d u } })
  | genAddend (a : Nat) : u.stage = .genAddend →
      EngineNext u (goTo .genLoop { u with gen := { u.gen with addend := a, outPos := 0 } })
  | genDone : u.stage = .genLoop → u.gen.outSize ≤ u.gen.outPos → EngineNext u (complete u.gen.outSize u)
  | treeCount (sel : TreeSel) (n : Nat) : u.stage = .treeCount sel → n ≤ 286 →
      EngineNext u (goTo (.treeLoop sel) { u with hdr := { rem := n, lists := List.replicate 16 [] } })
  | treeBuild (sel : TreeSel) (tree : Tree) : u.stage = .treeLoop sel → u.hdr.rem = 0 → build u.hdr.lists = some tree →
      EngineNext u (storeTree sel tree u)
  | header (sel : TreeSel) (h : Header) : u.stage = .treeLoop sel → h.rem < u.hdr.rem → EngineNext u { u with hdr := h }
  | maxCount (m : Nat) : u.stage = .maxCount →
      EngineNext u (goTo .symLoop { u with gen := { u.gen with maxCount := (m + 1) * 4096, count := 0 } })
  | literal (w : State) : u.stage = .symLoop → codeDue u = true → Wrote 1 u w → EngineNext u (countCode w)
  | length (n : Nat) : u.stage = .symLoop → codeDue u = true →
      EngineNext u { u with gen := { u.gen with curLen := n }, stage := .copyCode }
  | copy (m : Nat) (w : State) : u.stage = .copyCode → m ≤ u.gen.outSize - u.gen.outPos → Wrote m u w →
      EngineNext u (countCode w)
  | texTag (e : FormatEntry) : u.stage = .texTag → e ∈ u.cfg.formatTable → e.unsupported = false →
      EngineNext u (goTo .texDims { u with tex := { u.tex with fmt := e } })
  | texDims (w h : Nat) : u.stage = .texDims → (dimsState w h u).tex.size < Config.addressSpace →
      EngineNext u (goTo .texBody (dimsState w h u))
  | texFlags (w : Nat) : u.stage = .texFlags →
      EngineNext u (goTo .texClear { u with tex := { u.tex with cflags := BitVec.ofNat 32 w } })
  | texClear : u.stage = .texClear →
      EngineNext u (goTo (.pass .altColor) (clearMaps (zeroBytes (outputAddr u 0) u.tex.size u)))
  | passBegin (p : Pass) (fill color : Component) : u.stage = .pass p →
      EngineNext u (beginRuns p { u with tex := { u.tex with fill := fill, color := color } })
  | run (p : Pass) (a : RunAct) (blocks : List Nat) (w : State) : u.stage = .runLoop p → u.tex.pos < w.tex.pos →
      Ran a blocks u w → (∀ i, i ∈ blocks → i < u.tex.nb) → u.tex.pos < u.tex.nb → EngineNext u w
  | rewind : u.stage = .rewind → EngineNext u (rewindStep u)
  | copyAlpha (i m : Nat) (w : State) (st : Stage) : u.stage = .alphaCopy i → i < u.tex.nb →
      (m ≤ 1 ∨ m ≤ 2 ∧ 4 < u.tex.bpc) → Copied i 0 m u w → (st = .alphaCopy (i + 1) ∨ st = .texDone) → EngineNext u (goTo st w)
  | copyColor (i m : Nat) (w : State) (st : Stage) : u.stage = .colorCopy i → i < u.tex.nb →
      (m ≤ 1 ∨ m ≤ 2 ∧ 4 < u.tex.bpc) → Copied i (colorOff u) m u w → (st = .colorCopy (i + 1) ∨ st = .texDone) →
      EngineNext u (goTo st w)
  | texDone : u.stage = .texDone → EngineNext u (complete u.tex.size u)

/-- The state in which an error is raised. -/
inductive EngineRaise (u : State) : State → Prop where
  | here : EngineRaise u u
  | width (w : Nat) : u.stage = .texDims → EngineRaise u { u with tex := { u.tex with width := BitVec.ofNat 16 w } }
  | dims (w h : Nat) : u.stage = .texDims → EngineRaise u (dimsState w h u)
  | run (p : Pass) (a : RunAct) (blocks : List Nat) (w : State) : u.stage = .runLoop p → w.tex.pos = u.tex.nb → Ran a blocks u w →
      (∀ i, i ∈ blocks → i < u.tex.nb) → EngineRaise u w

/-- A step of the engine, in a state `t` in which it moves. -/
def EngineStep (t v : State) : Prop := ∃ u, ReaderStep t u ∧ (EngineNext u v ∨ ∃ e x, EngineRaise u x ∧ v = raiseError e x)

/-- An operation's outcome is a step of the engine. -/
def Steps (t : State) (r : Res Unit) : Prop :=
  r.Sat (fun _ v => ∃ u, ReaderStep t u ∧ EngineNext u v) (fun _ x => ∃ u, ReaderStep t u ∧ EngineRaise u x)

theorem Steps.next {t v : State} {r : Res Unit} (h : Steps t r) (hr : r.finish = .next v) : EngineStep t v :=
  Res.Sat.finish h (fun _ ⟨u, hu, hn⟩ => ⟨u, hu, .inl hn⟩) (fun e x ⟨u, hu, hx⟩ => ⟨u, hu, .inr ⟨e, x, hx, rfl⟩⟩) hr

theorem Steps.of {t v : State} (h : EngineNext t v) : Steps t (.ok () v) := ⟨t, .refl t, h⟩

theorem Steps.raise {t u : State} (e : ErrKind) (h : ReaderStep t u) : Steps t (.raise e u) := ⟨u, h, .here⟩

theorem ReaderStep.stage_eq {s t : State} (h : ReaderStep s t) : t.stage = s.stage := by rw [h.only]

theorem Steps.bind_read {α : Type} {t : State} {x : Res α} {f : α → State → Res Unit}
    (hx : x.Sat (fun _ u => ReaderStep t u) (fun _ u => ReaderStep t u)) (hf : ∀ a u, ReaderStep t u → Steps u (f a u)) :
    Steps t (x.bind f) := by
  refine Res.Sat.bind hx ?_ fun e u hu => ⟨u, hu, .here⟩
  intro a u hu
  refine (hf a u hu).mono ?_ ?_
  · rintro _ v ⟨w, hw, hn⟩
    exact ⟨w, hu.trans hw, hn⟩
  · rintro _ v ⟨w, hw, hn⟩
    exact ⟨w, hu.trans hw, hn⟩

/-- A read in a state that differs in the texture registers. -/
theorem ReaderStep.retex {x z : State} {regs : TextureRegs} (h : ReaderStep { x with tex := regs } z) :
    ∃ u, ReaderStep x u ∧ z = { u with tex := regs } :=
  have hc : z.cfg = x.cfg := by rw [h.only]
  ⟨{ x with br := z.br }, ⟨rfl, fun i => ReaderInv.congr (s := z) rfl hc.symm (h.inv (ReaderInv.congr (s := x) rfl rfl i)), h.forward, h.words⟩,
    h.only⟩

theorem readBits_only (n : Nat) (s : State) (hn : n ≤ 32) :
    (readBits n s).Sat (fun _ t => ReaderStep s t) (fun _ t => ReaderStep s t) :=
  (readBits_step n s hn).mono (fun _ _ h => h.1) fun _ _ h => h

/-! ### The stages that read no item -/

/-- The words of a literal copy. -/
theorem copyWords_sat (n addr : Nat) (s : State) :
    (copyWords n addr s).Sat
      (fun more t => ∃ m, m ≤ n ∧ (more = true → m = n) ∧
        t = { s with tex := { s.tex with lit := s.tex.lit + m }, mem := t.mem, free := t.free } ∧
        (memCanonical s = true → memCanonical t = true) ∧
        ∀ a, (∀ k, k < 4 * m → a ≠ addr + k) → byteAt t a = byteAt s a)
      (fun _ _ => False) := by
  induction n generalizing addr s with
  | zero => exact ⟨0, Nat.le_refl _, fun _ => rfl, rfl, id, fun _ _ => rfl⟩
  | succ n ih =>
    unfold copyWords
    split
    · unfold litWord
      rw [inputWord_eq]
      by_cases ha : inputAdmitted s s.tex.lit = true
      · rw [if_pos ha, Res.bind_ok, Res.bind_ok]
        generalize hs1 : ({ s with tex := { s.tex with lit := s.tex.lit + 1 } } : State) = s1
        refine (writeBytes_sat addr _ s1).bind ?_ fun _ _ h => h
        rintro _ t rfl
        refine (ih (addr + 4) (setBytes addr (leBytes 4 (inputWordValue s s.tex.lit)) s1)).mono ?_ fun _ _ h => h
        rintro more u ⟨m, h1, h2, h3, h4, h5⟩
        refine ⟨m + 1, by omega, fun h => by rw [h2 h], ?_, ?_, ?_⟩
        · rw [setBytes_eq] at h3
          subst hs1
          rw [h3]
          simp [Nat.add_assoc, Nat.add_comm 1 m]
        · intro hc
          subst hs1
          exact h4 (setBytes_canonical _ _ _ (memCanonical_congr rfl rfl hc))
        · intro a hk
          rw [h5 a fun k hk' => by have := hk (4 + k) (by omega); omega, byteAt_setBytes_outside, ← hs1]
          · rfl
          · rw [leBytes_length]
            by_cases h : a < addr
            · exact .inl h
            · refine .inr ?_
              by_cases h' : addr + 4 ≤ a
              · exact h'
              · exact absurd (show a = addr + (a - addr) by omega) (hk (a - addr) (by omega))
      · rw [if_neg ha]
        trivial
    · exact ⟨0, Nat.zero_le _, fun h => Bool.noConfusion h, rfl, id, fun _ _ => rfl⟩

theorem copyBlock_steps {u : State} {map : List Bool} {i off : Nat} {next : Stage} (hp : EngineNext u (goTo next u))
    (hc : ∀ m w st, (m ≤ 1 ∨ m ≤ 2 ∧ 4 < u.tex.bpc) → Copied i off m u w → (st = next ∨ st = .texDone) → EngineNext u (goTo st w)) :
    Steps u (copyBlock map i off next u) := by
  unfold copyBlock
  split
  · exact .of hp
  · refine Res.Sat.bind (copyWords_sat _ _ u) ?_ fun _ _ h => h.elim
    rintro more w ⟨m, h1, -, h3, h4, h5⟩
    refine ⟨u, .refl u, hc m w _ ?_ ⟨h3, h4, h5⟩ ?_⟩
    · unfold componentWords at h1
      split at h1
      · exact .inr ⟨h1, ‹_›⟩
      · exact .inl h1
    · cases more
      · exact .inr rfl
      · exact .inl rfl

theorem stageWork_steps {t : State} {r : Res Unit} (h : stageWork t = some r) : Steps t r := by
  unfold stageWork at h
  cases hst : t.stage with
  | start =>
    rw [hst] at h
    cases h
    unfold startCommand checkArgs
    split
    · exact .raise _ (.refl t)
    · split
      · exact .raise _ (.refl t)
      · rw [Res.bind_ok]
        split
        · trivial
        · split
          · exact .of (.startT hst (by simp_all) ‹_›)
          · exact .of (.startG hst (by simp_all) (by simp_all))
  | genHeader =>
    rw [hst] at h; cases h
    exact .bind_read (readBits_only 32 t (by omega)) fun _ u hu => .of (.move _ (.genHeader (hu.stage_eq.trans hst)))
  | genSize =>
    rw [hst] at h; cases h
    exact .bind_read (readBits_only 32 t (by omega)) fun d u hu => .of (.genSize d (hu.stage_eq.trans hst))
  | genAddend =>
    rw [hst] at h; cases h
    exact .bind_read (readPrefix_step t) fun _ x hx =>
      .bind_read (readBits_only 4 x (by omega)) fun a u hu => .of (.genAddend (a + 1) (hu.stage_eq.trans (hx.stage_eq.trans hst)))
  | genLoop =>
    rw [hst] at h; cases h
    unfold genLoop
    split
    · exact .of (.move _ (.genLoop hst ‹_›))
    · exact .of (.genDone hst (by omega))
  | treeCount sel =>
    rw [hst] at h; cases h
    refine .bind_read (readBits_only 16 t (by omega)) fun n u hu => ?_
    split
    · exact .raise _ (.refl u)
    · rename_i hn
      exact .of (.treeCount sel n (hu.stage_eq.trans hst) (Nat.le_of_not_lt hn))
  | treeLoop sel =>
    rw [hst] at h
    simp only at h
    split at h
    · cases h
      unfold treeBuild
      split
      · exact .raise _ (.refl t)
      · exact .of (.treeBuild sel _ hst ‹_› ‹_›)
    · cases h
  | maxCount =>
    rw [hst] at h; cases h
    exact .bind_read (readBits_only 4 t (by omega)) fun m u hu => .of (.maxCount m (hu.stage_eq.trans hst))
  | symLoop =>
    rw [hst] at h
    simp only at h
    split at h
    · cases h
    · cases h; exact .of (.move _ (.symLoop hst (by simp_all)))
  | copyCode => rw [hst] at h; cases h
  | texMagic =>
    rw [hst] at h; cases h
    exact .bind_read (readBits_only 32 t (by omega)) fun _ u hu => .of (.move _ (.texMagic (hu.stage_eq.trans hst)))
  | texTag =>
    rw [hst] at h; cases h
    refine .bind_read (readBits_only 32 t (by omega)) fun tag u hu => ?_
    unfold lookupFormat
    cases hf : u.cfg.formatTable.find? fun e => decide (e.tag.toNat = tag) with
    | none => exact .raise _ (.refl u)
    | some e =>
      simp only
      split
      · rename_i hn
        exact .raise _ (.refl u)
      · rename_i e' hn
        by_cases hu' : e.unsupported = true
        · simp [hu'] at hn
        · simp [hu'] at hn
          subst hn
          exact .of (.texTag e (hu.stage_eq.trans hst) (List.mem_of_find?_eq_some hf) (by simpa using hu'))
  | texDims =>
    rw [hst] at h; cases h
    refine .bind_read (readBits_only 16 t (by omega)) fun w x hx => ?_
    refine Res.Sat.bind (readBits_only 16 { x with tex := { x.tex with width := BitVec.ofNat 16 w } } (by omega)) ?_ ?_
    · intro h y hy
      obtain ⟨u, hu, rfl⟩ := hy.retex
      have hst' := hu.stage_eq.trans (hx.stage_eq.trans hst)
      have htex : u.tex = x.tex := by rw [hu.only]
      rw [← htex]
      show Res.Sat ((texCheckSize (dimsState w h u)).bind _) _ _
      unfold texCheckSize
      split
      · exact ⟨u, hu, .dims w h hst'⟩
      · split
        · exact ⟨u, hu, .dims w h hst'⟩
        · exact ⟨u, hu, .texDims w h hst' (by omega)⟩
    · intro e y hy
      obtain ⟨u, hu, rfl⟩ := hy.retex
      have htex : u.tex = x.tex := by rw [hu.only]
      rw [← htex]
      exact ⟨u, hu, .width w (hu.stage_eq.trans (hx.stage_eq.trans hst))⟩
  | texBody =>
    rw [hst] at h; cases h
    exact .bind_read (readBits_only 32 t (by omega)) fun _ u hu => .of (.move _ (.texBody (hu.stage_eq.trans hst)))
  | texFlags =>
    rw [hst] at h; cases h
    exact .bind_read (readBits_only 32 t (by omega)) fun w u hu => .of (.texFlags w (hu.stage_eq.trans hst))
  | texClear =>
    rw [hst] at h
    simp only at h
    split at h
    · cases h
    · cases h
      unfold texClear
      split
      · exact .of (.texClear hst)
      · trivial
  | pass p =>
    rw [hst] at h
    simp only at h
    split at h
    · cases h
    · cases h; exact .of (.move _ (.pass p hst))
  | runLoop p =>
    rw [hst] at h
    simp only at h
    split at h
    · cases h
    · cases h; exact .of (.move _ (.runLoop p hst))
  | rewind => rw [hst] at h; cases h; exact .of (.rewind hst)
  | alphaCopy i =>
    rw [hst] at h; cases h
    unfold alphaCopyStep
    split
    · rename_i hi
      exact copyBlock_steps (.move _ (.alphaNext i hst hi.2)) fun m w st hm hw hs => .copyAlpha i m w st hst hi.2 hm hw hs
    · exact .of (.move _ (.alphaEnd i hst))
  | colorCopy i =>
    rw [hst] at h; cases h
    unfold colorCopyStep
    split
    · rename_i hi
      exact copyBlock_steps (.move _ (.colorNext i hst hi.2)) fun m w st hm hw hs => .copyColor i m w st hst hi.2 hm hw hs
    · exact .of (.move _ (.colorEnd i hst))
  | texDone => rw [hst] at h; cases h; exact .of (.texDone hst)

/-! ### The instructions the engine reads -/

theorem takeLength_steps {t : State} {raw : State → Res Nat} (hs : t.stage = .symLoop) (hd : codeDue t = true)
    (hr : (raw t).Sat (fun _ u => ReaderStep t u) (fun _ u => ReaderStep t u)) : Steps t (takeLength raw t) := by
  refine .bind_read hr fun n u hu => .of (.length _ (hu.stage_eq.trans hs) ?_)
  unfold codeDue at hd ⊢
  rw [show u.gen = t.gen by rw [hu.only]]
  exact hd

theorem readLength_step (q : Nat) (r : BitVec 2) (s : State) (hq : q ≤ 33) :
    (readLength q r s).Sat (fun _ u => ReaderStep s u) (fun _ u => ReaderStep s u) :=
  (readExtra_step (q - 1) s (by omega)).bind (fun _ _ h => h) fun _ _ h => h

theorem readOffset_step (q : Nat) (r : BitVec 1) (s : State) (hq : q ≤ 33) :
    (readOffset q r s).Sat (fun _ u => ReaderStep s u) (fun _ u => ReaderStep s u) :=
  (readExtra_step (q - 1) s (by omega)).bind (fun _ _ h => h) fun _ _ h => h

/-- A symbol-tree instruction. -/
theorem exec_sym {i : Instr} {t : State} (ha : alphabetOf i = .sym) (hs : t.stage = .symLoop) (hd : codeDue t = true) :
    ∃ r, exec i t = r.finish ∧ Steps t r := by
  have len : ∀ q r, q ≤ 33 → Steps t (takeLength (readLength q r) t) :=
    fun q r hq => takeLength_steps hs hd (readLength_step q r t hq)
  cases i <;> simp only [alphabetOf, reduceCtorEq] at ha
  case lit b =>
    refine ⟨_, rfl, ?_⟩
    refine (putByte_sat b t).bind ?_ fun _ _ h => h.elim
    rintro _ w ⟨hw, -⟩
    exact ⟨t, .refl t, .literal w hs hd hw⟩
  case lenEsc => exact ⟨takeLength (fun s => .ok 255 s) t, rfl, takeLength_steps hs hd (ReaderStep.refl t)⟩
  case lenQ0 r => exact ⟨_, rfl, len 0 r (by omega)⟩
  case lenQ1 r => exact ⟨_, rfl, len 1 r (by omega)⟩
  case lenQ2 r => exact ⟨_, rfl, len 2 r (by omega)⟩
  case lenQ3 r => exact ⟨_, rfl, len 3 r (by omega)⟩
  case lenQ4 r => exact ⟨_, rfl, len 4 r (by omega)⟩
  case lenQ5 r => exact ⟨_, rfl, len 5 r (by omega)⟩
  case lenQ6 r => exact ⟨_, rfl, len 6 r (by omega)⟩
  all_goals exact ⟨_, rfl, .raise _ (.refl t)⟩

theorem backReference_steps {t : State} {offset : State → Res Nat} (hs : t.stage = .copyCode)
    (hr : (offset t).Sat (fun _ u => ReaderStep t u) (fun _ u => ReaderStep t u)) : Steps t (backReference offset t) := by
  refine .bind_read hr fun k u hu => ?_
  unfold copyBack
  split
  · exact .raise _ (.refl u)
  · refine (copyLoop_sat u.gen.curLen k u).bind ?_ fun _ _ h => h.elim
    intro _ w hw
    exact ⟨u, .refl u, .copy _ w (hu.stage_eq.trans hs) (Nat.min_le_right _ _) hw⟩

/-- A copy-tree instruction. -/
theorem exec_off {i : Instr} {t : State} (ha : alphabetOf i = .off) (hs : t.stage = .copyCode) :
    ∃ r, exec i t = r.finish ∧ Steps t r := by
  have off : ∀ q r, q ≤ 33 → Steps t (backReference (readOffset q r) t) :=
    fun q r hq => backReference_steps hs (readOffset_step q r t hq)
  cases i <;> simp only [alphabetOf, reduceCtorEq] at ha
  case offQ0 r => exact ⟨_, rfl, off 0 r (by omega)⟩
  case offQ1 r => exact ⟨_, rfl, off 1 r (by omega)⟩
  case offQ2 r => exact ⟨_, rfl, off 2 r (by omega)⟩
  case offQ3 r => exact ⟨_, rfl, off 3 r (by omega)⟩
  case offQ4 r => exact ⟨_, rfl, off 4 r (by omega)⟩
  case offQ5 r => exact ⟨_, rfl, off 5 r (by omega)⟩
  case offQ6 r => exact ⟨_, rfl, off 6 r (by omega)⟩
  case offQ7 r => exact ⟨_, rfl, off 7 r (by omega)⟩
  case offQ8 r => exact ⟨_, rfl, off 8 r (by omega)⟩
  case offQ9 r => exact ⟨_, rfl, off 9 r (by omega)⟩
  case offQ10 r => exact ⟨_, rfl, off 10 r (by omega)⟩
  case offQ11 r => exact ⟨_, rfl, off 11 r (by omega)⟩
  case offQ12 r => exact ⟨_, rfl, off 12 r (by omega)⟩
  case offQ13 r => exact ⟨_, rfl, off 13 r (by omega)⟩
  case offQ14 r => exact ⟨_, rfl, off 14 r (by omega)⟩
  case offQ15 r => exact ⟨_, rfl, off 15 r (by omega)⟩
  case offQ16 r => exact ⟨_, rfl, off 16 r (by omega)⟩
  all_goals exact ⟨_, rfl, .raise _ (.refl t)⟩

theorem headerRun_steps {sel : TreeSel} {t : State} (hs : t.stage = .treeLoop sel) (len : Nat) (rep : BitVec 11) :
    Steps t (headerRun len rep t) := by
  unfold headerRun
  split
  · exact .raise _ (.refl t)
  · have h := assignRun_spec (rep.toNat + 1) len t.hdr (by omega)
    exact .of (.header sel _ hs (by rw [h.1]; omega))

/-- A header value. -/
theorem exec_hdr {i : Instr} {t : State} {sel : TreeSel} (ha : alphabetOf i = .hdr) (hs : t.stage = .treeLoop sel) :
    ∃ r, exec i t = r.finish ∧ Steps t r := by
  cases i <;> simp only [alphabetOf, reduceCtorEq] at ha
  case hdrSkip rep => exact ⟨_, rfl, headerRun_steps hs 0 rep⟩
  case hdrAssign1 rep => exact ⟨_, rfl, headerRun_steps hs 1 rep⟩
  case hdrAssign2to3 len rep => exact ⟨_, rfl, headerRun_steps hs len.toNat rep⟩
  case hdrAssign4to7 len rep => exact ⟨_, rfl, headerRun_steps hs len.toNat rep⟩
  case hdrAssign8to15 len rep => exact ⟨_, rfl, headerRun_steps hs len.toNat rep⟩
  case hdrAssign16 rep => exact ⟨_, rfl, headerRun_steps hs 16 rep⟩
  all_goals exact ⟨_, rfl, .raise _ (.refl t)⟩

theorem runRecord_steps {p : Pass} {t : State} {map : State → List Bool} (hm : IsMap map) (a : RunAct) {count : Sym}
    (hs : t.stage = .runLoop p) (hd : runDue t = true) (hc : count ≠ 0) : Steps t (runRecord map a count t) := by
  have hlt : t.tex.pos < t.tex.nb := of_decide_eq_true hd
  have hpos : 0 < count.toNat := Nat.pos_of_ne_zero fun h => hc (BitVec.eq_of_toNat_eq h)
  refine (runRecord_sat hm a count t (Nat.le_of_lt hlt)).mono ?_ ?_
  · rintro _ w ⟨-, h2, -, -, h5⟩
    refine ⟨t, .refl t, .run p a _ w hs (h5 hpos) h2 (fun i hi => ?_) hlt⟩
    exact (mem_absentFrom.mp (List.mem_of_mem_take hi)).2.1
  · rintro e w ⟨-, -, h3, h4⟩
    exact ⟨t, .refl t, .run p a _ w hs h4 h3 fun i hi => (mem_absentFrom.mp hi).2.1⟩

/-- A run record. -/
theorem exec_run {cfg : Config} {p : Pass} {count : Sym} {flags : List Bool} {i : Instr} {t : State}
    (hi : decode cfg (.run p count flags) = .ok i) (hs : t.stage = .runLoop p) (hd : runDue t = true) :
    ∃ r, exec i t = r.finish ∧ Steps t r := by
  have hc : IsMap fun s => s.tex.colorMap := .inl rfl
  have ha : IsMap fun s => s.tex.alphaMap := .inr rfl
  unfold decode decodeRun at hi
  by_cases h0 : count = 0
  · simp only [if_pos h0] at hi
    split at hi
    · cases hi
      exact ⟨_, rfl, .raise _ (.refl t)⟩
    · cases hi
  · simp only [if_neg h0] at hi
    unfold decodeRunFlags at hi
    split at hi <;> cases hi
    · exact ⟨_, rfl, runRecord_steps hc _ hs hd h0⟩
    · exact ⟨_, rfl, runRecord_steps hc _ hs hd h0⟩
    · exact ⟨_, rfl, runRecord_steps hc _ hs hd h0⟩
    · exact ⟨_, rfl, runRecord_steps hc _ hs hd h0⟩
    · exact ⟨_, rfl, runRecord_steps ha _ hs hd h0⟩
    · exact ⟨_, rfl, runRecord_steps ha _ hs hd h0⟩
    · exact ⟨_, rfl, runRecord_steps ha _ hs hd h0⟩

/-- The instruction of a pass. -/
theorem exec_passInstr (p : Pass) (w : Word) {t : State} (hs : t.stage = .pass p) :
    ∃ r, exec (passInstr p w) t = r.finish ∧ Steps t r := by
  cases p with
  | altColor => exact ⟨.ok () (beginRuns .altColor t), rfl, .of (.passBegin .altColor t.tex.fill t.tex.color hs)⟩
  | alpha =>
    exact ⟨_, rfl, .bind_read (readBits_only 8 t (by omega)) fun a u hu =>
      .of (.passBegin .alpha (replicateByte a) u.tex.color (hu.stage_eq.trans hs))⟩
  | color =>
    exact ⟨_, rfl, .bind_read (readBits_only 24 t (by omega)) fun v u hu =>
      .of (.passBegin .color u.tex.fill (colorValue u.cfg (BitVec.ofNat 24 v)) (hu.stage_eq.trans hs))⟩

/-! ### The engine's turn -/

theorem codeDue_eq {s t : State} (h : ReaderStep s t) : codeDue t = codeDue s := by
  unfold codeDue
  rw [show t.gen = s.gen by rw [h.only]]

theorem runDue_eq {s t : State} (h : ReaderStep s t) : runDue t = runDue s := by
  unfold runDue
  rw [show t.tex = s.tex by rw [h.only]]

theorem EngineStep.of_read {t u v : State} (h : ReaderStep t u) (h' : EngineStep u v) : EngineStep t v := by
  obtain ⟨w, hw, hn⟩ := h'
  exact ⟨w, h.trans hw, hn⟩

/-- Everything a step of the engine can do: wait in IDLE, or read and take one of the steps of `EngineNext`, or raise an error. -/
theorem engine_next {s t v : State} (h : engineTurn s = some t) (hs : step s = .next v) :
    (t.phase = .idle ∧ v = t) ∨ (t.phase = .busy ∧ EngineStep t v) := by
  rcases engine_cases h hs with ⟨hp, rfl⟩ | ⟨hp, r, hw, hf⟩ | ⟨hp, r, e, u, hi, hr, rfl⟩ | ⟨hp, r, c, u, i, hi, hr, hd, hx⟩
  · exact .inl ⟨hp, rfl⟩
  · exact .inr ⟨hp, (stageWork_steps hw).next hf⟩
  · have hst := stageItem_step hi
    rw [hr] at hst
    exact .inr ⟨hp, u, hst, .inr ⟨e, u, .here, rfl⟩⟩
  · refine .inr ⟨hp, ?_⟩
    have hst := stageItem_step hi
    rw [hr] at hst
    obtain ⟨hu, hst⟩ := hst
    have ha := decode_alphabet hd
    refine .of_read hu ?_
    have key : ∀ {r}, exec i u = Res.finish r ∧ Steps u r → EngineStep u v := fun hk => hk.2.next (hk.1.symm.trans hx)
    rcases hst with ⟨⟨sel, h1⟩, -, h3⟩ | ⟨h1, h2, h3⟩ | ⟨h1, h2⟩ | ⟨p, h1, h2, count, flags, rfl⟩ | ⟨h1, rfl, rfl⟩ | ⟨p, h1, rfl, rfl⟩
    · obtain ⟨r, hk⟩ := exec_hdr (ha.trans h3) (hu.stage_eq.trans h1)
      exact key hk
    · obtain ⟨r, hk⟩ := exec_sym (ha.trans h3) (hu.stage_eq.trans h1) ((codeDue_eq hu).trans h2)
      exact key hk
    · obtain ⟨r, hk⟩ := exec_off (ha.trans h2) (hu.stage_eq.trans h1)
      exact key hk
    · obtain ⟨r, hk⟩ := exec_run hd (hu.stage_eq.trans h1) ((runDue_eq hu).trans h2)
      exact key hk
    · unfold decode decodeCflags at hd
      simp only at hd
      split at hd
      · cases hd; cases hx
      · cases hd
    · unfold decode decodeCflags at hd
      simp only at hd
      split at hd
      · cases hd
        obtain ⟨r, hk⟩ := exec_passInstr p u.tex.cflags h1
        exact key hk
      · cases hd

/-! ### What a step of the engine keeps -/

/-- The parts of the state that only the host, or a completion, changes. -/
structure EngineKeeps (u v : State) : Prop where
  cfg : v.cfg = u.cfg
  launch : v.launch = u.launch
  moves : v.moves = u.moves
  hostData : v.hostData = u.hostData
  freeCount : v.freeCount = u.freeCount
  /-- The CSRs and the phase, unless the command completes. -/
  csr : (v.csr = u.csr ∧ v.phase = u.phase) ∨ ∃ n, v = complete n u

theorem OnlyReader.keeps {s t : State} (h : OnlyReader s t) : EngineKeeps s t := by
  rw [h]
  exact ⟨rfl, rfl, rfl, rfl, rfl, .inl ⟨rfl, rfl⟩⟩

theorem EngineNext.keeps {u v : State} (h : EngineNext u v) : EngineKeeps u v := by
  cases h with
  | startG =>
    unfold dictEnsureG
    split <;> exact ⟨rfl, rfl, rfl, rfl, rfl, .inl ⟨rfl, rfl⟩⟩
  | startT =>
    unfold dictEnsureT
    split <;> exact ⟨rfl, rfl, rfl, rfl, rfl, .inl ⟨rfl, rfl⟩⟩
  | treeBuild sel t => cases sel <;> exact ⟨rfl, rfl, rfl, rfl, rfl, .inl ⟨rfl, rfl⟩⟩
  | literal w _ _ h => rw [h.state]; exact ⟨rfl, rfl, rfl, rfl, rfl, .inl ⟨rfl, rfl⟩⟩
  | copy m w _ _ h => rw [h.state]; exact ⟨rfl, rfl, rfl, rfl, rfl, .inl ⟨rfl, rfl⟩⟩
  | run p a b _ _ _ h => rw [h.state]; exact ⟨rfl, rfl, rfl, rfl, rfl, .inl ⟨rfl, rfl⟩⟩
  | copyAlpha i m w st _ _ _ h => rw [h.state]; exact ⟨rfl, rfl, rfl, rfl, rfl, .inl ⟨rfl, rfl⟩⟩
  | copyColor i m w st _ _ _ h => rw [h.state]; exact ⟨rfl, rfl, rfl, rfl, rfl, .inl ⟨rfl, rfl⟩⟩
  | genDone => exact ⟨rfl, rfl, rfl, rfl, rfl, .inr ⟨_, rfl⟩⟩
  | texDone => exact ⟨rfl, rfl, rfl, rfl, rfl, .inr ⟨_, rfl⟩⟩
  | _ => exact ⟨rfl, rfl, rfl, rfl, rfl, .inl ⟨rfl, rfl⟩⟩

/-- A raise is made in a state that differs in the texture registers and the output bytes alone. -/
theorem EngineRaise.state {u x : State} (h : EngineRaise u x) : x = { u with tex := x.tex, mem := x.mem, free := x.free } := by
  cases h with
  | run p a b _ _ _ h => rw [h.state]
  | _ => rfl

theorem EngineNext.canonical {u v : State} (h : EngineNext u v) (c : memCanonical u = true) : memCanonical v = true := by
  cases h with
  | startG =>
    unfold dictEnsureG
    split <;> exact memCanonical_congr (s := u) rfl rfl c
  | startT =>
    unfold dictEnsureT
    split <;> exact memCanonical_congr (s := u) rfl rfl c
  | treeBuild sel t => cases sel <;> exact memCanonical_congr (s := u) rfl rfl c
  | literal w _ _ h => exact memCanonical_congr (s := w) rfl rfl (h.canonical c)
  | copy m w _ _ h => exact memCanonical_congr (s := w) rfl rfl (h.canonical c)
  | run p a b _ _ _ h => exact h.canonical c
  | copyAlpha i m w st _ _ _ h => exact memCanonical_congr (s := w) rfl rfl (h.canonical c)
  | copyColor i m w st _ _ _ h => exact memCanonical_congr (s := w) rfl rfl (h.canonical c)
  | texClear => exact memCanonical_congr (s := zeroBytes (outputAddr u 0) u.tex.size u) rfl rfl (zeroBytes_canonical _ _ _ c)
  | _ => exact memCanonical_congr (s := u) rfl rfl c

theorem EngineRaise.canonical {u x : State} (h : EngineRaise u x) (c : memCanonical u = true) : memCanonical x = true := by
  cases h with
  | run p a b _ _ _ h => exact h.canonical c
  | _ => exact memCanonical_congr (s := u) rfl rfl c

/-! ### The host's move -/

/-- Everything a move of the host can do. -/
inductive HostNext (t : State) : HostMove → State → Prop where
  | ignored (m : HostMove) : HostNext t m t
  | read (m : HostMove) (data : List Byte) : HostNext t m { t with hostData := data }
  | csr (m : HostMove) (offset : Nat) (x : Word) : HostNext t m (writeCsr offset x t)
  | setCmd (m : HostMove) (w : Word) : t.phase = .idle → HostNext t m (setCmd w t)
  | launch (m : HostMove) (w : Word) : t.phase = .idle → configWf t.cfg = true → (cmdOp w = 1 ∨ cmdOp w = 2) →
      HostNext t m (launchCommand (Machine.setCmd w t))
  | reserved (m : HostMove) (w : Word) : t.phase = .idle → configWf t.cfg = true →
      HostNext t m (reservedCommand (Machine.setCmd w t))
  | write (m : HostMove) (a : Nat) (bytes : List Byte) : HostNext t m (setBytes a bytes t)
  | reset : HostNext t .reset (resetEngine t)

/-- A CSR write changes the CSRs alone. -/
theorem writeCsr_eq (offset : Nat) (x : Word) (s : State) : writeCsr offset x s = { s with csr := (writeCsr offset x s).csr } := by
  unfold writeCsr
  split
  · unfold writeStatus
    split <;> rfl
  all_goals rfl

theorem cmdOp_cmdWord (op : BitVec 4) (args : BitVec 28) : cmdOp (cmdWord op args) = op.toNat := by
  unfold cmdOp cmdWord
  rw [BitVec.toNat_append, Nat.shiftLeft_eq, Nat.or_comm]
  have := op.isLt
  rw [show (16 : Nat) = 2 ^ 4 by rfl, Nat.or_mod_two_pow]
  simp [Nat.mod_eq_of_lt this]

theorem commandWrite_idle {t : State} (h : t.phase = .idle) (w : Word) (f : State → State) :
    commandWrite w f t = .next (f (setCmd w t)) := by
  simp [commandWrite, isBusy, h]

theorem commandWrite_busy {t : State} (h : t.phase = .busy) (w : Word) (f : State → State) : commandWrite w f t = .next t := by
  simp [commandWrite, isBusy, h]

/-- A command starts while IDLE under a well-formed configuration. -/
theorem startWrite_idle {t : State} (h : t.phase = .idle) (hc : configWf t.cfg = true) (w : Word) (f : State → State) :
    startWrite w f t = .next (f (setCmd w t)) := by
  simp [startWrite, hc, commandWrite_idle h]

theorem startWrite_busy {t : State} (h : t.phase = .busy) (w : Word) (f : State → State) : startWrite w f t = .next t := by
  simp [startWrite, isBusy, h, commandWrite_busy h]

theorem startWrite_refused {t : State} (h : t.phase = .idle) (hc : configWf t.cfg = false) (w : Word) (f : State → State) :
    startWrite w f t = .refused .illFormedConfiguration := by
  simp [startWrite, isBusy, h, hc]

/-- A CMD word. -/
theorem exec_cmd {m : HostMove} {i : Instr} {t v : State} (ha : alphabetOf i = .cmd) (h : exec i t = .next v) : HostNext t m v := by
  have key : ∀ w f, startWrite w f t = .next v →
      (t.phase = .idle → configWf t.cfg = true → HostNext t m (f (setCmd w t))) → HostNext t m v := by
    intro w f hc hf
    cases hp : t.phase with
    | busy => rw [startWrite_busy hp] at hc; cases hc; exact .ignored m
    | idle =>
      cases hw : configWf t.cfg with
      | true => rw [startWrite_idle hp hw] at hc; cases hc; exact hf hp hw
      | false => rw [startWrite_refused hp hw] at hc; cases hc
  cases i <;> simp only [alphabetOf, reduceCtorEq] at ha
  case cmdNone args =>
    have h : commandWrite (cmdWord 0 args) id t = .next v := h
    cases hp : t.phase with
    | busy => rw [commandWrite_busy hp] at h; cases h; exact .ignored m
    | idle => rw [commandWrite_idle hp] at h; cases h; exact .setCmd m _ hp
  case cmdDecodeGeneric args => exact key _ _ h fun hp hw => .launch m _ hp hw (.inl (cmdOp_cmdWord 1 args))
  case cmdDecodeTexture args => exact key _ _ h fun hp hw => .launch m _ hp hw (.inr (cmdOp_cmdWord 2 args))
  all_goals exact key _ _ h fun hp hw => .reserved m _ hp hw

theorem hostCsrRead_next {m : HostMove} {o : BitVec 8} {n : Nat} {t v : State} (h : hostCsrRead o n t = .next v) : HostNext t m v := by
  unfold hostCsrRead at h
  split at h
  · cases h; exact .read m _
  · cases h

theorem fetchCsrWrite_next {m : HostMove} {o : BitVec 8} {n : Nat} {x : Word} {t v : State}
    (h : runFetched (fetchCsrWrite o n x t) = .next v) : HostNext t m v := by
  unfold fetchCsrWrite at h
  split at h
  · exact exec_cmd (decodeCmd_alphabet x) h
  · simp only [runFetched, hostCsrWrite] at h
    split at h
    · cases h; exact .csr m _ _
    · cases h

theorem host_next {s t v : State} {m : HostMove} (h : hostTurn s = some (m, t)) (hs : step s = .next v) : HostNext t m v := by
  rw [step_of_hostTurn h] at hs
  cases m with
  | csrRead o n => exact hostCsrRead_next hs
  | csrWrite o n x => exact fetchCsrWrite_next hs
  | busRead addr n =>
    simp only [hostFetch] at hs
    split at hs
    · exact hostCsrRead_next hs
    · cases hs
    · simp only [runFetched, hostMemRead] at hs
      repeat' split at hs
      all_goals first | (cases hs; exact .read _ _) | cases hs
  | busWrite addr bytes =>
    simp only [hostFetch] at hs
    split at hs
    · exact fetchCsrWrite_next hs
    · cases hs
    · simp only [runFetched, hostMemWrite] at hs
      repeat' split at hs
      all_goals first | (cases hs; exact .write _ _ _) | cases hs
  | reset => cases hs; exact .reset

end Sys2Proof.Machine
end

