-- ==== Sys2Proof/Laws/Invariant.lean ====
section
/-! SUPPORT. `CommandInv` from stage to stage. -/

namespace Sys2Proof.Machine

/-- What a well-formed supported format says of its blocks (43_texture R240). -/
theorem formatWf_bytes {e : FormatEntry} (h : formatWf e = true) (hu : e.unsupported = false) :
    8 ≤ bytesPerBlock e ∧ (e.dualBlock = true → 16 ≤ bytesPerBlock e) := by
  simp only [formatWf, hu, Bool.false_or, Bool.and_eq_true, Bool.or_eq_true, Bool.not_eq_true', decide_eq_true_eq] at h
  unfold bytesPerBlock
  refine ⟨by omega, fun hd => ?_⟩
  rcases h.2 with h' | h'
  · rw [hd] at h'; cases h'
  · omega

/-- texDerive sets tex.bpb to the product of 43_texture R222. -/
@[simp] theorem texDerive_bpb (s : State) : (texDerive s).tex.bpb = bytesPerBlock s.tex.fmt := rfl

theorem commandInv_start {s : State} (h : s.stage = .start) : CommandInv s := by
  refine ⟨?_, ?_, ?_, ?_, ?_⟩ <;> intro hh <;> rw [h] at hh <;> cases hh

theorem commandInv_congr {s t : State} (h1 : t.stage = s.stage) (h2 : t.launch = s.launch) (h3 : t.tex = s.tex) (c : CommandInv s) : CommandInv t := by
  have h4 : isTexture t = isTexture s := by simp [isTexture, h2]
  refine ⟨by rw [h1, h4]; exact c.generic, by rw [h1, h4]; exact c.texture, by rw [h1, h3]; exact c.format, ?_, by rw [h1, h3]; exact c.mapped⟩
  rw [h1, h3]
  intro h
  obtain ⟨g, hs⟩ := c.sized h
  exact ⟨⟨by rw [h3]; exact g.size_eq, by rw [h3]; exact g.block, by rw [h3]; exact g.dual, by rw [h3]; exact g.comp⟩, hs⟩

theorem commandInv_generic {t : State} (h1 : t.stage.isGeneric = true) (h2 : isTexture t = false) : CommandInv t := by
  refine ⟨fun _ => h2, ?_, ?_, ?_, ?_⟩ <;> intro h <;> (revert h1 h; cases t.stage <;> simp [Stage.isGeneric, Stage.isTexture, Stage.isSized, Stage.isMapped])

theorem commandInv_mapped {t : State} (h0 : t.stage.isMapped = true) (h2 : isTexture t = true) (g : Geometry t) (hs : t.tex.size < Config.addressSpace ∧ t.tex.bpb = bytesPerBlock t.tex.fmt)
   (hc : t.tex.colorMap.length = t.tex.nb) (ha : t.tex.alphaMap.length = t.tex.nb) : CommandInv t := by
  refine ⟨?_, fun _ => h2, ?_, fun _ => ⟨g, hs⟩, fun _ => ⟨hc, ha⟩⟩
  · intro h; revert h0 h; cases t.stage <;> simp [Stage.isGeneric, Stage.isMapped]
  · intro h; rw [h] at h0; cases h0

theorem Geometry.of_eq {s t : State} (h : t.tex.size = s.tex.size) (h1 : t.tex.nb = s.tex.nb) (h2 : t.tex.bpb = s.tex.bpb) (h3 : t.tex.bpc = s.tex.bpc) (h4 : t.tex.fmt = s.tex.fmt) (g : Geometry s) : Geometry t :=
  ⟨by rw [h, h1, h2]; exact g.size_eq, by rw [h2]; exact g.block, by rw [h2, h4]; exact g.dual, by rw [h3]; exact g.comp⟩

theorem commandInv_keep {s t : State} (hm : s.stage.isMapped = true) (h0 : t.stage.isMapped = true) (h2 : t.launch = s.launch)
   (ht : t.tex.size = s.tex.size ∧ t.tex.nb = s.tex.nb ∧ t.tex.bpb = s.tex.bpb ∧ t.tex.bpc = s.tex.bpc ∧ t.tex.fmt = s.tex.fmt ∧ t.tex.colorMap.length = s.tex.colorMap.length ∧ t.tex.alphaMap.length = s.tex.alphaMap.length)
   (c : CommandInv s) : CommandInv t := by
  have hsz : s.stage.isSized = true := by revert hm; cases s.stage <;> simp [Stage.isMapped, Stage.isSized]
  have htx : s.stage.isTexture = true := by simp [Stage.isTexture, hsz]
  obtain ⟨g, hs⟩ := c.sized hsz
  obtain ⟨h3, h4, h5, h6, h7, h8, h9⟩ := ht
  refine commandInv_mapped h0 ?_ (Geometry.of_eq h3 h4 h5 h6 h7 g) (by rw [h3, h5, h7]; exact hs) ?_ ?_
  · simp only [isTexture, h2]; exact c.texture htx
  · rw [h8, h4]; exact (c.mapped hm).1
  · rw [h9, h4]; exact (c.mapped hm).2

theorem engineNext_command {u v : State} (hf : formatTableWf u.cfg.formatTable = true) (h : EngineNext u v) (c : CommandInv u) : CommandInv v := by
  have gen : ∀ {w : State}, u.stage.isGeneric = true → w.stage.isGeneric = true → w.launch = u.launch → CommandInv w := by
    intro w h1 h2 h3
    exact commandInv_generic h2 (by simp only [isTexture, h3]; exact c.generic h1)
  have tex1 : ∀ {w : State}, u.stage.isTexture = true → (w.stage = .texTag ∨ w.stage = .texMagic) → w.launch = u.launch → CommandInv w := by
    intro w h1 h2 h3
    refine ⟨?_, fun _ => by simp only [isTexture, h3]; exact c.texture h1, ?_, ?_, ?_⟩ <;> intro h <;> rcases h2 with h2 | h2 <;> rw [h2] at h <;> cases h
  have sized : ∀ {w : State}, u.stage.isSized = true → (w.stage = .texFlags ∨ w.stage = .texClear) → w.launch = u.launch → 
     (w.tex.size = u.tex.size ∧ w.tex.nb = u.tex.nb ∧ w.tex.bpb = u.tex.bpb ∧ w.tex.bpc = u.tex.bpc ∧ w.tex.fmt = u.tex.fmt) → CommandInv w := by
    intro w h1 h2 h3 h4
    obtain ⟨g, hs⟩ := c.sized h1
    refine ⟨?_, fun _ => by simp only [isTexture, h3]; exact c.texture (by simp [Stage.isTexture, h1]), ?_, fun _ => ⟨Geometry.of_eq h4.1 h4.2.1 h4.2.2.1 h4.2.2.2.1 h4.2.2.2.2 g, by rw [h4.1, h4.2.2.1, h4.2.2.2.2]; exact hs⟩, ?_⟩
    all_goals intro h; rcases h2 with h2 | h2 <;> rw [h2] at h <;> cases h
  cases h with
  | startG h1 h3 h4 =>
    refine commandInv_generic rfl ?_
    unfold dictEnsureG; split <;> exact h4
  | startT h1 h3 h4 =>
    refine ⟨?_, ?_, ?_, ?_, ?_⟩ <;> intro h
    · cases h
    · unfold dictEnsureT; split <;> exact h4
    · cases h
    · cases h
    · cases h
  | move st hm =>
    cases hm with
    | genHeader h => exact gen (by rw [h]; rfl) rfl rfl
    | genLoop h => exact gen (by rw [h]; rfl) rfl rfl
    | symLoop h => exact gen (by rw [h]; rfl) rfl rfl
    | texMagic h => exact tex1 (by rw [h]; rfl) (.inl rfl) rfl
    | texBody h => exact sized (by rw [h]; rfl) (.inl rfl) rfl ⟨rfl, rfl, rfl, rfl, rfl⟩
    | pass p h => exact commandInv_keep (s := u) (by rw [h]; rfl) (by cases p <;> rfl) rfl ⟨rfl, rfl, rfl, rfl, rfl, rfl, rfl⟩ c
    | runLoop p h => exact commandInv_keep (s := u) (by rw [h]; rfl) (by cases p <;> rfl) rfl ⟨rfl, rfl, rfl, rfl, rfl, rfl, rfl⟩ c
    | alphaNext i h => exact commandInv_keep (s := u) (by rw [h]; rfl) rfl rfl ⟨rfl, rfl, rfl, rfl, rfl, rfl, rfl⟩ c
    | alphaEnd i h => exact commandInv_keep (s := u) (by rw [h]; rfl) rfl rfl ⟨rfl, rfl, rfl, rfl, rfl, rfl, rfl⟩ c
    | colorNext i h => exact commandInv_keep (s := u) (by rw [h]; rfl) rfl rfl ⟨rfl, rfl, rfl, rfl, rfl, rfl, rfl⟩ c
    | colorEnd i h => exact commandInv_keep (s := u) (by rw [h]; rfl) rfl rfl ⟨rfl, rfl, rfl, rfl, rfl, rfl, rfl⟩ c
  | genSize d h => exact gen (by rw [h]; rfl) rfl rfl
  | genAddend d h => exact gen (by rw [h]; rfl) rfl rfl
  | genDone => exact commandInv_start rfl
  | texDone => exact commandInv_start rfl
  | treeCount sel n h => exact gen (by rw [h]; rfl) rfl rfl
  | treeBuild sel t h => exact gen (by rw [h]; rfl) (by cases sel <;> rfl) (by cases sel <;> rfl)
  | header sel h' h => exact gen (by rw [h]; rfl) (by show u.stage.isGeneric = true; rw [h]; rfl) rfl
  | maxCount m h => exact gen (by rw [h]; rfl) rfl rfl
  | literal w h _ h3 => exact gen (by rw [h]; rfl) rfl (by show w.launch = _; rw [h3.state])
  | length n h => exact gen (by rw [h]; rfl) rfl rfl
  | copy m w h _ h3 => exact gen (by rw [h]; rfl) rfl (by show w.launch = _; rw [h3.state])
  | texTag e h h1 h2 =>
    refine ⟨?_, ?_, ?_, ?_, ?_⟩ <;> intro hh
    · cases hh
    · exact c.texture (by rw [h]; rfl)
    · refine ⟨?_, h2⟩
      simp only [formatTableWf, Bool.and_eq_true] at hf
      exact List.all_eq_true.mp hf.2 e h1
    · cases hh
    · cases hh
  | texDims w h hs hlt =>
    refine ⟨?_, ?_, ?_, ?_, ?_⟩ <;> intro hh
    · cases hh
    · exact c.texture (by rw [hs]; rfl)
    · cases hh
    · obtain ⟨h1, h2⟩ := c.format hs
      obtain ⟨h3, h4⟩ := formatWf_bytes h1 h2
      refine ⟨⟨rfl, h3, h4, ?_⟩, hlt, rfl⟩
      · show bytesPerComponent u.tex.fmt ≤ 8
        unfold bytesPerComponent
        split <;> omega
    · cases hh
  | texFlags w h => exact sized (by rw [h]; rfl) (.inr rfl) rfl ⟨rfl, rfl, rfl, rfl, rfl⟩
  | texClear h =>
    obtain ⟨g, hs⟩ := c.sized (by rw [h]; rfl)
    exact commandInv_mapped rfl (c.texture (by rw [h]; rfl)) (Geometry.of_eq (s := u) rfl rfl rfl rfl rfl g) hs (by simp [goTo, clearMaps]) (by simp [goTo, clearMaps])
  | passBegin p f col h => exact commandInv_keep (s := u) (by rw [h]; rfl) rfl rfl ⟨rfl, rfl, rfl, rfl, rfl, rfl, rfl⟩ c
  | run p a b _ h1 h2 h3 =>
    exact commandInv_keep (s := u) (by rw [h1]; rfl) (by rw [h3.state]; simp; rw [h1]; rfl) (by rw [h3.state]) ⟨by rw [h3.state], by rw [h3.state], by rw [h3.state]; rfl, by rw [h3.state], by rw [h3.state], h3.colorLength, h3.alphaLength⟩ c
  | rewind h => exact commandInv_keep (s := u) (by rw [h]; rfl) rfl rfl ⟨rfl, rfl, rfl, rfl, rfl, rfl, rfl⟩ c
  | copyAlpha i m w st h h2 h3 h4 h5 =>
    exact commandInv_keep (s := u) (by rw [h]; rfl) (by rcases h5 with rfl | rfl <;> rfl) (by show w.launch = _; rw [h4.state]) (by rw [h4.state]; exact ⟨rfl, rfl, rfl, rfl, rfl, rfl, rfl⟩) c
  | copyColor i m w st h h2 h3 h4 h5 =>
    exact commandInv_keep (s := u) (by rw [h]; rfl) (by rcases h5 with rfl | rfl <;> rfl) (by show w.launch = _; rw [h4.state]) (by rw [h4.state]; exact ⟨rfl, rfl, rfl, rfl, rfl, rfl, rfl⟩) c

end Sys2Proof.Machine
end

