-- ==== Sys2Proof/Laws/Regions.lean ====
section
/-! SUPPORT. The input region, the output region, the free regions of a reset, and the bytes of a host read. -/

namespace Sys2Proof.Machine

theorem byteAt_freePieces (rs : List FreeRegion) (s : State) (a : Nat) :
    (∃ d, s.freeCount ≤ d ∧ (∃ r ∈ rs, r.base ≤ a ∧ a < r.base + r.size) ∧ byteAt (freePieces rs s) a = Config.freeByte d a) ∨
      ((∀ r ∈ rs, ¬(r.base ≤ a ∧ a < r.base + r.size)) ∧ byteAt (freePieces rs s) a = byteAt s a) := by
  induction rs generalizing s with
  | nil => exact .inr ⟨by simp, rfl⟩
  | cons r rs ih =>
    unfold freePieces
    have hfc : s.freeCount ≤ (freeBytes r.base r.size s).freeCount := by unfold freeBytes; split <;> simp
    rcases ih (freeBytes r.base r.size s) with ⟨d, h1, ⟨r', h2, h3⟩, h4⟩ | ⟨h1, h2⟩
    · exact .inl ⟨d, by omega, ⟨r', by simp [h2], h3⟩, h4⟩
    · rw [h2, byteAt_freeBytes]
      by_cases h : r.base ≤ a ∧ a < r.base + r.size
      · rw [if_pos h]
        exact .inl ⟨_, Nat.le_refl _, ⟨r, by simp, h⟩, rfl⟩
      · rw [if_neg h]
        exact .inr ⟨fun r' hr' => by
          rcases List.mem_cons.mp hr' with rfl | hr'
          · exact h
          · exact h1 _ hr', rfl⟩

theorem inside_without (r : FreeRegion) (lo n a : Nat) :
    (∃ r' ∈ r.without lo n, r'.base ≤ a ∧ a < r'.base + r'.size) ↔ (r.base ≤ a ∧ a < r.base + r.size ∧ ¬(lo ≤ a ∧ a < lo + n)) := by
  unfold FreeRegion.without
  simp only [List.mem_append]
  constructor
  · rintro ⟨r', h | h, h1, h2⟩
    · split at h
      · simp at h; subst h; simp at h1 h2; omega
      · simp at h
    · split at h
      · simp at h; subst h; simp at h1 h2; omega
      · simp at h
  · rintro ⟨h1, h2, h3⟩
    by_cases h : a < lo
    · refine ⟨{ r with size := min (r.base + r.size) lo - r.base }, .inl ?_, ?_⟩
      · rw [if_pos (by omega)]; simp
      · simp; omega
    · refine ⟨{ r with base := max r.base (lo + n), size := r.base + r.size - max r.base (lo + n) }, .inr ?_, ?_⟩
      · rw [if_pos (by omega)]; simp
      · simp; omega

theorem inside_freeWithout (rs : List FreeRegion) (lo n a : Nat) :
    (∃ r' ∈ freeWithout rs lo n, r'.base ≤ a ∧ a < r'.base + r'.size) ↔ ((∃ r ∈ rs, r.base ≤ a ∧ a < r.base + r.size) ∧ ¬(lo ≤ a ∧ a < lo + n)) := by
  unfold freeWithout
  constructor
  · rintro ⟨r', h, hh⟩
    rw [List.mem_flatMap] at h
    obtain ⟨r, hr, hm⟩ := h
    have := (inside_without r lo n a).mp ⟨r', hm, hh⟩
    exact ⟨⟨r, hr, this.1, this.2.1⟩, this.2.2⟩
  · rintro ⟨⟨r, hr, h1, h2⟩, h3⟩
    obtain ⟨r', hm, hh⟩ := (inside_without r lo n a).mpr ⟨h1, h2, h3⟩
    exact ⟨r', List.mem_flatMap.mpr ⟨r, hr, hm⟩, hh⟩

/-- An address of the wrapped input region (20_memory R61). -/
theorem inside_input (s : State) (a : Nat) : (∃ j, j < s.launch.inLen.toNat ∧ (s.launch.inBase.toNat + j) % 4294967296 = a) ↔
   (s.launch.inBase.toNat ≤ a ∧ a < s.launch.inBase.toNat + min s.launch.inLen.toNat (4294967296 - s.launch.inBase.toNat)) ∨ a < 0 + (s.launch.inBase.toNat + s.launch.inLen.toNat - 4294967296) := by
  have h1 := s.launch.inBase.isLt
  have h2 := s.launch.inLen.isLt
  constructor
  · rintro ⟨j, hj, rfl⟩
    by_cases h : s.launch.inBase.toNat + j < 4294967296
    · rw [Nat.mod_eq_of_lt h]; left; omega
    · right
      rw [Nat.mod_eq_sub_mod (by omega), Nat.mod_eq_of_lt (by omega)]
      omega
  · rintro (⟨h3, h4⟩ | h3)
    · exact ⟨a - s.launch.inBase.toNat, by omega, by rw [Nat.mod_eq_of_lt (by omega)]; omega⟩
    · exact ⟨a + 4294967296 - s.launch.inBase.toNat, by omega, by omega⟩

/-- The input region has a byte in common with `n` bytes exactly when one of them is one of its own. -/
theorem inputMeets_iff (s : State) (b n : Nat) : inputMeets s b n = true ↔ ∃ j p, j < s.launch.inLen.toNat ∧ p < n ∧
        (s.launch.inBase.toNat + j) % 4294967296 = b + p := by
  have key : inputMeets s b n = true ↔ ∃ a, b ≤ a ∧ a < b + n ∧ ∃ j, j < s.launch.inLen.toNat ∧ (s.launch.inBase.toNat + j) % 4294967296 = a := by
    have h1 := s.launch.inBase.isLt
    have h2 := s.launch.inLen.isLt
    simp only [inputMeets, inputRegions, List.any_cons, List.any_nil, Bool.or_false, Bool.or_eq_true, regionMeets, Bool.and_eq_true, decide_eq_true_eq, Config.addressSpace]
    simp only [inside_input]
    constructor
    · rintro (⟨⟨⟨h3, h4⟩, h5⟩, h6⟩ | ⟨⟨⟨h3, h4⟩, h5⟩, h6⟩)
      · exact ⟨max b s.launch.inBase.toNat, by omega, by omega, .inl (by omega)⟩
      · exact ⟨b, by omega, by omega, .inr (by omega)⟩
    · rintro ⟨a, h3, h4, h5 | h5⟩
      · left; omega
      · right; omega
  rw [key]
  constructor
  · rintro ⟨a, h1, h2, j, h3, h4⟩
    exact ⟨j, a - b, h3, by omega, by omega⟩
  · rintro ⟨j, p, h1, h2, h3⟩
    exact ⟨b + p, by omega, by omega, j, h1, h3⟩

/-- A region has a byte in common with `n` bytes exactly when one of them is one of its own. -/
theorem regionMeets_iff (r : Region) (b n : Nat) : regionMeets r b n = true ↔ ∃ k p, k < n ∧ p < r.size ∧ b + k = r.base + p := by
  simp only [regionMeets, Bool.and_eq_true, decide_eq_true_eq]
  constructor
  · rintro ⟨⟨⟨h1, h2⟩, h3⟩, h4⟩
    exact ⟨max b r.base - b, max b r.base - r.base, by omega, by omega, by omega⟩
  · rintro ⟨k, p, h1, h2, h3⟩
    omega

/-- The host touches the output region while BUSY, byte by byte (20_memory R63, R78). -/
theorem touchesOutput_iff (s : State) (a n : Nat) : touchesOutput a n s = true ↔ s.phase = .busy ∧
    ∃ size k p, ownedSize s = some size ∧ k < n ∧ p < size ∧ a + k = s.launch.outBase.toNat + p := by
  unfold touchesOutput
  rw [Bool.and_eq_true, regionMeets_iff]
  simp only [isBusy, decide_eq_true_eq, outputRegion, outputAddr, Nat.add_zero]
  refine and_congr Iff.rfl ?_
  unfold ownedSize cmdOutPresent
  cases s.launch.cmd.getLsbD 9 with
  | true => simp
  | false => cases launchSize s <;> simp

/-- The bytes a command may write (20_memory R63, R79). -/
theorem lt_writableSize (s : State) (p : Nat) : p < writableSize s ↔
    ∃ size, launchSize s = some size ∧ p < size ∧ (s.launch.cmd.getLsbD 9 = true → p < s.launch.outCap.toNat) := by
  unfold writableSize clampSize cmdOutPresent
  generalize s.launch.outCap.toNat = cap
  generalize s.launch.cmd.getLsbD 9 = given
  cases launchSize s with
  | none => cases given <;> simp
  | some size => cases given <;> simp [Nat.lt_min]

/-- The overlap of the two regions, byte by byte (20_memory R79). -/
theorem regionsOverlap_iff (s : State) : regionsOverlap s = true ↔
    ∃ size j p, launchSize s = some size ∧ j < s.launch.inLen.toNat ∧ p < size ∧
      (s.launch.cmd.getLsbD 9 = true → p < s.launch.outCap.toNat) ∧
      (s.launch.inBase.toNat + j) % 4294967296 = s.launch.outBase.toNat + p := by
  unfold regionsOverlap
  rw [inputMeets_iff]
  simp only [outputAddr, Nat.add_zero, lt_writableSize]
  constructor
  · rintro ⟨j, p, h1, ⟨size, h2, h3, h4⟩, h5⟩
    exact ⟨size, j, p, h2, h1, h3, h4, h5⟩
  · rintro ⟨size, j, p, h2, h1, h3, h4, h5⟩
    exact ⟨j, p, h1, ⟨size, h2, h3, h4⟩, h5⟩

theorem bytesAt_eq (s : State) (a n : Nat) :
    (bytesAt s a n).length = n ∧ ∀ k, k < n → (bytesAt s a n)[k]? = some (byteAt s (a + k)) := by
  refine ⟨by simp [bytesAt], fun k hk => ?_⟩
  simp [bytesAt, List.getElem?_range hk]

end Sys2Proof.Machine
end

