-- ==== Sys2Proof/Laws/Termination.lean ====
section
/-! SUPPORT. The order in which a command goes on (42_generic R195, 70_reset R352): the input bits left, then the stage, then
what is left of the stage's loop. -/

namespace Sys2Proof.Machine

/-- Where a stage stands between two symbol-tree headers, and in a texture command. -/
def stageRank : Stage → Nat
  | .start => 40 | .genHeader => 39 | .genSize => 38 | .genAddend => 37
  | .treeLoop .sym => 36 | .treeCount .copy => 35 | .treeLoop .copy => 34 | .maxCount => 33
  | .symLoop => 32 | .copyCode => 32 | .genLoop => 31 | .treeCount .sym => 30
  | .texMagic => 29 | .texTag => 28 | .texDims => 27 | .texBody => 26 | .texFlags => 25 | .texClear => 24
  | .pass .altColor => 23 | .runLoop .altColor => 22 | .pass .alpha => 21 | .runLoop .alpha => 20
  | .pass .color => 19 | .runLoop .color => 18
  | .rewind => 17 | .alphaCopy _ => 16 | .colorCopy _ => 15 | .texDone => 14

/-- What is left of the loop of a stage. -/
def innerLeft (s : State) : Nat :=
  match s.stage with
  | .treeLoop _ => s.hdr.rem
  | .symLoop => 2 * (s.gen.maxCount - s.gen.count) + 2
  | .copyCode => 2 * (s.gen.maxCount - s.gen.count) + 1
  | .runLoop _ => s.tex.nb - s.tex.pos
  | .alphaCopy i => s.tex.nb - i
  | .colorCopy i => s.tex.nb - i
  | _ => 0

/-- The input bits not consumed. -/
def bitsLeft (s : State) : Nat := 32 * (s.br.n + s.cfg.tailZeroWords) - s.br.c

/-- 1 before the reader is created. -/
def started (s : State) : Nat := if s.stage = .start then 1 else 0

/-- `v` is further on in the command than `s`. -/
def Lower (v s : State) : Prop :=
  started v < started s ∨ started v = started s ∧ (bitsLeft v < bitsLeft s ∨ bitsLeft v = bitsLeft s ∧
    (stageRank v.stage < stageRank s.stage ∨ stageRank v.stage = stageRank s.stage ∧ innerLeft v < innerLeft s))

/-- No command goes on for ever. -/
theorem lower_wf : WellFounded Lower := by
  let f : State → Nat × Nat × Nat × Nat := fun s => (started s, bitsLeft s, stageRank s.stage, innerLeft s)
  have h := InvImage.wf f (WellFoundedRelation.wf (α := Nat × Nat × Nat × Nat))
  refine Subrelation.wf (r := InvImage WellFoundedRelation.rel f) ?_ h
  intro v s h
  show Prod.Lex _ _ (f v) (f s)
  rcases h with h | ⟨h, h' | ⟨h', h'' | ⟨h'', h'''⟩⟩⟩
  · exact .left _ _ h
  · show Prod.Lex _ _ (started v, _) (started s, _)
    rw [h]; exact .right _ (.left _ _ h')
  · show Prod.Lex _ _ (started v, bitsLeft v, _) (started s, bitsLeft s, _)
    rw [h, h']; exact .right _ (.right _ (.left _ _ h''))
  · show Prod.Lex _ _ (started v, bitsLeft v, stageRank v.stage, _) (started s, bitsLeft s, stageRank s.stage, _)
    rw [h, h', h'']; exact .right _ (.right _ (.right _ h'''))

theorem lower_of {u v : State} (hs : u.stage ≠ .start) (hs' : v.stage ≠ .start) (hb : bitsLeft v ≤ bitsLeft u)
    (h : stageRank v.stage < stageRank u.stage ∨ stageRank v.stage = stageRank u.stage ∧ innerLeft v < innerLeft u) : Lower v u := by
  right
  refine ⟨by simp [started, hs, hs'], ?_⟩
  rcases Nat.lt_or_eq_of_le hb with h' | h'
  · exact .inl h'
  · exact .inr ⟨h', h⟩

/-- What the order needs of a running command. -/
structure RunInv (s : State) : Prop where
  copy : s.stage = .copyCode → s.gen.count < s.gen.maxCount
  reader : s.stage ≠ .start → ReaderInv s
  prefix_le : s.cfg.addendPrefixSkip ≤ 32

theorem read_bits {t u : State} (h : ReaderStep t u) : bitsLeft u ≤ bitsLeft t := by
  unfold bitsLeft
  have h1 := h.words
  have h2 := h.forward
  have h3 : u.cfg = t.cfg := by rw [h.only]
  rw [h1, h3]; omega

theorem read_inner {t u : State} (h : ReaderStep t u) : innerLeft u = innerLeft t := by
  rw [h.only]; rfl

theorem move_lower {u : State} {st : Stage} (hm : Moves u st) : Lower (goTo st u) u ∧ st ≠ .copyCode ∧ st ≠ .start := by
  cases hm with
  | pass p h => exact ⟨lower_of (by rw [h]; intro h; cases h) (by cases p <;> (intro h; cases h)) (Nat.le_refl _) (by rw [h]; left; cases p <;> exact Nat.le_of_ble_eq_true rfl), by cases p <;> (intro h; cases h), by cases p <;> (intro h; cases h)⟩
  | runLoop p h => exact ⟨lower_of (by rw [h]; intro h; cases h) (by cases p <;> (intro h; cases h)) (Nat.le_refl _) (by rw [h]; left; cases p <;> exact Nat.le_of_ble_eq_true rfl), by cases p <;> (intro h; cases h), by cases p <;> (intro h; cases h)⟩
  | alphaNext i h hi => exact ⟨lower_of (by rw [h]; intro h; cases h) (by intro h; cases h) (Nat.le_refl _) (by rw [h]; right; refine ⟨rfl, ?_⟩; simp only [innerLeft, goTo, h]; omega), (by intro h; cases h), by intro h; cases h⟩
  | colorNext i h hi => exact ⟨lower_of (by rw [h]; intro h; cases h) (by intro h; cases h) (Nat.le_refl _) (by rw [h]; right; refine ⟨rfl, ?_⟩; simp only [innerLeft, goTo, h]; omega), (by intro h; cases h), by intro h; cases h⟩
  | alphaEnd i h => exact ⟨lower_of (by rw [h]; intro h; cases h) (by intro h; cases h) (Nat.le_refl _) (by rw [h]; left; simp [stageRank, goTo]), (by intro h; cases h), by intro h; cases h⟩
  | colorEnd i h => exact ⟨lower_of (by rw [h]; intro h; cases h) (by intro h; cases h) (Nat.le_refl _) (by rw [h]; left; simp [stageRank, goTo]), (by intro h; cases h), by intro h; cases h⟩
  | genHeader h => exact ⟨lower_of (by rw [h]; intro h; cases h) (by intro h; cases h) (Nat.le_refl _) (by rw [h]; left; exact Nat.le_of_ble_eq_true rfl), (by intro h; cases h), by intro h; cases h⟩
  | genLoop h _ => exact ⟨lower_of (by rw [h]; intro h; cases h) (by intro h; cases h) (Nat.le_refl _) (by rw [h]; left; exact Nat.le_of_ble_eq_true rfl), (by intro h; cases h), by intro h; cases h⟩
  | symLoop h _ => exact ⟨lower_of (by rw [h]; intro h; cases h) (by intro h; cases h) (Nat.le_refl _) (by rw [h]; left; exact Nat.le_of_ble_eq_true rfl), (by intro h; cases h), by intro h; cases h⟩
  | texMagic h => exact ⟨lower_of (by rw [h]; intro h; cases h) (by intro h; cases h) (Nat.le_refl _) (by rw [h]; left; exact Nat.le_of_ble_eq_true rfl), (by intro h; cases h), by intro h; cases h⟩
  | texBody h => exact ⟨lower_of (by rw [h]; intro h; cases h) (by intro h; cases h) (Nat.le_refl _) (by rw [h]; left; exact Nat.le_of_ble_eq_true rfl), (by intro h; cases h), by intro h; cases h⟩

theorem RunInv.congr {u v : State} (hj : RunInv u) (hs : u.stage ≠ .start) (hc : v.stage ≠ .copyCode) (hb : v.br = u.br) (hcfg : v.cfg = u.cfg) : RunInv v :=
  ⟨fun h => absurd h hc, fun _ => (hj.reader hs).congr hb hcfg, by rw [hcfg]; exact hj.prefix_le⟩

/-- Every step of the engine but the count of a symbol tree, which reads 16 bits. -/
theorem next_lower {u v : State} (hn : EngineNext u v) (hj : RunInv u) (hc : u.stage ≠ .treeCount .sym) :
    v.phase = .idle ∨ (RunInv v ∧ Lower v u) := by
  have go : ∀ {v : State}, u.stage ≠ .start → v.stage ≠ .start → v.stage ≠ .copyCode → v.br = u.br → v.cfg = u.cfg →
      (stageRank v.stage < stageRank u.stage ∨ stageRank v.stage = stageRank u.stage ∧ innerLeft v < innerLeft u) → RunInv v ∧ Lower v u := by
    intro v h1 h2 h3 h4 h5 h6
    exact ⟨hj.congr h1 h3 h4 h5, lower_of h1 h2 (Nat.le_of_eq (by unfold bitsLeft; rw [h4, h5])) h6⟩
  cases hn with
  | startG h _ _ =>
    right
    unfold dictEnsureG
    split <;>
    · refine ⟨⟨fun h => (by cases h), fun _ => ⟨?_, ?_, ?_, ?_, hj.prefix_le⟩, hj.prefix_le⟩, .inl ?_⟩ <;> simp [brInit, goTo, started, h]
  | startT h _ _ =>
    right
    unfold dictEnsureT
    split <;>
    · refine ⟨⟨fun h => (by cases h), fun _ => ⟨?_, ?_, ?_, ?_, hj.prefix_le⟩, hj.prefix_le⟩, .inl ?_⟩ <;> simp [brInit, goTo, started, h]
  | move st hm =>
    right
    obtain ⟨h1, h2, h3⟩ := move_lower hm
    have hs : u.stage ≠ .start := by cases hm <;> simp_all
    exact ⟨hj.congr hs h2 rfl rfl, h1⟩
  | genSize d h => right; exact go (by rw [h]; intro h; cases h) (by intro h; cases h) (by intro h; cases h) rfl rfl (by rw [h]; left; exact Nat.le_of_ble_eq_true rfl)
  | genAddend d h => right; exact go (by rw [h]; intro h; cases h) (by intro h; cases h) (by intro h; cases h) rfl rfl (by rw [h]; left; exact Nat.le_of_ble_eq_true rfl)
  | genDone => left; rfl
  | texDone => left; rfl
  | treeCount sel n h _ =>
    right
    cases sel with
    | sym => exact absurd h hc
    | copy => exact go (by rw [h]; intro h; cases h) (by intro h; cases h) (by intro h; cases h) rfl rfl (by rw [h]; left; exact Nat.le_of_ble_eq_true rfl)
  | treeBuild sel tree h _ _ =>
    right
    cases sel <;> exact go (by rw [h]; intro h; cases h) (by intro h; cases h) (by intro h; cases h) rfl rfl (by rw [h]; left; exact Nat.le_of_ble_eq_true rfl)
  | header sel hd h h1 =>
    right
    exact go (by rw [h]; intro h; cases h) (by show u.stage ≠ _; rw [h]; intro h; cases h) (by show u.stage ≠ _; rw [h]; intro h; cases h) rfl rfl (by right; refine ⟨rfl, ?_⟩; simp only [innerLeft, h]; exact h1)
  | maxCount m h => right; exact go (by rw [h]; intro h; cases h) (by intro h; cases h) (by intro h; cases h) rfl rfl (by rw [h]; left; exact Nat.le_of_ble_eq_true rfl)
  | literal w h hd hw =>
    right
    refine go (by rw [h]; intro h; cases h) (by intro h; cases h) (by intro h; cases h) (by show w.br = _; rw [hw.state]) (by show w.cfg = _; rw [hw.state]) (by
      right; rw [h]; refine ⟨rfl, ?_⟩
      unfold codeDue at hd; simp at hd
      simp only [innerLeft, countCode, h]
      rw [hw.state]
      simp only
      omega)
  | length n h hd =>
    right
    unfold codeDue at hd; simp at hd
    refine ⟨⟨fun _ => hd.1, fun _ => ReaderInv.congr (s := u) rfl rfl (hj.reader (by rw [h]; intro h; cases h)), hj.prefix_le⟩, lower_of (by rw [h]; intro h; cases h) (by intro h; cases h) (Nat.le_refl _) (.inr ⟨by rw [h]; rfl, by simp only [innerLeft, h]; omega⟩)⟩
  | copy m w h _ hw =>
    right
    have hcnt := hj.copy h
    refine go (by rw [h]; intro h; cases h) (by intro h; cases h) (by intro h; cases h) (by show w.br = _; rw [hw.state]) (by show w.cfg = _; rw [hw.state]) (by
      right; rw [h]; refine ⟨rfl, ?_⟩
      simp only [innerLeft, countCode, h]
      rw [hw.state]
      simp only
      omega)
  | texTag e h => right; exact go (by rw [h]; intro h; cases h) (by intro h; cases h) (by intro h; cases h) rfl rfl (by rw [h]; left; exact Nat.le_of_ble_eq_true rfl)
  | texDims w' h' h => right; exact go (by rw [h]; intro h; cases h) (by intro h; cases h) (by intro h; cases h) rfl rfl (by rw [h]; left; exact Nat.le_of_ble_eq_true rfl)
  | texFlags w h => right; exact go (by rw [h]; intro h; cases h) (by intro h; cases h) (by intro h; cases h) rfl rfl (by rw [h]; left; exact Nat.le_of_ble_eq_true rfl)
  | texClear h => right; exact go (by rw [h]; intro h; cases h) (by intro h; cases h) (by intro h; cases h) rfl rfl (by rw [h]; left; exact Nat.le_of_ble_eq_true rfl)
  | passBegin p f c h => right; exact go (by rw [h]; intro h; cases h) (by intro h; cases h) (by intro h; cases h) rfl rfl (by rw [h]; left; cases p <;> exact Nat.le_of_ble_eq_true rfl)
  | run p a b _ h h1 h2 h3 h4 =>
    right
    have hst : v.stage = u.stage := by rw [h2.state]
    have hnb : v.tex.nb = u.tex.nb := by rw [h2.state]
    refine go (by rw [h]; intro h; cases h) (by rw [hst, h]; intro h; cases h) (by rw [hst, h]; intro h; cases h) (by rw [h2.state]) (by rw [h2.state]) (.inr ⟨by rw [hst], ?_⟩)
    simp only [innerLeft, hst, h, hnb]
    omega
  | rewind h => right; exact go (by rw [h]; intro h; cases h) (by intro h; cases h) (by intro h; cases h) rfl rfl (by rw [h]; left; exact Nat.le_of_ble_eq_true rfl)
  | copyAlpha i m w st h hi _ hw hst =>
    right
    have hnb : w.tex.nb = u.tex.nb := by rw [hw.state]
    refine go (by rw [h]; intro h; cases h) (by show st ≠ _; rcases hst with rfl | rfl <;> (intro h; cases h)) (by show st ≠ _; rcases hst with rfl | rfl <;> (intro h; cases h)) (by show w.br = _; rw [hw.state]) (by show w.cfg = _; rw [hw.state]) ?_
    rcases hst with rfl | rfl
    · right; refine ⟨by rw [h]; rfl, ?_⟩; simp only [innerLeft, goTo, h, hnb]; omega
    · left; rw [h]; show 14 < 16; omega
  | copyColor i m w st h hi _ hw hst =>
    right
    have hnb : w.tex.nb = u.tex.nb := by rw [hw.state]
    refine go (by rw [h]; intro h; cases h) (by show st ≠ _; rcases hst with rfl | rfl <;> (intro h; cases h)) (by show st ≠ _; rcases hst with rfl | rfl <;> (intro h; cases h)) (by show w.br = _; rw [hw.state]) (by show w.cfg = _; rw [hw.state]) ?_
    rcases hst with rfl | rfl
    · right; refine ⟨by rw [h]; rfl, ?_⟩; simp only [innerLeft, goTo, h, hnb]; omega
    · left; rw [h]; show 14 < 15; omega

theorem lower_read {t u v : State} (h : ReaderStep t u) (hl : Lower v u) : Lower v t := by
  have h1 := read_bits h
  have h2 : started u = started t := by unfold started; rw [h.stage_eq]
  have h3 := read_inner h
  rcases hl with hl | ⟨hl, hl' | ⟨hl', hl''⟩⟩
  · exact .inl (by omega)
  · exact .inr ⟨by omega, .inl (by omega)⟩
  · rw [h.stage_eq, h3] at hl''
    refine .inr ⟨by omega, ?_⟩
    rcases Nat.lt_or_eq_of_le (show bitsLeft v ≤ bitsLeft t by omega) with h' | h'
    · exact .inl h'
    · exact .inr ⟨h', hl''⟩


theorem treeCount_lower {s v : State} (hj : RunInv s) (hm : s.moves = []) (hb : s.phase = .busy) (hc : s.stage = .treeCount .sym)
    (hs : (treeCount .sym s).finish = .next v) : v.phase = .idle ∨ (RunInv v ∧ v.moves = [] ∧ v.phase = .busy ∧ Lower v s) := by
  unfold treeCount at hs
  have hr := readBits_sat 16 s (by omega)
  have hr' := readBits_step 16 s (by omega)
  cases hx : readBits 16 s with
  | ok n u =>
    rw [hx] at hr hr' hs
    obtain ⟨w, h1, h2, -, h5⟩ := hr
    obtain ⟨h3, -⟩ := hr'
    have hri := h3.inv (hj.reader (by rw [hc]; intro h; cases h))
    have hcc : u.br.c = s.br.c + 16 := by
      have hen := ensure_sat 16 s
      rw [h1] at hen
      have hc' : w.br.c = s.br.c := by rcases hen with ⟨-, rfl⟩ | ⟨-, -, rfl⟩ <;> rfl
      rw [h5]; show w.br.c + 16 = _; rw [hc']
    clear h5 h1 h2
    rw [Res.bind_ok] at hs
    by_cases hn : Config.maxSymbols < n
    · rw [if_pos hn] at hs; cases hs; exact .inl rfl
    · rw [if_neg hn] at hs
      have hs : goTo (.treeLoop .sym) { u with hdr := { rem := n, lists := List.replicate 16 [] } } = v := by injection hs
      right
      have e1 : u.moves = s.moves := by rw [h3.only]
      have e2 : u.phase = s.phase := by rw [h3.only]
      have e3 : u.cfg = s.cfg := by rw [h3.only]
      have hnn := h3.words
      have hcnt := hri.count
      have hw := hri.words
      have g1 : v.br = u.br := by rw [← hs]; rfl
      have g2 : v.cfg = u.cfg := by rw [← hs]; rfl
      have g3 : v.stage = .treeLoop .sym := by rw [← hs]; rfl
      refine ⟨⟨fun h => (by rw [g3] at h; cases h), fun _ => hri.congr g1 g2, by rw [g2, e3]; exact hj.prefix_le⟩, ?_, ?_, ?_⟩
      · rw [← hs]; exact e1.trans hm
      · rw [← hs]; exact e2.trans hb
      · right
        refine ⟨by simp [started, hc, g3], .inl ?_⟩
        unfold bitsLeft
        rw [g1, g2, e3, hnn]
        rw [e3, hnn] at hw
        omega
  | raise e u => rw [hx] at hs; cases hs; exact .inl rfl
  | fault => rw [hx] at hs; cases hs
  | refuse => rw [hx] at hs; cases hs

/-- A step of a running command completes it or goes on in it. -/
theorem step_lower {s v : State} (hj : RunInv s) (hm : s.moves = []) (hb : s.phase = .busy) (hs : step s = .next v) :
    v.phase = .idle ∨ (RunInv v ∧ v.moves = [] ∧ v.phase = .busy ∧ Lower v s) := by
  have ht : engineTurn s = some s := by unfold engineTurn; rw [hm]
  by_cases hc : s.stage = .treeCount .sym
  · rw [step_work ht hb (by unfold stageWork; rw [hc])] at hs
    exact treeCount_lower hj hm hb hc hs
  · rcases engine_next ht hs with ⟨h, -⟩ | ⟨-, u, hu, hn | ⟨e, x, -, rfl⟩⟩
    · rw [hb] at h; cases h
    · have hju : RunInv u := ⟨fun h => by rw [show u.gen = s.gen by rw [hu.only]]; exact hj.copy (hu.stage_eq ▸ h), fun h => hu.inv (hj.reader (hu.stage_eq ▸ h)), by rw [show u.cfg = s.cfg by rw [hu.only]]; exact hj.prefix_le⟩
      rcases next_lower hn hju (by rw [hu.stage_eq]; exact hc) with h | ⟨h1, h2⟩
      · exact .inl h
      · have hk := hn.keeps
        rcases hk.csr with ⟨-, hp⟩ | ⟨n, rfl⟩
        · exact .inr ⟨h1, by rw [hk.moves, show u.moves = s.moves by rw [hu.only], hm], by rw [hp, show u.phase = s.phase by rw [hu.only], hb], lower_read hu h2⟩
        · exact .inl rfl
    · exact .inl rfl

theorem run_next {n : Nat} {s v : State} (h : step s = .next v) : Host.Core.run Sys2Proof.core (n + 1) s = Host.Core.run Sys2Proof.core n v := by
  have h : Sys2Proof.core.step s = .next v := h
  rw [Host.Core.run.eq_2 Sys2Proof.core s n, h]
theorem run_fault {n : Nat} {s : State} {f} (h : step s = .fault f) : Host.Core.run Sys2Proof.core (n + 1) s = .fault f := by
  have h : Sys2Proof.core.step s = .fault f := h
  rw [Host.Core.run.eq_2 Sys2Proof.core s n, h]
theorem run_refused {n : Nat} {s : State} {f} (h : step s = .refused f) : Host.Core.run Sys2Proof.core (n + 1) s = .refused f := by
  have h : Sys2Proof.core.step s = .refused f := h
  rw [Host.Core.run.eq_2 Sys2Proof.core s n, h]

end Sys2Proof.Machine
end

