-- ==== Sys2Proof/Laws/Launch.lean ====
section
/-! SUPPORT. The first steps of a command: the words its header steps read, the size they derive (`launchSize`), and what a read
that cannot load its word comes to (`ReadStops`). -/

namespace Sys2Proof.Machine

/-! ### Whole words -/

theorem topBits_word (w : Nat) (hw : w < 4294967296) : topBits (BitVec.ofNat 64 w <<< (32 : Nat)) 32 = w := by
  unfold topBits
  simp [BitVec.toNat_ushiftRight, BitVec.toNat_shiftLeft, Nat.shiftLeft_eq, Nat.shiftRight_eq_div_pow]
  omega

theorem topBits_high (w : Nat) (_hw : w < 4294967296) : topBits (BitVec.ofNat 64 w <<< (32 : Nat)) 16 = w / 65536 := by
  unfold topBits
  simp [BitVec.toNat_ushiftRight, BitVec.toNat_shiftLeft, Nat.shiftLeft_eq, Nat.shiftRight_eq_div_pow]
  omega

theorem topBits_low (w : Nat) (_hw : w < 4294967296) : topBits ((BitVec.ofNat 64 w <<< (32 : Nat)) <<< (16 : Nat)) 16 = w % 65536 := by
  unfold topBits
  simp [BitVec.toNat_ushiftRight, BitVec.toNat_shiftLeft, Nat.shiftLeft_eq, Nat.shiftRight_eq_div_pow]
  omega

theorem acc_shifted_out (w : Nat) : (BitVec.ofNat 64 w <<< (32 : Nat)) <<< (32 : Nat) = 0 := by
  rw [← BitVec.shiftLeft_add]
  exact BitVec.shiftLeft_eq_zero (by omega)

/-- The word a reader with nothing buffered loads next. -/
theorem ensure_fresh {n : Nat} {s t : State} (h1 : 1 ≤ n) (h2 : n ≤ 32) (hb : s.br.bits = 0) (ha : s.br.acc = 0) (hn : s.br.n = s.launch.inLen.toNat / 4)
    (h : ensure n s = .ok () t) : ∃ w, headerWord s s.br.w = some w ∧ w < 4294967296 ∧
      t = { s with br := { n := s.br.n, w := s.br.w + 1, acc := BitVec.ofNat 64 w <<< (32 : Nat), bits := 32, c := s.br.c } } := by
  have hs := ensure_sat n s
  rw [h] at hs
  unfold ensure at h
  rw [if_pos (by omega)] at h
  unfold headerWord
  rw [← hn]
  split at h
  · cases h
  · unfold refillWord at h
    split at h
    · rename_i hlt
      rw [inputWord_eq] at h
      split at h
      · rename_i ha'
        rw [Res.bind_ok] at h
        cases h
        refine ⟨inputWordValue s s.br.w, by simp [hlt, ha'], inputWordValue_lt _ _, ?_⟩
        simp [pushWord, hb, ha]
      · cases h
    · rename_i hlt
      rw [Res.bind_ok] at h
      cases h
      refine ⟨0, by simp [hlt]; omega, by omega, ?_⟩
      simp [pushWord, hb, ha]

/-- From `s`, the steps so far have read `k` whole words and nothing is buffered. -/
structure Fresh (k : Nat) (s t : State) : Prop where
  eq : t = { s with br := t.br, stage := t.stage, gen := t.gen, tex := t.tex, dictG := t.dictG, dictT := t.dictT, dictReadyG := t.dictReadyG, dictReadyT := t.dictReadyT }
  bits : t.br.bits = 0
  acc : t.br.acc = 0
  w : t.br.w = k
  n : t.br.n = s.launch.inLen.toNat / 4

theorem headerWord_congr {s t : State} {i} (h1 : t.launch = s.launch) (h2 : t.cfg = s.cfg) (h3 : t.mem = s.mem) (h4 : t.free = s.free) : headerWord t i = headerWord s i := by
  have hv : inputWordValue t i = inputWordValue s i := by
    unfold inputWordValue inputAddrs inputAddr
    rw [h1]
    have : byteAt t = byteAt s := funext fun a => byteAt_congr h3 h4 a
    rw [this]
  have ha : inputAdmitted t i = inputAdmitted s i := by
    unfold inputAdmitted inputAddrs inputAddr
    rw [h1, h2]
  unfold headerWord
  rw [h1, h2, hv, ha]

theorem Fresh.headerWord_eq {k} {s t : State} (h : Fresh k s t) (i) : headerWord t i = headerWord s i := headerWord_congr (by rw [h.eq]) (by rw [h.eq]) (by rw [h.eq]) (by rw [h.eq])

theorem Fresh.of {k} {s t u : State} (h : Fresh k s t) (k') (he : u = { t with br := u.br, stage := u.stage, gen := u.gen, tex := u.tex }) (h1 : u.br.bits = 0) (h2 : u.br.acc = 0) (h3 : u.br.w = k') (h4 : u.br.n = t.br.n) : Fresh k' s u := by
  refine ⟨?_, h1, h2, h3, h4.trans h.n⟩
  have := h.eq
  rw [he, this]

theorem Fresh.read_word {k} {s t u : State} {v : Nat} (h : Fresh k s t) (hr : readBits 32 t = .ok v u) : headerWord s k = some v ∧ Fresh (k + 1) s u ∧ u.gen = t.gen ∧ u.tex = t.tex ∧ u.stage = t.stage := by
  unfold readBits at hr
  cases he : ensure 32 t with
  | ok _ x =>
    rw [he, Res.bind_ok] at hr
    obtain ⟨w, h1, h2, rfl⟩ := ensure_fresh (by omega) (by omega) h.bits h.acc (by rw [h.n]; rw [show t.launch = s.launch by rw [h.eq]]) he
    simp only [peek, consume, dropBits, Res.bind_ok, Nat.lt_irrefl, if_false] at hr
    cases hr
    rw [topBits_word w h2]
    refine ⟨by rw [← h.headerWord_eq, ← h.w]; exact h1, h.of _ rfl rfl (acc_shifted_out w) (by show t.br.w + 1 = _; rw [h.w]) rfl, rfl, rfl, rfl⟩
  | raise => rw [he] at hr; cases hr
  | fault => rw [he] at hr; cases hr
  | refuse => rw [he] at hr; cases hr

theorem start_ok {s t : State} (h : startCommand s = .ok () t) : ∃ p, checkArgs s = .ok () p ∧ Fresh 0 s t ∧ t.stage = (if isTexture s then .texMagic else .genHeader) := by
  unfold startCommand at h
  have hc : checkArgs s = .ok () s ∨ ∃ e, checkArgs s = .raise e s := by
    unfold checkArgs; repeat' split
    · exact .inr ⟨_, rfl⟩
    · exact .inr ⟨_, rfl⟩
    · exact .inl rfl
  rcases hc with hc | ⟨e, hc⟩
  · rw [hc, Res.bind_ok] at h
    split at h
    · cases h
    · split at h
      · cases h
        refine ⟨s, hc, ?_, (if_pos ‹_›).symm⟩
        unfold dictEnsureT; split <;> exact ⟨rfl, rfl, rfl, rfl, rfl⟩
      · cases h
        refine ⟨s, hc, ?_, (if_neg ‹_›).symm⟩
        unfold dictEnsureG; split <;> exact ⟨rfl, rfl, rfl, rfl, rfl⟩
  · rw [hc] at h; cases h

theorem idle_run (n : Nat) {t : State} (hm : t.moves = []) (hp : t.phase = .idle) : Host.Core.run Sys2Proof.core n t = .next t := by
  induction n with
  | zero => rfl
  | succ n ih =>
    have : step t = .next t := by
      rw [step_of_engineTurn (t := t) (by unfold engineTurn; rw [hm])]
      simp [engineFetch, isBusy, hp]; rfl
    rw [run_next this, ih]

/-- A run from a working stage goes on from what the stage gives, or ends in the error it raises. -/
theorem run_work {n : Nat} {s u : State} {r : Res Unit} (hm : s.moves = []) (hb : s.phase = .busy) (hw : stageWork s = some r)
   (h : Host.Core.run Sys2Proof.core (n + 1) s = .next u) : (∃ t, r = .ok () t ∧ Host.Core.run Sys2Proof.core n t = .next u) ∨ ∃ e x, r = .raise e x ∧ (x.moves = [] → u = raiseError e x) := by
  have hs := step_work (s := s) (t := s) (by unfold engineTurn; rw [hm]) hb hw
  cases hr : r with
  | ok a t =>
    rw [hr] at hs
    rw [run_next (v := t) hs] at h
    exact .inl ⟨t, rfl, h⟩
  | raise e x =>
    rw [hr] at hs
    rw [run_next (v := raiseError e x) hs] at h
    refine .inr ⟨e, x, rfl, fun hx => ?_⟩
    rw [idle_run n (by simpa using hx) rfl] at h
    cases h; rfl
  | fault f => rw [hr] at hs; rw [run_fault hs] at h; cases h
  | refuse f => rw [hr] at hs; rw [run_refused hs] at h; cases h

theorem start_raise {s x : State} {e} (h : startCommand s = .raise e x) : x = s ∧ (e = .nullInput ∨ e = .inconsistentOutputArgs) := by
  unfold startCommand checkArgs at h
  repeat' split at h
  · cases h; exact ⟨rfl, .inl rfl⟩
  · cases h; exact ⟨rfl, .inr rfl⟩
  · rw [Res.bind_ok] at h; repeat' split at h
    all_goals cases h

theorem bind_read_raise {n : Nat} (hn : n ≤ 32) {t x : State} {e} {f : Nat → State → Res Unit} (hf : ∀ v u, ∃ w, f v u = .ok () w) (h : (readBits n t).bind f = .raise e x) : x = t ∧ e = .truncatedInput := by
  have := readBits_sat n t hn
  cases hr : readBits n t with
  | ok v u => rw [hr, Res.bind_ok] at h; obtain ⟨w, hw⟩ := hf v u; rw [hw] at h; cases h
  | raise e' y => rw [hr] at h this; cases h; exact ⟨this.2, this.1⟩
  | fault => rw [hr] at h; cases h
  | refuse => rw [hr] at h; cases h

theorem bind_read {n : Nat} {t x : State} {f : Nat → State → Res Unit} (h : (readBits n t).bind f = .ok () x) : ∃ v u, readBits n t = .ok v u ∧ f v u = .ok () x := by
  cases hr : readBits n t with
  | ok v u => rw [hr] at h; exact ⟨v, u, rfl, h⟩
  | raise => rw [hr] at h; cases h
  | fault => rw [hr] at h; cases h
  | refuse => rw [hr] at h; cases h

/-- The size of a generic command whose two header words can be read. -/
theorem launchSize_generic {s : State} {m d : Nat} (hc : ∃ p, checkArgs s = .ok () p) (hg : isTexture s = false)
    (h0 : headerWord s 0 = some m) (h : headerWord s 1 = some d) : launchSize s = some (clampSize d s) := by
  obtain ⟨p, hp⟩ := hc
  unfold launchSize; rw [hp]; simp [hg, h0, h]

/-- A header word that memory does not admit leaves no size (20_memory R65). -/
theorem launchSize_not_admitted {s : State} {i : Nat} (hi : i ≤ (if isTexture s then 2 else 1)) (hn : i < s.launch.inLen.toNat / 4)
    (ha : inputAdmitted s i = false) : launchSize s = none := by
  have hw : headerWord s i = none := by unfold headerWord; simp [hn, ha]
  unfold launchSize
  split
  · split
    · rename_i ht
      rw [if_pos ht] at hi
      have : i = 0 ∨ i = 1 ∨ i = 2 := by omega
      split
      · rename_i h0 h1 h2
        rcases this with rfl | rfl | rfl <;> simp_all
      · rfl
    · rename_i ht
      rw [if_neg ht] at hi
      have : i = 0 ∨ i = 1 := by omega
      split
      · rename_i h0 h1
        rcases this with rfl | rfl <;> simp_all
      · rfl
  · rfl

/-- The size a format derives from its dimensions word. -/
def formatSize (d : Nat) (f : FormatEntry) : Nat := blockCount (d / 65536) (d % 65536) * bytesPerBlock f

theorem Fresh.read_halves {k} {s t u : State} {v : Nat} (h : Fresh k s t) (hr : readBits 16 t = .ok v u) :
    ∃ w, headerWord s k = some w ∧ w < 4294967296 ∧ v = w / 65536 ∧ ∀ regs, readBits 16 { u with tex := regs } = .ok (w % 65536) (dropBits 16 { u with tex := regs }) := by
  have hs := readBits_sat 16 t (by omega)
  rw [hr] at hs
  obtain ⟨x, he, -, hv, hu⟩ := hs
  obtain ⟨w, h1, h2, hx⟩ := ensure_fresh (by omega) (by omega) h.bits h.acc (by rw [h.n]; rw [show t.launch = s.launch by rw [h.eq]]) he
  refine ⟨w, by rw [← h.headerWord_eq, ← h.w]; exact h1, h2, by rw [hv, hx]; exact topBits_high w h2, ?_⟩
  intro regs
  have hb : u.br.bits = 16 := by rw [hu, hx]; rfl
  have ha : u.br.acc = (BitVec.ofNat 64 w <<< (32 : Nat)) <<< (16 : Nat) := by rw [hu, hx]; rfl
  have := readBits_of_ensure (n := 16) (s := { u with tex := regs }) (t := { u with tex := regs }) (by omega) (by unfold ensure; rw [if_neg (by show ¬(u.br.bits < 16); omega)])
  rw [this]
  congr 1
  show topBits u.br.acc 16 = _
  rw [ha, topBits_low w h2]

theorem texCheckSize_sat (g : State) : (texCheckSize g).Sat (fun _ x => x = g) (fun _ x => x = g) := by
  unfold texCheckSize
  split
  · exact rfl
  · split
    · exact rfl
    · exact rfl

theorem texDims_tail (x : State) (h : BitVec 16) :
    ((texCheckSize (texDerive { x with tex := { x.tex with height := h } })).bind fun _ s => .ok () (goTo .texBody s)).Sat
      (fun _ y => y.tex.size = blockCount x.tex.width.toNat h.toNat * bytesPerBlock x.tex.fmt)
      (fun _ y => y.moves = x.moves ∧ y.tex.size = blockCount x.tex.width.toNat h.toNat * bytesPerBlock x.tex.fmt) := by
  refine Res.Sat.bind (texCheckSize_sat _) ?_ ?_
  · rintro _ y rfl; exact rfl
  · rintro e y rfl; exact ⟨rfl, rfl⟩

theorem texDims_size {s z : State} {f : FormatEntry} {k : Nat} (hf : Fresh k s z) (ef : z.tex.fmt = f) :
    (texDims z).Sat (fun _ x => ∃ d, headerWord s k = some d ∧ x.tex.size = formatSize d f)
      (fun e x => x.moves = z.moves ∧ (e = .truncatedInput ∨ ∃ d, headerWord s k = some d ∧ x.tex.size = formatSize d f)) := by
  unfold texDims
  have h16 := readBits_reader 16 z (by omega)
  cases hr4 : readBits 16 z with
  | ok v a =>
    rw [hr4] at h16
    obtain ⟨hu, -, -⟩ := h16
    obtain ⟨d, hd2, hdl, rfl, hsec⟩ := Fresh.read_halves hf hr4
    rw [Res.bind_ok, hsec, Res.bind_ok]
    have hfa : a.tex.fmt = f := by rw [hu]; exact ef
    have hma : a.moves = z.moves := by rw [hu]
    have e1 : (BitVec.ofNat 16 (d / 65536)).toNat = d / 65536 := by rw [BitVec.toNat_ofNat, Nat.mod_eq_of_lt (by omega)]
    have e2 : (BitVec.ofNat 16 (d % 65536)).toNat = d % 65536 := by rw [BitVec.toNat_ofNat, Nat.mod_eq_of_lt (by omega)]
    have hn : formatSize d f = blockCount (BitVec.ofNat 16 (d / 65536)).toNat (BitVec.ofNat 16 (d % 65536)).toNat * bytesPerBlock a.tex.fmt := by rw [e1, e2, hfa]; rfl
    clear e1 e2 hsec
    generalize BitVec.ofNat 16 (d / 65536) = w at hn ⊢
    generalize BitVec.ofNat 16 (d % 65536) = h at hn ⊢
    refine (texDims_tail (dropBits 16 { a with tex := { a.tex with width := w } }) h).mono ?_ ?_
    · intro _ y hy
      rw [dropBits_tex] at hy
      exact ⟨d, hd2, hy.trans hn.symm⟩
    · rintro _ y ⟨hm, hy⟩
      rw [dropBits_tex] at hy
      rw [dropBits_moves] at hm
      exact ⟨hm.trans hma, .inr ⟨d, hd2, hy.trans hn.symm⟩⟩
  | raise e x =>
    rw [hr4] at h16
    exact ⟨by rw [h16.2], .inl h16.1⟩
  | fault => trivial
  | refuse => trivial


/-! ### Reads that stop -/

theorem ensure_ended (n : Nat) (s : State) (h1 : s.br.bits < n) (h2 : s.br.n + s.cfg.tailZeroWords ≤ s.br.w) : ensure n s = .raise .truncatedInput s := by
  unfold ensure; rw [if_pos h1, if_pos h2]

theorem ensure_not_admitted (n : Nat) (s : State) (h1 : s.br.bits < n) (h2 : s.br.w < s.br.n) (h3 : inputAdmitted s s.br.w = false) : ensure n s = .fault .accessNotAdmitted := by
  unfold ensure; rw [if_pos h1, if_neg (by omega)]
  unfold refillWord; rw [if_pos h2, inputWord_eq, h3]; rfl

theorem readBits_stops {n : Nat} {s : State} {out} (h : ReadStops n s out) (f : Nat → State → Res Unit) : ((readBits n s).bind f).finish = out := by
  obtain ⟨h1, ⟨h2, rfl⟩ | ⟨h2, h3, rfl⟩⟩ := h
  · unfold readBits; rw [ensure_ended n s h1 h2]; rfl
  · unfold readBits; rw [ensure_not_admitted n s h1 h2 h3]; rfl

theorem readCode_stops {s : State} {out} (t : Tree) (ht : t.empty = false) (h : ReadStops 32 s out) (f : Sym → State → Res Code) : runFetched (fetchRead ((readCode t s).bind f)) = out := by
  obtain ⟨h1, ⟨h2, rfl⟩ | ⟨h2, h3, rfl⟩⟩ := h
  · unfold readCode; rw [if_neg (by simp [ht]), ensure_ended 32 s h1 h2]; rfl
  · unfold readCode; rw [if_neg (by simp [ht]), ensure_not_admitted 32 s h1 h2 h3]; rfl

end Sys2Proof.Machine
end

