-- ==== Sys2Proof/Laws/Literal.lean ====
section
/-! SUPPORT. What a literal copy writes (43_texture R236, 20_memory R69). -/

namespace Sys2Proof.Machine

theorem byte_of_number (b : Byte) (x n : Nat) (h : n = b.toNat + 256 * x) : BitVec.ofNat 8 n = b := by
  apply BitVec.eq_of_toNat_eq
  have := b.isLt
  rw [h, BitVec.toNat_ofNat]; omega

/-- Byte `k` of an input word (20_memory R67). -/
theorem word_byte (s : State) (i k : Nat) (hk : k < 4) : BitVec.ofNat 8 (inputWordValue s i / 256 ^ k) = byteAt s (inputAddr s i k) := by
  have h0 := (byteAt s (inputAddr s i 0)).isLt
  have h1 := (byteAt s (inputAddr s i 1)).isLt
  have h2 := (byteAt s (inputAddr s i 2)).isLt
  unfold inputWordValue inputAddrs
  simp only [List.map_cons, List.map_nil, leValue]
  rcases (by omega : k = 0 ∨ k = 1 ∨ k = 2 ∨ k = 3) with rfl | rfl | rfl | rfl
  · exact byte_of_number _ _ _ (Nat.div_one _)
  · exact byte_of_number _ ((byteAt s (inputAddr s i 2)).toNat + 256 * ((byteAt s (inputAddr s i 3)).toNat + 256 * 0)) _ (by omega)
  · exact byte_of_number _ ((byteAt s (inputAddr s i 3)).toNat + 256 * 0) _ (by omega)
  · exact byte_of_number _ 0 _ (by omega)

theorem inputAdmitted_congr {s t : State} (hc : t.cfg = s.cfg) (hl : t.launch = s.launch) (i : Nat) : inputAdmitted t i = inputAdmitted s i := by
  unfold inputAdmitted inputAddrs inputAddr; rw [hc, hl]

theorem inputAddr_congr {s t : State} (hl : t.launch = s.launch) (i j : Nat) : inputAddr t i j = inputAddr s i j := by
  unfold inputAddr; rw [hl]

/-- A literal copy of `n` words, from input bytes it does not write. -/
theorem copyWords_ok (n addr : Nat) (s : State) (hm : memCanonical s = true)
   (hin : ∀ j, j < min n (s.br.n - s.tex.lit) → inputAdmitted s (s.tex.lit + j) = true)
   (hout : ∀ k, k < 4 * min n (s.br.n - s.tex.lit) → admits s.cfg (addr + k) = true)
   (hdis : ∀ j b k, j < min n (s.br.n - s.tex.lit) → b < 4 → k < 4 * min n (s.br.n - s.tex.lit) → inputAddr s (s.tex.lit + j) b ≠ addr + k) :
   ∃ more u, copyWords n addr s = .ok more u ∧ (more = true ↔ min n (s.br.n - s.tex.lit) = n) ∧
     u = { s with tex := { s.tex with lit := s.tex.lit + min n (s.br.n - s.tex.lit) }, mem := u.mem, free := u.free } ∧
     (∀ k, k < 4 * min n (s.br.n - s.tex.lit) → byteAt u (addr + k) = byteAt s (inputAddr s (s.tex.lit + k / 4) (k % 4))) ∧
     ∀ a, (∀ k, k < 4 * min n (s.br.n - s.tex.lit) → a ≠ addr + k) → byteAt u a = byteAt s a := by
  induction n generalizing addr s with
  | zero => exact ⟨true, s, rfl, by simp, by simp, by simp, fun _ _ => rfl⟩
  | succ n ih =>
    unfold copyWords
    by_cases hav : s.tex.lit < s.br.n
    · have hmin : min (n + 1) (s.br.n - s.tex.lit) = min n (s.br.n - (s.tex.lit + 1)) + 1 := by omega
      rw [hmin] at hin hout hdis ⊢
      generalize hm' : min n (s.br.n - (s.tex.lit + 1)) = m at *
      rw [if_pos (by simpa [litAvail] using hav)]
      unfold litWord
      rw [inputWord_eq, if_pos (show inputAdmitted s s.tex.lit = true from hin 0 (by omega)), Res.bind_ok, Res.bind_ok]
      have hw := writeBytes_of_admitted (bs := leBytes 4 (inputWordValue s s.tex.lit)) (a := addr) (s := { s with tex := { s.tex with lit := s.tex.lit + 1 } }) (by
        intro k hk; rw [leBytes_length] at hk; exact hout k (by omega))
      rw [hw, Res.bind_ok]
      generalize hs1 : setBytes addr (leBytes 4 (inputWordValue s s.tex.lit)) { s with tex := { s.tex with lit := s.tex.lit + 1 } } = s1
      have hbr : s1.br = s.br := by rw [← hs1, setBytes_br]
      have htex : s1.tex = { s.tex with lit := s.tex.lit + 1 } := by rw [← hs1, setBytes_tex]
      have hl : s1.launch = s.launch := by rw [← hs1, setBytes_launch]
      have hc : s1.cfg = s.cfg := by rw [← hs1, setBytes_cfg]
      have hlit : s1.tex.lit = s.tex.lit + 1 := by rw [htex]
      have hm1 : memCanonical s1 = true := by
        rw [← hs1]
        exact setBytes_canonical _ _ _ (memCanonical_congr (s := s) rfl rfl hm)
      have hb1o : ∀ x, (x < addr ∨ addr + 4 ≤ x) → byteAt s1 x = byteAt s x := by
        intro x hx
        rw [← hs1, byteAt_setBytes_outside _ _ _ _ (by rw [leBytes_length]; exact hx)]
        exact byteAt_congr rfl rfl x
      have hb1i : ∀ k, k < 4 → byteAt s1 (addr + k) = byteAt s (inputAddr s s.tex.lit k) := by
        intro k hk
        have hm0 : memCanonical ({ s with tex := { s.tex with lit := s.tex.lit + 1 } } : State) = true := memCanonical_congr (s := s) rfl rfl hm
        have := byteAt_setBytes_inside (leBytes 4 (inputWordValue s s.tex.lit)) addr _ hm0 k (by rw [leBytes_length]; exact hk)
        rw [hs1] at this
        exact this.trans ((leBytes_get ..).trans (word_byte s _ k hk))
      have hmm : min n (s1.br.n - s1.tex.lit) = m := by rw [hbr, hlit, hm']
      obtain ⟨more, u, h1, h2, h3, h4, h5⟩ := ih (addr + 4) s1 hm1
        (by rw [hmm, hlit]; intro j hj; rw [inputAdmitted_congr hc hl]; have := hin (j + 1) (by omega); rwa [show s.tex.lit + 1 + j = s.tex.lit + (j + 1) by omega])
        (by rw [hmm, hc]; intro k hk; have := hout (k + 4) (by omega); rwa [show addr + 4 + k = addr + (k + 4) by omega])
        (by rw [hmm, hlit]; intro j b k hj hb hk; rw [inputAddr_congr hl]; have := hdis (j + 1) b (k + 4) (by omega) hb (by omega); rwa [show s.tex.lit + 1 + j = s.tex.lit + (j + 1) by omega, show addr + 4 + k = addr + (k + 4) by omega])
      rw [hmm] at h2 h3 h4 h5
      refine ⟨more, u, h1, by rw [h2]; omega, ?_, ?_, ?_⟩
      · rw [h3, htex]
        rw [← hs1, setBytes_eq]
        simp [Nat.add_assoc, Nat.add_comm 1 m]
      · intro k hk
        by_cases hk4 : k < 4
        · rw [h5 _ (by intro k' hk'; omega), hb1i k hk4, show k / 4 = 0 by omega, show k % 4 = k by omega]
          rfl
        · have := h4 (k - 4) (by omega)
          rw [show addr + 4 + (k - 4) = addr + k by omega] at this
          rw [this, hlit, inputAddr_congr hl, show s.tex.lit + 1 + (k - 4) / 4 = s.tex.lit + k / 4 by omega, show (k - 4) % 4 = k % 4 by omega]
          refine hb1o _ ?_
          by_cases hlt : inputAddr s (s.tex.lit + k / 4) (k % 4) < addr
          · exact .inl hlt
          · right
            by_cases hge : addr + 4 ≤ inputAddr s (s.tex.lit + k / 4) (k % 4)
            · exact hge
            · exact absurd (show inputAddr s (s.tex.lit + k / 4) (k % 4) = addr + (inputAddr s (s.tex.lit + k / 4) (k % 4) - addr) by omega)
                (hdis (k / 4) (k % 4) _ (by omega) (Nat.mod_lt _ (by omega)) (by omega))
      · intro a ha
        rw [h5 a (by intro k hk; have := ha (k + 4) (by omega); omega)]
        refine hb1o a ?_
        by_cases hlt : a < addr
        · exact .inl hlt
        · right
          by_cases hge : addr + 4 ≤ a
          · exact hge
          · exact absurd (show a = addr + (a - addr) by omega) (ha _ (by omega))
    · have hmin : min (n + 1) (s.br.n - s.tex.lit) = 0 := by omega
      rw [hmin]
      rw [if_neg (by simpa [litAvail] using hav)]
      exact ⟨false, s, rfl, by simp, by simp, by simp, fun _ _ => rfl⟩

end Sys2Proof.Machine
end

