-- ==== Sys2Proof/Laws/PerInstr.lean ====
section
/-! SUPPORT. For every instruction, the bits its row of spec/opcode_table.json fixes: the encoding of the well-formed instruction
agrees with the row's `match` under the row's `mask`. Masks and matches are copied from the table, not from the encoder. -/

namespace Sys2Proof.Laws.TableRow

/-- The bits of an encoded item that the table numbers: the value, or the flag bits of a run record, the first read highest. -/
def bits : Code → Nat
  | .cmd w => w.toNat
  | .sym v => v.toNat
  | .off v => v.toNat
  | .hdr v => v.toNat
  | .run _ _ flags => flags.foldl (fun n b => 2 * n + b.toNat) 0
  | .cflags _ w => w.toNat

/-- The bits under a mask equal the match. -/
def Fixed (i : Instr) (mask value : Nat) : Prop := bits (encode i) &&& mask = value

/-- A row of the CFLAGS alphabet, whose masks the configuration gives (43_texture R227, R228). -/
def Selected (i : Instr) (mask : Word) : Prop := BitVec.ofNat 32 (bits (encode i)) &&& mask ≠ 0

/-- The row of the table that an instruction's encoding lies in. -/
def Row (cfg : Config) (i : Instr) : Prop :=
  match i with
  | .cmdNone _ => Fixed i 0x0000000F 0x00000000
  | .cmdDecodeGeneric _ => Fixed i 0x0000000F 0x00000001
  | .cmdDecodeTexture _ => Fixed i 0x0000000F 0x00000002
  | .cmdReserved3 _ => Fixed i 0x0000000F 0x00000003
  | .cmdReserved4to7 _ _ => Fixed i 0x0000000C 0x00000004
  | .cmdReserved8to15 _ _ => Fixed i 0x00000008 0x00000008
  | .lit _ => Fixed i 0x100 0x000
  | .lenQ0 _ => Fixed i 0x1FC 0x100
  | .lenQ1 _ => Fixed i 0x1FC 0x104
  | .lenQ2 _ => Fixed i 0x1FC 0x108
  | .lenQ3 _ => Fixed i 0x1FC 0x10C
  | .lenQ4 _ => Fixed i 0x1FC 0x110
  | .lenQ5 _ => Fixed i 0x1FC 0x114
  | .lenQ6 _ => Fixed i 0x1FC 0x118
  | .lenEsc => Fixed i 0x1FF 0x11C
  | .lenInvalid => Fixed i 0x1FF 0x11D
  | .symNone286to287 _ => Fixed i 0x1FE 0x11E
  | .symNone288to319 _ => Fixed i 0x1E0 0x120
  | .symNone320to383 _ => Fixed i 0x1C0 0x140
  | .symNone384to511 _ => Fixed i 0x180 0x180
  | .offQ0 _ => Fixed i 0x1FE 0x000
  | .offQ1 _ => Fixed i 0x1FE 0x002
  | .offQ2 _ => Fixed i 0x1FE 0x004
  | .offQ3 _ => Fixed i 0x1FE 0x006
  | .offQ4 _ => Fixed i 0x1FE 0x008
  | .offQ5 _ => Fixed i 0x1FE 0x00A
  | .offQ6 _ => Fixed i 0x1FE 0x00C
  | .offQ7 _ => Fixed i 0x1FE 0x00E
  | .offQ8 _ => Fixed i 0x1FE 0x010
  | .offQ9 _ => Fixed i 0x1FE 0x012
  | .offQ10 _ => Fixed i 0x1FE 0x014
  | .offQ11 _ => Fixed i 0x1FE 0x016
  | .offQ12 _ => Fixed i 0x1FE 0x018
  | .offQ13 _ => Fixed i 0x1FE 0x01A
  | .offQ14 _ => Fixed i 0x1FE 0x01C
  | .offQ15 _ => Fixed i 0x1FE 0x01E
  | .offQ16 _ => Fixed i 0x1FE 0x020
  | .offInvalid34to35 _ => Fixed i 0x1FE 0x022
  | .offInvalid36to39 _ => Fixed i 0x1FC 0x024
  | .offInvalid40to47 _ => Fixed i 0x1F8 0x028
  | .offInvalid48to63 _ => Fixed i 0x1F0 0x030
  | .offInvalid64to127 _ => Fixed i 0x1C0 0x040
  | .offInvalid128to255 _ => Fixed i 0x180 0x080
  | .offInvalid256to511 _ => Fixed i 0x100 0x100
  | .hdrSkip _ => Fixed i 0x001F 0x0000
  | .hdrAssign1 _ => Fixed i 0x001F 0x0001
  | .hdrAssign2to3 _ _ => Fixed i 0x001E 0x0002
  | .hdrAssign4to7 _ _ => Fixed i 0x001C 0x0004
  | .hdrAssign8to15 _ _ => Fixed i 0x0018 0x0008
  | .hdrAssign16 _ => Fixed i 0x001F 0x0010
  | .hdrBadlen17 _ => Fixed i 0x001F 0x0011
  | .hdrBadlen18to19 _ _ => Fixed i 0x001E 0x0012
  | .hdrBadlen20to23 _ _ => Fixed i 0x001C 0x0014
  | .hdrBadlen24to31 _ _ => Fixed i 0x0018 0x0018
  | .runCountZero => encode i = .run .altColor 0 []
  | .runAbsent _ => Fixed i 0x1 0x0
  | .runAltPresent _ => Fixed i 0x1 0x1
  | .runColorPresent _ => Fixed i 0x1 0x1
  | .runAlphaAbsent _ => Fixed i 0x1 0x0
  | .runAlphaZero _ => Fixed i 0x3 0x2
  | .runAlphaFill _ => Fixed i 0x3 0x3
  | .passAltColor _ => Selected i cfg.cfAltColor
  | .passAlpha _ => Selected i cfg.cfAlpha
  | .passColor _ => Selected i cfg.cfColor
  | .cflagsUnknown _ => Selected i cfg.unknownFlags

/-- For every configuration in which it is well formed. -/
def Statement (i : Instr) : Prop := ∀ cfg : Config, i.wf cfg = true → Row cfg i

theorem low_bits {n k : Nat} (x : BitVec n) (y m : BitVec k) : ((x ++ y) &&& ((0 : BitVec n) ++ m)).toNat = (y &&& m).toNat := by
  rw [BitVec.and_append]
  simp [BitVec.toNat_append]

theorem cmd_bits (op : BitVec 4) (args : BitVec 28) (mask : Nat) (h : mask < 16) :
    (cmdWord op args).toNat &&& mask = (op &&& BitVec.ofNat 4 mask).toNat := by
  have hm : ((0 : BitVec 28) ++ BitVec.ofNat 4 mask).toNat = mask := by
    rw [BitVec.toNat_append]
    simp
    omega
  rw [← low_bits args op, BitVec.toNat_and, hm]
  rfl

theorem hdr_bits (len : BitVec 5) (rep : BitVec 11) (mask : Nat) (h : mask < 32) :
    (hdrValue len rep).toNat &&& mask = (len &&& BitVec.ofNat 5 mask).toNat := by
  have hm : ((0 : BitVec 11) ++ BitVec.ofNat 5 mask).toNat = mask := by
    rw [BitVec.toNat_append]
    simp
    omega
  rw [← low_bits rep len, BitVec.toNat_and, hm]
  rfl

theorem nine_bits (v : BitVec 9) (mask : Nat) : (v.setWidth 16).toNat &&& mask = v.toNat &&& mask := by
  have h := v.isLt
  rw [BitVec.toNat_setWidth, Nat.mod_eq_of_lt (by omega)]

theorem selected {w mask : Word} (h : w &&& mask ≠ 0) : BitVec.ofNat 32 w.toNat &&& mask ≠ 0 := by
  rw [BitVec.ofNat_toNat, BitVec.setWidth_eq]
  exact h

theorem cmdNone (args : BitVec 28) : Statement (.cmdNone args) := fun _ _ => cmd_bits 0 args 0xF (by decide)

theorem cmdDecodeGeneric (args : BitVec 28) : Statement (.cmdDecodeGeneric args) := fun _ _ => cmd_bits 1 args 0xF (by decide)

theorem cmdDecodeTexture (args : BitVec 28) : Statement (.cmdDecodeTexture args) := fun _ _ => cmd_bits 2 args 0xF (by decide)

theorem cmdReserved3 (args : BitVec 28) : Statement (.cmdReserved3 args) := fun _ _ => cmd_bits 3 args 0xF (by decide)

theorem cmdReserved4to7 (op : BitVec 4) (args : BitVec 28) : Statement (.cmdReserved4to7 op args) := fun _ h =>
  (cmd_bits op args 0xc (by decide)).trans
    ((by decide : ∀ op : BitVec 4, inRange op 4 7 = true → (op &&& BitVec.ofNat 4 0xc).toNat = 4) op h)

theorem cmdReserved8to15 (op : BitVec 4) (args : BitVec 28) : Statement (.cmdReserved8to15 op args) := fun _ h =>
  (cmd_bits op args 0x8 (by decide)).trans
    ((by decide : ∀ op : BitVec 4, inRange op 8 15 = true → (op &&& BitVec.ofNat 4 0x8).toNat = 8) op h)

theorem lit (byte : Byte) : Statement (.lit byte) := fun _ _ =>
  (by decide : ∀ b : BitVec 8, (b.setWidth 16).toNat &&& 0x100 = 0) byte

theorem lenQ0 (r : BitVec 2) : Statement (.lenQ0 r) := fun _ _ =>
  (by decide : ∀ r : BitVec 2, (BitVec.ofNat 16 256 + r.setWidth 16).toNat &&& 0x1FC = 0x100) r

theorem lenQ1 (r : BitVec 2) : Statement (.lenQ1 r) := fun _ _ =>
  (by decide : ∀ r : BitVec 2, (BitVec.ofNat 16 260 + r.setWidth 16).toNat &&& 0x1FC = 0x104) r

theorem lenQ2 (r : BitVec 2) : Statement (.lenQ2 r) := fun _ _ =>
  (by decide : ∀ r : BitVec 2, (BitVec.ofNat 16 264 + r.setWidth 16).toNat &&& 0x1FC = 0x108) r

theorem lenQ3 (r : BitVec 2) : Statement (.lenQ3 r) := fun _ _ =>
  (by decide : ∀ r : BitVec 2, (BitVec.ofNat 16 268 + r.setWidth 16).toNat &&& 0x1FC = 0x10C) r

theorem lenQ4 (r : BitVec 2) : Statement (.lenQ4 r) := fun _ _ =>
  (by decide : ∀ r : BitVec 2, (BitVec.ofNat 16 272 + r.setWidth 16).toNat &&& 0x1FC = 0x110) r

theorem lenQ5 (r : BitVec 2) : Statement (.lenQ5 r) := fun _ _ =>
  (by decide : ∀ r : BitVec 2, (BitVec.ofNat 16 276 + r.setWidth 16).toNat &&& 0x1FC = 0x114) r

theorem lenQ6 (r : BitVec 2) : Statement (.lenQ6 r) := fun _ _ =>
  (by decide : ∀ r : BitVec 2, (BitVec.ofNat 16 280 + r.setWidth 16).toNat &&& 0x1FC = 0x118) r

theorem lenEsc : Statement (.lenEsc) := fun _ _ => rfl

theorem lenInvalid : Statement (.lenInvalid) := fun _ _ => rfl

theorem symNone286to287 (s : BitVec 9) : Statement (.symNone286to287 s) := fun _ h =>
  (nine_bits s 0x1FE).trans ((by decide : ∀ v : BitVec 9, inRange v 286 287 = true → v.toNat &&& 0x1FE = 0x11E) s h)

theorem symNone288to319 (s : BitVec 9) : Statement (.symNone288to319 s) := fun _ h =>
  (nine_bits s 0x1E0).trans ((by decide : ∀ v : BitVec 9, inRange v 288 319 = true → v.toNat &&& 0x1E0 = 0x120) s h)

theorem symNone320to383 (s : BitVec 9) : Statement (.symNone320to383 s) := fun _ h =>
  (nine_bits s 0x1C0).trans ((by decide : ∀ v : BitVec 9, inRange v 320 383 = true → v.toNat &&& 0x1C0 = 0x140) s h)

theorem symNone384to511 (s : BitVec 9) : Statement (.symNone384to511 s) := fun _ h =>
  (nine_bits s 0x180).trans ((by decide : ∀ v : BitVec 9, inRange v 384 511 = true → v.toNat &&& 0x180 = 0x180) s h)

theorem offQ0 (r : BitVec 1) : Statement (.offQ0 r) := fun _ _ =>
  (by decide : ∀ r : BitVec 1, (BitVec.ofNat 16 0 + r.setWidth 16).toNat &&& 0x1FE = 0x000) r

theorem offQ1 (r : BitVec 1) : Statement (.offQ1 r) := fun _ _ =>
  (by decide : ∀ r : BitVec 1, (BitVec.ofNat 16 2 + r.setWidth 16).toNat &&& 0x1FE = 0x002) r

theorem offQ2 (r : BitVec 1) : Statement (.offQ2 r) := fun _ _ =>
  (by decide : ∀ r : BitVec 1, (BitVec.ofNat 16 4 + r.setWidth 16).toNat &&& 0x1FE = 0x004) r

theorem offQ3 (r : BitVec 1) : Statement (.offQ3 r) := fun _ _ =>
  (by decide : ∀ r : BitVec 1, (BitVec.ofNat 16 6 + r.setWidth 16).toNat &&& 0x1FE = 0x006) r

theorem offQ4 (r : BitVec 1) : Statement (.offQ4 r) := fun _ _ =>
  (by decide : ∀ r : BitVec 1, (BitVec.ofNat 16 8 + r.setWidth 16).toNat &&& 0x1FE = 0x008) r

theorem offQ5 (r : BitVec 1) : Statement (.offQ5 r) := fun _ _ =>
  (by decide : ∀ r : BitVec 1, (BitVec.ofNat 16 10 + r.setWidth 16).toNat &&& 0x1FE = 0x00A) r

theorem offQ6 (r : BitVec 1) : Statement (.offQ6 r) := fun _ _ =>
  (by decide : ∀ r : BitVec 1, (BitVec.ofNat 16 12 + r.setWidth 16).toNat &&& 0x1FE = 0x00C) r

theorem offQ7 (r : BitVec 1) : Statement (.offQ7 r) := fun _ _ =>
  (by decide : ∀ r : BitVec 1, (BitVec.ofNat 16 14 + r.setWidth 16).toNat &&& 0x1FE = 0x00E) r

theorem offQ8 (r : BitVec 1) : Statement (.offQ8 r) := fun _ _ =>
  (by decide : ∀ r : BitVec 1, (BitVec.ofNat 16 16 + r.setWidth 16).toNat &&& 0x1FE = 0x010) r

theorem offQ9 (r : BitVec 1) : Statement (.offQ9 r) := fun _ _ =>
  (by decide : ∀ r : BitVec 1, (BitVec.ofNat 16 18 + r.setWidth 16).toNat &&& 0x1FE = 0x012) r

theorem offQ10 (r : BitVec 1) : Statement (.offQ10 r) := fun _ _ =>
  (by decide : ∀ r : BitVec 1, (BitVec.ofNat 16 20 + r.setWidth 16).toNat &&& 0x1FE = 0x014) r

theorem offQ11 (r : BitVec 1) : Statement (.offQ11 r) := fun _ _ =>
  (by decide : ∀ r : BitVec 1, (BitVec.ofNat 16 22 + r.setWidth 16).toNat &&& 0x1FE = 0x016) r

theorem offQ12 (r : BitVec 1) : Statement (.offQ12 r) := fun _ _ =>
  (by decide : ∀ r : BitVec 1, (BitVec.ofNat 16 24 + r.setWidth 16).toNat &&& 0x1FE = 0x018) r

theorem offQ13 (r : BitVec 1) : Statement (.offQ13 r) := fun _ _ =>
  (by decide : ∀ r : BitVec 1, (BitVec.ofNat 16 26 + r.setWidth 16).toNat &&& 0x1FE = 0x01A) r

theorem offQ14 (r : BitVec 1) : Statement (.offQ14 r) := fun _ _ =>
  (by decide : ∀ r : BitVec 1, (BitVec.ofNat 16 28 + r.setWidth 16).toNat &&& 0x1FE = 0x01C) r

theorem offQ15 (r : BitVec 1) : Statement (.offQ15 r) := fun _ _ =>
  (by decide : ∀ r : BitVec 1, (BitVec.ofNat 16 30 + r.setWidth 16).toNat &&& 0x1FE = 0x01E) r

theorem offQ16 (r : BitVec 1) : Statement (.offQ16 r) := fun _ _ =>
  (by decide : ∀ r : BitVec 1, (BitVec.ofNat 16 32 + r.setWidth 16).toNat &&& 0x1FE = 0x020) r

theorem offInvalid34to35 (c : BitVec 9) : Statement (.offInvalid34to35 c) := fun _ h =>
  (nine_bits c 0x1FE).trans ((by decide : ∀ v : BitVec 9, inRange v 34 35 = true → v.toNat &&& 0x1FE = 0x022) c h)

theorem offInvalid36to39 (c : BitVec 9) : Statement (.offInvalid36to39 c) := fun _ h =>
  (nine_bits c 0x1FC).trans ((by decide : ∀ v : BitVec 9, inRange v 36 39 = true → v.toNat &&& 0x1FC = 0x024) c h)

theorem offInvalid40to47 (c : BitVec 9) : Statement (.offInvalid40to47 c) := fun _ h =>
  (nine_bits c 0x1F8).trans ((by decide : ∀ v : BitVec 9, inRange v 40 47 = true → v.toNat &&& 0x1F8 = 0x028) c h)

theorem offInvalid48to63 (c : BitVec 9) : Statement (.offInvalid48to63 c) := fun _ h =>
  (nine_bits c 0x1F0).trans ((by decide : ∀ v : BitVec 9, inRange v 48 63 = true → v.toNat &&& 0x1F0 = 0x030) c h)

theorem offInvalid64to127 (c : BitVec 9) : Statement (.offInvalid64to127 c) := fun _ h =>
  (nine_bits c 0x1C0).trans ((by decide : ∀ v : BitVec 9, inRange v 64 127 = true → v.toNat &&& 0x1C0 = 0x040) c h)

theorem offInvalid128to255 (c : BitVec 9) : Statement (.offInvalid128to255 c) := fun _ h =>
  (nine_bits c 0x180).trans ((by decide : ∀ v : BitVec 9, inRange v 128 255 = true → v.toNat &&& 0x180 = 0x080) c h)

theorem offInvalid256to511 (c : BitVec 9) : Statement (.offInvalid256to511 c) := fun _ h =>
  (nine_bits c 0x100).trans ((by decide : ∀ v : BitVec 9, inRange v 256 511 = true → v.toNat &&& 0x100 = 0x100) c h)

theorem hdrSkip (rep : BitVec 11) : Statement (.hdrSkip rep) := fun _ _ => hdr_bits 0 rep 0x1f (by decide)

theorem hdrAssign1 (rep : BitVec 11) : Statement (.hdrAssign1 rep) := fun _ _ => hdr_bits 1 rep 0x1f (by decide)

theorem hdrAssign2to3 (len : BitVec 5) (rep : BitVec 11) : Statement (.hdrAssign2to3 len rep) := fun _ h =>
  (hdr_bits len rep 0x1e (by decide)).trans
    ((by decide : ∀ len : BitVec 5, inRange len 2 3 = true → (len &&& BitVec.ofNat 5 0x1e).toNat = 2) len h)

theorem hdrAssign4to7 (len : BitVec 5) (rep : BitVec 11) : Statement (.hdrAssign4to7 len rep) := fun _ h =>
  (hdr_bits len rep 0x1c (by decide)).trans
    ((by decide : ∀ len : BitVec 5, inRange len 4 7 = true → (len &&& BitVec.ofNat 5 0x1c).toNat = 4) len h)

theorem hdrAssign8to15 (len : BitVec 5) (rep : BitVec 11) : Statement (.hdrAssign8to15 len rep) := fun _ h =>
  (hdr_bits len rep 0x18 (by decide)).trans
    ((by decide : ∀ len : BitVec 5, inRange len 8 15 = true → (len &&& BitVec.ofNat 5 0x18).toNat = 8) len h)

theorem hdrAssign16 (rep : BitVec 11) : Statement (.hdrAssign16 rep) := fun _ _ => hdr_bits 16 rep 0x1f (by decide)

theorem hdrBadlen17 (rep : BitVec 11) : Statement (.hdrBadlen17 rep) := fun _ _ => hdr_bits 17 rep 0x1f (by decide)

theorem hdrBadlen18to19 (len : BitVec 5) (rep : BitVec 11) : Statement (.hdrBadlen18to19 len rep) := fun _ h =>
  (hdr_bits len rep 0x1e (by decide)).trans
    ((by decide : ∀ len : BitVec 5, inRange len 18 19 = true → (len &&& BitVec.ofNat 5 0x1e).toNat = 18) len h)

theorem hdrBadlen20to23 (len : BitVec 5) (rep : BitVec 11) : Statement (.hdrBadlen20to23 len rep) := fun _ h =>
  (hdr_bits len rep 0x1c (by decide)).trans
    ((by decide : ∀ len : BitVec 5, inRange len 20 23 = true → (len &&& BitVec.ofNat 5 0x1c).toNat = 20) len h)

theorem hdrBadlen24to31 (len : BitVec 5) (rep : BitVec 11) : Statement (.hdrBadlen24to31 len rep) := fun _ h =>
  (hdr_bits len rep 0x18 (by decide)).trans
    ((by decide : ∀ len : BitVec 5, inRange len 24 31 = true → (len &&& BitVec.ofNat 5 0x18).toNat = 24) len h)

theorem runCountZero : Statement (.runCountZero) := fun _ _ => rfl

theorem runAbsent (count : Sym) : Statement (.runAbsent count) := fun _ _ => (by decide : 0 &&& 0x1 = 0x0)

theorem runAltPresent (count : Sym) : Statement (.runAltPresent count) := fun _ _ => (by decide : 1 &&& 0x1 = 0x1)

theorem runColorPresent (count : Sym) : Statement (.runColorPresent count) := fun _ _ => (by decide : 1 &&& 0x1 = 0x1)

theorem runAlphaAbsent (count : Sym) : Statement (.runAlphaAbsent count) := fun _ _ => (by decide : 0 &&& 0x1 = 0x0)

theorem runAlphaZero (count : Sym) : Statement (.runAlphaZero count) := fun _ _ => (by decide : 2 &&& 0x3 = 0x2)

theorem runAlphaFill (count : Sym) : Statement (.runAlphaFill count) := fun _ _ => (by decide : 3 &&& 0x3 = 0x3)

theorem passAltColor (cflags : Word) : Statement (.passAltColor cflags) := fun _ h => selected (of_decide_eq_true h)

theorem passAlpha (cflags : Word) : Statement (.passAlpha cflags) := fun _ h => selected (of_decide_eq_true h)

theorem passColor (cflags : Word) : Statement (.passColor cflags) := fun _ h => selected (of_decide_eq_true h)

theorem cflagsUnknown (cflags : Word) : Statement (.cflagsUnknown cflags) := fun _ h => selected (of_decide_eq_true h)

end Sys2Proof.Laws.TableRow
end

