-- ==== Sys2Proof/Tests/Slice0.lean ====
section
/-! SUPPORT. Tests: ill-formed terms, decodings of words written out from the spec's encodings, one or two steps of each
instruction with results from spec/95_test_vectors.md and the rules' own examples, and for each statement with hypotheses a
state that meets them. -/

namespace Sys2Proof.Tests

open Sys2Proof.Machine

/-! ### Fixtures (95_test_vectors section 2) -/

/-- D_T. -/
def fixtureDict : List (List Sym) := [[256], [1], [2], [0, 3]] ++ List.replicate 12 []

/-- FMT_C, FMT_A, FMT_U, FMT_N. -/
def fmtC : FormatEntry :=
  { tag := 0x54534554, hasAlpha := false, hasColor := true, singleBlock := true, dualBlock := false, unsupported := false,
    bitsPerPixel := 4 }
def fmtA : FormatEntry :=
  { tag := 0x41545354, hasAlpha := true, hasColor := true, singleBlock := false, dualBlock := true, unsupported := false,
    bitsPerPixel := 8 }
def fmtU : FormatEntry :=
  { tag := 0x55545354, hasAlpha := false, hasColor := false, singleBlock := false, dualBlock := false, unsupported := true,
    bitsPerPixel := 4 }
def fmtN : FormatEntry :=
  { tag := 0x4E545354, hasAlpha := true, hasColor := true, singleBlock := false, dualBlock := false, unsupported := false,
    bitsPerPixel := 4 }

def fixture : Config :=
  { dictGeneric := fixtureDict, dictTexture := fixtureDict
    formatTable := [fmtC, fmtA, fmtU, fmtN] ++
      [0x101, 0x102, 0x103, 0x104, 0x105].map fun (t : Word) => { fmtC with tag := t }
    cfAltColor := 1, cfAlpha := 2, cfColor := 4, altColorPattern := 0xAAAAAAAAAAAAAAAA
    endpointOnes := 0x1111111111111111, endpointZeros := 0x2222222222222222, colorTable := [(0x123456, 0x123456)]
    engineBase := 0xFFFF0000, engineId := 0x47573252, tailZeroWords := 0, addendPrefixSkip := 0, rewindAtExactly32 := false
    holes := [] }

/-- The input words 0x12345678 and 0x9ABCDEF0 at IN_BASE (40_bit_reader R124). -/
def inputMem : Memory :=
  [(0x1000, 0x78), (0x1001, 0x56), (0x1002, 0x34), (0x1003, 0x12), (0x1004, 0xF0), (0x1005, 0xDE), (0x1006, 0xBC),
    (0x1007, 0x9A)]

def idle : State :=
  { State.reset with
    cfg := fixture, mem := inputMem
    csr := { Csr.reset with inBase := 0x1000, inLen := 8, outBase := 0x10000 } }

/-- A running command at a stage, with nothing read. -/
def running (cmd : Word) (st : Stage) : State :=
  { idle with
    phase := .busy, stage := st
    launch := { cmd := cmd, inBase := 0x1000, inLen := 8, outBase := 0x10000, outCap := 0 }
    br := { n := 2, w := 0, acc := 0, bits := 0, c := 0 } }

/-- The same with all input loaded and these bits left. -/
def holding (acc : BitVec 64) (bits : Nat) (s : State) : State :=
  { s with br := { n := 2, w := 2, acc := acc, bits := bits, c := 64 - bits } }

def dictTree : Tree := (build fixtureDict).getD Tree.blank

/-- A generic command in its inner loop with `outPos` bytes out of `outSize`. -/
def generic (st : Stage) (outPos outSize : Nat) : State :=
  { running 0x101 st with
    gen := { addend := 3, maxCount := 4096, count := 0, outPos := outPos, outSize := outSize, curLen := 5 }
    symT := dictTree, copyT := dictTree, dictG := dictTree, dictReadyG := true }

/-- A texture command of two 16-byte blocks of FMT_A (95_test_vectors, 8 by 4). -/
def texture (st : Stage) : State :=
  { running 0x102 st with
    dictT := dictTree, dictReadyT := true
    tex := { TextureRegs.reset with
      fmt := fmtA, width := 8, height := 4, nb := 2, bpbHigh := 8, bpc := 8, size := 32, cflags := 7
      colorMap := [false, false], alphaMap := [false, false], fill := 0x7F7F7F7F7F7F7F7F, color := 0x123456 } }

/-- The next state's value of a view. -/
def after {α : Type} (o : Host.Outcome State Fault Refusal) (view : State → α) : Option α :=
  match o with
  | .next t => some (view t)
  | _ => none

def stop (o : Host.Outcome State Fault Refusal) : Option (Fault ⊕ Refusal) :=
  match o with
  | .next _ => none
  | .fault f => some (.inl f)
  | .refused r => some (.inr r)

/-- STATUS, ERR_WORD and ERR_OUTPOS. -/
def report (s : State) : Word × Word × Word := (statusWord s, s.csr.errWord, s.csr.errOutpos)

/-- The first output bytes. -/
def output (n : Nat) (s : State) : List Byte := (List.range n).map fun p => byteAt s (0x10000 + p)

/-! ### WellFormed refuses ill-formed terms -/

theorem test_wf_cmd : (Instr.cmdReserved4to7 3 0).wf fixture = false ∧ (Instr.cmdReserved4to7 8 0).wf fixture = false ∧
    (Instr.cmdReserved8to15 7 0).wf fixture = false := by decide

theorem test_wf_sym : (Instr.symNone286to287 285).wf fixture = false ∧ (Instr.symNone286to287 288).wf fixture = false ∧
    (Instr.symNone288to319 320).wf fixture = false ∧ (Instr.symNone320to383 319).wf fixture = false ∧
    (Instr.symNone384to511 383).wf fixture = false := by decide

theorem test_wf_off : (Instr.offInvalid34to35 36).wf fixture = false ∧ (Instr.offInvalid36to39 35).wf fixture = false ∧
    (Instr.offInvalid40to47 48).wf fixture = false ∧ (Instr.offInvalid48to63 47).wf fixture = false ∧
    (Instr.offInvalid64to127 128).wf fixture = false ∧ (Instr.offInvalid128to255 127).wf fixture = false ∧
    (Instr.offInvalid256to511 255).wf fixture = false := by decide

theorem test_wf_hdr : (Instr.hdrAssign2to3 4 0).wf fixture = false ∧ (Instr.hdrAssign4to7 3 0).wf fixture = false ∧
    (Instr.hdrAssign8to15 16 0).wf fixture = false ∧ (Instr.hdrBadlen18to19 20 0).wf fixture = false ∧
    (Instr.hdrBadlen20to23 19 0).wf fixture = false ∧ (Instr.hdrBadlen24to31 23 0).wf fixture = false := by decide

theorem test_wf_run : (Instr.runAbsent 0).wf fixture = false ∧ (Instr.runAltPresent 0).wf fixture = false ∧
    (Instr.runColorPresent 0).wf fixture = false ∧ (Instr.runAlphaAbsent 0).wf fixture = false ∧
    (Instr.runAlphaZero 0).wf fixture = false ∧ (Instr.runAlphaFill 0).wf fixture = false := by decide

theorem test_wf_cflags : (Instr.passAltColor 6).wf fixture = false ∧ (Instr.passAlpha 5).wf fixture = false ∧
    (Instr.passColor 3).wf fixture = false ∧ (Instr.cflagsUnknown 7).wf fixture = false := by decide

/-- A configuration that breaks one rule of 41_huffman R154 or 43_texture R240. -/
theorem test_wf_config : configWf fixture = true ∧ dictWf [[0, 1]] = false ∧
    dictWf ([[256], [256]] ++ List.replicate 14 []) = false ∧ dictWf ([[256]] ++ List.replicate 15 []) = false ∧
    formatTableWf [fmtC] = false ∧ formatWf { fmtA with singleBlock := true } = false ∧
    formatWf { fmtC with bitsPerPixel := 3 } = false ∧ formatWf { fmtA with bitsPerPixel := 7 } = false := by decide

/-- tex.bpb and tex.size that texDerive gives two blocks of this many bits per pixel. -/
def derivedBlocks (b : BitVec 8) : Nat × Nat :=
  let r := (texDerive { texture .texDims with tex := { (texture .texDims).tex with fmt := { fmtA with bitsPerPixel := b } } }).tex
  (r.bpb, r.size)

/-- bits_per_pixel * 2, with no cut (43_texture R222), for each value R240 allows; and tex.bpb after texDerive. -/
theorem test_bytes_per_block : bytesPerBlock fmtC = 8 ∧ bytesPerBlock fmtA = 16 ∧ bytesPerBlock { fmtC with bitsPerPixel := 132 } = 264 ∧
    formatWf { fmtC with bitsPerPixel := 128 } = true ∧ formatWf { fmtA with bitsPerPixel := 255 } = true ∧
    [132, 255].map derivedBlocks = [(264, 528), (510, 1020)] := by decide

/-! ### Decoding of words written out from 30_encoding and opcode_table -/

theorem test_decode_cmd :
    decodeCmd 0x00000000 = .cmdNone 0 ∧ decodeCmd 0xABCDEF10 = .cmdNone 0xABCDEF1 ∧
    decodeCmd 0x00000301 = .cmdDecodeGeneric 0x30 ∧ decodeCmd 0x00000102 = .cmdDecodeTexture 0x10 ∧
    decodeCmd 0x00000003 = .cmdReserved3 0 ∧ decodeCmd 0x00000004 = .cmdReserved4to7 4 0 ∧
    decodeCmd 0x80000007 = .cmdReserved4to7 7 0x8000000 ∧ decodeCmd 0x00000008 = .cmdReserved8to15 8 0 ∧
    decodeCmd 0x0000000F = .cmdReserved8to15 15 0 := by decide

theorem test_decode_sym :
    [0x41, 0xFF, 256, 259, 260, 265, 268, 273, 277, 281, 283].map (fun v => (decodeSym v).toOption) =
      [some (.lit 0x41), some (.lit 0xFF), some (.lenQ0 0), some (.lenQ0 3), some (.lenQ1 0), some (.lenQ2 1),
        some (.lenQ3 0), some (.lenQ4 1), some (.lenQ5 1), some (.lenQ6 1), some (.lenQ6 3)] ∧
    [284, 285, 286, 287, 288, 319, 320, 383, 384, 511, 512].map (fun v => (decodeSym v).toOption) =
      [some .lenEsc, some .lenInvalid, some (.symNone286to287 286), some (.symNone286to287 287),
        some (.symNone288to319 288), some (.symNone288to319 319), some (.symNone320to383 320),
        some (.symNone320to383 383), some (.symNone384to511 384), some (.symNone384to511 511), none] := by decide

theorem test_decode_off :
    [0, 1, 2, 4, 6, 9, 10, 13, 14, 17, 18, 21, 22, 25, 26, 29, 30, 33].map (fun v => (decodeOff v).toOption) =
      [some (.offQ0 0), some (.offQ0 1), some (.offQ1 0), some (.offQ2 0), some (.offQ3 0), some (.offQ4 1),
        some (.offQ5 0), some (.offQ6 1), some (.offQ7 0), some (.offQ8 1), some (.offQ9 0), some (.offQ10 1),
        some (.offQ11 0), some (.offQ12 1), some (.offQ13 0), some (.offQ14 1), some (.offQ15 0), some (.offQ16 1)] ∧
    [34, 35, 36, 40, 48, 64, 128, 255, 256, 511, 512].map (fun v => (decodeOff v).toOption) =
      [some (.offInvalid34to35 34), some (.offInvalid34to35 35), some (.offInvalid36to39 36),
        some (.offInvalid40to47 40), some (.offInvalid48to63 48), some (.offInvalid64to127 64),
        some (.offInvalid128to255 128), some (.offInvalid128to255 255), some (.offInvalid256to511 256),
        some (.offInvalid256to511 511), none] := by decide

/-- The header values of 95_test_vectors section 3.3, and one of each row. -/
theorem test_decode_hdr :
    [0x0000, 0x0001, 0x0010, 0x0011, 0x001F, 0x0020, 0x0021, 0x0100, 0xFFE0, 0xFFFF].map decodeHdr =
      [.hdrSkip 0, .hdrAssign1 0, .hdrAssign16 0, .hdrBadlen17 0, .hdrBadlen24to31 31 0, .hdrSkip 1, .hdrAssign1 1,
        .hdrSkip 8, .hdrSkip 2047, .hdrBadlen24to31 31 2047] ∧
    [0x0022, 0x0047, 0x0068, 0x0012, 0x0013, 0x0014, 0x0037].map decodeHdr =
      [.hdrAssign2to3 2 1, .hdrAssign4to7 7 2, .hdrAssign8to15 8 3, .hdrBadlen18to19 18 0, .hdrBadlen18to19 19 0,
        .hdrBadlen20to23 20 0, .hdrBadlen20to23 23 1] := by decide

theorem test_decode_run :
    ([.run .altColor 3 [false], .run .color 3 [false], .run .altColor 2 [true], .run .color 1 [true], .run .alpha 3 [false],
        .run .alpha 3 [true, false], .run .alpha 3 [true, true], .run .alpha 0 [], .run .alpha 3 [true],
        .run .color 1 [true, true], .run .color 0 [true]].map fun c => (decode fixture c).toOption) =
      [some (.runAbsent 3), some (.runAbsent 3), some (.runAltPresent 2), some (.runColorPresent 1),
        some (.runAlphaAbsent 3), some (.runAlphaZero 3), some (.runAlphaFill 3), some .runCountZero, none, none,
        none] := by decide

theorem test_decode_cflags :
    ([.cflags (.pass .altColor) 1, .cflags (.pass .alpha) 6, .cflags (.pass .color) 6, .cflags .unknown 8,
        .cflags (.pass .altColor) 6, .cflags .unknown 7].map fun c => (decode fixture c).toOption) =
      [some (.passAltColor 1), some (.passAlpha 6), some (.passColor 6), some (.cflagsUnknown 8), none, none] := by decide

/-- `decodeTableWord` and `withFetchWord` on table words. -/
theorem test_table_words :
    decodeTableWord 32 0x101 = some (.cmdDecodeGeneric 0x10) ∧ decodeTableWord 16 265 = some (.lenQ2 1) ∧
    decodeTableWord 16 4 = some (.offQ2 0) := by decide

/-- `step` runs a placed word: CMD_DECODE_GENERIC, LEN_Q2, LEN_ESC. -/
theorem test_fetch_word :
    after (step (idle.withFetchWord 32 0x101)) (fun t => t.launch.cmd) = some 0x101 ∧
    after (step (idle.withFetchWord 16 265)) (fun t => t.stage) = some .copyCode ∧
    after (step (idle.withFetchWord 16 284)) (fun t => t.gen.curLen) = some 255 := by decide

/-! ### The commands -/

theorem test_cmd_none : after (exec (.cmdNone 0x30) idle) (fun t => (t.csr.cmd, t.phase)) = some (0x300, .idle) := by decide

theorem test_cmd_decode_generic :
    after (exec (.cmdDecodeGeneric 0x10) idle) (fun t => (statusWord t, t.launch.cmd, t.launch.inLen, t.csr.cmd)) =
      some (1, 0x101, 8, 0x101) := by decide

theorem test_cmd_decode_texture :
    after (exec (.cmdDecodeTexture 0x30) { idle with csr := { idle.csr with done := true, outCap := 9 } })
      (fun t => (statusWord t, t.launch.cmd, t.launch.outCap)) = some (1, 0x302, 9) := by decide

/-- 30_encoding R95. -/
theorem test_cmd_reserved :
    [Instr.cmdReserved3 0, .cmdReserved4to7 7 0, .cmdReserved8to15 15 0x10].map (fun i => after (exec i idle) report) =
      [some (0xD04, 0, 0), some (0xD04, 0, 0), some (0xD04, 0, 0)] := by decide

/-- The fixture without its formats (43_texture R240). -/
def illFormed : State := { idle with cfg := { fixture with formatTable := [] } }

theorem test_ill_formed :
    [Instr.cmdDecodeGeneric 0x10, .cmdDecodeTexture 0x10, .cmdReserved3 0, .cmdReserved4to7 7 0, .cmdReserved8to15 15 0].map
      (fun i => stop (exec i illFormed)) = List.replicate 5 (some (.inr .illFormedConfiguration)) ∧
    after (exec (.cmdNone 0x10) illFormed) (fun t => t.csr.cmd) = some 0x100 := by decide

theorem test_cmd_while_busy :
    after (exec (.cmdNone 0) (running 0x101 .genLoop)) (fun t => (t.launch.cmd, t.csr.cmd, statusWord t)) =
      some (0x101, 0, 1) := by decide

/-! ### The bit reader (95_test_vectors section 3.1) -/

def value (r : Res Nat) : Option (Nat × Nat × Nat) :=
  match r with
  | .ok v t => some (v, t.br.w, t.br.bits)
  | _ => none

theorem test_read_bits :
    value (readBits 4 (running 0x101 .genHeader)) = some (1, 1, 28) ∧
    value ((readBits 4 (running 0x101 .genHeader)).bind fun _ s => readBits 32 s) = some (0x23456789, 2, 28) ∧
    value (((readBits 4 (running 0x101 .genHeader)).bind fun _ s => readBits 32 s).bind fun _ s => readBits 32 s) = none := by
  decide

/-- The brRewind table. -/
theorem test_rewind :
    [0, 31, 32, 33, 49, 63].map (fun b => rewindLit (holding 0 b (texture .rewind))) = [2, 2, 2, 1, 1, 1] ∧
    rewindLit { holding 0 32 (texture .rewind) with cfg := { fixture with rewindAtExactly32 := true } } = 1 := by decide

/-! ### Trees (95_test_vectors section 3.2) -/

theorem test_lookup_hash :
    [0x50000000, 0x00000000, 0xFFFFFFFF].map dictTree.lookup = [some (1, 2), some (3, 4), some (256, 1)] := by decide

/-- `[L]=[L]` for L = 1..9, `[10]=[10,11]`. -/
theorem test_lookup_compare :
    (build ([[1], [2], [3], [4], [5], [6], [7], [8], [9], [10, 11]] ++ List.replicate 6 [])).map
      (fun t => [0x00400000, 0x00000000, 0x00FFFFFF, 0x01000000].map t.lookup) =
      some [some (10, 10), some (11, 10), some (9, 9), some (8, 8)] := by decide

theorem test_build_fails : build ([[0, 1, 2]] ++ List.replicate 15 []) = none ∧
    (build ([[7]] ++ List.replicate 15 [])).map (fun t => t.lookup 0x7FFFFFFF) = some none := by decide

/-! ### The generic decoder (95_test_vectors sections 3.4 to 3.6), with `gen.addend = 3` -/

/-- 42_generic R189. -/
theorem test_lit : after (exec (.lit 0x41) (generic .symLoop 0 1)) (fun t => (output 1 t, t.gen.outPos, t.gen.count)) =
    some ([0x41], 1, 1) := by decide

/-- The copy length after a length code. -/
def lengthOf (acc : BitVec 64) (i : Instr) : Option Nat :=
  after (exec i (holding acc 40 (generic .symLoop 0 1))) fun t => t.gen.curLen

theorem test_len_q0 : lengthOf 0 (.lenQ0 0) = some 3 ∧ lengthOf 0 (.lenQ0 3) = some 6 := by decide
theorem test_len_q1 : lengthOf 0xFFFFFFFFFF000000 (.lenQ1 0) = some 7 ∧ lengthOf 0 (.lenQ1 3) = some 10 := by decide
theorem test_len_q2 : lengthOf 0 (.lenQ2 0) = some 11 ∧ lengthOf 0x8000000000000000 (.lenQ2 1) = some 14 := by decide
theorem test_len_q3 : lengthOf 0xC000000000000000 (.lenQ3 0) = some 22 := by decide
theorem test_len_q4 : lengthOf 0xE000000000000000 (.lenQ4 3) = some 66 := by decide
theorem test_len_q5 : lengthOf 0xF000000000000000 (.lenQ5 3) = some 130 := by decide
theorem test_len_q6 : lengthOf 0xF800000000000000 (.lenQ6 3) = some 258 := by decide
theorem test_len_esc : lengthOf 0xFFFFFFFFFF000000 .lenEsc = some 258 := by decide
theorem test_len_invalid : after (exec .lenInvalid (generic .symLoop 0 1)) report = some (0x404, 0, 0) := by decide

/-- The choice of notes/assumptions/9.md. -/
theorem test_sym_none :
    [Instr.symNone286to287 286, .symNone288to319 300, .symNone320to383 320, .symNone384to511 511].map
      (fun i => after (exec i (generic .symLoop 0 1)) statusWord) = [some 0x404, some 0x404, some 0x404, some 0x404] := by
  decide

/-- The offset read by a copy-tree code. -/
def offsetOf (acc : BitVec 64) (q : Nat) (r : BitVec 1) : Option Nat :=
  match readOffset q r (holding acc 40 (generic .copyCode 0 1)) with
  | .ok k _ => some k
  | _ => none

theorem test_offsets :
    [offsetOf 0 0 0, offsetOf 0 0 1, offsetOf 0 1 0, offsetOf 0 1 1, offsetOf 0 2 0, offsetOf 0x8000000000000000 2 0,
      offsetOf 0x8000000000000000 2 1, offsetOf 0xC000000000000000 3 0, offsetOf 0 16 0, offsetOf 0xFFFE000000000000 16 1] =
      [some 1, some 2, some 3, some 4, some 5, some 6, some 8, some 12, some 65537, some 131072] := by decide

/-- One copy in each offset row: an offset past the output raises InvalidBackReference. -/
theorem test_off_far :
    (List.range 17).map (fun q => after (exec (offInstr q 1) (holding 0 40 (generic .copyCode 1 9))) statusWord) =
      List.replicate 17 (some 0xA04) := by decide

/-- `fe ff`, COPY 5, 2, cut by the size 6 (42_generic R188). -/
theorem test_copy :
    after (exec (.offQ0 1) { generic .copyCode 2 6 with mem := inputMem ++ [(0x10000, 0xFE), (0x10001, 0xFF)] })
      (fun t => (output 7 t, t.gen.outPos)) = some ([0xFE, 0xFF, 0xFE, 0xFF, 0xFE, 0xFF, 0], 6) := by decide

theorem test_off_invalid :
    [Instr.offInvalid34to35 34, .offInvalid36to39 36, .offInvalid40to47 40, .offInvalid48to63 48, .offInvalid64to127 64,
        .offInvalid128to255 128, .offInvalid256to511 511].map (fun i => after (exec i (generic .copyCode 1 3)) report) =
      List.replicate 7 (some (0x504, 0, 1)) := by decide

/-- A symbol-tree header with these indices left. -/
def header (rem : Nat) : State := { generic (.treeLoop .sym) 0 1 with hdr := { rem := rem, lists := List.replicate 16 [] } }

/-- 3; 2, 1, 2 gives `[1]=[1]`, `[2]=[0,2]` (95_test_vectors section 3.3). -/
theorem test_header_runs :
    (after (exec (.hdrAssign2to3 2 0) (header 3)) id).bind (fun a => (after (exec (.hdrAssign1 0) a) id).bind fun b =>
      after (exec (.hdrAssign2to3 2 0) b) fun c => (c.hdr.rem, c.hdr.lists.take 3)) = some (0, [[1], [0, 2], []]) := by decide

/-- 3; 0x21, 0 gives `[1]=[1,2]`. -/
theorem test_header_skip :
    (after (exec (.hdrAssign1 1) (header 3)) id).bind (fun a =>
      after (exec (.hdrSkip 0) a) fun b => (b.hdr.rem, b.hdr.lists.take 2)) = some (0, [[1, 2], []]) := by decide

theorem test_header_lengths :
    [Instr.hdrAssign4to7 7 0, .hdrAssign8to15 8 0, .hdrAssign16 0].map
      (fun i => after (exec i (header 9)) fun t => t.hdr.lists.findIdx? fun l => l ≠ []) =
      [some (some 6), some (some 7), some (some 15)] := by
  decide

theorem test_header_errors :
    [Instr.hdrBadlen17 0, .hdrBadlen18to19 18 0, .hdrBadlen20to23 23 0, .hdrBadlen24to31 31 2047, .hdrSkip 9].map
      (fun i => after (exec i (header 9)) statusWord) = List.replicate 5 (some 0xC04) := by decide

/-! ### The texture decoder (95_test_vectors section 3.8 and program 5) -/

theorem test_run_count_zero : after (exec .runCountZero (texture (.runLoop .alpha))) report = some (0xA04, 0, 0) := by decide

theorem test_run_absent :
    after (exec (.runAbsent 1) (texture (.runLoop .color))) (fun t => (t.tex.pos, t.tex.colorMap)) =
      some (1, [false, false]) := by decide

/-- A run longer than the positions left (InvalidRun, ERR_OUTPOS the end). -/
theorem test_run_too_long : after (exec (.runAlphaAbsent 3) (texture (.runLoop .alpha))) report = some (0xE04, 0, 32) := by decide

theorem test_run_alt :
    after (exec (.runAltPresent 2) (texture (.runLoop .altColor)))
      (fun t => (t.tex.pos, t.tex.colorMap, t.tex.alphaMap, output 17 t)) =
      some (2, [true, true], [true, true], List.replicate 8 0xAA ++ List.replicate 8 0 ++ [0xAA]) := by decide

theorem test_run_color :
    after (exec (.runColorPresent 1) (texture (.runLoop .color))) (fun t => (t.tex.pos, t.tex.colorMap, (output 12 t).drop 7)) =
      some (1, [true, false], [0, 0x56, 0x34, 0x12, 0]) := by decide

theorem test_run_alpha_absent :
    after (exec (.runAlphaAbsent 1)
      { texture (.runLoop .alpha) with tex := { (texture .rewind).tex with alphaMap := [true, false] } })
      (fun t => (t.tex.pos, t.tex.alphaMap)) = some (2, [true, false]) := by decide

theorem test_run_alpha_zero :
    after (exec (.runAlphaZero 1) { texture (.runLoop .alpha) with mem := inputMem ++ [(0x10007, 9)] })
      (fun t => (t.tex.pos, t.tex.alphaMap, output 8 t)) = some (1, [true, false], List.replicate 8 0) := by decide

theorem test_run_alpha_fill :
    after (exec (.runAlphaFill 1) (texture (.runLoop .alpha))) (fun t => (t.tex.alphaMap, output 9 t)) =
      some ([true, false], List.replicate 8 0x7F ++ [0]) := by decide

theorem test_pass_alt : after (exec (.passAltColor 1) (texture (.pass .altColor))) (fun t => t.stage) =
    some (.runLoop .altColor) := by decide

/-- Alpha byte 0x80. -/
theorem test_pass_alpha :
    after (exec (.passAlpha 2) (holding 0x8000000000000000 40 (texture (.pass .alpha)))) (fun t => (t.tex.fill, t.br.bits)) =
      some (0x8080808080808080, 32) := by decide

/-- RGB 0xFFFFFF, 0 and a packed one. -/
theorem test_pass_color :
    [0xFFFFFF0000000000, 0x0000000000000000, 0x1234560000000000].map
      (fun a => after (exec (.passColor 4) (holding a 40 (texture (.pass .color)))) fun t => t.tex.color) =
      [some 0x1111111111111111, some 0x2222222222222222, some 0x123456] := by decide

theorem test_cflags_unknown : stop (exec (.cflagsUnknown 8) (texture .texClear)) = some (.inr .unknownCompressionFlag) := by decide

/-- 43_texture R222: 5 by 5, 8 by 5, 0 by 7, and the table's last row. -/
theorem test_block_count : blockCount 5 5 = 4 ∧ blockCount 8 5 = 4 ∧ blockCount 0 7 = 0 ∧ blockCount 65535 65535 = 2 ^ 28 := by
  decide

/-! ### The hypotheses of each statement are met -/

def hosting (m : HostMove) (s : State) : State := { s with moves := [.host m] }

theorem test_meets_DecodeEncodeAgree : (Instr.passAlpha 2).wf fixture = true ∧ (Instr.lit 7).wf fixture = true := by decide

theorem test_meets_DecodedItems : decode fixture (.sym 65) = .ok (.lit 65) ∧
    decode fixture (.run .alpha 3 [true, true]) = .ok (.runAlphaFill 3) ∧ (0 : Sym).toNat < 512 ∧ (3 : Sym) ≠ 0 :=
  ⟨rfl, rfl, by decide, by decide⟩

theorem test_meets_DecodesSpecWords : 0x00000002 &&& fixture.cfAlpha ≠ 0 := by decide

/-- The clauses of StepRunsTheDecodedInstruction. -/
theorem test_meets_StepRuns_cmd :
    hostTurn (hosting (.csrWrite 0x04 4 0x301) idle) = some (.csrWrite 0x04 4 0x301, idle) ∧
    decode idle.cfg (.cmd 0x301) = .ok (.cmdDecodeGeneric 0x30) ∧
    hostTurn (hosting (.busWrite 0xFFFF0004 [1, 3, 0, 0]) idle) = some (.busWrite 0xFFFF0004 [1, 3, 0, 0], idle) ∧
    busTarget 0xFFFF0004 4 idle = .csr 0x04 ∧
    decode idle.cfg (.cmd (BitVec.ofNat 32 (leValue [1, 3, 0, 0]))) = .ok (.cmdDecodeGeneric 0x30) := ⟨rfl, rfl, rfl, by decide, rfl⟩

/-- A symbol of a stream that starts with a one bit: 256. -/
def coded (s : State) : State := holding 0x8000000000000000 40 s

theorem decoded {x : Except DecodeError Instr} {i : Instr} (h : x.toOption = some i) : x = .ok i := by
  cases x
  · cases h
  · cases h; rfl

def atSymbol : State := coded (generic .symLoop 0 9)

theorem test_meets_StepRuns_symbol : ∃ u, engineTurn atSymbol = some atSymbol ∧ atSymbol.phase = .busy ∧
    atSymbol.stage = .symLoop ∧ codeDue atSymbol = true ∧ readCode atSymbol.symT atSymbol = .ok 256 u ∧
    decode u.cfg (.sym 256) = .ok (.lenQ0 0) := 
  ⟨dropBits 1 atSymbol, rfl, rfl, rfl, rfl, rfl, decoded (by decide)⟩

theorem test_meets_StepRuns_copy :
    let t := coded (generic .copyCode 0 9)
    ∃ u, engineTurn t = some t ∧ t.phase = .busy ∧ t.stage = .copyCode ∧ readCode t.copyT t = .ok 256 u ∧
      decode u.cfg (.off 256) = .ok (.offInvalid256to511 256) :=
  ⟨dropBits 1 (coded (generic .copyCode 0 9)), rfl, rfl, rfl, rfl, rfl⟩

theorem test_meets_StepRuns_header :
    let t := coded (header 9)
    ∃ u, engineTurn t = some t ∧ t.phase = .busy ∧ t.stage = .treeLoop .sym ∧ t.hdr.rem ≠ 0 ∧
      readCode t.dictG t = .ok 256 u ∧ decode u.cfg (.hdr 256) = .ok (.hdrSkip 8) :=
  ⟨dropBits 1 (coded (header 9)), rfl, rfl, rfl, by decide, rfl, rfl⟩

theorem test_meets_StepRuns_texture :
    engineTurn (coded (texture (.runLoop .color))) = some (coded (texture (.runLoop .color))) ∧
    (texture (.runLoop .color)).tex.pos < (texture (.runLoop .color)).tex.nb ∧ (texture (.pass .color)).phase = .busy ∧
    (∃ u w, readCode dictTree (coded (texture (.runLoop .color))) = .ok 256 u ∧ readBits 1 u = .ok 0 w ∧
      decode w.cfg (.run .color 256 [decide (0 = 1)]) = .ok (.runAbsent 256)) ∧
    decode fixture (.cflags (.pass .color) (texture (.pass .color)).tex.cflags) = .ok (.passColor 7) ∧
    decode fixture (.cflags .unknown 8) = .ok (.cflagsUnknown 8) :=
  ⟨rfl, by decide, rfl, ⟨_, _, rfl, rfl, rfl⟩, rfl, rfl⟩

/-- A zero count, and in the alpha pass `p = 1` with `s = 1` (30_encoding R90). -/
theorem test_meets_StepRuns_run :
    (∃ u, readCode (oneSymbolTree 0) (coded (texture (.runLoop .alpha))) = .ok 0 u ∧
      decode u.cfg (.run .alpha 0 []) = .ok .runCountZero) ∧
    (∃ u w x, readCode dictTree (holding 0xE000000000000000 40 (texture (.runLoop .alpha))) = .ok 256 u ∧ readBits 1 u = .ok 1 w ∧
      readBits 1 w = .ok 1 x ∧ decode x.cfg (.run .alpha 256 [true, decide (1 = 1)]) = .ok (.runAlphaFill 256)) :=
  ⟨⟨_, rfl, rfl⟩, _, _, _, rfl, rfl, rfl, rfl⟩

theorem test_meets_ResetStateAndFlags : hostTurn (hosting .reset (generic .symLoop 0 9)) = some (.reset, generic .symLoop 0 9) ∧
    hostTurn (hosting .reset idle) = some (.reset, idle) ∧ idle.phase = .idle ∧
    (generic .symLoop 0 9).dictReadyG = true ∧
    after (step (hosting .reset (generic .symLoop 0 9))) (fun t => t.dictReadyG) = some false ∧
    after (step (hosting .reset (texture .rewind))) (fun t => t.dictReadyT) = some false := ⟨rfl, rfl, rfl, rfl, by decide, by decide⟩

/-- A generic command whose input lies in its output: OUT_BASE is 4 below IN_BASE. -/
def inside (st : Stage) : State :=
  { generic st 0 9 with launch := { cmd := 0x101, inBase := 0x1000, inLen := 8, outBase := 0x0FFC, outCap := 0 } }

/-- A reset after the size 9 is derived and before, whose input lies below the output and in it. -/
theorem test_meets_ResetWhileBusy : (hosting .reset (inside .symLoop)).phase = .busy ∧
    hostTurn (hosting .reset (inside .start)) = some (.reset, inside .start) ∧
    (inside .symLoop).stage ∉ [Stage.start, .genHeader, .genSize, .texMagic, .texTag, .texDims] ∧
    (inside .symLoop).launch.cmd.getLsbD 8 = true ∧ (∃ j, j < 8 ∧ (0x1000 + j) % 4294967296 = 0x1004) ∧
    0x1004 < min 4294967296 (0x0FFC + 9) ∧ ¬(∃ j, j < 8 ∧ (0x1000 + j) % 4294967296 = 0x0FFF) ∧
    after (step (hosting .reset (inside .symLoop))) (fun t => byteAt t 0x1004) = some 0xF0 ∧
    after (step (hosting .reset (inside .start))) (fun t => byteAt t 0x1004) = some 0xF0 := by
  refine ⟨rfl, rfl, by decide, by decide, ⟨4, by decide, rfl⟩, by decide, ?_, by decide, by decide⟩
  rintro ⟨j, h1, h2⟩
  omega

theorem test_meets_ResetMeets : engineTurn idle = some idle ∧ idle.phase = .idle := ⟨rfl, rfl⟩

theorem test_meets_CommandsWhileIdle : idle.phase = .idle ∧ configWf idle.cfg = true ∧ (0x30 : BitVec 28) ++ (1 : BitVec 4) = (0x301 : Word) ∧
    (0x30 : BitVec 28) ++ (2 : BitVec 4) = (0x302 : Word) := by decide

theorem test_meets_Reserved : 3 ≤ cmdOp 0x103 ∧ reservedOf (.cmdReserved8to15 15 0) = some 0xF ∧ idle.phase = .idle ∧
    configWf idle.cfg = true := by decide

theorem test_meets_WritesWhileBusy :
    hostTurn (hosting (.csrWrite 0x0C 4 3) (running 0x101 .genLoop)) = some (.csrWrite 0x0C 4 3, running 0x101 .genLoop) ∧
    (running 0x101 .genLoop).phase = .busy ∧ decode fixture (.cmd 0) = .ok (.cmdNone 0) ∧
    [0x04, 0x08, 0x0C, 0x10, 0x14, 0x18, 0x1C].map
      (fun o => after (step (hosting (.csrWrite o 4 3) (running 0x101 .genLoop))) fun t => t.launch.cmd) =
      List.replicate 7 (some 0x101) ∧
    after (step (hosting (.csrWrite 0x1C 4 7) idle)) (fun t => t.csr.outCap) = some 7 ∧
    after (step (hosting (.csrWrite 0x0C 4 2) idle)) (fun t => (t.csr.doneIe, t.csr.errIe)) = some (false, true) :=
  ⟨rfl, rfl, rfl, by decide, by decide, by decide⟩

/-- The end of a command in error, and of one without. -/
def failed : State := raiseError .invalidTree (generic .symLoop 0 0)
def finished : State := complete 3 (generic .genLoop 3 3)

theorem test_meets_StatusWriteOneToClear :
    hostTurn (hosting (.csrWrite 0x08 4 4) failed) = some (.csrWrite 0x08 4 4, { failed with moves := [] }) ∧
    failed.phase = .idle ∧ statusWord failed = 0xC04 ∧ statusWord finished = 2 ∧ (4 : Word).getLsbD 2 = true ∧
    (4 : Word).getLsbD 1 = false ∧ (6 : Word).getLsbD 1 = true ∧ (6 : Word).getLsbD 2 = true ∧ (2 : Word).getLsbD 2 = false ∧
    after (step (hosting (.csrWrite 0x08 4 4) failed)) statusWord = some 0 ∧
    after (step (hosting (.csrWrite 0x08 4 4) finished)) statusWord = some 2 :=
  ⟨rfl, rfl, by decide, by decide, by decide, by decide, by decide, by decide, by decide, by decide, by decide⟩

theorem test_meets_CsrAccessRules :
    hostTurn (hosting (.csrRead 0x00 4) idle) = some (.csrRead 0x00 4, idle) ∧
    after (step (hosting (.csrRead 0x00 4) idle)) (fun t => t.hostData) = some [0x52, 0x32, 0x57, 0x47] ∧
    [(0x01, 4), (0x00, 2)].map (fun o => stop (step (hosting (.csrRead o.1 o.2) idle))) =
      [some (.inr .csrAccessWidth), some (.inr .csrAccessWidth)] ∧
    hostTurn (hosting (.csrWrite 0x30 4 9) idle) = some (.csrWrite 0x30 4 9, idle) ∧
    stop (step (hosting (.csrWrite 0x06 4 9) idle)) = some (.inr .csrAccessWidth) ∧
    hostTurn (hosting (.busRead 0xFFFF00FC 4) idle) = some (.busRead 0xFFFF00FC 4, idle) ∧
    after (step (hosting (.busRead 0xFFFF00FC 4) idle)) (fun t => t.hostData) = some [0, 0, 0, 0] ∧
    stop (step (hosting (.busRead 0xFFFF00FF 1) idle)) = some (.inr .csrAccessWidth) ∧
    hostTurn (hosting (.busWrite 0xFFFF0002 [1, 0, 0, 0]) idle) = some (.busWrite 0xFFFF0002 [1, 0, 0, 0], idle) ∧
    stop (step (hosting (.busWrite 0xFFFF0002 [1, 0, 0, 0]) idle)) = some (.inr .csrAccessWidth) ∧
    hostTurn (hosting (.busWrite 0xFFFF0010 [1, 2, 0, 0]) idle) = some (.busWrite 0xFFFF0010 [1, 2, 0, 0], idle) ∧
    hostTurn (hosting (.csrWrite (BitVec.ofNat 8 (0xFFFF0010 - 0xFFFF0000)) 4 (BitVec.ofNat 32 (leValue [1, 2, 0, 0]))) idle) =
      some (.csrWrite (BitVec.ofNat 8 (0xFFFF0010 - 0xFFFF0000)) 4 (BitVec.ofNat 32 (leValue [1, 2, 0, 0])), idle) ∧
    after (step (hosting (.busWrite 0xFFFF0010 [1, 2, 0, 0]) idle)) (fun t => t.csr.inBase) = some 0x201 :=
  ⟨rfl, by decide, by decide, rfl, by decide, rfl, by decide, by decide, rfl, by decide, rfl, rfl, by decide⟩

theorem test_meets_CsrReadsWhileBusy : StatusInv (generic .symLoop 0 9) ∧ (generic .symLoop 0 9).phase = .busy :=
  ⟨⟨by decide, by decide, by decide, by decide⟩, rfl⟩

/-- What starts a command, and its first step: each clause. -/
theorem test_meets_CommandStartChecks : illFormed.phase = .idle ∧ configWf illFormed.cfg = false ∧
    engineTurn (running 0x101 .start) = some (running 0x101 .start) ∧ (running 0x101 .start).stage = .start ∧
    [0x001, 0x301, 0x101, 0x102].map (fun c => after (step (running c .start)) fun t => (statusWord t, t.stage)) =
      [some (0x704, .start), some (0x804, .start), some (1, .genHeader), some (1, .texMagic)] ∧
    regionsOverlap (running 0x101 .start) = false := ⟨rfl, by decide, rfl, rfl, by decide, by decide⟩

/-- The output placed on the input: the declared size is the second word. -/
def overlapping : State :=
  { running 0x101 .start with launch := { cmd := 0x101, inBase := 0x1000, inLen := 8, outBase := 0x1004, outCap := 0 } }

theorem test_meets_CommandStartChecks_overlap : regionsOverlap overlapping = true := by decide

/-- A 5 by 5 texture of FMT_C, 32 bytes (95_test_vectors program 4), with its output at `outBase`. -/
def textured (cmd outBase outCap : Word) : State :=
  { running cmd .start with
    mem := [(0x1004, 0x54), (0x1005, 0x45), (0x1006, 0x53), (0x1007, 0x54), (0x1008, 5), (0x100A, 5)]
    launch := { cmd := cmd, inBase := 0x1000, inLen := 12, outBase := outBase, outCap := outCap } }

/-- The last output byte is the first input byte, and one byte below; a size above OUT_CAP overlaps within OUT_CAP; a header word
that memory does not admit; the header steps. -/
theorem test_meets_Overlap : launchSize overlapping = some 0x9ABCDEF0 ∧
    regionsOverlap (textured 0x102 0x0FE1 0) = true ∧ regionsOverlap (textured 0x102 0x0FE0 0) = false ∧
    regionsOverlap (textured 0x302 0x0FE2 31) = true ∧ regionsOverlap (textured 0x302 0x0FE1 31) = false ∧
    inputAdmitted { textured 0x102 0x10000 0 with cfg := { fixture with holes := [⟨0x1000, 4⟩] } } 0 = false ∧
    launchSize { textured 0x102 0x10000 0 with cfg := { fixture with holes := [⟨0x1000, 4⟩] } } = none ∧ launchSize (textured 0x302 0x10000 31) = some 32 ∧
    (running 0x101 .start).moves = [] ∧ (running 0x101 .start).phase = .busy ∧
    after (Host.Core.run Sys2Proof.core 3 (running 0x101 .start)) (fun t => (t.stage, t.gen.outSize)) = some (.genAddend, 0x9ABCDEF0) ∧
    after (Host.Core.run Sys2Proof.core 4 (textured 0x102 0x10000 0)) (fun t => (t.stage, t.tex.size)) = some (.texBody, 32) ∧
    after (Host.Core.run Sys2Proof.core 4 (textured 0x302 0x10000 31)) (fun t => (t.csr.errCode, t.tex.size)) = some (9, 32) := by
  decide

theorem test_meets_CommandCompletes : engineTurn (generic .genLoop 3 3) = some (generic .genLoop 3 3) ∧
    (generic .genLoop 3 3).gen.outSize ≤ (generic .genLoop 3 3).gen.outPos ∧
    engineTurn (texture .texDone) = some (texture .texDone) ∧ (texture .texDone).phase = .busy := ⟨rfl, by decide, rfl, rfl⟩

/-- An empty copy tree. -/
theorem test_meets_RaiseReportsTheError :
    let s := { generic .copyCode 1 3 with copyT := Tree.blank }
    engineTurn s = some s ∧ s.phase = .busy ∧ s.stage = .copyCode ∧ readCode s.copyT s = .raise .emptyTree s := ⟨rfl, rfl, rfl, rfl⟩

/-- The last free byte, and the first byte after OUT_CAP. -/
theorem test_meets_OutputAfterAnError : (generic .symLoop 1 9).gen.outSize = 9 ∧ cmdOp (generic .symLoop 1 9).launch.cmd ≠ 2 ∧
    (texture .rewind).tex.size = 32 ∧ (generic .symLoop 1 9).launch.outBase.toNat + 8 < 4294967296 ∧
    byteAt (raiseError .outputTooSmall { texture .texDims with
      launch := { cmd := 0x302, inBase := 0x1000, inLen := 8, outBase := 0x0FF0, outCap := 16 } }) 0x1000 = 0x78 := by decide

theorem test_meets_RaisingInstructions : Instr.offInvalid34to35 34 ∈ [Instr.offInvalid34to35 34] ∧
    Instr.hdrBadlen18to19 18 0 ∈ [Instr.hdrBadlen18to19 18 0] ∧ Instr.symNone286to287 286 ∈ [Instr.symNone286to287 286] := by decide

theorem test_meets_EnsureLoadsOneWord : 32 ≤ (holding 0 32 (running 0x101 .genHeader)).br.bits ∧
    (holding 0 31 (running 0x101 .genHeader)).br.bits < 32 ∧ (holding 0 31 (running 0x101 .genHeader)).br.n ≤ 2 ∧
    (running 0x101 .genHeader).br.bits < 32 ∧ inputAdmitted (running 0x101 .genHeader) 0 = true := by decide

/-- After the first four bits of the stream 0x12345678. -/
def midStream : State :=
  { running 0x101 .genHeader with br := { n := 2, w := 1, acc := 0x2345678000000000, bits := 28, c := 4 } }

theorem midStream_reader : ReaderInv midStream := ⟨by decide, by decide, by decide, by decide, by decide⟩

theorem midStream_lookahead : LookaheadInv midStream :=
  have h : ∀ j, j < 28 → midStream.br.acc.getMsbD j = streamBit midStream (4 + j) := by decide
  h

theorem test_meets_ReadBits : midStream.cfg.tailZeroWords = 0 ∧ ReaderInv midStream ∧ LookaheadInv midStream ∧
    canRead 32 midStream = true ∧ canRead 28 midStream = true ∧ streamField midStream 4 32 = 0x23456789 :=
  ⟨rfl, midStream_reader, midStream_lookahead, by decide, by decide, by decide⟩

/-- Memory without the input word. -/
def unadmitted (s : State) : State := { s with cfg := { fixture with holes := [{ base := 0x1003, size := 1 }] } }

/-- Every stage that reads, at the end of the input and before a word memory does not admit; the second fields. -/
theorem test_meets_TruncatedFields : (holding 0 7 (texture (.pass .alpha))).br.bits < 8 ∧
    (holding 0 7 (texture (.pass .alpha))).br.n + fixture.tailZeroWords ≤ (holding 0 7 (texture (.pass .alpha))).br.w ∧
    after (exec (.passAlpha 2) (holding 0 7 (texture (.pass .alpha)))) (fun t => t.csr.errCode) = some 1 ∧
    after (exec (.lenQ6 0) (holding 0 4 (generic .symLoop 0 9))) statusWord = some 0x104 ∧
    after (exec (.offQ16 0) (holding 0 14 (generic .copyCode 0 9))) statusWord = some 0x104 ∧
    after (exec (.passColor 4) (holding 0 23 (texture (.pass .color)))) (fun t => t.csr.errCode) = some 1 ∧
    inputAdmitted (unadmitted (running 0x101 .genHeader)) 0 = false ∧
    (∀ st ∈ [Stage.genHeader, .genSize, .genAddend, .treeCount .sym, .maxCount, .symLoop, .copyCode],
      (fieldDue (generic st 0 9)).isSome = true ∧ after (step (holding 0 3 (generic st 0 9))) statusWord = some 0x104 ∧
      stop (step (unadmitted (generic st 0 9))) = some (.inl .accessNotAdmitted)) ∧
    (∀ st ∈ [Stage.texMagic, .texTag, .texDims, .texBody, .texFlags, .runLoop .alpha],
      (fieldDue (texture st)).isSome = true ∧ after (step (holding 0 15 (texture st))) statusWord = some 0x104 ∧
      stop (step (unadmitted (texture st))) = some (.inl .accessNotAdmitted)) ∧
    after (step (holding 0 31 (header 9))) statusWord = some 0x104 ∧
    after (step (holding 0 31 (texture .texDims))) (fun t => (statusWord t, t.tex.width)) = some (0x104, 0) ∧
    after (step { holding 0 11 (generic .genAddend 0 9) with cfg := { fixture with addendPrefixSkip := 8 } }) statusWord =
      some 0x104 := by decide

theorem test_meets_TruncatedFields_second : ∃ u,
    readBits 16 (holding 0 31 (texture .texDims)) = .ok 0 u ∧ u.br.bits < 16 ∧ u.br.n + u.cfg.tailZeroWords ≤ u.br.w :=
  ⟨dropBits 16 (holding 0 31 (texture .texDims)), rfl, by decide, by decide⟩

/-- A step of the reader; the other invariants are met by it too. -/
theorem test_meets_StepKeeps : ReaderInv midStream ∧ memCanonical midStream = true ∧ StatusInv midStream ∧ DictInv midStream ∧
    formatTableWf midStream.cfg.formatTable = true ∧ CommandInv midStream ∧ ∃ t, step midStream = .next t :=
  ⟨midStream_reader, by decide, ⟨by decide, by decide, by decide, by decide⟩,
    ⟨fun h => absurd h (by decide), fun h => absurd h (by decide)⟩, by decide,
    ⟨by decide, by decide, by decide, fun h => absurd h (by decide), by decide⟩, _, rfl⟩

theorem test_meets_Build : fixtureDict.length = 16 ∧ (build fixtureDict).isSome = true ∧
    build ([[0, 1, 2]] ++ List.replicate 15 []) = none ∧ ([[0, 1, 2]] ++ List.replicate 15 ([] : List Sym)).length = 16 ∧
    (build (List.replicate 16 [])).map (fun t => t.empty) = some true := by decide

/-- The codes of D_T: 256 is 1, 3 is 0000. -/
theorem test_meets_Codes : fixtureDict[0]? = some [256] ∧ fixtureDict[3]? = some [0, 3] ∧ startCounter fixtureDict 1 = 1 ∧
    startCounter fixtureDict 4 - 1 = 0 ∧ ([0, 3] : List Sym)[1]? = some 3 ∧
    ((0x0FFFFFFF / 2 ^ (31 - 3) : Nat) : Int) = startCounter fixtureDict 4 - 1 := by decide

theorem test_meets_RoundTrip_read : ∃ u, ensure 32 (coded (generic .symLoop 0 9)) = .ok () u ∧ peek 32 u = .ok 0x80000000 u ∧
    ((0x80000000 / 2 ^ (31 - 0) : Nat) : Int) = startCounter fixtureDict 1 - 0 := ⟨_, rfl, rfl, by decide⟩

/-- The tree `7:1`. -/
def oneCode : Tree := oneSymbolTree 7

theorem test_meets_CodeErrors : Tree.blank.empty = true ∧ oneCode.empty = false ∧
    (holding 0 31 (generic .symLoop 0 9)).br.bits < 32 ∧ oneCode.lookup 0 = none ∧
    oneCode.hash.getD (0x7FFFFFFF / 2 ^ 24) none = none ∧ oneCode.cmp = [] ∧
    ∃ u, ensure 32 (holding 0 40 (generic .symLoop 0 9)) = .ok () u ∧ peek 32 u = .ok 0 u :=
  ⟨rfl, by decide, by decide, by decide, by decide, by decide, _, rfl, rfl⟩

theorem test_meets_Dictionaries : DictInv (coded (generic .symLoop 0 9)) ∧ DictInv (texture .rewind) ∧
    (∃ t, step (coded (generic .symLoop 0 9)) = .next t) ∧ ∀ u, hostTurn (coded (generic .symLoop 0 9)) ≠ some (.reset, u) :=
  ⟨⟨fun _ => rfl, fun h => absurd h (by decide)⟩, ⟨fun h => absurd h (by decide), fun _ => rfl⟩, ⟨_, rfl⟩, fun _ h => by cases h⟩

theorem test_meets_Literal : memCanonical (generic .symLoop 0 9) = true ∧ admits fixture (0x10000 + 0) = true ∧
    admits { fixture with holes := [{ base := 0x10000, size := 1 }] } 0x10000 = false := by decide

theorem test_meets_LengthCodes : canRead 5 (coded (generic .symLoop 0 9)) = true ∧ canRead 5 midStream = true := by decide

theorem admitted_below (n : Nat) (s : State) (h : (List.range n).all (fun p => admits s.cfg (outputAddr s p)) = true) :
    OutputAdmitted n s := fun p hp => List.all_eq_true.mp h p (List.mem_range.mpr hp)

/-- A copy inside the output and one that reaches before it; a copy onto a hole. -/
theorem test_meets_OffsetCodes : canRead 15 (coded (generic .copyCode 2 9)) = true ∧ memCanonical (generic .copyCode 2 9) = true ∧
    OutputAdmitted 9 (generic .copyCode 2 9) ∧ offsetBase 0 1 + 0 + 1 ≤ 2 ∧ 2 < offsetBase 1 0 + 0 + 1 ∧
    8 < 2 + min 7 (9 - 2) ∧ admits { fixture with holes := [{ base := 0x10008, size := 1 }] } 0x10008 = false :=
  ⟨by decide, by decide, admitted_below _ _ (by decide), by decide, by decide, by decide, by decide⟩

theorem test_meets_CopyIsPeriodic : 1 ≤ 2 ∧ 2 ≤ (generic .copyCode 2 9).gen.outPos ∧ memCanonical (generic .copyCode 2 9) = true ∧
    OutputAdmitted (generic .copyCode 2 9).gen.outSize (generic .copyCode 2 9) ∧ 6 < min 7 (9 - 2) :=
  ⟨by decide, by decide, by decide, admitted_below _ _ (by decide), by decide⟩

theorem test_meets_HeaderRuns : headerRunOf (.hdrAssign2to3 3 1) = some (3, 2) ∧ (Instr.hdrAssign2to3 3 1).wf fixture = true ∧
    (header 2).hdr.lists.length = 16 ∧ 2 ≤ (header 2).hdr.rem ∧ (header 1).hdr.rem < 2 ∧ 17 ≤ (0x11 : Sym).toNat % 32 := by decide

theorem test_meets_TreeHeaderSteps :
    (∃ u, readBits 16 (holding 0x011E000000000000 40 (generic (.treeCount .sym) 0 9)) = .ok 286 u) ∧
    (∃ u, readBits 16 (holding 0x011F000000000000 40 (generic (.treeCount .copy) 0 9)) = .ok 287 u) ∧
    (header 0).hdr.rem = 0 ∧ build (header 0).hdr.lists = some Tree.blank ∧
    build ([[0, 1, 2]] ++ List.replicate 15 []) = none ∧
    (∃ u, readBits 4 (coded (generic .maxCount 0 9)) = .ok 8 u) :=
  ⟨⟨_, rfl⟩, ⟨_, rfl⟩, rfl, rfl, by decide, _, rfl⟩

theorem test_meets_GenericHeaderSteps :
    (∃ u, readBits 32 (running 0x101 .genHeader) = .ok 0x12345678 u) ∧ (∃ u, readBits 32 (running 0x101 .genSize) = .ok 0x12345678 u) ∧
    (∃ u, readBits 4 (running 0x101 .genAddend) = .ok 1 u) ∧ fixture.addendPrefixSkip = 0 ∧
    (generic .genLoop 0 9).gen.outPos < (generic .genLoop 0 9).gen.outSize ∧
    ¬((generic .symLoop 9 9).gen.count < (generic .symLoop 9 9).gen.maxCount ∧
      (generic .symLoop 9 9).gen.outPos < (generic .symLoop 9 9).gen.outSize) :=
  ⟨⟨_, rfl⟩, ⟨_, rfl⟩, ⟨_, rfl⟩, rfl, by decide, by decide⟩

theorem test_meets_TextureHeaderSteps :
    fmtA ∈ fixture.formatTable ∧ fmtU ∈ fixture.formatTable ∧ (fixture.formatTable.map (·.tag)).Nodup ∧ fmtU.unsupported = true ∧
    (∀ e, e ∈ fixture.formatTable → e.tag.toNat ≠ 0x12345678) ∧
    (∃ u, readBits 32 (running 0x102 .texTag) = .ok 0x12345678 u) ∧
    (∃ u, readBits 32 (holding 0x4154535400000000 40 (texture .texTag)) = .ok 0x41545354 u) ∧
    (∃ u h x, readBits 16 (holding 0x0008000400000000 40 (texture .texDims)) = .ok 8 u ∧
      readBits 16 { u with tex := { u.tex with width := BitVec.ofNat 16 8 } } = .ok h x) ∧
    after (step (holding 0x0008000400000000 40 { texture .texDims with
        launch := { cmd := 0x302, inBase := 0x1000, inLen := 8, outBase := 0x10000, outCap := 32 } })) (fun t => (t.stage, t.tex.size)) =
      some (.texBody, 32) ∧
    [(0x102, 0xFFFFFFFF00000000), (0x302, 0x0008000400000000), (0x102, 0x0008000400000000)].map
      (fun c => after (step (holding c.2 40 { texture .texDims with
        launch := { cmd := c.1, inBase := 0x1000, inLen := 8, outBase := 0x10000, outCap := 31 } })) statusWord) =
      [some 0xF04, some 0x904, some 1] :=
  ⟨by decide, by decide, by decide, by decide, by decide, ⟨_, rfl⟩, ⟨_, rfl⟩, ⟨_, _, _, rfl, rfl⟩, by decide, by decide⟩

/-- The flags word 8. -/
def flagged : State := { texture .texClear with tex := { (texture .rewind).tex with cflags := 8 } }

theorem test_meets_UnknownFlag : engineTurn flagged = some flagged ∧ flagged.phase = .busy ∧ flagged.stage = .texClear ∧
    flagged.tex.cflags &&& ~~~(fixture.cfAltColor ||| fixture.cfAlpha ||| fixture.cfColor) ≠ 0 ∧
    stop (step flagged) = some (.inr .unknownCompressionFlag) := ⟨rfl, rfl, rfl, by decide, by decide⟩

theorem test_meets_ZeroFill : (texture .texClear).stage = .texClear ∧
    (texture .texClear).tex.cflags &&& ~~~(fixture.cfAltColor ||| fixture.cfAlpha ||| fixture.cfColor) = 0 ∧
    admitsRange fixture 0x10000 32 = true ∧ admitsRange { fixture with holes := [{ base := 0x1001F, size := 4 }] } 0x10000 32 = false := by
  decide

theorem test_meets_PassesRunInOrder : (texture (.pass .alpha)).tex.cflags &&& fixture.passMask .alpha ≠ 0 ∧
    (5 : Word) &&& fixture.passMask .alpha = 0 ∧
    ({ texture (.runLoop .color) with tex := { (texture .rewind).tex with pos := 2 } }).tex.nb ≤ 2 := by decide

theorem test_meets_PassesBegin : canRead 8 (coded (texture (.pass .alpha))) = true ∧
    canRead 24 (coded (texture (.pass .color))) = true := by decide

theorem texture_geometry (st : Stage) : Geometry (texture st) :=
  ⟨rfl, Nat.le_of_ble_eq_true rfl, fun _ => Nat.le_of_ble_eq_true rfl, Nat.le_of_ble_eq_true rfl⟩

theorem texture_ready (p : Pass) : TextureReady (texture (.runLoop p)) :=
  ⟨texture_geometry _, rfl, rfl, Nat.zero_le _, admitted_below _ _ rfl, rfl⟩

/-- Two positions are absent: a run of 2 fits, a run of 3 does not. -/
theorem test_meets_Runs : TextureReady (texture (.runLoop .alpha)) ∧ TextureReady (texture (.runLoop .color)) ∧
    (2 : Sym).toNat ≤ (absentFrom [false, false] 0 2).length ∧ (absentFrom [false, false] 0 2).length < (3 : Sym).toNat ∧
    (texture (.runLoop .alpha)).tex.pos ≤ (texture (.runLoop .alpha)).tex.nb :=
  ⟨texture_ready _, texture_ready _, by decide, by decide, by decide⟩

theorem test_meets_Rewind : engineTurn (holding 0 33 (texture .rewind)) = some (holding 0 33 (texture .rewind)) ∧
    32 < (holding 0 33 (texture .rewind)).br.bits ∧ ¬(32 < (holding 0 32 (texture .rewind)).br.bits ∨
      (fixture.rewindAtExactly32 = true ∧ (holding 0 32 (texture .rewind)).br.bits = 32)) := ⟨rfl, by decide, by decide⟩

/-- An absent block with a whole component left, one with half of it, a present block, and the ends of the copies. -/
theorem test_meets_LiteralCopy :
    present (texture (.alphaCopy 1)).tex.alphaMap 1 = false ∧ present [false, true] 1 = true ∧
    (∀ j, j < 2 → inputAdmitted (texture (.alphaCopy 1)) j = true) ∧
    (∀ k, k < 8 → admits fixture (blockAddr 1 0 (texture (.alphaCopy 1)) + k) = true) ∧
    (∀ j, j < 2 → ∀ b, b < 4 → ∀ k, k < 8 →
      inputAddr (texture (.alphaCopy 1)) j b ≠ blockAddr 1 0 (texture (.alphaCopy 1)) + k) ∧
    after (step (texture (.alphaCopy 1))) (fun t => (t.stage, t.tex.lit, (output 24 t).drop 16)) =
      some (.alphaCopy 2, 2, [0x78, 0x56, 0x34, 0x12, 0xF0, 0xDE, 0xBC, 0x9A]) ∧
    after (step { texture (.colorCopy 0) with tex := { (texture .rewind).tex with lit := 1 } })
      (fun t => (t.stage, t.tex.lit, (output 16 t).drop 8)) = some (.texDone, 2, [0xF0, 0xDE, 0xBC, 0x9A, 0, 0, 0, 0]) ∧
    after (step (texture (.alphaCopy 2))) (fun t => t.stage) = some (.colorCopy 0) ∧
    after (step (texture (.colorCopy 2))) (fun t => t.stage) = some .texDone := by decide

/-- The host and the input region, the last byte. -/
theorem test_meets_InputWrites :
    hostTurn (hosting (.busWrite 0x1007 [1]) (running 0x101 .genLoop)) = some (.busWrite 0x1007 [1], running 0x101 .genLoop) ∧
    busTarget 0x1007 1 (running 0x101 .genLoop) = .memory ∧ (running 0x101 .genLoop).launch.cmd.getLsbD 8 = true ∧
    (∃ j k, j < 8 ∧ k < 1 ∧ (0x1000 + j) % 4294967296 = 0x1007 + k) := ⟨rfl, by decide, by decide, 7, 0, by decide, by decide, rfl⟩

/-- A generic command that declares 3 bytes, with an output buffer of 8 or without one. -/
def owned (cmd : Word) : State :=
  { running cmd .genLoop with
    mem := [(0x1004, 3)]
    launch := { cmd := cmd, inBase := 0x1000, inLen := 8, outBase := 0x10000, outCap := 8 } }

/-- The last output byte, in both cases of OUT_PRESENT, and the byte after it; a capacity above the size is closed too. -/
theorem test_meets_OutputBelongs :
    hostTurn (hosting (.busWrite 0x10002 [1]) (owned 0x101)) = some (.busWrite 0x10002 [1], owned 0x101) ∧
    busTarget 0x10002 1 (owned 0x101) = .memory ∧ (owned 0x301).phase = .busy ∧ ownedSize (owned 0x101) = some 3 ∧
    ownedSize (owned 0x301) = some 8 ∧ (∃ k p, k < 1 ∧ p < 3 ∧ 0x10002 + k = 0x10000 + p) ∧
    (∀ j, j < 8 → (0x1000 + j) % 4294967296 ≠ 0x10002) ∧ admitsRange fixture 0x10003 4 = true ∧
    [0x101, 0x301].map (fun c => stop (step (hosting (.busWrite 0x10002 [1]) (owned c)))) =
      List.replicate 2 (some (.inr .outputTouched)) ∧
    [0x101, 0x301].map (fun c => stop (step (hosting (.busRead 0x0FFFF 2) (owned c)))) =
      List.replicate 2 (some (.inr .outputTouched)) ∧
    after (step (hosting (.busRead 0x10003 2) (owned 0x101))) (fun t => t.hostData) = some [0, 0] ∧
    after (step (hosting (.busRead 0x10008 2) (owned 0x301))) (fun t => t.hostData) = some [0, 0] ∧
    stop (step (hosting (.busRead 0x10007 2) (owned 0x301))) = some (.inr .outputTouched) ∧
    after (step (hosting (.busRead 0x1003 2) (owned 0x301))) (fun t => t.hostData) = some [0, 3] ∧
    after (step (hosting (.busRead 0x1000 4) idle)) (fun t => t.hostData) = some [0x78, 0x56, 0x34, 0x12] ∧
    stop (step (hosting (.busRead 0xFFFFFFFF 2) idle)) = some (.inl .accessNotAdmitted) :=
  ⟨rfl, by decide, rfl, by decide, by decide, ⟨0, 2, by decide, by decide, rfl⟩, by decide, by decide, by decide, by decide,
    by decide, by decide, by decide, by decide, by decide, by decide⟩

/-- While IDLE, and while BUSY on the bytes beside the two regions. -/
theorem test_meets_HostWrites : hostTurn (hosting (.busWrite 0x2000 [1, 0, 3]) idle) = some (.busWrite 0x2000 [1, 0, 3], idle) ∧
    busTarget 0x2000 3 idle = .memory ∧ memCanonical idle = true ∧ admitsRange fixture 0x2000 3 = true ∧
    busTarget 0xFFFFFFFF 2 idle = .memory ∧ admitsRange fixture 0xFFFFFFFF 2 = false ∧ memCanonical (owned 0x301) = true ∧
    after (step (hosting (.busWrite 0x10003 [9]) (owned 0x101))) (fun t => (byteAt t 0x10003, byteAt t 0x1004)) = some (9, 3) ∧
    after (step (hosting (.busWrite 0x10008 [9]) (owned 0x301))) (fun t => byteAt t 0x10008) = some 9 ∧
    after (step (hosting (.busWrite 0x1008 [9]) (owned 0x301))) (fun t => byteAt t 0x1008) = some 9 :=
  ⟨rfl, by decide, by decide, by decide, by decide, by decide, by decide, by decide, by decide, by decide⟩

/-- A literal in the second output byte changes no other. -/
theorem test_meets_EngineWrites : CommandInv (coded (generic .symLoop 1 9)) ∧
    engineTurn (coded (generic .symLoop 1 9)) = some (coded (generic .symLoop 1 9)) ∧
    (∃ u, step (coded (generic .symLoop 1 9)) = .next u) ∧ 0x0FFFF < (generic .symLoop 1 9).launch.outBase.toNat :=
  ⟨⟨by decide, by decide, by decide, fun h => absurd h (by decide), by decide⟩, rfl, ⟨_, rfl⟩, by decide⟩

theorem test_meets_CommandInv_texture : CommandInv (texture .rewind) ∧ CommandInv (texture (.runLoop .alpha)) :=
  ⟨⟨by decide, by decide, by decide, fun _ => ⟨texture_geometry _, by decide⟩, by decide⟩,
    ⟨by decide, by decide, by decide, fun _ => ⟨texture_geometry _, by decide⟩, by decide⟩⟩

theorem test_meets_EveryCommandEnds : idle.phase = .idle ∧ idle.moves = [] ∧
    (after (exec (.cmdDecodeGeneric 0x10) idle) fun t => t.stage) = some .start := ⟨rfl, rfl, by decide⟩

end Sys2Proof.Tests
end

section
/-! What only the host writes (00_scope R7, 70_reset R343): the configuration, IRQ_EN, the argument registers, the launch
snapshot and the host's own schedule. Derived from `engine_next` and `host_next`. -/

namespace Sys2Proof.Machine

/-- The two states agree on everything that no step of the engine writes. -/
structure SameHostPart (s t : State) : Prop where
  cfg : t.cfg = s.cfg
  cmd : t.csr.cmd = s.csr.cmd
  inBase : t.csr.inBase = s.csr.inBase
  inLen : t.csr.inLen = s.csr.inLen
  outBase : t.csr.outBase = s.csr.outBase
  outCap : t.csr.outCap = s.csr.outCap
  doneIe : t.csr.doneIe = s.csr.doneIe
  errIe : t.csr.errIe = s.csr.errIe
  launch : t.launch = s.launch
  moves : t.moves = s.moves

theorem SameHostPart.refl (s : State) : SameHostPart s s := ⟨rfl, rfl, rfl, rfl, rfl, rfl, rfl, rfl, rfl, rfl⟩

theorem SameHostPart.trans {s t u : State} (h : SameHostPart s t) (h' : SameHostPart t u) : SameHostPart s u where
  cfg := h'.cfg.trans h.cfg
  cmd := h'.cmd.trans h.cmd
  inBase := h'.inBase.trans h.inBase
  inLen := h'.inLen.trans h.inLen
  outBase := h'.outBase.trans h.outBase
  outCap := h'.outCap.trans h.outCap
  doneIe := h'.doneIe.trans h.doneIe
  errIe := h'.errIe.trans h.errIe
  launch := h'.launch.trans h.launch
  moves := h'.moves.trans h.moves

/-- It is enough to agree on the whole register file. -/
theorem SameHostPart.of_csr {s t : State} (hcfg : t.cfg = s.cfg) (hcsr : t.csr = s.csr) (hlaunch : t.launch = s.launch)
    (hmoves : t.moves = s.moves) : SameHostPart s t := by
  constructor <;> simp [*]

/-- A completion writes RESULT_SIZE and DONE alone of the registers (44_host R275). -/
theorem sameHostPart_complete (size : Nat) (s : State) : SameHostPart s (complete size s) :=
  ⟨rfl, rfl, rfl, rfl, rfl, rfl, rfl, rfl, rfl, rfl⟩

/-- An error writes the report registers alone (60_exceptions R302). -/
theorem sameHostPart_raiseError (e : ErrKind) (s : State) : SameHostPart s (raiseError e s) := by
  constructor <;> simp

theorem EngineKeeps.sameHostPart {u v : State} (h : EngineKeeps u v) : SameHostPart u v := by
  obtain ⟨hcsr, -⟩ | ⟨n, rfl⟩ := h.csr
  · exact .of_csr h.cfg hcsr h.launch h.moves
  · exact sameHostPart_complete n u

theorem EngineRaise.sameHostPart {u x : State} (h : EngineRaise u x) : SameHostPart u x := by
  rw [h.state]
  exact .of_csr rfl rfl rfl rfl

theorem EngineStep.sameHostPart {t v : State} (h : EngineStep t v) : SameHostPart t v := by
  obtain ⟨u, hread, hnext | ⟨e, x, hraise, rfl⟩⟩ := h
  · exact hread.only.keeps.sameHostPart.trans hnext.keeps.sameHostPart
  · exact hread.only.keeps.sameHostPart.trans (hraise.sameHostPart.trans (sameHostPart_raiseError e x))

/-- The engine's turn, from the state in which it moves. -/
theorem step_sameHostPart {s t u : State} (h : engineTurn s = some t) (hs : step s = .next u) : SameHostPart t u := by
  obtain ⟨-, rfl⟩ | ⟨-, hstep⟩ := engine_next h hs
  · exact .refl u
  · exact hstep.sameHostPart

theorem HostNext.cfg_eq {t v : State} {m : HostMove} (h : HostNext t m v) : v.cfg = t.cfg := by
  cases h with
  | ignored | read | reset => rfl
  | csr m offset x => rw [writeCsr_eq]
  | setCmd m w => exact setCmd_cfg w t
  | launch m w => rw [launchCommand_cfg, setCmd_cfg]
  | reserved m w => rw [reservedCommand_cfg, setCmd_cfg]
  | write m a bytes => exact setBytes_cfg a bytes t

theorem step_cfg {s v : State} (hs : step s = .next v) : v.cfg = s.cfg := by
  obtain ⟨t, ht⟩ | ⟨m, t, ht⟩ := turn_cases s
  · rw [(step_sameHostPart ht hs).cfg, engineTurn_eq ht]
  · rw [(host_next ht hs).cfg_eq, hostTurn_eq ht]

/-- Settles O59: one case for each agent of `turn_cases`; the engine's turn agrees with the state it moves in on
`SameHostPart`, and that state differs from the first in the schedule alone. -/
theorem stepKeepsConfiguration : Obligations.StepKeepsConfiguration := by
  unfold Obligations.StepKeepsConfiguration
  refine ⟨fun _ _ => step_cfg, fun s t u ht hs => ?_⟩
  have hkept := step_sameHostPart ht hs
  rw [engineTurn_eq ht] at hkept
  exact ⟨hkept.cmd, hkept.inBase, hkept.inLen, hkept.outBase, hkept.outCap, hkept.doneIe, hkept.errIe, hkept.launch,
    hkept.moves⟩

end Sys2Proof.Machine
end

section
/-! The kept invariants of the bit reader and of STATUS (10_state R23, R32), the reset state (R47), and the accesses of the CSR
block (R43). What a step can do is `engine_next` and `host_next`; `StepKeeps` packages the induction over it once. -/

namespace Sys2Proof.Machine

/-! ### A predicate that every step keeps -/

/-- `P` is kept by each thing a step can do: taking the next move off the schedule, a read of the stream, a step of the engine
while BUSY, the report of an error, a move of the host. -/
structure StepKeeps (P : State → Prop) : Prop where
  turn : ∀ (s : State) (rest : List Move), P s → P { s with moves := rest }
  read : ∀ {t u : State}, ReaderStep t u → P t → P u
  next : ∀ {u v : State}, u.phase = .busy → EngineNext u v → P u → P v
  raise : ∀ {u x : State} (e : ErrKind), EngineRaise u x → P u → P (raiseError e x)
  host : ∀ {t v : State} {m : HostMove}, HostNext t m v → P t → P v

theorem ReaderStep.phase_eq {s t : State} (h : ReaderStep s t) : t.phase = s.phase := by rw [h.only]

theorem StepKeeps.engineStep {P : State → Prop} (k : StepKeeps P) {t v : State} (hb : t.phase = .busy) (h : EngineStep t v)
    (ht : P t) : P v := by
  obtain ⟨u, hread, hnext | ⟨e, x, hraise, rfl⟩⟩ := h
  · exact k.next (hread.phase_eq.trans hb) hnext (k.read hread ht)
  · exact k.raise e hraise (k.read hread ht)

theorem StepKeeps.step {P : State → Prop} (k : StepKeeps P) {s v : State} (hp : P s) (hs : step s = .next v) : P v := by
  obtain ⟨t, hturn⟩ | ⟨m, t, hturn⟩ := turn_cases s
  · have ht : P t := by
      rw [engineTurn_eq hturn]
      exact k.turn s t.moves hp
    obtain ⟨-, rfl⟩ | ⟨hb, hstep⟩ := engine_next hturn hs
    · exact ht
    · exact k.engineStep hb hstep ht
  · have ht : P t := by
      rw [hostTurn_eq hturn]
      exact k.turn s t.moves hp
    exact k.host (host_next hturn hs) ht

/-! ### The bit reader -/

/-- A reader of `n` words that has loaded none: what brInit leaves (40_bit_reader R120), and with `n = 0` a launch and a
reset. -/
def BitReader.fresh (n : Nat) : BitReader := { n := n, w := 0, acc := 0, bits := 0, c := 0 }

theorem reset_eq_fresh : BitReader.reset = BitReader.fresh 0 := rfl

theorem brInit_fresh (s : State) : (brInit s).br = BitReader.fresh (s.launch.inLen.toNat / 4) := rfl

theorem ReaderInv.of_fresh {s : State} {n : Nat} (hbr : s.br = BitReader.fresh n) (hskip : s.cfg.addendPrefixSkip ≤ 32) :
    ReaderInv s := by
  refine ⟨?_, ?_, ?_, ?_, hskip⟩ <;> simp [hbr, BitReader.fresh]

theorem Wrote.br_eq {n : Nat} {u w : State} (h : Wrote n u w) : w.br = u.br := by rw [h.state]

theorem Ran.br_eq {a : RunAct} {blocks : List Nat} {u w : State} (h : Ran a blocks u w) : w.br = u.br := by rw [h.state]

theorem Copied.br_eq {i off n : Nat} {u w : State} (h : Copied i off n u w) : w.br = u.br := by rw [h.state]

/-- The engine creates the reader at the start of a command; only reads change it after that. -/
theorem EngineNext.br {u v : State} (h : EngineNext u v) : v.br = u.br ∨ ∃ n, v.br = BitReader.fresh n := by
  cases h with
  | startG => exact .inr ⟨_, brInit_fresh _⟩
  | startT => exact .inr ⟨_, brInit_fresh _⟩
  | treeBuild sel => cases sel <;> exact .inl rfl
  | literal w _ _ h => exact .inl h.br_eq
  | copy m w _ _ h => exact .inl h.br_eq
  | run p a b _ _ _ h => exact .inl h.br_eq
  | copyAlpha i m w st _ _ _ h => exact .inl h.br_eq
  | copyColor i m w st _ _ _ h => exact .inl h.br_eq
  | _ => exact .inl rfl

theorem EngineRaise.br_eq {u x : State} (h : EngineRaise u x) : x.br = u.br := by rw [h.state]

theorem EngineRaise.cfg_eq {u x : State} (h : EngineRaise u x) : x.cfg = u.cfg := by rw [h.state]

/-- The host changes the reader by a launch and by a reset alone. -/
theorem HostNext.br {t v : State} {m : HostMove} (h : HostNext t m v) : v.br = t.br ∨ v.br = BitReader.fresh 0 := by
  cases h with
  | csr m offset x => exact .inl (by rw [writeCsr_eq])
  | launch | reset => exact .inr reset_eq_fresh
  | write m a bytes => exact .inl (setBytes_br a bytes t)
  | _ => exact .inl rfl

theorem readerInv_stepKeeps : StepKeeps ReaderInv where
  turn s _ h := h.congr (s := s) rfl rfl
  read hread h := hread.inv h
  next _ hnext h := by
    have hcfg := hnext.keeps.cfg
    obtain hbr | ⟨n, hbr⟩ := hnext.br
    · exact h.congr hbr hcfg
    · exact .of_fresh hbr (hcfg ▸ h.prefix_le)
  raise e hraise h :=
    h.congr ((raiseError_br e _).trans hraise.br_eq) ((raiseError_cfg e _).trans hraise.cfg_eq)
  host hhost h := by
    have hcfg := hhost.cfg_eq
    obtain hbr | hbr := hhost.br
    · exact h.congr hbr hcfg
    · exact .of_fresh hbr (hcfg ▸ h.prefix_le)

/-- Settles O26: a read keeps the invariant (`ReaderStep.inv`), and everything else keeps the reader or makes it a fresh one. -/
theorem stepKeepsReaderInvariant : Obligations.StepKeepsReaderInvariant := by
  unfold Obligations.StepKeepsReaderInvariant
  exact fun _ _ => readerInv_stepKeeps.step

/-! ### STATUS and the result registers -/

theorem StatusInv.congr {s t : State} (h : StatusInv s) (hcsr : t.csr = s.csr) (hphase : t.phase = s.phase)
    (hstage : t.stage = s.stage) : StatusInv t :=
  { not_both := by rw [hcsr]; exact h.not_both
    code_zero := by rw [hcsr]; exact h.code_zero
    busy_clear := by rw [hcsr, hphase]; exact h.busy_clear
    idle_start := by rw [hphase, hstage]; exact h.idle_start }

/-- While BUSY the stage is free. -/
theorem StatusInv.of_busy {s t : State} (hcsr : t.csr = s.csr) (hs : s.phase = .busy) (ht : t.phase = .busy)
    (h : StatusInv s) : StatusInv t :=
  { not_both := by rw [hcsr]; exact h.not_both
    code_zero := by rw [hcsr]; exact h.code_zero
    busy_clear := fun _ => by rw [hcsr]; exact h.busy_clear hs
    idle_start := fun hi => by rw [ht] at hi; cases hi }

/-- While IDLE the result registers are free. -/
theorem StatusInv.of_idle {s : State} (hphase : s.phase = .idle) (hstage : s.stage = .start)
    (hboth : ¬(s.csr.done = true ∧ s.csr.error = true)) (hcode : s.csr.error = false → s.csr.errCode = 0) : StatusInv s :=
  ⟨hboth, hcode, fun hb => (by rw [hphase] at hb; cases hb), fun _ => hstage⟩

/-- A completion: no error was set while BUSY (44_host R275). -/
theorem StatusInv.complete {s : State} (size : Nat) (hb : s.phase = .busy) (h : StatusInv s) : StatusInv (complete size s) := by
  obtain ⟨-, herror, -⟩ := h.busy_clear hb
  refine .of_idle rfl rfl ?_ h.code_zero
  rintro ⟨-, he⟩
  exact Bool.false_ne_true (herror.symm.trans he)

theorem statusInv_raiseError (e : ErrKind) (s : State) : StatusInv (raiseError e s) :=
  .of_idle rfl rfl (by simp) (by simp)

/-- The write-one-to-clear of STATUS (44_host R276): it clears ERR_CODE with ERROR. -/
theorem StatusInv.writeStatus {s : State} (x : Word) (h : StatusInv s) : StatusInv (writeStatus x s) := by
  cases hp : s.phase with
  | busy => simpa [Machine.writeStatus, isBusy, hp] using h
  | idle =>
    rw [Machine.writeStatus, if_neg (by simp [isBusy, hp])]
    refine .of_idle hp (h.idle_start hp) ?_ ?_
    · have hboth := h.not_both
      simp only [Bool.and_eq_true]
      rintro ⟨⟨hd, -⟩, he, -⟩
      exact hboth ⟨hd, he⟩
    · cases hx : x.getLsbD 2 with
      | true => simp
      | false => simpa using h.code_zero

/-- A write of a register other than STATUS changes none of the fields that the invariant speaks of. -/
theorem StatusInv.writeCsr {s : State} (offset : Nat) (x : Word) (h : StatusInv s) : StatusInv (writeCsr offset x s) := by
  unfold Machine.writeCsr
  split
  · exact h.writeStatus x
  all_goals exact ⟨h.not_both, h.code_zero, h.busy_clear, h.idle_start⟩

/-- A launch clears the flags and the results (44_host R271). -/
theorem statusInv_launchCommand (s : State) : StatusInv (launchCommand s) := by
  refine ⟨?_, ?_, ?_, ?_⟩ <;> simp

theorem StatusInv.setCmd {s : State} (w : Word) (h : StatusInv s) : StatusInv (setCmd w s) :=
  ⟨h.not_both, h.code_zero, h.busy_clear, h.idle_start⟩

/-- 30_encoding R95. -/
theorem StatusInv.reservedCommand {s : State} (hp : s.phase = .idle) (h : StatusInv s) : StatusInv (reservedCommand s) :=
  .of_idle hp (h.idle_start hp) (by simp) (by simp)

theorem statusInv_resetEngine (s : State) : StatusInv (resetEngine s) :=
  .of_idle rfl rfl (by decide : ¬(Csr.reset.done = true ∧ Csr.reset.error = true)) fun _ => rfl

theorem statusInv_stepKeeps : StepKeeps StatusInv where
  turn _ _ h := .congr h rfl rfl rfl
  read hread h := by
    rw [hread.only]
    exact h.congr rfl rfl rfl
  next hb hnext h := by
    obtain ⟨hcsr, hphase⟩ | ⟨n, rfl⟩ := hnext.keeps.csr
    · exact h.of_busy hcsr hb (hphase.trans hb)
    · exact h.complete n hb
  raise e _ _ := statusInv_raiseError e _
  host hhost h := by
    cases hhost with
    | ignored => exact h
    | read => exact h.congr rfl rfl rfl
    | csr m offset x => exact h.writeCsr offset x
    | setCmd m w => exact h.setCmd w
    | launch => exact statusInv_launchCommand _
    | reserved m w hp => exact (h.setCmd w).reservedCommand hp
    | write m a bytes => exact h.congr (setBytes_csr a bytes _) (setBytes_phase a bytes _) (setBytes_stage a bytes _)
    | reset => exact statusInv_resetEngine _

/-- Settles O57: a step of the engine leaves the registers alone, completes or raises; of the host's moves a write of STATUS and
the three commands touch them. -/
theorem stepKeepsStatusLegal : Obligations.StepKeepsStatusLegal := by
  unfold Obligations.StepKeepsStatusLegal
  exact fun _ _ => statusInv_stepKeeps.step

/-! ### The reset state -/

theorem readerInv_reset : ReaderInv State.reset := .of_fresh reset_eq_fresh (by decide)

theorem statusInv_reset : StatusInv State.reset :=
  .of_idle rfl rfl (by decide : ¬(Csr.reset.done = true ∧ Csr.reset.error = true)) fun _ => rfl

theorem dictInv_reset : DictInv State.reset := ⟨(nomatch ·), (nomatch ·)⟩

/-- IDLE waits (70_reset R342). -/
theorem step_idle {s t : State} (h : engineTurn s = some t) (hp : t.phase = .idle) : step s = .next t := by
  rw [step_of_engineTurn h]
  simp [engineFetch, isBusy, hp, runFetched]

/-- Settles O7: the reader is a fresh one, the stage is `start`, and no dictionary is built. -/
theorem resetMeetsTheInvariants : Obligations.ResetMeetsTheInvariants := by
  unfold Obligations.ResetMeetsTheInvariants
  exact ⟨rfl, rfl, readerInv_reset, statusInv_reset, dictInv_reset, commandInv_start rfl, rfl, rfl, fun _ _ => step_idle⟩

/-! ### The accesses of the CSR block (10_state R43) -/

theorem step_of_hostFetch {s t : State} {m : HostMove} {o : Host.Outcome State Fault Refusal} (h : hostTurn s = some (m, t))
    (hf : hostFetch m t = .act o) : step s = o := by
  rw [step_of_hostTurn h, hf, runFetched]

theorem csrAligned_iff (offset : BitVec 8) (n : Nat) : csrAligned offset n = true ↔ n = 4 ∧ offset.toNat % 4 = 0 := by
  simp [csrAligned]

theorem hostCsrRead_aligned {offset : BitVec 8} {n : Nat} (h : n = 4 ∧ offset.toNat % 4 = 0) (s : State) :
    hostCsrRead offset n s = .next { s with hostData := leBytes 4 (csrValue offset.toNat s).toNat } :=
  if_pos ((csrAligned_iff offset n).mpr h)

theorem hostCsrRead_refused {offset : BitVec 8} {n : Nat} (h : ¬(n = 4 ∧ offset.toNat % 4 = 0)) (s : State) :
    hostCsrRead offset n s = .refused .csrAccessWidth :=
  if_neg (mt (csrAligned_iff offset n).mp h)

/-- CMD is aligned, so an access that is not goes to another register. -/
theorem fetchCsrWrite_refused {offset : BitVec 8} {n : Nat} (h : ¬(n = 4 ∧ offset.toNat % 4 = 0)) (x : Word) (s : State) :
    fetchCsrWrite offset n x s = .act (.refused .csrAccessWidth) := by
  have hcmd : ¬(offset = cmdOffset ∧ n = 4) := by
    rintro ⟨rfl, rfl⟩
    exact h ⟨rfl, rfl⟩
  rw [fetchCsrWrite, if_neg hcmd, hostCsrWrite, if_neg (mt (csrAligned_iff offset n).mp h)]

/-- An aligned write of a register other than CMD. -/
theorem fetchCsrWrite_aligned {offset : BitVec 8} (h : offset.toNat % 4 = 0) (hcmd : offset ≠ cmdOffset) (x : Word) (s : State) :
    fetchCsrWrite offset 4 x s = .act (.next (writeCsr offset.toNat x s)) := by
  rw [fetchCsrWrite, if_neg fun hc => hcmd hc.1, hostCsrWrite, if_pos ((csrAligned_iff offset 4).mpr ⟨rfl, h⟩)]

/-- Reserved offsets ignore writes and read 0. -/
theorem writeCsr_reserved {offset : Nat} (h : 0x30 ≤ offset) (x : Word) (s : State) : writeCsr offset x s = s := by
  unfold writeCsr
  split
  case h_7 => rfl
  all_goals omega

theorem csrValue_reserved {offset : Nat} (h : 0x30 ≤ offset) (s : State) : csrValue offset s = 0 := by
  unfold csrValue
  split
  case h_13 => rfl
  all_goals omega

/-- ID, RESULT_SIZE, ERR_WORD, ERR_OUTPOS and DICT_STATUS are read-only (10_state R38 to R42). -/
def readOnlyOffset (offset : BitVec 8) : Prop :=
  offset = 0x00 ∨ offset = 0x20 ∨ offset = 0x24 ∨ offset = 0x28 ∨ offset = 0x2C

theorem fetchCsrWrite_readOnly {offset : BitVec 8} (h : readOnlyOffset offset) (x : Word) (s : State) :
    fetchCsrWrite offset 4 x s = .act (.next s) := by
  obtain rfl | rfl | rfl | rfl | rfl := h
  all_goals exact fetchCsrWrite_aligned (by decide) (by decide) x s

theorem fetchCsrWrite_reserved {offset : BitVec 8} (h : offset.toNat % 4 = 0) (hr : 0x30 ≤ offset.toNat) (x : Word) (s : State) :
    fetchCsrWrite offset 4 x s = .act (.next s) := by
  have hcmd : offset ≠ cmdOffset := by
    rintro rfl
    exact absurd hr (by decide)
  rw [fetchCsrWrite_aligned h hcmd, writeCsr_reserved hr]

/-! ### By host address (20_memory R66) -/

section
variable {s : State} {addr : Word} {n : Nat}

/-- A bus access of at least one byte that begins in the CSR block is one of a CSR if its address is aligned, and else one the
block does not take. -/
theorem busTarget_of_mem_block (hlo : s.cfg.engineBase.toNat ≤ addr.toNat) (hhi : addr.toNat < s.cfg.engineBase.toNat + 256)
    (hn : 0 < n) :
    busTarget addr n s =
      if addr.toNat % 4 = 0 then .csr (BitVec.ofNat 8 (addr.toNat - s.cfg.engineBase.toNat)) else .badCsr := by
  have hinside : addr.toNat - s.cfg.engineBase.toNat < (csrBlock s.cfg).size := Nat.sub_lt_left_of_lt_add hlo hhi
  have hcsr : busIsCsr addr n s = true :=
    (regionMeets_iff _ _ _).mpr ⟨0, addr.toNat - s.cfg.engineBase.toNat, hn, hinside, (Nat.add_sub_of_le hlo).symm⟩
  rw [busTarget, if_pos hcsr]
  by_cases h : addr.toNat % 4 = 0
  · rw [if_pos h, busOffset, if_pos ⟨hlo, hhi, h⟩]
  · rw [if_neg h, busOffset, if_neg fun hc => h hc.2.2]

theorem hostFetch_busWrite_refused {bytes : List Byte} (hlo : s.cfg.engineBase.toNat ≤ addr.toNat)
    (hhi : addr.toNat < s.cfg.engineBase.toNat + 256) (hn : 0 < bytes.length) (h : ¬(bytes.length = 4 ∧ addr.toNat % 4 = 0)) :
    hostFetch (.busWrite addr bytes) s = .act (.refused .csrAccessWidth) := by
  by_cases ha : addr.toNat % 4 = 0
  · simp only [hostFetch, busTarget_of_mem_block hlo hhi hn, if_pos ha]
    exact fetchCsrWrite_refused (fun hw => h ⟨hw.1, ha⟩) _ _
  · simp only [hostFetch, busTarget_of_mem_block hlo hhi hn, if_neg ha]

theorem hostFetch_busWrite_aligned {bytes : List Byte} (hlo : s.cfg.engineBase.toNat ≤ addr.toNat)
    (hhi : addr.toNat < s.cfg.engineBase.toNat + 256) (hn : bytes.length = 4) (ha : addr.toNat % 4 = 0) :
    hostFetch (.busWrite addr bytes) s =
      hostFetch (.csrWrite (BitVec.ofNat 8 (addr.toNat - s.cfg.engineBase.toNat)) 4 (BitVec.ofNat 32 (leValue bytes))) s := by
  simp only [hostFetch, hn, busTarget_of_mem_block hlo hhi (by omega : 0 < 4), if_pos ha]

theorem hostFetch_busRead_refused (hlo : s.cfg.engineBase.toNat ≤ addr.toNat)
    (hhi : addr.toNat < s.cfg.engineBase.toNat + 256) (hn : 0 < n) (h : ¬(n = 4 ∧ addr.toNat % 4 = 0)) :
    hostFetch (.busRead addr n) s = .act (.refused .csrAccessWidth) := by
  by_cases ha : addr.toNat % 4 = 0
  · simp only [hostFetch, busTarget_of_mem_block hlo hhi hn, if_pos ha]
    rw [hostCsrRead_refused fun hw => h ⟨hw.1, ha⟩]
  · simp only [hostFetch, busTarget_of_mem_block hlo hhi hn, if_neg ha]

/-- An aligned address has an aligned offset when the base of the block is aligned (notes/assumptions/26.md). -/
theorem hostFetch_busRead_aligned (hlo : s.cfg.engineBase.toNat ≤ addr.toNat)
    (hhi : addr.toNat < s.cfg.engineBase.toNat + 256) (ha : addr.toNat % 4 = 0) (hb : s.cfg.engineBase.toNat % 4 = 0) :
    hostFetch (.busRead addr 4) s =
      .act (.next { s with hostData := leBytes 4 (csrValue (addr.toNat - s.cfg.engineBase.toNat) s).toNat }) := by
  have hoffset : (BitVec.ofNat 8 (addr.toNat - s.cfg.engineBase.toNat)).toNat = addr.toNat - s.cfg.engineBase.toNat := by
    rw [BitVec.toNat_ofNat]
    omega
  simp only [hostFetch, busTarget_of_mem_block hlo hhi (by omega : 0 < 4), if_pos ha]
  rw [hostCsrRead_aligned ⟨rfl, by omega⟩, hoffset]

end

/-- Settles O12: by offset, an access is aligned or refused, and a write that is aligned reaches `writeCsr`; by host address,
`busTarget_of_mem_block` gives the offset. -/
theorem csrAccessRules : Obligations.CsrAccessRules := by
  unfold Obligations.CsrAccessRules
  refine ⟨fun s t offset n hturn => ⟨fun h => ?_, fun h => ?_⟩, fun s t offset n x hturn => ⟨fun h => ?_, ?_, ?_⟩,
    fun s t addr bytes hturn hlo hhi hn h => ?_, fun s s' t addr bytes hturn hlo hhi hn ha hturn' => ?_,
    fun s t addr n hturn hlo hhi hn => ⟨?_, fun h => ?_⟩⟩
  · exact (step_of_hostTurn hturn).trans (hostCsrRead_aligned h t)
  · exact (step_of_hostTurn hturn).trans (hostCsrRead_refused h t)
  · exact step_of_hostFetch hturn (fetchCsrWrite_refused h x t)
  · rintro ⟨rfl, ha⟩ hr
    exact ⟨step_of_hostFetch hturn (fetchCsrWrite_reserved ha hr x t), csrValue_reserved hr t⟩
  · rintro rfl hro
    exact step_of_hostFetch hturn (fetchCsrWrite_readOnly hro x t)
  · exact step_of_hostFetch hturn (hostFetch_busWrite_refused hlo hhi hn h)
  · rw [step_of_hostTurn hturn, step_of_hostTurn hturn', hostFetch_busWrite_aligned hlo hhi hn ha]
  · rintro ⟨rfl, ha, hb⟩
    exact step_of_hostFetch hturn (hostFetch_busRead_aligned hlo hhi ha hb)
  · exact step_of_hostFetch hturn (hostFetch_busRead_refused hlo hhi hn h)

end Sys2Proof.Machine
end

section
/-! The memory family, first part (20_memory R63, 43_texture R242, 60_exceptions R303): the engine writes only bytes of the
output. Each writing case of `EngineNext` and `EngineRaise` is one lemma about the operation that writes. -/

namespace Sys2Proof.Machine

/-! ### The bytes outside the output -/

/-- `a` is no byte of the output of the size the command has derived. -/
def OutsideOutput (a : Nat) (s : State) : Prop := ∀ p, p < derivedSize s → a ≠ outputAddr s p

theorem derivedSize_generic {s : State} (h : isTexture s = false) : derivedSize s = s.gen.outSize := by simp [derivedSize, h]

theorem derivedSize_texture {s : State} (h : isTexture s = true) : derivedSize s = s.tex.size := if_pos h

theorem isTexture_congr {s t : State} (h : t.launch = s.launch) : isTexture t = isTexture s := by rw [isTexture, isTexture, h]

theorem outsideOutput_iff (a : Nat) (s : State) :
    OutsideOutput a s ↔ a < s.launch.outBase.toNat ∨ s.launch.outBase.toNat + derivedSize s ≤ a := by
  unfold OutsideOutput outputAddr
  constructor
  · intro h
    refine Decidable.byContradiction fun hin => ?_
    exact h (a - s.launch.outBase.toNat) (by omega) (by omega)
  · intro h p hp
    omega

/-- A step that keeps the launch and the derived sizes keeps the output. -/
theorem OutsideOutput.congr {a : Nat} {s t : State} (hlaunch : t.launch = s.launch) (hgen : t.gen.outSize = s.gen.outSize)
    (htex : t.tex.size = s.tex.size) (h : OutsideOutput a t) : OutsideOutput a s := by
  rw [outsideOutput_iff, derivedSize, isTexture_congr hlaunch, hlaunch, hgen, htex] at h
  exact (outsideOutput_iff a s).mpr h

/-! ### The operations that write -/

/-- 42_generic R188, R189: the bytes a generic command writes end at its output size. -/
theorem Wrote.byteAt_outside {m a : Nat} {s t : State} (h : Wrote m s t) (hgen : isTexture s = false)
    (hm : m ≤ s.gen.outSize - s.gen.outPos) (hout : OutsideOutput a t) : byteAt t a = byteAt s a := by
  have hout : OutsideOutput a s := hout.congr (by rw [h.state]) h.outSize_eq (by rw [h.state])
  refine h.outside a fun p _ hp => hout p ?_
  rw [derivedSize_generic hgen]
  omega

theorem CommandInv.geometry {s : State} (c : CommandInv s) (h : s.stage.isSized = true) : isTexture s = true ∧ Geometry s :=
  ⟨c.texture (by simp [Stage.isTexture, h]), (c.sized h).1⟩

/-- 43_texture R234, R242: a component of a block lies in the output. -/
theorem OutsideOutput.ne_block {a i k : Nat} {s : State} (hout : OutsideOutput a s) (htex : isTexture s = true) (g : Geometry s)
    (hi : i < s.tex.nb) (act : RunAct) (hk : k < 8) : a ≠ blockAddr i (actOff act s) s + k := by
  have hfits := block_in_output g hi act
  have hne := hout (i * s.tex.bpb + actOff act s + k) (by rw [derivedSize_texture htex]; omega)
  unfold blockAddr
  unfold outputAddr at hne ⊢
  omega

/-- A run of a texture pass (43_texture R229 to R232). -/
theorem Ran.byteAt_outside {act : RunAct} {blocks : List Nat} {a : Nat} {s t : State} (h : Ran act blocks s t)
    (c : CommandInv s) (hsized : s.stage.isSized = true) (hblocks : ∀ i, i ∈ blocks → i < s.tex.nb)
    (hout : OutsideOutput a t) : byteAt t a = byteAt s a := by
  obtain ⟨htex, g⟩ := c.geometry hsized
  have hout : OutsideOutput a s := hout.congr (by rw [h.state]) (by rw [h.state]) (by rw [h.state])
  exact h.outside a fun _ i hi k hk => hout.ne_block htex g (hblocks i hi) act hk

/-- A literal copy to a component of a block: one word, or two when the component has more than 4 bytes (43_texture R236). -/
theorem Copied.byteAt_outside {act : RunAct} {i m a : Nat} {s t : State} (h : Copied i (actOff act s) m s t)
    (c : CommandInv s) (hsized : s.stage.isSized = true) (hi : i < s.tex.nb) (hm : m ≤ 2)
    (hout : OutsideOutput a t) : byteAt t a = byteAt s a := by
  obtain ⟨htex, g⟩ := c.geometry hsized
  have hout : OutsideOutput a s := hout.congr (by rw [h.state]) (by rw [h.state]) (by rw [h.state])
  exact h.outside a fun k hk => hout.ne_block htex g hi act (by omega)

theorem freeSize_le (s : State) : freeSize s ≤ derivedSize s := by
  simp only [freeSize]
  split <;> omega

/-- 60_exceptions R303: an error frees bytes of the output alone. -/
theorem byteAt_raiseError_outside {a : Nat} (e : ErrKind) {s : State} (hout : OutsideOutput a s) :
    byteAt (raiseError e s) a = byteAt s a := by
  have hle := freeSize_le s
  rw [outsideOutput_iff] at hout
  calc byteAt (raiseError e s) a
      = byteAt (freeOutput (freeSize s) s) a := byteAt_congr (raiseError_mem e s) (raiseError_free e s) a
    _ = byteAt s a := by
      rw [freeOutput, byteAt_freeBytes, if_neg]
      unfold outputAddr
      omega

/-! ### A step of the engine -/

theorem EngineNext.byteAt_outside {a : Nat} {u v : State} (h : EngineNext u v) (c : CommandInv u) (hout : OutsideOutput a v) :
    byteAt v a = byteAt u a := by
  cases h with
  | startG => exact byteAt_congr (dictEnsureG_mem u) (dictEnsureG_free u) a
  | startT => exact byteAt_congr (dictEnsureT_mem u) (dictEnsureT_free u) a
  | treeBuild sel => cases sel <;> exact byteAt_congr rfl rfl a
  | literal w hstage hdue h =>
    have hlt : u.gen.outPos < u.gen.outSize := by
      simp only [codeDue, Bool.and_eq_true, decide_eq_true_eq] at hdue
      exact hdue.2
    exact h.byteAt_outside (c.generic (by rw [hstage]; rfl)) (by omega) (hout.congr rfl rfl rfl)
  | copy m w hstage hm h =>
    exact h.byteAt_outside (c.generic (by rw [hstage]; rfl)) hm (hout.congr rfl rfl rfl)
  | texClear hstage =>
    obtain ⟨htex, -⟩ := c.geometry (by rw [hstage]; rfl)
    have hout : OutsideOutput a u := hout.congr rfl rfl rfl
    rw [outsideOutput_iff, derivedSize_texture htex] at hout
    refine (byteAt_zeroBytes (outputAddr u 0) u.tex.size u a).trans (if_neg ?_)
    unfold outputAddr
    omega
  | run p act blocks _ hstage _ h hblocks => exact h.byteAt_outside c (by rw [hstage]; rfl) hblocks hout
  | copyAlpha i m w st hstage hi hm h =>
    exact h.byteAt_outside (act := .alt) c (by rw [hstage]; rfl) hi (by omega : m ≤ 2) (hout.congr rfl rfl rfl)
  | copyColor i m w st hstage hi hm h =>
    exact h.byteAt_outside (act := .color) c (by rw [hstage]; rfl) hi (by omega : m ≤ 2) (hout.congr rfl rfl rfl)
  | _ => exact byteAt_congr rfl rfl a

theorem EngineRaise.byteAt_outside {a : Nat} {u x : State} (h : EngineRaise u x) (c : CommandInv u) (hout : OutsideOutput a x) :
    byteAt x a = byteAt u a := by
  cases h with
  | run p act blocks _ hstage _ h hblocks => exact h.byteAt_outside c (by rw [hstage]; rfl) hblocks hout
  | _ => exact byteAt_congr rfl rfl a

/-- A read of the stream moves the reader alone, so it keeps `CommandInv` and memory. -/
theorem EngineStep.byteAt_outside {a : Nat} {t v : State} (h : EngineStep t v) (c : CommandInv t) (hout : OutsideOutput a v) :
    byteAt v a = byteAt t a := by
  obtain ⟨u, hread, h⟩ := h
  have hu := hread.only
  have c : CommandInv u := commandInv_congr hread.stage_eq (by rw [hu]) (by rw [hu]) c
  have hmem : byteAt u a = byteAt t a := byteAt_congr (by rw [hu]) (by rw [hu]) a
  rw [← hmem]
  obtain hnext | ⟨e, x, hraise, rfl⟩ := h
  · exact hnext.byteAt_outside c hout
  · have hout : OutsideOutput a x := hout.congr (raiseError_launch e x) (by rw [raiseError_gen]) (by rw [raiseError_tex])
    exact (byteAt_raiseError_outside e hout).trans (hraise.byteAt_outside c hout)

/-- Settles O56: one case for each thing a step of the engine can do (`engine_next`); `CommandInv` says that a literal, a copy, a
run and a literal block lie in the derived size, and an error frees no more. -/
theorem engineWritesOnlyTheOutput : Obligations.EngineWritesOnlyTheOutput := by
  unfold Obligations.EngineWritesOnlyTheOutput
  intro s t u a hturn hs c ha
  have hst : byteAt t a = byteAt s a := by
    rw [engineTurn_eq hturn]
    exact byteAt_congr rfl rfl a
  obtain ⟨-, rfl⟩ | ⟨-, hstep⟩ := engine_next hturn hs
  · exact hst
  · have hlaunch : u.launch = t.launch := (step_sameHostPart hturn hs).launch
    have hout : OutsideOutput a u := by
      rw [outsideOutput_iff, hlaunch]
      simpa [derivedSize, isTexture, hlaunch] using ha
    exact (hstep.byteAt_outside c hout).trans hst

end Sys2Proof.Machine
end

section
/-! The memory family, second part (20_memory R60, R63, R77, R78): the host's accesses of memory. `hostFetch` of an access that
reaches memory, then each answer of `hostMemWrite` and `hostMemRead` byte by byte. -/

namespace Sys2Proof.Machine

section
variable {s : State} {addr : Word} {bytes : List Byte} {n : Nat}

theorem hostFetch_busWrite_memory (h : busTarget addr bytes.length s = .memory) :
    hostFetch (.busWrite addr bytes) s = .act (hostMemWrite addr.toNat bytes s) := by simp only [hostFetch, h]

theorem hostFetch_busRead_memory (h : busTarget addr n s = .memory) :
    hostFetch (.busRead addr n) s = .act (hostMemRead addr.toNat n s) := by simp only [hostFetch, h]

end

section
variable {s : State} {a n : Nat} {bytes : List Byte}

/-- The access meets the input region of a running command (20_memory R61, R77). -/
def TouchesInput (s : State) (a n : Nat) : Prop :=
  s.phase = .busy ∧ s.launch.cmd.getLsbD 8 = true ∧
    ∃ j k, j < s.launch.inLen.toNat ∧ k < n ∧ (s.launch.inBase.toNat + j) % 4294967296 = a + k

theorem touchesInput_iff (s : State) (a n : Nat) :
    (isBusy s && cmdInPresent s.launch.cmd && inputMeets s a n) = true ↔ TouchesInput s a n := by
  simp only [Bool.and_eq_true, inputMeets_iff, isBusy, decide_eq_true_eq, cmdInPresent, TouchesInput, and_assoc]

theorem hostMemWrite_input (h : TouchesInput s a bytes.length) : hostMemWrite a bytes s = .refused .inputModified :=
  if_pos ((touchesInput_iff s a bytes.length).mpr h)

theorem hostMemWrite_output (hin : ¬TouchesInput s a bytes.length) (h : touchesOutput a bytes.length s = true) :
    hostMemWrite a bytes s = .refused .outputTouched := by
  rw [hostMemWrite, if_neg (mt (touchesInput_iff s a bytes.length).mp hin), if_pos h]

theorem hostMemWrite_outside (hin : ¬TouchesInput s a bytes.length) (hout : ¬touchesOutput a bytes.length s = true) :
    hostMemWrite a bytes s =
      if admitsRange s.cfg a bytes.length then .next (setBytes a bytes s) else .fault .accessNotAdmitted := by
  rw [hostMemWrite, if_neg (mt (touchesInput_iff s a bytes.length).mp hin), if_neg hout]

theorem hostMemRead_output (h : touchesOutput a n s = true) : hostMemRead a n s = .refused .outputTouched := if_pos h

theorem hostMemRead_outside (h : ¬touchesOutput a n s = true) :
    hostMemRead a n s =
      if admitsRange s.cfg a n then .next { s with hostData := bytesAt s a n } else .fault .accessNotAdmitted := if_neg h

end

/-- Settles O52: the refusal of the input comes before that of the output. -/
theorem inputWritesWhileBusyAreRefused : Obligations.InputWritesWhileBusyAreRefused := by
  unfold Obligations.InputWritesWhileBusyAreRefused
  intro s t addr bytes hturn htarget hbusy hpresent hmeets
  rw [step_of_hostFetch hturn (hostFetch_busWrite_memory htarget)]
  exact hostMemWrite_input ⟨hbusy, hpresent, hmeets⟩

/-- Settles O53: `touchesOutput_iff` gives the owned bytes, and `bytesAt_eq` the bytes of a read elsewhere. -/
theorem outputBelongsToTheEngine : Obligations.OutputBelongsToTheEngine := by
  unfold Obligations.OutputBelongsToTheEngine
  constructor
  · intro s t addr bytes size k p hturn htarget hbusy hsize hk hp heq hnot
    rw [step_of_hostFetch hturn (hostFetch_busWrite_memory htarget)]
    refine hostMemWrite_output ?_ ((touchesOutput_iff _ _ _).mpr ⟨hbusy, size, k, p, hsize, hk, hp, heq⟩)
    rintro ⟨-, hpresent, j, k', hj, hk', hmeets⟩
    exact hnot hpresent j k' hj hk' hmeets
  · intro s t addr n hturn htarget
    rw [step_of_hostFetch hturn (hostFetch_busRead_memory htarget)]
    refine ⟨fun size k p hbusy hsize hk hp heq => ?_, fun hnot => ?_⟩
    · exact hostMemRead_output ((touchesOutput_iff _ _ _).mpr ⟨hbusy, size, k, p, hsize, hk, hp, heq⟩)
    · have hout : ¬touchesOutput addr.toNat n t = true := by
        rw [touchesOutput_iff]
        rintro ⟨hbusy, size, k, p, hsize, hk, hp, heq⟩
        exact hnot hbusy size k p hsize hk hp heq
      rw [hostMemRead_outside hout]
      obtain ⟨hlength, hget⟩ := bytesAt_eq t addr.toNat n
      exact ⟨fun h => ⟨_, if_pos h, hlength, hget⟩, fun h => if_neg (by simp [h])⟩

/-- Settles O54: outside both regions `hostMemWrite` is `setBytes`, whose bytes `byteAt_setBytes_inside` and
`byteAt_setBytes_outside` give. -/
theorem hostWritesMemory : Obligations.HostWritesMemory := by
  unfold Obligations.HostWritesMemory
  intro s t addr bytes hturn htarget hcanonical hnot
  have hin : ¬TouchesInput t addr.toNat bytes.length := by
    rintro ⟨hbusy, hpresent, j, k, hj, hk, hmeets⟩
    exact (hnot hbusy).1 hpresent j k hj hk hmeets
  have hout : ¬touchesOutput addr.toNat bytes.length t = true := by
    rw [touchesOutput_iff]
    rintro ⟨hbusy, size, k, p, hsize, hk, hp, heq⟩
    exact (hnot hbusy).2 size k p hsize hk hp heq
  rw [step_of_hostFetch hturn (hostFetch_busWrite_memory htarget), hostMemWrite_outside hin hout]
  refine ⟨fun h => ⟨_, if_pos h, setBytes_eq _ _ _, fun k hk => ?_, fun a ha => ?_⟩, fun h => if_neg (by simp [h])⟩
  · rw [byteAt_setBytes_inside bytes addr.toNat t hcanonical k hk, List.getElem?_eq_getElem hk]
  · refine byteAt_setBytes_outside _ _ _ _ ?_
    refine Decidable.byContradiction fun hinside => ?_
    exact ha (a - addr.toNat) (by omega) (by omega)

end Sys2Proof.Machine
end

section
/-! The memory family, third part (20_memory R79): `launchSize` is the size that the command's own header steps derive. Each
header step has one lemma: what it answers is a word of the input as the launch knows it (`headerWord`), and the errors it can
raise are none of the size check's. `run_sat` runs them one after another. -/

namespace Sys2Proof.Machine

/-- An error raised before the size is checked (43_texture R223). -/
def RaisedEarly (e : ErrKind) : Prop := e ≠ .sizeOverflow ∧ e ≠ .outputTooSmall

/-- A run from a stage that works: what is said of its operation's answers and errors is said of the run. -/
theorem run_sat {n : Nat} {t u : State} {r : Res Unit} {Q : Unit → State → Prop} {R : ErrKind → State → Prop} (hm : t.moves = [])
    (hb : t.phase = .busy) (hw : stageWork t = some r) (hr : r.Sat Q fun e x => x.moves = t.moves ∧ R e x)
    (h : Host.Core.run Sys2Proof.core (n + 1) t = .next u) :
    (∃ x, Q () x ∧ Host.Core.run Sys2Proof.core n x = .next u) ∨ ∃ e x, R e x ∧ u = raiseError e x := by
  obtain ⟨x, rfl, hrun⟩ | ⟨e, x, rfl, hu⟩ := run_work hm hb hw h
  · exact .inl ⟨x, hr, hrun⟩
  · obtain ⟨hmoves, hR⟩ := hr
    exact .inr ⟨e, x, hR, hu (hmoves.trans hm)⟩

/-! ### The header steps -/

theorem startCommand_sat (s : State) :
    (startCommand s).Sat
      (fun _ t => (∃ p, checkArgs s = .ok () p) ∧ Fresh 0 s t ∧ t.stage = if isTexture s then .texMagic else .genHeader)
      (fun e x => x.moves = s.moves ∧ RaisedEarly e) := by
  cases h : startCommand s with
  | ok _ t =>
    obtain ⟨p, hargs, hfresh, hstage⟩ := start_ok h
    exact ⟨⟨p, hargs⟩, hfresh, hstage⟩
  | raise e x =>
    obtain ⟨rfl, rfl | rfl⟩ := start_raise h
    · exact ⟨rfl, by decide, by decide⟩
    · exact ⟨rfl, by decide, by decide⟩
  | fault => trivial
  | refuse => trivial

section
variable {k : Nat} {s t : State}

theorem Fresh.phase_eq (h : Fresh k s t) : t.phase = s.phase := by rw [h.eq]

theorem Fresh.moves_eq (h : Fresh k s t) : t.moves = s.moves := by rw [h.eq]

theorem Fresh.cfg_eq (h : Fresh k s t) : t.cfg = s.cfg := by rw [h.eq]

/-- The output size depends on the launch alone of the state (42_generic R192). -/
theorem Fresh.clampSize_eq (h : Fresh k s t) (d : Nat) : clampSize d t = clampSize d s := by
  rw [h.eq]
  rfl

/-- A step that reads the next whole word and then works in the state after the read. -/
theorem Fresh.word_sat (h : Fresh k s t) {f : Nat → State → Res Unit} {Q : Unit → State → Prop}
    (hf : ∀ v x, headerWord s k = some v → Fresh (k + 1) s x →
      (f v x).Sat Q fun e y => y.moves = x.moves ∧ RaisedEarly e) :
    ((readBits 32 t).bind f).Sat Q fun e x => x.moves = t.moves ∧ RaisedEarly e := by
  cases hr : readBits 32 t with
  | ok v x =>
    obtain ⟨hword, hfresh, -⟩ := h.read_word hr
    refine (hf v x hword hfresh).mono (fun _ _ hq => hq) ?_
    rintro e y ⟨hmoves, he⟩
    exact ⟨hmoves.trans (hfresh.moves_eq.trans h.moves_eq.symm), he⟩
  | raise e x =>
    have hraise := readBits_reader 32 t (by omega)
    rw [hr] at hraise
    obtain ⟨rfl, rfl⟩ := hraise
    exact ⟨rfl, by decide, by decide⟩
  | fault => trivial
  | refuse => trivial

/-- Going on with a stage reads nothing. -/
theorem Fresh.goTo (h : Fresh k s t) (st : Stage) : Fresh k s (goTo st t) := h.of k rfl h.bits h.acc h.w rfl

theorem Fresh.genHeader_sat (h : Fresh k s t) :
    (genHeader t).Sat (fun _ x => (∃ v, headerWord s k = some v) ∧ Fresh (k + 1) s x ∧ x.stage = .genSize)
      (fun e x => x.moves = t.moves ∧ RaisedEarly e) :=
  h.word_sat fun v _ hword hx => ⟨⟨v, hword⟩, hx.goTo _, rfl⟩

theorem Fresh.genSize_sat (h : Fresh k s t) :
    (genSize t).Sat (fun _ x => ∃ d, headerWord s k = some d ∧ x.gen.outSize = clampSize d s)
      (fun e x => x.moves = t.moves ∧ RaisedEarly e) :=
  h.word_sat fun d _ hword hx => ⟨d, hword, hx.clampSize_eq d⟩

theorem Fresh.texMagic_sat (h : Fresh k s t) :
    (texMagic t).Sat (fun _ x => (∃ v, headerWord s k = some v) ∧ Fresh (k + 1) s x ∧ x.stage = .texTag)
      (fun e x => x.moves = t.moves ∧ RaisedEarly e) :=
  h.word_sat fun v _ hword hx => ⟨⟨v, hword⟩, hx.goTo _, rfl⟩

theorem Fresh.texTag_sat (h : Fresh k s t) :
    (texTag t).Sat
      (fun _ x => ∃ tag, headerWord s k = some tag ∧ lookupFormat s.cfg tag = some x.tex.fmt ∧ Fresh (k + 1) s x ∧
        x.stage = .texDims)
      (fun e x => x.moves = t.moves ∧ RaisedEarly e) := by
  refine h.word_sat fun tag x hword hx => ?_
  cases hfmt : lookupFormat x.cfg tag with
  | none => exact ⟨rfl, by decide, by decide⟩
  | some e => exact ⟨tag, hword, hx.cfg_eq ▸ hfmt, hx.of (k + 1) rfl hx.bits hx.acc hx.w rfl, rfl⟩

end

/-! ### The size of the launch -/

theorem launchSize_texture {s : State} {m tag dims : Nat} {f : FormatEntry} (hargs : ∃ p, checkArgs s = .ok () p)
    (htex : isTexture s = true) (h0 : headerWord s 0 = some m) (h1 : headerWord s 1 = some tag)
    (h2 : headerWord s 2 = some dims) (hfmt : lookupFormat s.cfg tag = some f) : launchSize s = some (formatSize dims f) := by
  obtain ⟨p, hp⟩ := hargs
  simp [launchSize, hp, htex, h0, h1, h2, textureSize, hfmt, formatSize]

theorem isTexture_iff (s : State) : isTexture s = true ↔ cmdOp s.launch.cmd = 2 := by simp [isTexture]

section
variable {s u : State} (hm : s.moves = []) (hb : s.phase = .busy) (hstage : s.stage = .start)
include hm hb hstage

/-- The run of a command's first step. -/
theorem run_start {n : Nat} (h : Host.Core.run Sys2Proof.core (n + 1) s = .next u) :
    (∃ t, ((∃ p, checkArgs s = .ok () p) ∧ Fresh 0 s t ∧ t.stage = if isTexture s then .texMagic else .genHeader) ∧
      Host.Core.run Sys2Proof.core n t = .next u) ∨ ∃ e x, RaisedEarly e ∧ u = raiseError e x :=
  run_sat hm hb (by simp only [stageWork, hstage]) (startCommand_sat s) h

/-- 42_generic R191, R192: three steps of a generic command, from its launch. -/
theorem run_genSize (hgen : isTexture s = false) (h : Host.Core.run Sys2Proof.core 3 s = .next u) :
    launchSize s = some u.gen.outSize ∨ ∃ e x, u = raiseError e x := by
  obtain ⟨t, ⟨hargs, hfresh, hst⟩, h⟩ | ⟨e, x, -, rfl⟩ := run_start hm hb hstage h
  case inr => exact .inr ⟨e, x, rfl⟩
  rw [if_neg (by simp [hgen])] at hst
  obtain ⟨t, ⟨⟨m, h0⟩, hfresh, hst⟩, h⟩ | ⟨e, x, -, rfl⟩ := run_sat (hfresh.moves_eq.trans hm) (hfresh.phase_eq.trans hb)
    (by simp only [stageWork, hst]) hfresh.genHeader_sat h
  case inr => exact .inr ⟨e, x, rfl⟩
  obtain ⟨t, ⟨d, h1, hsize⟩, h⟩ | ⟨e, x, -, rfl⟩ := run_sat (hfresh.moves_eq.trans hm) (hfresh.phase_eq.trans hb)
    (by simp only [stageWork, hst]) hfresh.genSize_sat h
  case inr => exact .inr ⟨e, x, rfl⟩
  cases h
  rw [hsize]
  exact .inl (launchSize_generic hargs hgen h0 h1)

/-- 43_texture R220 to R223: four steps of a texture command, from its launch, the size check included. -/
theorem run_texDims (htex : isTexture s = true) (h : Host.Core.run Sys2Proof.core 4 s = .next u) :
    launchSize s = some u.tex.size ∨ ∃ e x, RaisedEarly e ∧ u = raiseError e x := by
  obtain ⟨t, ⟨hargs, hfresh, hst⟩, h⟩ | hearly := run_start hm hb hstage h
  case inr => exact .inr hearly
  rw [if_pos htex] at hst
  obtain ⟨t, ⟨⟨m, h0⟩, hfresh, hst⟩, h⟩ | hearly := run_sat (hfresh.moves_eq.trans hm) (hfresh.phase_eq.trans hb)
    (by simp only [stageWork, hst]) hfresh.texMagic_sat h
  case inr => exact .inr hearly
  obtain ⟨t, ⟨tag, h1, hfmt, hfresh, hst⟩, h⟩ | hearly := run_sat (hfresh.moves_eq.trans hm) (hfresh.phase_eq.trans hb)
    (by simp only [stageWork, hst]) hfresh.texTag_sat h
  case inr => exact .inr hearly
  have hderived : ∀ {d}, headerWord s 2 = some d → launchSize s = some (formatSize d t.tex.fmt) :=
    fun h2 => launchSize_texture hargs htex h0 h1 h2 hfmt
  obtain ⟨t', ⟨d, h2, hsize⟩, h⟩ | ⟨e, x, rfl | ⟨d, h2, hsize⟩, rfl⟩ := run_sat (hfresh.moves_eq.trans hm)
    (hfresh.phase_eq.trans hb) (by simp only [stageWork, hst]) (texDims_size hfresh rfl) h
  · cases h
    exact .inl (hsize ▸ hderived h2)
  · exact .inr ⟨_, x, ⟨by decide, by decide⟩, rfl⟩
  · rw [raiseError_tex, hsize]
    exact .inl (hderived h2)

end

/-- The code an early error reports is none of the two of the size check (60_exceptions R300). -/
theorem RaisedEarly.errCode_ne {e : ErrKind} :
    RaisedEarly e → errCode e ≠ errCode .sizeOverflow ∧ errCode e ≠ errCode .outputTooSmall := by
  unfold RaisedEarly
  cases e <;> decide

/-- Settles O16: `regionsOverlap_iff` gives the shared byte, and `run_genSize` and `run_texDims` the size; an error raised before
the size is derived ends in IDLE with another code. -/
theorem overlapIsASharedByte : Obligations.OverlapIsASharedByte := by
  unfold Obligations.OverlapIsASharedByte
  refine ⟨regionsOverlap_iff, fun s i hi => ?_, fun s u hm hb hstage => ⟨fun hop h hu => ?_, fun hop h hu => ?_⟩⟩
  · refine launchSize_not_admitted ?_
    simpa only [isTexture_iff] using hi
  · have hgen : isTexture s = false := by rw [← Bool.not_eq_true, isTexture_iff]; exact hop
    obtain hsize | ⟨e, x, rfl⟩ := run_genSize hm hb hstage hgen h
    · exact hsize
    · cases hu
  · obtain hsize | ⟨e, x, he, rfl⟩ := run_texDims hm hb hstage ((isTexture_iff s).mpr hop) h
    · exact hsize
    · obtain ⟨hover, hsmall⟩ := he.errCode_ne
      obtain hu | hu | hu := hu
      · cases hu
      · exact absurd hu hover
      · exact absurd hu hsmall

end Sys2Proof.Machine
end

section
/-! The encoding family, first part (30_encoding R84, R85, R86, R90, R92; 43_texture R227, R228): decoding an encoding. One
equation for each form of a value: a code given by its quotient and its remainder, a value read whole, the two fields of a CMD
word or of a header value, a run record, a flags word. -/

namespace Sys2Proof.Machine

theorem inRange_iff {w : Nat} {v : BitVec w} {lo hi : Nat} : inRange v lo hi = true ↔ lo ≤ v.toNat ∧ v.toNat ≤ hi := by
  simp [inRange]

/-! ### CMD words (R92) -/

theorem decodeCmd_reserved {op : BitVec 4} {args : BitVec 28} (h : 4 ≤ op.toNat) :
    decodeCmd (cmdWord op args) = if op.toNat < 8 then .cmdReserved4to7 op args else .cmdReserved8to15 op args := by
  simp only [decodeCmd, cmdWord_low, cmdWord_high]
  split
  case h_5 => rfl
  all_goals omega

/-! ### Symbol-tree values (R85) -/

theorem decodeSym_lit (b : Byte) : decodeSym (b.setWidth 16) = .ok (.lit b) := by
  have hb := b.isLt
  have hv : (b.setWidth 16).toNat = b.toNat := BitVec.toNat_setWidth_of_le (by decide)
  rw [decodeSym, if_pos (by omega), BitVec.setWidth_setWidth_of_le _ (by decide), BitVec.setWidth_eq]

theorem decodeLengthCode_len {q : Nat} (hq : q < 7) (r : BitVec 2) (s : BitVec 9) :
    decodeLengthCode q r s = .ok (lenInstr q r) :=
  match q, hq with
  | 0, _ | 1, _ | 2, _ | 3, _ | 4, _ | 5, _ | 6, _ => rfl

theorem decodeLengthCode_none {q : Nat} (hq : 8 ≤ q) (r : BitVec 2) (s : BitVec 9) :
    decodeLengthCode q r s =
      if q < 16 then .ok (.symNone288to319 s) else if q < 32 then .ok (.symNone320to383 s) else .ok (.symNone384to511 s) := by
  unfold decodeLengthCode
  split
  case h_9 => rfl
  all_goals omega

/-- The value of a code from the value `n` of its quotient and its remainder `r`, of at most two bits. -/
theorem toNat_codeValue {m n : Nat} (r : BitVec m) (hm : m ≤ 2) (hn : n < 512) :
    (BitVec.ofNat 16 n + r.setWidth 16).toNat = n + r.toNat := by
  have hr : r.toNat < 4 := Nat.lt_of_lt_of_le r.isLt (Nat.pow_le_pow_right (by decide) hm)
  rw [BitVec.toNat_add, BitVec.toNat_ofNat, BitVec.toNat_setWidth]
  omega

theorem encode_lenInstr {q : Nat} (hq : q < 7) (r : BitVec 2) :
    encode (lenInstr q r) = .sym (BitVec.ofNat 16 (256 + 4 * q) + r.setWidth 16) :=
  match q, hq with
  | 0, _ | 1, _ | 2, _ | 3, _ | 4, _ | 5, _ | 6, _ => rfl

theorem decode_lenInstr (cfg : Config) {q : Nat} (hq : q < 7) (r : BitVec 2) :
    decode cfg (encode (lenInstr q r)) = .ok (lenInstr q r) := by
  have hr := r.isLt
  have hv := toNat_codeValue r (n := 256 + 4 * q) (by decide) (by omega)
  rw [encode_lenInstr hq, decode, decodeSym, if_neg (by omega), if_pos (by omega), hv,
    show (256 + 4 * q + r.toNat - 256) / 4 = q by omega, decodeLengthCode_len hq]
  congr 2
  apply BitVec.eq_of_toNat_eq
  rw [BitVec.toNat_setWidth, hv]
  omega

/-! ### Copy-tree values (R86) -/

theorem decodeOffsetCode_off {q : Nat} (hq : q < 17) (r : BitVec 1) (c : BitVec 9) :
    decodeOffsetCode q r c = .ok (offInstr q r) :=
  match q, hq with
  | 0, _ | 1, _ | 2, _ | 3, _ | 4, _ | 5, _ | 6, _ | 7, _ | 8, _ | 9, _ | 10, _ | 11, _ | 12, _ | 13, _ | 14, _ | 15, _
  | 16, _ => rfl
  | n + 17, h => absurd h (by omega)

theorem encode_offInstr {q : Nat} (hq : q < 17) (r : BitVec 1) :
    encode (offInstr q r) = .off (BitVec.ofNat 16 (2 * q) + r.setWidth 16) :=
  match q, hq with
  | 0, _ | 1, _ | 2, _ | 3, _ | 4, _ | 5, _ | 6, _ | 7, _ | 8, _ | 9, _ | 10, _ | 11, _ | 12, _ | 13, _ | 14, _ | 15, _
  | 16, _ => rfl
  | n + 17, h => absurd h (by omega)

theorem decode_offInstr (cfg : Config) {q : Nat} (hq : q < 17) (r : BitVec 1) :
    decode cfg (encode (offInstr q r)) = .ok (offInstr q r) := by
  have hr := r.isLt
  have hv := toNat_codeValue r (n := 2 * q) (by decide) (by omega)
  rw [encode_offInstr hq, decode, decodeOff, if_pos (by omega), hv, show (2 * q + r.toNat) / 2 = q by omega,
    decodeOffsetCode_off hq]
  congr 2
  apply BitVec.eq_of_toNat_eq
  rw [BitVec.toNat_setWidth, hv]
  omega

theorem decodeOffsetCode_invalid {q : Nat} (hq : 17 ≤ q) (r : BitVec 1) (c : BitVec 9) :
    decodeOffsetCode q r c =
      if q < 18 then .ok (.offInvalid34to35 c) else if q < 20 then .ok (.offInvalid36to39 c)
      else if q < 24 then .ok (.offInvalid40to47 c) else if q < 32 then .ok (.offInvalid48to63 c)
      else if q < 64 then .ok (.offInvalid64to127 c) else if q < 128 then .ok (.offInvalid128to255 c)
      else .ok (.offInvalid256to511 c) := by
  unfold decodeOffsetCode
  split
  case h_18 => rfl
  all_goals omega

/-! ### Header values (R84) -/

/-- The rows of a range of lengths. -/
theorem decodeHdr_range {len : BitVec 5} {rep : BitVec 11} (h2 : 2 ≤ len.toNat) (h16 : len.toNat ≠ 16) (h17 : len.toNat ≠ 17) :
    decodeHdr (hdrValue len rep) =
      if len.toNat < 4 then .hdrAssign2to3 len rep else if len.toNat < 8 then .hdrAssign4to7 len rep
      else if len.toNat < 16 then .hdrAssign8to15 len rep else if len.toNat < 20 then .hdrBadlen18to19 len rep
      else if len.toNat < 24 then .hdrBadlen20to23 len rep else .hdrBadlen24to31 len rep := by
  simp only [decodeHdr, hdrValue_low, hdrValue_high]
  split
  case h_5 => rfl
  all_goals omega

/-! ### Run records (R90) and compression flags (R227, R228) -/

/-- The run records of each pass, with their instructions (30_encoding R90). -/
inductive RunRow : Pass → Sym → List Bool → Instr → Prop where
  | zero (p : Pass) : RunRow p 0 [] .runCountZero
  | altAbsent {count : Sym} : count ≠ 0 → RunRow .altColor count [false] (.runAbsent count)
  | altPresent {count : Sym} : count ≠ 0 → RunRow .altColor count [true] (.runAltPresent count)
  | colorAbsent {count : Sym} : count ≠ 0 → RunRow .color count [false] (.runAbsent count)
  | colorPresent {count : Sym} : count ≠ 0 → RunRow .color count [true] (.runColorPresent count)
  | alphaAbsent {count : Sym} : count ≠ 0 → RunRow .alpha count [false] (.runAlphaAbsent count)
  | alphaZero {count : Sym} : count ≠ 0 → RunRow .alpha count [true, false] (.runAlphaZero count)
  | alphaFill {count : Sym} : count ≠ 0 → RunRow .alpha count [true, true] (.runAlphaFill count)

theorem decode_run_iff {cfg : Config} {p : Pass} {count : Sym} {flags : List Bool} {i : Instr} :
    decode cfg (.run p count flags) = .ok i ↔ RunRow p count flags i := by
  rw [decode, decodeRun]
  constructor
  · intro h
    by_cases hc : count = 0
    · rw [if_pos hc] at h
      subst hc
      split at h <;> cases h
      subst flags
      exact .zero p
    · rw [if_neg hc] at h
      unfold decodeRunFlags at h
      split at h <;> cases h <;> constructor <;> exact hc
  · intro h
    cases h with
    | zero => rfl
    | _ hc => exact if_neg hc

theorem ite_ok_iff {q : Prop} [Decidable q] {i j : Instr} {e : DecodeError} :
    (if q then Except.ok j else .error e) = .ok i ↔ q ∧ i = j := by
  by_cases h : q
  · rw [if_pos h]
    exact ⟨fun hi => ⟨h, (Except.ok.inj hi).symm⟩, fun ⟨_, hi⟩ => congrArg Except.ok hi.symm⟩
  · rw [if_neg h]
    exact ⟨nofun, fun hi => absurd hi.1 h⟩

theorem decode_pass_iff {cfg : Config} {p : Pass} {w : Word} {i : Instr} :
    decode cfg (.cflags (.pass p) w) = .ok i ↔ w &&& cfg.passMask p ≠ 0 ∧ i = passInstr p w := by
  rw [decode, decodeCflags]
  exact ite_ok_iff

theorem decode_unknown_iff {cfg : Config} {w : Word} {i : Instr} :
    decode cfg (.cflags .unknown w) = .ok i ↔ w &&& cfg.unknownFlags ≠ 0 ∧ i = .cflagsUnknown w := by
  rw [decode, decodeCflags]
  exact ite_ok_iff

/-! ### Every row -/

theorem decode_encode (cfg : Config) (i : Instr) (h : i.wf cfg = true) : decode cfg (encode i) = .ok i := by
  cases i with
  | cmdNone args | cmdDecodeGeneric args | cmdDecodeTexture args | cmdReserved3 args =>
    simp [encode, decode, decodeCmd, cmdWord_low, cmdWord_high]
  | cmdReserved4to7 op args | cmdReserved8to15 op args =>
    obtain ⟨hlo, hhi⟩ := inRange_iff.mp h
    simp (disch := omega) only [encode, decode, decodeCmd_reserved, if_pos, if_neg]
  | lit b => exact decodeSym_lit b
  | lenQ0 r => exact decode_lenInstr cfg (q := 0) (by decide) r
  | lenQ1 r => exact decode_lenInstr cfg (q := 1) (by decide) r
  | lenQ2 r => exact decode_lenInstr cfg (q := 2) (by decide) r
  | lenQ3 r => exact decode_lenInstr cfg (q := 3) (by decide) r
  | lenQ4 r => exact decode_lenInstr cfg (q := 4) (by decide) r
  | lenQ5 r => exact decode_lenInstr cfg (q := 5) (by decide) r
  | lenQ6 r => exact decode_lenInstr cfg (q := 6) (by decide) r
  | lenEsc | lenInvalid => simp [encode, decode, decodeSym, decodeLengthCode]
  | symNone286to287 s =>
    obtain ⟨hlo, hhi⟩ := inRange_iff.mp h
    obtain rfl | rfl : s = 286 ∨ s = 287 := by bv_omega
    all_goals simp [encode, decode, decodeSym, decodeLengthCode]
  | symNone288to319 s | symNone320to383 s | symNone384to511 s =>
    obtain ⟨hlo, hhi⟩ := inRange_iff.mp h
    simp (disch := omega) only [encode, decode, decodeSym_nine, decodeLengthCode_none, if_pos, if_neg]
  | offQ0 r => exact decode_offInstr cfg (q := 0) (by decide) r
  | offQ1 r => exact decode_offInstr cfg (q := 1) (by decide) r
  | offQ2 r => exact decode_offInstr cfg (q := 2) (by decide) r
  | offQ3 r => exact decode_offInstr cfg (q := 3) (by decide) r
  | offQ4 r => exact decode_offInstr cfg (q := 4) (by decide) r
  | offQ5 r => exact decode_offInstr cfg (q := 5) (by decide) r
  | offQ6 r => exact decode_offInstr cfg (q := 6) (by decide) r
  | offQ7 r => exact decode_offInstr cfg (q := 7) (by decide) r
  | offQ8 r => exact decode_offInstr cfg (q := 8) (by decide) r
  | offQ9 r => exact decode_offInstr cfg (q := 9) (by decide) r
  | offQ10 r => exact decode_offInstr cfg (q := 10) (by decide) r
  | offQ11 r => exact decode_offInstr cfg (q := 11) (by decide) r
  | offQ12 r => exact decode_offInstr cfg (q := 12) (by decide) r
  | offQ13 r => exact decode_offInstr cfg (q := 13) (by decide) r
  | offQ14 r => exact decode_offInstr cfg (q := 14) (by decide) r
  | offQ15 r => exact decode_offInstr cfg (q := 15) (by decide) r
  | offQ16 r => exact decode_offInstr cfg (q := 16) (by decide) r
  | offInvalid34to35 c | offInvalid36to39 c | offInvalid40to47 c | offInvalid48to63 c | offInvalid64to127 c
  | offInvalid128to255 c | offInvalid256to511 c =>
    obtain ⟨hlo, hhi⟩ := inRange_iff.mp h
    simp (disch := omega) only [encode, decode, decodeOff_nine, decodeOffsetCode_invalid, if_pos, if_neg]
  | hdrSkip rep | hdrAssign1 rep | hdrAssign16 rep | hdrBadlen17 rep =>
    simp [encode, decode, decodeHdr, hdrValue_low, hdrValue_high]
  | hdrAssign2to3 len rep | hdrAssign4to7 len rep | hdrAssign8to15 len rep | hdrBadlen18to19 len rep
  | hdrBadlen20to23 len rep | hdrBadlen24to31 len rep =>
    obtain ⟨hlo, hhi⟩ := inRange_iff.mp h
    simp (disch := omega) only [encode, decode, decodeHdr_range, if_pos, if_neg]
  | runCountZero => exact decode_run_iff.mpr (.zero _)
  | runAbsent count => exact decode_run_iff.mpr (.altAbsent (of_decide_eq_true h))
  | runAltPresent count => exact decode_run_iff.mpr (.altPresent (of_decide_eq_true h))
  | runColorPresent count => exact decode_run_iff.mpr (.colorPresent (of_decide_eq_true h))
  | runAlphaAbsent count => exact decode_run_iff.mpr (.alphaAbsent (of_decide_eq_true h))
  | runAlphaZero count => exact decode_run_iff.mpr (.alphaZero (of_decide_eq_true h))
  | runAlphaFill count => exact decode_run_iff.mpr (.alphaFill (of_decide_eq_true h))
  | passAltColor w | passAlpha w | passColor w => exact decode_pass_iff.mpr ⟨of_decide_eq_true h, rfl⟩
  | cflagsUnknown w => exact decode_unknown_iff.mpr ⟨of_decide_eq_true h, rfl⟩

/-- Settles O1: one case for each row, by the equation of its form. -/
theorem decodeEncodeAgree : Obligations.DecodeEncodeAgree := by
  unfold Obligations.DecodeEncodeAgree
  exact decode_encode

/-- Settles O3: each word is the encoding of its instruction. -/
theorem decodesSpecWords : Obligations.DecodesSpecWords := by
  unfold Obligations.DecodesSpecWords
  intro cfg
  have h := decode_encode cfg
  exact ⟨h (.cmdDecodeGeneric 0x30) rfl, h (.cmdDecodeTexture 0x10) rfl, h (.cmdReserved8to15 15 0) rfl, h (.lit 0x41) rfl,
    h (.lenQ2 1) rfl, h .lenEsc rfl, h (.offQ2 0) rfl, h (.offQ16 1) rfl, h (.hdrAssign1 1) rfl, h (.hdrSkip 2) rfl,
    h (.hdrBadlen17 0) rfl, h (.runAlphaZero 3) rfl, h (.runColorPresent 1) rfl,
    fun hmask => decode_pass_iff.mpr ⟨hmask, rfl⟩⟩

end Sys2Proof.Machine
end

section
/-! The encoding family, second part (30_encoding R84, R85, R86, R90, R92, R94, R95): what decodes. Every value the decoder
accepts is the encoding of a well-formed instruction, so `decode_encode` says what it decodes to; a run record is one of
`RunRow`, and a flags word is given by `decode_pass_iff` and `decode_unknown_iff`. -/

namespace Sys2Proof.Machine

/-! ### The values of each alphabet that are encodings -/

theorem cmdOp_rows : ∀ op : BitVec 4,
    op = 0 ∨ op = 1 ∨ op = 2 ∨ op = 3 ∨ inRange op 4 7 = true ∨ inRange op 8 15 = true := by decide

theorem hdrLen_rows : ∀ len : BitVec 5,
    len = 0 ∨ len = 1 ∨ inRange len 2 3 = true ∨ inRange len 4 7 = true ∨ inRange len 8 15 = true ∨ len = 16 ∨ len = 17 ∨
      inRange len 18 19 = true ∨ inRange len 20 23 = true ∨ inRange len 24 31 = true := by decide

section
variable (cfg : Config)

theorem exists_encode_cmd (w : Word) : ∃ i : Instr, i.wf cfg = true ∧ encode i = .cmd w := by
  rw [← cmdWord_of_parts w]
  generalize w.setWidth 4 = op
  generalize (w >>> 4).setWidth 28 = args
  obtain rfl | rfl | rfl | rfl | h | h := cmdOp_rows op
  · exact ⟨.cmdNone args, rfl, rfl⟩
  · exact ⟨.cmdDecodeGeneric args, rfl, rfl⟩
  · exact ⟨.cmdDecodeTexture args, rfl, rfl⟩
  · exact ⟨.cmdReserved3 args, rfl, rfl⟩
  · exact ⟨.cmdReserved4to7 op args, h, rfl⟩
  · exact ⟨.cmdReserved8to15 op args, h, rfl⟩

theorem exists_encode_hdr (v : Sym) : ∃ i : Instr, i.wf cfg = true ∧ encode i = .hdr v := by
  rw [← hdrValue_of_parts v]
  generalize v.setWidth 5 = len
  generalize (v >>> 5).setWidth 11 = rep
  obtain rfl | rfl | h | h | h | rfl | rfl | h | h | h := hdrLen_rows len
  · exact ⟨.hdrSkip rep, rfl, rfl⟩
  · exact ⟨.hdrAssign1 rep, rfl, rfl⟩
  · exact ⟨.hdrAssign2to3 len rep, h, rfl⟩
  · exact ⟨.hdrAssign4to7 len rep, h, rfl⟩
  · exact ⟨.hdrAssign8to15 len rep, h, rfl⟩
  · exact ⟨.hdrAssign16 rep, rfl, rfl⟩
  · exact ⟨.hdrBadlen17 rep, rfl, rfl⟩
  · exact ⟨.hdrBadlen18to19 len rep, h, rfl⟩
  · exact ⟨.hdrBadlen20to23 len rep, h, rfl⟩
  · exact ⟨.hdrBadlen24to31 len rep, h, rfl⟩

end

/-- A value of a tree, by the bits that it uses. -/
theorem setWidth_setWidth_of_lt {m : Nat} {v : Sym} (hm : m ≤ 16) (hv : v.toNat < 2 ^ m) : (v.setWidth m).setWidth 16 = v := by
  apply BitVec.eq_of_toNat_eq
  rw [BitVec.toNat_setWidth_of_le hm, BitVec.toNat_setWidth, Nat.mod_eq_of_lt hv]

/-- A code by its quotient and its remainder. -/
theorem codeValue_of_parts {m n : Nat} {v : Sym} (hm : m ≤ 2) (hn : n < 512) (hv : n + v.toNat % 2 ^ m = v.toNat) :
    BitVec.ofNat 16 n + (v.setWidth m).setWidth 16 = v := by
  apply BitVec.eq_of_toNat_eq
  rw [toNat_codeValue _ hm hn, BitVec.toNat_setWidth, hv]

section
variable (cfg : Config)

theorem wf_lenInstr (q : Nat) (r : BitVec 2) : (lenInstr q r).wf cfg = true := by
  unfold lenInstr
  split <;> rfl

theorem wf_offInstr (q : Nat) (r : BitVec 1) : (offInstr q r).wf cfg = true := by
  unfold offInstr
  split <;> rfl

/-- A symbol-tree value from 286 on, whole. -/
theorem exists_encode_symNone {s : BitVec 9} (h : 286 ≤ s.toNat) :
    ∃ i : Instr, i.wf cfg = true ∧ encode i = .sym (s.setWidth 16) := by
  have hs := s.isLt
  obtain h | h | h | h : inRange s 286 287 = true ∨ inRange s 288 319 = true ∨ inRange s 320 383 = true ∨
      inRange s 384 511 = true := by simp only [inRange_iff]; omega
  · exact ⟨.symNone286to287 s, h, rfl⟩
  · exact ⟨.symNone288to319 s, h, rfl⟩
  · exact ⟨.symNone320to383 s, h, rfl⟩
  · exact ⟨.symNone384to511 s, h, rfl⟩

theorem exists_encode_sym {v : Sym} (hv : v.toNat < 512) : ∃ i : Instr, i.wf cfg = true ∧ encode i = .sym v := by
  obtain h | h | h | h | h : v.toNat < 256 ∨ (256 ≤ v.toNat ∧ v.toNat < 284) ∨ v.toNat = 284 ∨ v.toNat = 285 ∨
      286 ≤ v.toNat := by omega
  · exact ⟨.lit (v.setWidth 8), rfl, congrArg Code.sym (setWidth_setWidth_of_lt (by decide) h)⟩
  · have hq : (v.toNat - 256) / 4 < 7 := by omega
    refine ⟨lenInstr ((v.toNat - 256) / 4) (v.setWidth 2), wf_lenInstr cfg _ _, ?_⟩
    rw [encode_lenInstr hq, codeValue_of_parts (by decide) (by omega) (by omega)]
  · exact ⟨.lenEsc, rfl, congrArg Code.sym (BitVec.eq_of_toNat_eq h.symm)⟩
  · exact ⟨.lenInvalid, rfl, congrArg Code.sym (BitVec.eq_of_toNat_eq h.symm)⟩
  · rw [← setWidth_setWidth_of_lt (m := 9) (by decide) hv]
    apply exists_encode_symNone
    rw [BitVec.toNat_setWidth]
    omega

/-- A copy-tree value from 34 on, whole. -/
theorem exists_encode_offInvalid {c : BitVec 9} (h : 34 ≤ c.toNat) :
    ∃ i : Instr, i.wf cfg = true ∧ encode i = .off (c.setWidth 16) := by
  have hc := c.isLt
  obtain h | h | h | h | h | h | h : inRange c 34 35 = true ∨ inRange c 36 39 = true ∨ inRange c 40 47 = true ∨
      inRange c 48 63 = true ∨ inRange c 64 127 = true ∨ inRange c 128 255 = true ∨ inRange c 256 511 = true := by
    simp only [inRange_iff]; omega
  · exact ⟨.offInvalid34to35 c, h, rfl⟩
  · exact ⟨.offInvalid36to39 c, h, rfl⟩
  · exact ⟨.offInvalid40to47 c, h, rfl⟩
  · exact ⟨.offInvalid48to63 c, h, rfl⟩
  · exact ⟨.offInvalid64to127 c, h, rfl⟩
  · exact ⟨.offInvalid128to255 c, h, rfl⟩
  · exact ⟨.offInvalid256to511 c, h, rfl⟩

theorem exists_encode_off {v : Sym} (hv : v.toNat < 512) : ∃ i : Instr, i.wf cfg = true ∧ encode i = .off v := by
  by_cases h : v.toNat < 34
  · have hq : v.toNat / 2 < 17 := by omega
    refine ⟨offInstr (v.toNat / 2) (v.setWidth 1), wf_offInstr cfg _ _, ?_⟩
    rw [encode_offInstr hq, codeValue_of_parts (by decide) (by omega) (by omega)]
  · rw [← setWidth_setWidth_of_lt (m := 9) (by decide) hv]
    apply exists_encode_offInvalid
    rw [BitVec.toNat_setWidth]
    omega

end

/-! ### What decodes -/

section
variable {cfg : Config} {c : Code} {i : Instr}

/-- What an encoding decodes to is the instruction it encodes. -/
theorem wf_and_encode_of_decode (h : ∃ j : Instr, j.wf cfg = true ∧ encode j = c) (hd : decode cfg c = .ok i) :
    i.wf cfg = true ∧ encode i = c := by
  obtain ⟨j, hwf, rfl⟩ := h
  rw [decode_encode cfg j hwf] at hd
  cases hd
  exact ⟨hwf, rfl⟩

theorem exists_decode (h : ∃ j : Instr, j.wf cfg = true ∧ encode j = c) : ∃ j, decode cfg c = .ok j := by
  obtain ⟨j, hwf, rfl⟩ := h
  exact ⟨j, decode_encode cfg j hwf⟩

/-- 30_encoding R94: no row of the symbol alphabet has a value of 512 or more. -/
theorem lt_of_decode_sym {v : Sym} (h : decode cfg (.sym v) = .ok i) : v.toNat < 512 := by
  rw [decode, decodeSym] at h
  split at h
  · omega
  · split at h
    · assumption
    · cases h

/-- 30_encoding R94: no row of the copy alphabet has a value of 512 or more. -/
theorem lt_of_decode_off {v : Sym} (h : decode cfg (.off v) = .ok i) : v.toNat < 512 := by
  rw [decode, decodeOff] at h
  split at h
  · assumption
  · cases h

theorem RunRow.wf {p : Pass} {count : Sym} {flags : List Bool} (h : RunRow p count flags i) : i.wf cfg = true := by
  cases h with
  | zero => rfl
  | _ hc => exact decide_eq_true hc

/-- The absent rows of the two colour passes are one. -/
theorem RunRow.encode_eq {p : Pass} {count : Sym} {flags : List Bool} (h : RunRow p count flags i) :
    ∃ q, encode i = .run q count flags := by
  cases h <;> exact ⟨_, rfl⟩

theorem exists_runRow_iff {p : Pass} {count : Sym} {flags : List Bool} : (∃ i, RunRow p count flags i) ↔
    (count = 0 ∧ flags = []) ∨
      (count ≠ 0 ∧ (flags = [false] ∨ (p ≠ .alpha ∧ flags = [true]) ∨ (p = .alpha ∧ ∃ b, flags = [true, b]))) := by
  constructor
  · rintro ⟨i, h⟩
    cases h with
    | zero => exact .inl ⟨rfl, rfl⟩
    | altAbsent hc | colorAbsent hc | alphaAbsent hc => exact .inr ⟨hc, .inl rfl⟩
    | altPresent hc | colorPresent hc => exact .inr ⟨hc, .inr (.inl ⟨by decide, rfl⟩)⟩
    | alphaZero hc | alphaFill hc => exact .inr ⟨hc, .inr (.inr ⟨rfl, _, rfl⟩)⟩
  · rintro (⟨rfl, rfl⟩ | ⟨hc, rfl | ⟨hp, rfl⟩ | ⟨rfl, b, rfl⟩⟩)
    · exact ⟨_, .zero p⟩
    · cases p with
      | altColor => exact ⟨_, .altAbsent hc⟩
      | alpha => exact ⟨_, .alphaAbsent hc⟩
      | color => exact ⟨_, .colorAbsent hc⟩
    · cases p with
      | altColor => exact ⟨_, .altPresent hc⟩
      | alpha => exact absurd rfl hp
      | color => exact ⟨_, .colorPresent hc⟩
    · cases b with
      | false => exact ⟨_, .alphaZero hc⟩
      | true => exact ⟨_, .alphaFill hc⟩

theorem runRow_absent (p : Pass) {count : Sym} (hc : count ≠ 0) :
    RunRow p count [false] (if p = .alpha then .runAlphaAbsent count else .runAbsent count) := by
  cases p with
  | altColor => exact .altAbsent hc
  | alpha => exact .alphaAbsent hc
  | color => exact .colorAbsent hc

theorem wf_passInstr (p : Pass) {w : Word} (h : w &&& cfg.passMask p ≠ 0) : (passInstr p w).wf cfg = true := by
  cases p <;> exact decide_eq_true h

theorem encode_passInstr (p : Pass) (w : Word) : encode (passInstr p w) = .cflags (.pass p) w := by
  cases p <;> rfl

/-- Beside the run records, an item is the encoding of what it decodes to. -/
theorem decode_sound (hc : ∀ p count flags, c ≠ .run p count flags) (h : decode cfg c = .ok i) :
    i.wf cfg = true ∧ encode i = c := by
  cases c with
  | cmd w => exact wf_and_encode_of_decode (exists_encode_cmd cfg w) h
  | sym v => exact wf_and_encode_of_decode (exists_encode_sym cfg (lt_of_decode_sym h)) h
  | off v => exact wf_and_encode_of_decode (exists_encode_off cfg (lt_of_decode_off h)) h
  | hdr v => exact wf_and_encode_of_decode (exists_encode_hdr cfg v) h
  | run p count flags => exact absurd rfl (hc p count flags)
  | cflags row w =>
    cases row with
    | pass p =>
      obtain ⟨hmask, rfl⟩ := decode_pass_iff.mp h
      exact ⟨wf_passInstr p hmask, encode_passInstr p w⟩
    | unknown =>
      obtain ⟨hmask, rfl⟩ := decode_unknown_iff.mp h
      exact ⟨decide_eq_true hmask, rfl⟩

theorem wf_of_decode (h : decode cfg c = .ok i) : i.wf cfg = true := by
  cases c with
  | run p count flags => exact (decode_run_iff.mp h).wf
  | _ => exact (decode_sound (by rintro _ _ _ ⟨⟩) h).1

end

/-- Settles O2: `decode_sound` and `RunRow` say what an item decodes to, and the values that decode are those that
`exists_encode_sym` and its like encode. -/
theorem decodedItemsAreWellFormed : Obligations.DecodedItemsAreWellFormed := by
  unfold Obligations.DecodedItemsAreWellFormed
  intro cfg
  refine ⟨fun c i h => ⟨wf_of_decode h, fun hc => (decode_sound hc h).2, ?_⟩,
    fun v => ⟨fun ⟨_, h⟩ => lt_of_decode_sym h, fun h => exists_decode (exists_encode_sym cfg h)⟩,
    fun v => ⟨fun ⟨_, h⟩ => lt_of_decode_off h, fun h => exists_decode (exists_encode_off cfg h)⟩,
    fun v => exists_decode (exists_encode_hdr cfg v), fun w => exists_decode (exists_encode_cmd cfg w),
    fun p count flags => ?_, fun p count => ⟨decode_run_iff.mpr (.zero p), fun hc => ?_⟩,
    fun _ _ _ => decode_pass_iff, fun _ _ => decode_unknown_iff⟩
  · rintro p count flags rfl
    exact (decode_run_iff.mp h).encode_eq
  · simp only [decode_run_iff]
    exact exists_runRow_iff
  · simp only [decode_run_iff]
    exact ⟨runRow_absent p hc, .altPresent hc, .colorPresent hc, .alphaZero hc, .alphaFill hc⟩

/-! ### Reserved commands (R95) -/

theorem exists_encode_reserved (cfg : Config) {w : Word} (h : 3 ≤ cmdOp w) :
    ∃ i : Instr, i.wf cfg = true ∧ encode i = .cmd w ∧ reservedOf i = some w := by
  rw [← cmdWord_of_parts w] at h ⊢
  generalize w.setWidth 4 = op at h ⊢
  generalize (w >>> 4).setWidth 28 = args at h ⊢
  rw [cmdOp_cmdWord] at h
  obtain rfl | rfl | rfl | rfl | hop | hop := cmdOp_rows op
  · exact absurd h (by decide)
  · exact absurd h (by decide)
  · exact absurd h (by decide)
  · exact ⟨.cmdReserved3 args, rfl, rfl, rfl⟩
  · exact ⟨.cmdReserved4to7 op args, hop, rfl, rfl⟩
  · exact ⟨.cmdReserved8to15 op args, hop, rfl, rfl⟩

theorem exec_of_reservedOf {i : Instr} {w : Word} (h : reservedOf i = some w) (s : State) :
    exec i s = startWrite w reservedCommand s := by
  unfold reservedOf at h
  split at h <;> cases h <;> rfl

/-- Settles O9: `startWrite` of a reserved command, while IDLE, is `reservedCommand`. -/
theorem reservedCommandReportsIllegalCommand : Obligations.ReservedCommandReportsIllegalCommand := by
  unfold Obligations.ReservedCommandReportsIllegalCommand
  refine ⟨fun cfg w hop => ?_, fun i w s hi hidle hcfg => ?_⟩
  · obtain ⟨i, hwf, hencode, hi⟩ := exists_encode_reserved cfg hop
    exact ⟨i, hencode ▸ decode_encode cfg i hwf, hi⟩
  · rw [exec_of_reservedOf hi, startWrite_idle hidle hcfg]
    rfl

end Sys2Proof.Machine
end

section
/-! The encoding family, third part (30_encoding R80, R90; 44_host R270): the step that runs a decoded item. `step_item` is the
engine's, once the item of its stage is known; a CMD write is fetched like one. -/

namespace Sys2Proof.Machine

/-! ### A CMD write -/

theorem fetchCsrWrite_cmd {s : State} {w : Word} {i : Instr} (hd : decode s.cfg (.cmd w) = .ok i) :
    fetchCsrWrite 0x04 4 w s = .instr i s := by
  rw [fetchCsrWrite, if_pos ⟨rfl, rfl⟩, fetchCode, hd]

theorem step_csrWrite_cmd {s t : State} {w : Word} {i : Instr} (h : hostTurn s = some (.csrWrite 0x04 4 w, t))
    (hd : decode t.cfg (.cmd w) = .ok i) : step s = exec i t := by
  rw [step_of_hostTurn h, hostFetch, fetchCsrWrite_cmd hd, runFetched]

theorem step_busWrite_cmd {s t : State} {addr : Word} {bytes : List Byte} {i : Instr}
    (h : hostTurn s = some (.busWrite addr bytes, t)) (hlen : bytes.length = 4) (htarget : busTarget addr 4 t = .csr 0x04)
    (hd : decode t.cfg (.cmd (BitVec.ofNat 32 (leValue bytes))) = .ok i) : step s = exec i t := by
  rw [step_of_hostTurn h]
  simp only [hostFetch, hlen, htarget, fetchCsrWrite_cmd hd, runFetched]

/-! ### The item of a stage -/

section
variable {t : State}

theorem stageItem_symLoop (hstage : t.stage = .symLoop) (hcount : t.gen.count < t.gen.maxCount)
    (hpos : t.gen.outPos < t.gen.outSize) : stageItem t = some ((readCode t.symT t).bind fun v s => .ok (.sym v) s) := by
  have hdue : codeDue t = true := Bool.and_eq_true_iff.mpr ⟨decide_eq_true hcount, decide_eq_true hpos⟩
  simp only [stageItem, hstage, if_pos hdue]

theorem stageItem_copyCode (hstage : t.stage = .copyCode) :
    stageItem t = some ((readCode t.copyT t).bind fun v s => .ok (.off v) s) := by
  simp only [stageItem, hstage]

theorem stageItem_treeLoop {sel : TreeSel} (hstage : t.stage = .treeLoop sel) (hrem : t.hdr.rem ≠ 0) :
    stageItem t = some ((readCode t.dictG t).bind fun v s => .ok (.hdr v) s) := by
  simp only [stageItem, hstage, if_neg hrem]

theorem stageItem_runLoop {p : Pass} (hstage : t.stage = .runLoop p) (hpos : t.tex.pos < t.tex.nb) :
    stageItem t = some (readRun p t) := by
  have hdue : runDue t = true := decide_eq_true hpos
  simp only [stageItem, hstage, if_pos hdue]

theorem stageItem_pass {p : Pass} (hstage : t.stage = .pass p) (hmask : t.tex.cflags &&& t.cfg.passMask p ≠ 0) :
    stageItem t = some (.ok (.cflags (.pass p) t.tex.cflags) t) := by
  simp only [stageItem, hstage, if_pos hmask]

theorem stageItem_texClear (hstage : t.stage = .texClear) (hmask : t.tex.cflags &&& t.cfg.unknownFlags ≠ 0) :
    stageItem t = some (.ok (.cflags .unknown t.tex.cflags) t) := by
  simp only [stageItem, hstage, if_pos hmask]

end

/-- The step of a stage that reads a code of a tree. -/
theorem step_code {s t u : State} {tree : Tree} {item : Sym → Code} {v : Sym} {i : Instr} (h : engineTurn s = some t)
    (hb : t.phase = .busy) (hitem : stageItem t = some ((readCode tree t).bind fun v s => .ok (item v) s))
    (hread : readCode tree t = .ok v u) (hd : decode u.cfg (item v) = .ok i) : step s = exec i u :=
  step_item h hb hitem (by rw [hread, Res.bind]) hd

/-! ### The bits of a run record (R90) -/

section
variable {p : Pass} {count : Sym} {b : Nat} {flags : List Bool} {t u w : State}

theorem readRun_zero (hread : readCode t.dictT t = .ok count u) (hc : count = 0) : readRun p t = .ok (.run p 0 []) u := by
  rw [readRun, hread, Res.bind, if_pos hc]

theorem readRun_flags (hread : readCode t.dictT t = .ok count u) (hc : count ≠ 0) (hflags : readRunFlags p u = .ok flags w) :
    readRun p t = .ok (.run p count flags) w := by
  rw [readRun, hread, Res.bind, if_neg hc, hflags, Res.bind]

theorem readRunFlags_one (hp : readBits 1 u = .ok b w) (h : ¬(p = .alpha ∧ b = 1)) :
    readRunFlags p u = .ok [decide (b = 1)] w := by
  rw [readRunFlags, hp, Res.bind, if_neg fun hb => h hb.symm]

theorem readRunFlags_two {x : State} (hp : readBits 1 u = .ok 1 w) (hs : readBits 1 w = .ok b x) :
    readRunFlags .alpha u = .ok [true, decide (b = 1)] x := by
  rw [readRunFlags, hp, Res.bind, if_pos ⟨rfl, rfl⟩, hs, Res.bind]

end

/-- Settles O4: the item of each stage, read and decoded, for `step_item`. -/
theorem stepRunsTheDecodedInstruction : Obligations.StepRunsTheDecodedInstruction := by
  unfold Obligations.StepRunsTheDecodedInstruction
  refine ⟨fun s t w i => step_csrWrite_cmd, fun s t addr bytes i => step_busWrite_cmd, ?code, ?run, ?pass, ?unknown⟩
  case code =>
    rintro s t u v i hturn hb (⟨hstage, hcount, hpos, hread, hd⟩ | ⟨hstage, hread, hd⟩ | ⟨⟨sel, hstage⟩, hrem, hread, hd⟩)
    · exact step_code hturn hb (stageItem_symLoop hstage hcount hpos) hread hd
    · exact step_code hturn hb (stageItem_copyCode hstage) hread hd
    · exact step_code hturn hb (stageItem_treeLoop hstage hrem) hread hd
  case run =>
    intro s t u p count hturn hb hstage hpos hread
    have hitem := stageItem_runLoop hstage hpos
    refine ⟨fun i hc hd => step_item hturn hb hitem (readRun_zero hread hc) hd, fun pBit w hc hp => ⟨?_, ?_⟩⟩
    · intro i hone hd
      exact step_item hturn hb hitem (readRun_flags hread hc (readRunFlags_one hp hone)) hd
    · rintro i sBit x rfl rfl hs hd
      exact step_item hturn hb hitem (readRun_flags hread hc (readRunFlags_two hp hs)) hd
  case pass =>
    intro s t p i hturn hb hstage hd
    exact step_item hturn hb (stageItem_pass hstage (decode_pass_iff.mp hd).1) rfl hd
  case unknown =>
    intro s t i hturn hb hstage hd
    exact step_item hturn hb (stageItem_texClear hstage (decode_unknown_iff.mp hd).1) rfl hd

end Sys2Proof.Machine
end

section
/-! The bit reader family (40_bit_reader R121, R124, R129; 20_memory R65, R68): what a refill loads, which bits a field returns,
and what a step comes to when the refill of its field cannot load a word. -/

namespace Sys2Proof.Machine

/-! ### ensure (R121) -/

theorem ensure_buffered {n : Nat} {s : State} (h : n ≤ s.br.bits) : ensure n s = .ok () s := if_neg (by omega)

/-- The refill of an input word that memory admits, or of a zero word of the tail. -/
theorem ensure_refill {n : Nat} {s : State} (hbits : s.br.bits < n) (hw : s.br.w < s.br.n + s.cfg.tailZeroWords)
    (hadmit : s.br.w < s.br.n → inputAdmitted s s.br.w = true) :
    ensure n s = .ok () (pushWord (if s.br.w < s.br.n then inputWordValue s s.br.w else 0) s) := by
  have hword : refillWord s = .ok (if s.br.w < s.br.n then inputWordValue s s.br.w else 0) s := by
    unfold refillWord
    split
    · rw [inputWord_eq, if_pos (hadmit ‹_›)]
    · rfl
  rw [ensure, if_pos hbits, if_neg (by omega), hword, Res.bind_ok]

/-- Settles O23: the three cases of an ensure. -/
theorem ensureLoadsOneWord : Obligations.EnsureLoadsOneWord := by
  unfold Obligations.EnsureLoadsOneWord
  intro n s _ hn
  exact ⟨ensure_buffered, ensure_ended n s, fun hbits hw hadmit => ⟨ensure_refill hbits hw hadmit, by omega⟩⟩

/-! ### The bits of the stream (20_memory R68) -/

theorem OnlyReader.inputWordValue_eq {s t : State} (h : OnlyReader s t) (i : Nat) : inputWordValue t i = inputWordValue s i := by
  have hbyte : byteAt t = byteAt s := funext fun a => byteAt_congr (by rw [h]) (by rw [h]) a
  simp only [inputWordValue, inputAddrs, inputAddr, hbyte, show t.launch = s.launch by rw [h]]

theorem OnlyReader.streamBit_eq {s t : State} (h : OnlyReader s t) (i : Nat) : streamBit t i = streamBit s i := by
  rw [streamBit, streamBit, h.inputWordValue_eq]

theorem OnlyReader.streamField_eq {s t : State} (h : OnlyReader s t) (i n : Nat) : streamField t i n = streamField s i n := by
  induction n with
  | zero => rfl
  | succ n ih => rw [streamField, streamField, ih, h.streamBit_eq]

/-! ### The lookahead holds the next bits -/

/-- Bit 31 of word `w` comes right after the last bit buffered (R126: `32 * w` is the end of the lookahead). -/
theorem LookaheadInv.pushWord {s : State} (hl : LookaheadInv s) (hi : ReaderInv s) (hbits : s.br.bits ≤ 31) :
    LookaheadInv (pushWord (inputWordValue s s.br.w) s) := by
  have hcount := hi.count
  have hzero := (low_zero_iff s.br.acc s.br.bits (by omega)).mp hi.low_zero
  intro j hj
  rw [(onlyReader_pushWord _ s).streamBit_eq]
  simp only [pushWord_br] at hj ⊢
  rw [pushed_msb _ _ _ _ hbits hzero (inputWordValue_lt s s.br.w)]
  by_cases hold : j < s.br.bits
  · rw [if_pos hold, hl j hold]
  · rw [if_neg hold, if_pos hj, streamBit, show (s.br.c + j) / 32 = s.br.w by omega,
      show (s.br.c + j) % 32 = j - s.br.bits by omega]

theorem LookaheadInv.dropBits {s : State} (hl : LookaheadInv s) (n : Nat) : LookaheadInv (dropBits n s) := by
  intro j hj
  rw [(onlyReader_dropBits n s).streamBit_eq]
  simp only [dropBits_br] at hj ⊢
  rw [getMsbD_shiftLeft, hl _ (by omega), Nat.add_assoc, Nat.add_comm j n]

theorem LookaheadInv.ensure {n : Nat} {s t : State} (hl : LookaheadInv s) (hi : ReaderInv s) (hn : n ≤ 32)
    (htail : s.cfg.tailZeroWords = 0) (h : ensure n s = .ok () t) : LookaheadInv t := by
  have hsat := ensure_sat n s
  rw [h] at hsat
  obtain ⟨-, rfl⟩ | ⟨hbits, hw, rfl⟩ := hsat
  · exact hl
  · rw [if_pos (by omega)]
    exact hl.pushWord hi (by omega)

/-! ### readBits (R124) -/

theorem topBits_succ (acc : BitVec 64) {n : Nat} (hn : n < 64) :
    topBits acc (n + 1) = 2 * topBits acc n + (if acc.getMsbD n then 1 else 0) := by
  have hbit : acc.getMsbD n = decide (acc.toNat / 2 ^ (63 - n) % 2 = 1) := by
    rw [BitVec.getMsbD, decide_eq_true hn, Bool.true_and, BitVec.getLsbD, Nat.testBit_eq_decide_div_mod_eq,
      show 64 - 1 - n = 63 - n by omega]
  have hhalf : acc.toNat / 2 ^ (64 - n) = acc.toNat / 2 ^ (63 - n) / 2 := by
    rw [Nat.div_div_eq_div_mul, ← Nat.pow_succ, Nat.succ_eq_add_one, show 63 - n + 1 = 64 - n by omega]
  simp only [topBits, BitVec.toNat_ushiftRight, Nat.shiftRight_eq_div_pow, hhalf, hbit, decide_eq_true_eq,
    show 64 - (n + 1) = 63 - n by omega]
  split <;> omega

theorem LookaheadInv.topBits_eq {s : State} (hl : LookaheadInv s) {n : Nat} (hn : n ≤ 64) (hbits : n ≤ s.br.bits) :
    topBits s.br.acc n = streamField s s.br.c n := by
  induction n with
  | zero => exact Nat.lt_one_iff.mp (topBits_lt s.br.acc 0 (by omega))
  | succ n ih => rw [topBits_succ _ (by omega), streamField, ih (by omega) (by omega), hl n (by omega)]

/-- Settles O24: the refill and the drop of a field keep the lookahead at the stream's next bits, and the field is its top. -/
theorem readBitsReturnsTheStream : Obligations.ReadBitsReturnsTheStream := by
  unfold Obligations.ReadBitsReturnsTheStream
  intro n s _ hn htail hi hl hcan
  obtain ⟨t, ht⟩ := ensure_of_canRead hcan
  have hread := readBits_of_ensure hn ht
  have hlook : LookaheadInv t := hl.ensure hi hn htail ht
  have hensure := ensure_bits n s hn
  rw [ht] at hensure
  obtain ⟨hbits, honly, hcursor, -⟩ := hensure
  have hvalue : topBits t.br.acc n = streamField s s.br.c n := by
    rw [hlook.topBits_eq (by omega) hbits, honly.streamField_eq, hcursor]
  have hstep := readBits_step n s hn
  rw [hread] at hstep
  obtain ⟨hreader, -⟩ := hstep
  exact ⟨dropBits n t, by rw [hread, hvalue], hreader.only, by rw [dropBits_br, hcursor], hreader.words, hreader.inv hi,
    hlook.dropBits n⟩

/-! ### Reads that stop (R121, R124; 20_memory R65) -/

theorem Res.bind_assoc {α β γ : Type} (r : Res α) (f : α → State → Res β) (g : β → State → Res γ) :
    (r.bind f).bind g = r.bind fun a s => (f a s).bind g := by
  cases r <;> rfl

theorem readBits_ended {n : Nat} {s : State} (hbits : s.br.bits < n) (hend : s.br.n + s.cfg.tailZeroWords ≤ s.br.w) :
    readBits n s = .raise .truncatedInput s := by
  rw [readBits, ensure_ended n s hbits hend, Res.bind_raise]

theorem readBits_not_admitted {n : Nat} {s : State} (hbits : s.br.bits < n) (hw : s.br.w < s.br.n)
    (hadmit : inputAdmitted s s.br.w = false) : readBits n s = .fault .accessNotAdmitted := by
  rw [readBits, ensure_not_admitted n s hbits hw hadmit, Res.bind_fault]

theorem exec_lenInstr {q : Nat} (hq : q ≤ 6) (r : BitVec 2) (s : State) :
    exec (lenInstr q r) s = (takeLength (readLength q r) s).finish := by
  match q, hq with
  | 0, _ | 1, _ | 2, _ | 3, _ | 4, _ | 5, _ | 6, _ => rfl

theorem exec_offInstr {q : Nat} (hq : q ≤ 16) (r : BitVec 1) (s : State) :
    exec (offInstr q r) s = (backReference (readOffset q r) s).finish := by
  match q, hq with
  | 0, _ | 1, _ | 2, _ | 3, _ | 4, _ | 5, _ | 6, _ | 7, _ | 8, _ => rfl
  | 9, _ | 10, _ | 11, _ | 12, _ | 13, _ | 14, _ | 15, _ | 16, _ => rfl
  | n + 17, h => omega

section
variable {n : Nat} {s : State} {out : Host.Outcome State Fault Refusal}

theorem ReadStops.ne_zero (h : ReadStops n s out) : n ≠ 0 := by
  obtain ⟨hbits, -⟩ := h
  omega

theorem readExtra_stops (h : ReadStops n s out) (f : Nat → State → Res Unit) : ((readExtra n s).bind f).finish = out := by
  rw [readExtra, if_neg h.ne_zero]
  exact readBits_stops h f

theorem exec_lenInstr_stops {q : Nat} (hq : q ≤ 6) (r : BitVec 2) (h : ReadStops (q - 1) s out) : exec (lenInstr q r) s = out := by
  rw [exec_lenInstr hq, takeLength, readLength, Res.bind_assoc]
  exact readExtra_stops h _

theorem exec_offInstr_stops {q : Nat} (hq : q ≤ 16) (r : BitVec 1) (h : ReadStops (q - 1) s out) : exec (offInstr q r) s = out := by
  rw [exec_offInstr hq, backReference, readOffset, Res.bind_assoc]
  exact readExtra_stops h _

theorem codeField_eq_some {due : Bool} {tree : Tree} (h : (if due && !tree.empty then some 32 else none) = some n) :
    n = 32 ∧ due = true ∧ tree.empty = false := by
  split at h
  · rename_i hcond
    rw [Bool.and_eq_true_iff, Bool.not_eq_true'] at hcond
    exact ⟨(Option.some.inj h).symm, hcond⟩
  · cases h

/-- A stage that reads works on a field, or reads the code of a tree that is not empty. -/
theorem work_or_item_of_fieldDue (h : fieldDue s = some n) :
    (∃ f, stageWork s = some ((readBits n s).bind f)) ∨
      n = 32 ∧ ∃ tree f, tree.empty = false ∧ stageItem s = some ((readCode tree s).bind f) := by
  unfold fieldDue at h
  cases hstage : s.stage with
  | genHeader | genSize | texMagic | texTag | texBody | texFlags | treeCount | texDims | maxCount =>
    simp only [hstage, Option.some.injEq] at h
    subst h
    exact .inl ⟨_, by rw [stageWork, hstage]; rfl⟩
  | genAddend =>
    simp only [hstage, Option.some.injEq] at h
    refine .inl ?_
    by_cases hskip : s.cfg.addendPrefixSkip = 0
    · rw [if_pos hskip] at h
      subst h
      exact ⟨_, by rw [stageWork, hstage, genAddend, readExtra, if_pos hskip, Res.bind_ok]⟩
    · rw [if_neg hskip] at h
      subst h
      exact ⟨_, by rw [stageWork, hstage, genAddend, readExtra, if_neg hskip]⟩
  | treeLoop sel =>
    rw [hstage] at h
    obtain ⟨rfl, hdue, hempty⟩ := codeField_eq_some h
    exact .inr ⟨rfl, _, _, hempty, stageItem_treeLoop hstage (of_decide_eq_true hdue)⟩
  | symLoop =>
    rw [hstage] at h
    obtain ⟨rfl, hdue, hempty⟩ := codeField_eq_some h
    exact .inr ⟨rfl, _, _, hempty, by rw [stageItem, hstage]; exact if_pos hdue⟩
  | copyCode =>
    rw [hstage] at h
    obtain ⟨rfl, -, hempty⟩ := codeField_eq_some h
    exact .inr ⟨rfl, _, _, hempty, stageItem_copyCode hstage⟩
  | runLoop p =>
    rw [hstage] at h
    obtain ⟨rfl, hdue, hempty⟩ := codeField_eq_some h
    exact .inr ⟨rfl, _, _, hempty, stageItem_runLoop hstage (of_decide_eq_true hdue)⟩
  | start | genLoop | texClear | pass | rewind | alphaCopy | colorCopy | texDone => simp [hstage] at h

end

theorem stageWork_of_stageItem {s : State} {r : Res Code} (h : stageItem s = some r) : stageWork s = none := by
  unfold stageItem at h
  unfold stageWork
  cases hstage : s.stage with
  | treeLoop | symLoop | runLoop | texClear | pass =>
    simp only [hstage] at h ⊢
    split at h <;> simp_all
  | copyCode => rfl
  | _ => simp [hstage] at h

theorem step_stageItem {s t : State} {r : Res Code} (h : engineTurn s = some t) (hb : t.phase = .busy) (hr : stageItem t = some r) :
    step s = runFetched (fetchRead r) := by
  rw [step_of_engineTurn h]
  obtain ⟨hidle, -⟩ | ⟨-, r', hwork, -⟩ | ⟨-, r', hitem, hfetch⟩ := engineFetch_cases t
  · rw [hidle] at hb
    cases hb
  · rw [stageWork_of_stageItem hr] at hwork
    cases hwork
  · rw [hr] at hitem
    cases hitem
    rw [hfetch]

theorem step_fieldDue_stops {z s : State} {n : Nat} {out : Host.Outcome State Fault Refusal} (h : engineTurn z = some s)
    (hb : s.phase = .busy) (hdue : fieldDue s = some n) (hstops : ReadStops n s out) : step z = out := by
  obtain ⟨f, hwork⟩ | ⟨rfl, tree, f, hempty, hitem⟩ := work_or_item_of_fieldDue hdue
  · rw [step_work h hb hwork]
    exact readBits_stops hstops f
  · rw [step_stageItem h hb hitem]
    exact readCode_stops tree hempty hstops f

/-- Settles O25: a read that stops ends the instruction or the step it is the first read of (`work_or_item_of_fieldDue`), and
the second read of a step ends it too. -/
theorem truncatedFieldsRaise : Obligations.TruncatedFieldsRaise := by
  unfold Obligations.TruncatedFieldsRaise
  refine ⟨fun n s => readBits_ended, fun n s => readBits_not_admitted, fun n s out hstops => ?first, fun z s u v out h hb => ?second⟩
  case first =>
    refine ⟨?_, ?_, ?_, ?_, fun z h hb hdue => step_fieldDue_stops h hb hdue hstops⟩
    · rintro q r hq rfl
      exact exec_lenInstr_stops hq r hstops
    · rintro q r hq rfl
      exact exec_offInstr_stops hq r hstops
    · rintro w rfl
      exact readBits_stops hstops _
    · rintro w rfl
      exact readBits_stops hstops _
  case second =>
    constructor
    · intro hstage hread hstops
      rw [step_work h hb (by rw [stageWork, hstage]), texDims, hread, Res.bind_ok]
      exact readBits_stops hstops _
    · intro hstage hread hstops
      rw [step_work h hb (by rw [stageWork, hstage]), genAddend, hread, Res.bind_ok]
      exact readBits_stops hstops _

/-! ### The rewind (R129, 43_texture R235) -/

theorem step_rewind {s t : State} (h : engineTurn s = some t) (hb : t.phase = .busy) (hstage : t.stage = .rewind) :
    step s = .next { t with tex := { t.tex with lit := rewindLit t }, stage := .alphaCopy 0 } := by
  rw [step_work h hb (r := .ok () (rewindStep t)) (by rw [stageWork, hstage])]
  rfl

/-- Settles O50: the two values of `rewindLit`. -/
theorem rewindSetsTheLiteralCursor : Obligations.RewindSetsTheLiteralCursor := by
  unfold Obligations.RewindSetsTheLiteralCursor
  intro s t h hb hstage
  rw [step_rewind h hb hstage, rewindLit]
  exact ⟨fun hlookahead => by rw [if_pos hlookahead], fun hlookahead => by rw [if_neg hlookahead]⟩

end Sys2Proof.Machine
end

section
/-! The Huffman table family, first part (41_huffman R145 to R151): when a build fails, the codes it assigns, and what readCode
answers for a window. Laws/Build.lean follows the counter of the assignment through the build; here its facts are read off for
the whole build. -/

namespace Sys2Proof.Machine

/-! ### Windows (R147 to R149) -/

/-- A window selects nothing when its hash slot is empty and its comparison entry, if it has one, points past the symbols. -/
theorem lookup_eq_none_iff {t : Tree} {w : Nat} :
    t.lookup w = none ↔ t.hash.getD (w / 2 ^ 24) none = none ∧
      ∀ e, t.cmp.find? (fun e => decide (e.ct.toNat ≤ w)) = some e →
        t.st[e.co - ((w - e.ct.toNat) >>> (32 - e.cl))]? = none := by
  rw [← Nat.shiftRight_eq_div_pow]
  unfold Tree.lookup
  cases hslot : t.hash.getD (w >>> 24) none with
  | some e => simp
  | none => cases hfind : t.cmp.find? fun e => decide (e.ct.toNat ≤ w) <;> simp

/-! ### readCode (R146) -/

section
variable {t : Tree} {s u : State} {w : Nat}

theorem peek_eq_ok {n : Nat} (h : peek n s = .ok w u) : n ≤ s.br.bits ∧ w = topBits s.br.acc n ∧ u = s := by
  unfold peek at h
  split at h
  · cases h
  · cases h
    exact ⟨by omega, rfl, rfl⟩

theorem readCode_empty (h : t.empty = true) : readCode t s = .raise .emptyTree s := if_pos h

theorem readCode_ended (h : t.empty = false) (hbits : s.br.bits < 32) (hend : s.br.n + s.cfg.tailZeroWords ≤ s.br.w) :
    readCode t s = .raise .truncatedInput s := by
  rw [readCode, if_neg (by simp [h]), ensure_ended 32 s hbits hend, Res.bind_raise]

theorem readCode_none (h : t.empty = false) (hensure : ensure 32 s = .ok () u) (hpeek : peek 32 u = .ok w u)
    (hlookup : t.lookup w = none) : readCode t s = .raise .invalidCode u := by
  rw [readCode, if_neg (by simp [h]), hensure, Res.bind_ok, hpeek, Res.bind_ok, hlookup]

theorem readCode_some {sym : Sym} {len : Nat} (h : t.empty = false) (hensure : ensure 32 s = .ok () u)
    (hpeek : peek 32 u = .ok w u) (hlookup : t.lookup w = some (sym, len)) (hlen : len ≤ 32) :
    readCode t s = .ok sym (dropBits len u) := by
  obtain ⟨hbits, -, -⟩ := peek_eq_ok hpeek
  have hconsume : consume len u = .ok () (dropBits len u) := if_neg (by omega)
  rw [readCode, if_neg (by simp [h]), hensure, Res.bind_ok, hpeek, Res.bind_ok, hlookup]
  simp only [hconsume, Res.bind_ok]

end

/-- Settles O30: the three ways `readCode` raises, and `lookup_eq_none_iff`. -/
theorem codeErrors : Obligations.CodeErrors := by
  unfold Obligations.CodeErrors
  refine fun t s => ⟨readCode_empty, readCode_ended, fun h u w => readCode_none h, fun w hslot habove => ?_,
    fun w => lookup_eq_none_iff.mp⟩
  refine lookup_eq_none_iff.mpr ⟨hslot, fun e he => ?_⟩
  have hle := List.find?_some he
  have hlt := habove e (List.mem_of_find?_eq_some he)
  exact absurd (of_decide_eq_true hle) (by omega)

/-! ### A whole build (R145) -/

theorem build_empty {lists : List (List Sym)} {t : Tree} (h : build lists = some t) :
    t.empty = true ↔ ∀ l, l ∈ lists → l = [] := by
  rw [buildFrom_empty (f := 1) h]
  exact and_iff_right rfl

/-- Settles O27: `build_none` and `build_empty`. -/
theorem buildFailsOnOversubscription : Obligations.BuildFailsOnOversubscription := by
  unfold Obligations.BuildFailsOnOversubscription
  exact fun lists h => ⟨build_none lists h, fun t => build_empty⟩

/-- Settles O29: the tree is not empty, since it has the symbol, and `build_lookup` gives what the window selects. -/
theorem buildReadRoundTrip : Obligations.BuildReadRoundTrip := by
  unfold Obligations.BuildReadRoundTrip
  intro lists t a j l sym hlen hbuild ha hj
  have hlookup {w : Nat} (hw : w < 4294967296) (hcode : ((w / 2 ^ (31 - a) : Nat) : Int) = startCounter lists (a + 1) - j) :
      t.lookup w = some (sym, a + 1) := build_lookup hlen hbuild ha hj hw hcode
  refine ⟨fun w => hlookup, fun s u w hensure hpeek hcode => ?_⟩
  have hne : t.empty = false := by
    rw [← Bool.not_eq_true, build_empty hbuild]
    intro hall
    rw [hall l (List.mem_of_getElem? ha)] at hj
    cases hj
  have hw : w < 4294967296 := by
    obtain ⟨-, rfl, -⟩ := peek_eq_ok hpeek
    exact topBits_lt _ 32 (by decide)
  obtain ⟨haLength, -⟩ := List.getElem?_eq_some_iff.mp ha
  exact readCode_some hne hensure hpeek (hlookup hw hcode) (by omega)

/-! ### The codes (R150) -/

/-- The counter covers the codes of its length, and is at most the all-ones code. -/
theorem startCounter_bounds {lists : List (List Sym)} {t : Tree} (h : build lists = some t) {a : Nat} {l : List Sym}
    (ha : lists[a]? = some l) :
    (l.length : Int) ≤ startCounter lists (a + 1) + 1 ∧ startCounter lists (a + 1) < 2 ^ (a + 1) := by
  obtain ⟨m, hm, hlen, hpow, -⟩ := counterFrom_bounds (len := 1) (f := 1) (by decide) (by decide) h ha
  have hstart : startCounter lists (a + 1) = (m : Int) - 1 := hm
  have hpow : (m : Int) ≤ 2 ^ (a + 1) := by
    rw [Nat.add_comm a 1]
    exact_mod_cast hpow
  omega

/-- Over lengths without symbols an all-ones counter stays all ones. -/
theorem counterFrom_of_empty {a : Nat} {lists : List (List Sym)} (hempty : ∀ b, b < a → lists[b]? = some []) (k : Nat) :
    counterFrom a lists (2 ^ k - 1) = 2 ^ (k + a) - 1 := by
  induction a generalizing lists k with
  | zero => rfl
  | succ a ih =>
    cases lists with
    | nil => cases hempty 0 (by omega)
    | cons l rest =>
      obtain rfl : l = [] := Option.some.inj (hempty 0 (by omega))
      have hrest : ∀ b, b < a → rest[b]? = some [] := fun b hb => hempty (b + 1) (by omega)
      have hstep : 2 * ((2 : Int) ^ k - 1 - ([] : List Sym).length) + 1 = 2 ^ (k + 1) - 1 := by
        rw [Int.pow_succ, List.length_nil, Int.natCast_zero]
        omega
      rw [counterFrom, hstep, ih hrest, show k + 1 + a = k + (a + 1) by omega]

theorem startCounter_of_empty {a : Nat} {lists : List (List Sym)} (hempty : ∀ b, b < a → lists[b]? = some []) :
    startCounter lists (a + 1) = 2 ^ (a + 1) - 1 :=
  (counterFrom_of_empty hempty 1).trans (by rw [Nat.add_comm])

/-- The counter from a length on depends on the lists from there on (R142). -/
theorem counterFrom_add {a : Nat} {lists : List (List Sym)} {l : List Sym} (ha : lists[a]? = some l) (n : Nat) (c : Int) :
    counterFrom (a + 1 + n) lists c = counterFrom n (lists.drop (a + 1)) (2 * (counterFrom a lists c - l.length) + 1) := by
  induction a generalizing lists c with
  | zero =>
    cases lists with
    | nil => cases ha
    | cons l' rest =>
      obtain rfl : l' = l := Option.some.inj ha
      rw [Nat.add_comm]
      rfl
  | succ a ih =>
    cases lists with
    | nil => cases ha
    | cons l' rest =>
      rw [show a + 1 + 1 + n = a + 1 + n + 1 by omega, counterFrom, ih ha]
      rfl

/-- The number of codes still free at most doubles with each length. -/
theorem counterFrom_le {n : Nat} {lists : List (List Sym)} (hn : n ≤ lists.length) (c : Int) :
    counterFrom n lists c + 1 ≤ (c + 1) * 2 ^ n := by
  induction n generalizing lists c with
  | zero => simp [counterFrom]
  | succ n ih =>
    cases lists with
    | nil => simp at hn
    | cons l rest =>
      calc counterFrom n rest (2 * (c - l.length) + 1) + 1
          ≤ (2 * (c - l.length) + 1 + 1) * 2 ^ n := ih (Nat.le_of_succ_le_succ hn) _
        _ ≤ ((c + 1) * 2) * 2 ^ n := Int.mul_le_mul_of_nonneg_right (by omega) (Int.pow_nonneg (by decide))
        _ = (c + 1) * 2 ^ (n + 1) := by rw [Int.pow_succ', Int.mul_assoc]

/-- A code of a longer length, cut to `a + 1` bits, is below every code of that length. -/
theorem startCounter_div_lt {lists : List (List Sym)} {a b : Nat} {l : List Sym} (ha : lists[a]? = some l) (hab : a < b)
    (hb : b < lists.length) (j : Nat) :
    (startCounter lists (b + 1) - j) / 2 ^ (b - a) < startCounter lists (a + 1) - l.length + 1 := by
  obtain ⟨n, rfl⟩ : ∃ n, b = a + 1 + n := Nat.exists_eq_add_of_le hab
  have hsplit : startCounter lists (a + 1 + n + 1) =
      counterFrom n (lists.drop (a + 1)) (2 * (startCounter lists (a + 1) - l.length) + 1) := counterFrom_add ha n 1
  have hle := counterFrom_le (n := n) (lists := lists.drop (a + 1)) (by rw [List.length_drop]; omega)
    (2 * (startCounter lists (a + 1) - l.length) + 1)
  have hpow : (2 * (startCounter lists (a + 1) - l.length) + 1 + 1) * (2 : Int) ^ n =
      (startCounter lists (a + 1) - l.length + 1) * 2 ^ (a + 1 + n - a) := by
    rw [show a + 1 + n - a = n + 1 by omega, Int.pow_succ', ← Int.mul_assoc]
    congr 1
    omega
  refine Int.ediv_lt_of_lt_mul (Int.pow_pos (by decide)) ?_
  omega

/-- Settles O28: `startCounter_bounds` gives the range, `startCounter_of_empty` the all-ones code; two codes of one length
differ, and `startCounter_div_lt` separates two lengths. -/
theorem codesArePrefixFree : Obligations.CodesArePrefixFree := by
  unfold Obligations.CodesArePrefixFree
  intro lists t _ hbuild
  refine ⟨fun a j l ha hj => ?range, fun a l _ _ => startCounter_of_empty,
    fun a b i j la lb hab ha hb hi hj hne => ?apart⟩
  case range =>
    obtain ⟨hlen, hpow⟩ := startCounter_bounds hbuild ha
    omega
  case apart =>
    obtain rfl | hlt := Nat.eq_or_lt_of_le hab
    · have hij : i ≠ j := fun h => hne (by rw [h])
      rw [Nat.sub_self, Int.pow_zero, Int.ediv_one]
      omega
    · obtain ⟨hbLength, -⟩ := List.getElem?_eq_some_iff.mp hb
      have hlower := startCounter_div_lt ha hlt hbLength j
      omega

end Sys2Proof.Machine
end

section
/-! The Huffman table family, second part (41_huffman R153, R156): a step that is no reset leaves each dictionary as it is or
builds it, and it builds it only while its flag is false. Derived from `engine_next` and `host_next`. -/

namespace Sys2Proof.Machine

/-! ### What a step does to a dictionary -/

/-- A dictionary and its flag, before and after: nothing, or its one build from `lists` (41_huffman R153). -/
def DictMove (lists : List (List Sym)) (d : Tree) (ready : Bool) (d' : Tree) (ready' : Bool) : Prop :=
  (d' = d ∧ ready' = ready) ∨ (ready = false ∧ d' = (build lists).getD Tree.blank ∧ ready' = true)

section
variable {lists : List (List Sym)} {d d' : Tree} {ready ready' : Bool} (h : DictMove lists d ready d' ready')
include h

theorem DictMove.kept (hready : ready = true) : d' = d ∧ ready' = true := by
  obtain ⟨rfl, rfl⟩ | ⟨hnot, -⟩ := h
  · exact ⟨rfl, hready⟩
  · cases hready.symm.trans hnot

theorem DictMove.built (hbuilt : ready = true → d = (build lists).getD Tree.blank) (hready : ready' = true) :
    d' = (build lists).getD Tree.blank := by
  obtain ⟨rfl, rfl⟩ | ⟨-, hd, -⟩ := h
  · exact hbuilt hready
  · exact hd

end

theorem dictEnsureG_move (s : State) :
    DictMove s.cfg.dictGeneric s.dictG s.dictReadyG (dictEnsureG s).dictG (dictEnsureG s).dictReadyG := by
  unfold dictEnsureG
  split
  case isTrue => exact .inl ⟨rfl, rfl⟩
  case isFalse hnot => exact .inr ⟨Bool.of_not_eq_true hnot, rfl, rfl⟩

theorem dictEnsureT_move (s : State) :
    DictMove s.cfg.dictTexture s.dictT s.dictReadyT (dictEnsureT s).dictT (dictEnsureT s).dictReadyT := by
  unfold dictEnsureT
  split
  case isTrue => exact .inl ⟨rfl, rfl⟩
  case isFalse hnot => exact .inr ⟨Bool.of_not_eq_true hnot, rfl, rfl⟩

/-- The two states agree on the dictionaries, their flags and the parameters they are built from. -/
structure SameDicts (s t : State) : Prop where
  cfg : t.cfg = s.cfg
  dictG : t.dictG = s.dictG
  readyG : t.dictReadyG = s.dictReadyG
  dictT : t.dictT = s.dictT
  readyT : t.dictReadyT = s.dictReadyT

/-- A step does to each dictionary what `DictMove` allows. -/
structure DictStep (s t : State) : Prop where
  cfg : t.cfg = s.cfg
  generic : DictMove s.cfg.dictGeneric s.dictG s.dictReadyG t.dictG t.dictReadyG
  texture : DictMove s.cfg.dictTexture s.dictT s.dictReadyT t.dictT t.dictReadyT

theorem SameDicts.dictStep {s t : State} (h : SameDicts s t) : DictStep s t :=
  ⟨h.cfg, .inl ⟨h.dictG, h.readyG⟩, .inl ⟨h.dictT, h.readyT⟩⟩

theorem SameDicts.trans_dictStep {s t u : State} (h : SameDicts s t) (h' : DictStep t u) : DictStep s u := by
  obtain ⟨hcfg, hgeneric, htexture⟩ := h'
  rw [h.cfg] at hcfg
  rw [h.cfg, h.dictG, h.readyG] at hgeneric
  rw [h.cfg, h.dictT, h.readyT] at htexture
  exact ⟨hcfg, hgeneric, htexture⟩

theorem DictStep.dictInv {s t : State} (h : DictStep s t) (hinv : DictInv s) : DictInv t := by
  refine ⟨fun hready => ?_, fun hready => ?_⟩
  · rw [h.cfg]
    exact h.generic.built hinv.generic hready
  · rw [h.cfg]
    exact h.texture.built hinv.texture hready

/-! ### The engine -/

theorem Wrote.sameDicts {m : Nat} {u w : State} (h : Wrote m u w) : SameDicts u w := by
  rw [h.state]
  exact ⟨rfl, rfl, rfl, rfl, rfl⟩

theorem Ran.sameDicts {a : RunAct} {blocks : List Nat} {u w : State} (h : Ran a blocks u w) : SameDicts u w := by
  rw [h.state]
  exact ⟨rfl, rfl, rfl, rfl, rfl⟩

theorem Copied.sameDicts {i off m : Nat} {u w : State} (h : Copied i off m u w) : SameDicts u w := by
  rw [h.state]
  exact ⟨rfl, rfl, rfl, rfl, rfl⟩

theorem SameDicts.goTo {s t : State} (h : SameDicts s t) (st : Stage) : SameDicts s (goTo st t) :=
  ⟨h.cfg, h.dictG, h.readyG, h.dictT, h.readyT⟩

theorem SameDicts.countCode {s t : State} (h : SameDicts s t) : SameDicts s (countCode t) :=
  ⟨h.cfg, h.dictG, h.readyG, h.dictT, h.readyT⟩

/-- Only the first step of a command builds a dictionary (44_host R274). -/
theorem EngineNext.dictStep {u v : State} (h : EngineNext u v) : DictStep u v := by
  cases h with
  | startG => exact ⟨dictEnsureG_cfg u, dictEnsureG_move u, .inl ⟨dictEnsureG_dictT u, dictEnsureG_dictReadyT u⟩⟩
  | startT => exact ⟨dictEnsureT_cfg u, .inl ⟨dictEnsureT_dictG u, dictEnsureT_dictReadyG u⟩, dictEnsureT_move u⟩
  | treeBuild sel => cases sel <;> exact SameDicts.dictStep ⟨rfl, rfl, rfl, rfl, rfl⟩
  | literal w _ _ h => exact h.sameDicts.countCode.dictStep
  | copy m w _ _ h => exact h.sameDicts.countCode.dictStep
  | run p a blocks w _ _ h => exact h.sameDicts.dictStep
  | copyAlpha i m w st _ _ _ h => exact (h.sameDicts.goTo st).dictStep
  | copyColor i m w st _ _ _ h => exact (h.sameDicts.goTo st).dictStep
  | _ => exact SameDicts.dictStep ⟨rfl, rfl, rfl, rfl, rfl⟩

theorem EngineRaise.sameDicts {u x : State} (h : EngineRaise u x) : SameDicts u x := by
  rw [h.state]
  exact ⟨rfl, rfl, rfl, rfl, rfl⟩

/-- The report of an error leaves the dictionaries alone (60_exceptions R302). -/
theorem sameDicts_raiseError (e : ErrKind) (s : State) : SameDicts s (raiseError e s) :=
  ⟨raiseError_cfg e s, raiseError_dictG e s, raiseError_dictReadyG e s, raiseError_dictT e s, raiseError_dictReadyT e s⟩

theorem ReaderStep.sameDicts {t u : State} (h : ReaderStep t u) : SameDicts t u := by
  rw [h.only]
  exact ⟨rfl, rfl, rfl, rfl, rfl⟩

theorem EngineStep.dictStep {t v : State} (h : EngineStep t v) : DictStep t v := by
  obtain ⟨u, hread, hnext | ⟨e, x, hraise, rfl⟩⟩ := h
  · exact hread.sameDicts.trans_dictStep hnext.dictStep
  · exact hread.sameDicts.trans_dictStep (hraise.sameDicts.trans_dictStep (sameDicts_raiseError e x).dictStep)

/-! ### The host -/

/-- The dictionaries a move of the host leaves; a reset clears both flags (70_reset R340). -/
theorem HostNext.dicts {t v : State} {m : HostMove} (h : HostNext t m v) :
    SameDicts t v ∨ m = .reset ∧ v.dictReadyG = false ∧ v.dictReadyT = false := by
  cases h with
  | csr m offset x =>
    rw [writeCsr_eq]
    exact .inl ⟨rfl, rfl, rfl, rfl, rfl⟩
  | write m a bytes =>
    rw [setBytes_eq]
    exact .inl ⟨rfl, rfl, rfl, rfl, rfl⟩
  | reset => exact .inr ⟨rfl, rfl, rfl⟩
  | _ => exact .inl ⟨rfl, rfl, rfl, rfl, rfl⟩

/-! ### Every step -/

theorem step_dicts {s v : State} (hs : step s = .next v) :
    DictStep s v ∨ (∃ t, hostTurn s = some (.reset, t)) ∧ v.dictReadyG = false ∧ v.dictReadyT = false := by
  obtain ⟨t, hturn⟩ | ⟨m, t, hturn⟩ := turn_cases s
  · have hsame : SameDicts s t := by
      rw [engineTurn_eq hturn]
      exact ⟨rfl, rfl, rfl, rfl, rfl⟩
    obtain ⟨-, rfl⟩ | ⟨-, hstep⟩ := engine_next hturn hs
    · exact .inl hsame.dictStep
    · exact .inl (hsame.trans_dictStep hstep.dictStep)
  · have hsame : SameDicts s t := by
      rw [hostTurn_eq hturn]
      exact ⟨rfl, rfl, rfl, rfl, rfl⟩
    obtain hkept | ⟨rfl, hclear⟩ := (host_next hturn hs).dicts
    · exact .inl (hsame.trans_dictStep hkept.dictStep)
    · exact .inr ⟨⟨t, hturn⟩, hclear⟩

/-- Settles O31: a step that is no reset is a `DictStep`, and after a reset no dictionary is built. -/
theorem dictionariesAreImmutable : Obligations.DictionariesAreImmutable := by
  unfold Obligations.DictionariesAreImmutable
  constructor
  · intro s t hinv hs
    obtain hstep | ⟨-, hclearG, hclearT⟩ := step_dicts hs
    · exact hstep.dictInv hinv
    · exact ⟨by simp [hclearG], by simp [hclearT]⟩
  · intro s t hs hreset
    obtain hstep | ⟨⟨u, hturn⟩, -⟩ := step_dicts hs
    · exact ⟨hstep.generic.kept, hstep.texture.kept⟩
    · exact absurd hturn (hreset u)

end Sys2Proof.Machine
end

section
/-! The generic decoder family, first part (42_generic R183, R185 to R189, R198): literals, lengths and back-references, and the
instructions whose own effect is an error. -/

namespace Sys2Proof.Machine

/-! ### The rows that raise -/

theorem exec_of_raisesOf {i : Instr} {e : ErrKind} (h : raisesOf i = some e) (s : State) : exec i s = .next (raiseError e s) := by
  cases i with
  | lenInvalid | symNone286to287 | symNone288to319 | symNone320to383 | symNone384to511 => cases h; rfl
  | offInvalid34to35 | offInvalid36to39 | offInvalid40to47 | offInvalid48to63 => cases h; rfl
  | offInvalid64to127 | offInvalid128to255 | offInvalid256to511 => cases h; rfl
  | hdrBadlen17 | hdrBadlen18to19 | hdrBadlen20to23 | hdrBadlen24to31 | runCountZero => cases h; rfl
  | _ => cases h

/-- Settles O21: `exec_of_raisesOf`, row by row. -/
theorem raisingInstructions : Obligations.RaisingInstructions := by
  unfold Obligations.RaisingInstructions
  refine ⟨exec_of_raisesOf rfl, fun c s i hi => exec_of_raisesOf ?_ s, fun len rep s i hi => exec_of_raisesOf ?_ s,
    exec_of_raisesOf rfl⟩
  · simp only [List.mem_cons, List.not_mem_nil, or_false] at hi
    obtain rfl | rfl | rfl | rfl | rfl | rfl | rfl := hi <;> rfl
  · simp only [List.mem_cons, List.not_mem_nil, or_false] at hi
    obtain rfl | rfl | rfl | rfl := hi <;> rfl

/-! ### Literals (R189) -/

section
variable {b : Byte} {s : State}

theorem putByte_not_admitted (h : admits s.cfg (outputAddr s s.gen.outPos) = false) :
    putByte b s = .fault .accessNotAdmitted := by
  rw [putByte_eq, if_neg (by simp [h])]

theorem putByte_admitted (h : admits s.cfg (outputAddr s s.gen.outPos) = true) :
    ∃ w, putByte b s = .ok () w ∧ Wrote 1 s w ∧ (memCanonical s = true → byteAt w (outputAddr s s.gen.outPos) = b) := by
  have hsat := putByte_sat b s
  rw [putByte_eq, if_pos h] at hsat ⊢
  exact ⟨_, rfl, hsat⟩

end

/-- The state after one code that wrote `n` output bytes. -/
theorem Wrote.countCode_eq {n : Nat} {s w : State} (h : Wrote n s w) :
    countCode w = { s with
      gen := { s.gen with outPos := s.gen.outPos + n, count := s.gen.count + 1 }
      stage := .symLoop, mem := w.mem, free := w.free } := by
  rw [h.state]
  rfl

/-- Settles O32: `putByte` of the byte, with the code counted. -/
theorem literalWritesOneByte : Obligations.LiteralWritesOneByte := by
  unfold Obligations.LiteralWritesOneByte
  constructor
  · intro byte s h
    rw [exec, execLit, putByte_not_admitted h, Res.bind_fault, Res.finish]
  · intro byte s hcanon h
    obtain ⟨w, hput, hwrote, hbyte⟩ := putByte_admitted (b := byte) h
    refine ⟨countCode w, ?_, hwrote.countCode_eq, hbyte hcanon, fun a ha => hwrote.outside a fun p hlo hhi => ?_⟩
    · rw [exec, execLit, hput, Res.bind_ok, Res.finish]
    · obtain rfl : p = s.gen.outPos := by omega
      exact ha

/-! ### Extra bits (30_encoding R88) -/

theorem readExtra_pred (q : Nat) (s : State) : readExtra (q - 1) s = if q ≤ 1 then .ok 0 s else readBits (q - 1) s := by
  unfold readExtra
  by_cases h : q ≤ 1
  · rw [if_pos h, if_pos (by omega)]
  · rw [if_neg h, if_neg (by omega)]

theorem readExtra_of_canRead {q : Nat} {s : State} (hq : q ≤ 16) (h : q ≤ 1 ∨ canRead (q - 1) s = true) :
    ∃ x u, readExtra (q - 1) s = .ok x u ∧ OnlyReader s u ∧ x < 2 ^ (q - 1) ∧ (q ≤ 1 → u = s) := by
  rw [readExtra_pred]
  by_cases hone : q ≤ 1
  · exact ⟨0, s, if_pos hone, .refl s, Nat.two_pow_pos _, fun _ => rfl⟩
  · obtain ⟨x, u, hread, honly, hx⟩ := readBits_of_canRead (by omega) (h.resolve_left hone)
    exact ⟨x, u, by rw [if_neg hone, hread], honly, hx, fun hle => absurd hle hone⟩

/-! ### Lengths (R185, R186) -/

theorem exec_lenInstr_read {q x : Nat} {s u : State} (hq : q ≤ 6) (r : BitVec 2) (hread : readExtra (q - 1) s = .ok x u) :
    exec (lenInstr q r) s =
      .next { u with gen := { u.gen with curLen := lengthBase q r.toNat + x + u.gen.addend }, stage := .copyCode } := by
  rw [exec_lenInstr hq, takeLength, readLength, hread, Res.bind_ok, Res.bind_ok, Res.finish]

/-- Settles O33: the field of `readExtra`, and `exec_lenInstr_read`. -/
theorem lengthCodes : Obligations.LengthCodes := by
  unfold Obligations.LengthCodes
  refine ⟨fun q r s hq h => ?_, fun s => rfl⟩
  obtain ⟨x, u, hread, honly, hx, hsame⟩ := readExtra_of_canRead (by omega) h
  have hgen : u.gen = s.gen := by rw [honly]
  refine ⟨x, u, readExtra_pred q s ▸ hread, honly, hx, hsame, ?_⟩
  rw [exec_lenInstr_read hq r hread, hgen]
  rfl

/-! ### Back-references (R187, R188) -/

theorem copyBack_eq_copyLoop {k : Nat} {s : State} (h : k ≤ s.gen.outPos) (len : Nat) : copyBack len k s = copyLoop len k s :=
  if_neg (by omega)

theorem copyBack_early {k : Nat} {s : State} (h : s.gen.outPos < k) (len : Nat) :
    copyBack len k s = .raise .invalidBackReference s := if_pos h

section
variable {q x k : Nat} {r : BitVec 1} {s u : State} (hq : q ≤ 16) (hread : readExtra (q - 1) s = .ok x u)
  (hoffset : offsetBase q r.toNat + x + 1 = k)
include hq hread hoffset

theorem exec_offInstr_read :
    exec (offInstr q r) s = ((copyBack u.gen.curLen k u).bind fun _ w => .ok () (countCode w)).finish := by
  rw [exec_offInstr hq, backReference, readOffset, hread, Res.bind_ok, Res.bind_ok, hoffset]

theorem exec_offInstr_copy {w : State} (hk : k ≤ u.gen.outPos) (hcopy : copyLoop u.gen.curLen k u = .ok () w) :
    exec (offInstr q r) s = .next (countCode w) := by
  rw [exec_offInstr_read hq hread hoffset, copyBack_eq_copyLoop hk, hcopy, Res.bind_ok, Res.finish]

theorem exec_offInstr_early (hk : u.gen.outPos < k) : exec (offInstr q r) s = .next (raiseError .invalidBackReference u) := by
  rw [exec_offInstr_read hq hread hoffset, copyBack_early hk, Res.bind_raise, Res.finish]

end

/-- A copy is stuck at the first byte it must write that memory does not admit, or before it at a byte it must read (20_memory
R65). -/
theorem copyLoop_not_admitted {n k p : Nat} {s : State} (hlo : s.gen.outPos ≤ p) (hhi : p < s.gen.outPos + copySize n s)
    (h : admits s.cfg (outputAddr s p) = false) : copyLoop n k s = .fault .accessNotAdmitted := by
  induction n generalizing s with
  | zero =>
    rw [copySize, Nat.zero_min] at hhi
    omega
  | succ n ih =>
    rw [copySize] at hhi
    rw [copyLoop, if_neg (by omega), readByte]
    split
    · rw [Res.bind_ok]
      cases hdst : admits s.cfg (outputAddr s s.gen.outPos) with
      | false => rw [putByte_not_admitted hdst, Res.bind_fault]
      | true =>
        have hne : p ≠ s.gen.outPos := by
          rintro rfl
          rw [hdst] at h
          cases h
        obtain ⟨w, hput, hwrote, -⟩ := putByte_admitted hdst
        rw [hput, Res.bind_ok]
        refine ih ?_ ?_ ?_
        · rw [hwrote.outPos_eq]
          omega
        · rw [copySize, hwrote.outPos_eq, hwrote.outSize_eq]
          omega
        · rwa [hwrote.cfg_eq, hwrote.outputAddr_eq]
    · rfl

/-- Settles O34: `copyLoop_not_admitted`; and after the field of `readExtra`, which changes the reader alone, `copyLoop_ok` or
the early raise. -/
theorem offsetCodesCopy : Obligations.OffsetCodesCopy := by
  unfold Obligations.OffsetCodesCopy
  constructor
  · intro len k p s hk hlo hhi h
    rw [copyBack_eq_copyLoop hk, copyLoop_not_admitted hlo hhi h]
  · intro q r s hq h hcanon hadmit
    obtain ⟨x, u, hread, honly, hx, -⟩ := readExtra_of_canRead hq h
    obtain ⟨br, rfl⟩ : ∃ br, u = { s with br := br } := ⟨u.br, honly⟩
    refine ⟨x, _, readExtra_pred q s ▸ hread, honly, hx, fun hk => ?_, exec_offInstr_early hq hread rfl⟩
    obtain ⟨w, hcopy, hwrote, hbytes⟩ := copyLoop_ok s.gen.curLen _ { s with br := br } hcanon (Nat.le_add_left 1 _) hk hadmit
    exact ⟨countCode w, exec_offInstr_copy hq hread rfl hk hcopy, hwrote.countCode_eq, hbytes, hwrote.outside⟩

/-! ### Overlapping copies (R198) -/

/-- If each of the `n` values of `f` from `p` equals the one `k` places before it, and before `p` the values are those of `g`,
the `k` values of `g` before `p` repeat. -/
theorem periodic_of_step {f g : Nat → Byte} {p k n : Nat} (hk : 1 ≤ k) (hkp : k ≤ p) (hbefore : ∀ q, q < p → f q = g q)
    (hstep : ∀ q, p ≤ q → q < p + n → f q = f (q - k)) (i : Nat) (hi : i < n) : f (p + i) = g (p - k + i % k) := by
  induction i using Nat.strongRecOn with
  | _ i ih =>
    rw [hstep _ (by omega) (by omega)]
    by_cases hlt : i < k
    · rw [hbefore _ (by omega), Nat.mod_eq_of_lt hlt, show p + i - k = p - k + i by omega]
    · rw [show p + i - k = p + (i - k) by omega, ih (i - k) (by omega) (by omega), ← Nat.mod_eq_sub_mod (Nat.le_of_not_lt hlt)]

/-- Settles O35: `copyLoop_ok` gives the step of `periodic_of_step`. -/
theorem copyIsPeriodic : Obligations.CopyIsPeriodic := by
  unfold Obligations.CopyIsPeriodic
  intro len k s hcanon hk hkp hadmit
  obtain ⟨t, hcopy, hwrote, hbytes⟩ := copyLoop_ok len k s hcanon hk hkp hadmit
  have hbefore : ∀ q, q < s.gen.outPos → byteAt t (outputAddr s q) = byteAt s (outputAddr s q) := by
    refine fun q hq => hwrote.outside _ fun p hp _ => ?_
    unfold outputAddr
    omega
  exact ⟨t, (copyBack_eq_copyLoop hkp len).trans hcopy,
    periodic_of_step (f := fun q => byteAt t (outputAddr s q)) (g := fun q => byteAt s (outputAddr s q)) hk hkp hbefore hbytes⟩

end Sys2Proof.Machine
end

section
/-! The generic decoder family, second part (42_generic R180 to R184, R190 to R194): tree headers, the header of a command and
the loop tests. -/

namespace Sys2Proof.Machine

/-! ### Header values (R180 to R183) -/

theorem exec_of_headerRunOf {i : Instr} {len rep : Nat} (h : headerRunOf i = some (len, rep)) (s : State) :
    ∃ r : BitVec 11, rep = r.toNat + 1 ∧ exec i s = (headerRun len r s).finish := by
  unfold headerRunOf at h
  split at h <;> cases h <;> exact ⟨_, rfl, rfl⟩

/-- Settles O36: `assignRun_spec`. -/
theorem headerRuns : Obligations.HeaderRuns := by
  unfold Obligations.HeaderRuns
  intro i len rep s hi _ hlen hrep
  obtain ⟨r, rfl, hexec⟩ := exec_of_headerRunOf hi s
  obtain ⟨hrem, hlists, hget⟩ := assignRun_spec (r.toNat + 1) len s.hdr hrep
  refine ⟨(assignRun (r.toNat + 1) len s.hdr).lists, ?_, hlists.trans hlen, fun a _ => hget a⟩
  rw [hexec, headerRun, if_neg (by omega), Res.finish, ← hrem]

theorem exists_encode_badLength (cfg : Config) {v : Sym} (h : 17 ≤ v.toNat % 32) :
    ∃ i : Instr, i.wf cfg = true ∧ encode i = .hdr v ∧ raisesOf i = some .invalidTree := by
  have hlen : 17 ≤ (v.setWidth 5).toNat := by rwa [BitVec.toNat_setWidth]
  rw [← hdrValue_of_parts v]
  generalize v.setWidth 5 = len at hlen ⊢
  generalize (v >>> 5).setWidth 11 = rep
  obtain rfl | rfl | hrow | hrow | hrow | rfl | rfl | hrow | hrow | hrow := hdrLen_rows len
  · exact absurd hlen (by decide)
  · exact absurd hlen (by decide)
  · rw [inRange_iff] at hrow; omega
  · rw [inRange_iff] at hrow; omega
  · rw [inRange_iff] at hrow; omega
  · exact absurd hlen (by decide)
  · exact ⟨.hdrBadlen17 rep, rfl, rfl, rfl⟩
  · exact ⟨.hdrBadlen18to19 len rep, hrow, rfl, rfl⟩
  · exact ⟨.hdrBadlen20to23 len rep, hrow, rfl, rfl⟩
  · exact ⟨.hdrBadlen24to31 len rep, hrow, rfl, rfl⟩

/-- Settles O37: the value is the encoding of an HDR_BADLEN row, which raises; and the first test of `headerRun`. -/
theorem headerErrors : Obligations.HeaderErrors := by
  unfold Obligations.HeaderErrors
  constructor
  · intro cfg v hv
    obtain ⟨i, hwf, hencode, hraises⟩ := exists_encode_badLength cfg hv
    exact ⟨i, hencode ▸ decode_encode cfg i hwf, exec_of_raisesOf hraises⟩
  · intro i len rep s hi hrep
    obtain ⟨r, rfl, hexec⟩ := exec_of_headerRunOf hi s
    rw [hexec, headerRun, if_pos hrep, Res.finish]

/-! ### The stages that read a field -/

/-- The step of a stage whose work begins with a field, once the field is read. -/
theorem step_field {s t u : State} {n v : Nat} {f : Nat → State → Res Unit} (h : engineTurn s = some t) (hb : t.phase = .busy)
    (hwork : stageWork t = some ((readBits n t).bind f)) (hread : readBits n t = .ok v u) : step s = (f v u).finish := by
  rw [step_work h hb hwork, hread, Res.bind_ok]

/-- Settles O38: `step_field` for the count and M, and the cases of `treeBuild`. -/
theorem treeHeaderSteps : Obligations.TreeHeaderSteps := by
  unfold Obligations.TreeHeaderSteps
  refine fun s t hturn hb => ⟨fun sel n u hstage hread => ?count, fun tree hrem hbuild => ?build,
    fun sel hrem hstage hbuild => ?noBuild, fun m u hstage hread => ?maxCount⟩
  case count =>
    have hwork : stageWork t = some (treeCount sel t) := by rw [stageWork, hstage]
    rw [step_field hturn hb hwork hread]
    constructor
    · intro (hn : n ≤ Config.maxSymbols)
      rw [if_neg (Nat.not_lt.mpr hn), Res.finish, goTo]
    · intro (hn : Config.maxSymbols < n)
      rw [if_pos hn, Res.finish]
  case build =>
    have hstep (sel : TreeSel) (hstage : t.stage = .treeLoop sel) : step s = .next (storeTree sel tree t) := by
      have hwork : stageWork t = some (treeBuild sel t) := by simp only [stageWork, hstage, if_pos hrem]
      rw [step_work hturn hb hwork, treeBuild, hbuild, Res.finish]
    exact ⟨hstep .sym, hstep .copy⟩
  case noBuild =>
    have hwork : stageWork t = some (treeBuild sel t) := by simp only [stageWork, hstage, if_pos hrem]
    rw [step_work hturn hb hwork, treeBuild, hbuild, Res.finish]
  case maxCount =>
    have hwork : stageWork t = some (readMaxCount t) := by rw [stageWork, hstage]
    rw [step_field hturn hb hwork hread, Res.finish, goTo]

/-- Settles O39: `step_field` for the three fields, and the two loop tests. -/
theorem genericHeaderSteps : Obligations.GenericHeaderSteps := by
  unfold Obligations.GenericHeaderSteps
  refine fun s t u v hturn hb => ⟨fun hstage hread => ?header, fun hstage hread => ?size, fun hstage hskip hread => ?addend,
    fun hstage hlt => ?outer, fun hstage hdone => ?inner⟩
  case header =>
    have hwork : stageWork t = some (genHeader t) := by rw [stageWork, hstage]
    rw [step_field hturn hb hwork hread, Res.finish, goTo]
  case size =>
    have hwork : stageWork t = some (genSize t) := by rw [stageWork, hstage]
    rw [step_field hturn hb hwork hread, Res.finish, goTo]
    rfl
  case addend =>
    have hwork : stageWork t = some (genAddend t) := by rw [stageWork, hstage]
    rw [genAddend, readExtra, if_pos hskip, Res.bind_ok] at hwork
    rw [step_field hturn hb hwork hread, Res.finish, goTo]
  case outer =>
    have hwork : stageWork t = some (genLoop t) := by rw [stageWork, hstage]
    rw [step_work hturn hb hwork, genLoop, if_pos hlt, Res.finish, goTo]
  case inner =>
    have hdue : ¬codeDue t = true := by simpa [codeDue] using hdone
    have hwork : stageWork t = some (.ok () (goTo .genLoop t)) := by simp only [stageWork, hstage, if_neg hdue]
    rw [step_work hturn hb hwork, Res.finish, goTo]

end Sys2Proof.Machine
end

section
/-! The generic decoder family, third part (42_generic R195, 70_reset R352): every command ends. `step_lower` takes a running
command down the well-founded order `Lower`. -/

namespace Sys2Proof.Machine

/-! ### The state of a launch -/

theorem prefix_le_of_configWf {cfg : Config} (h : configWf cfg = true) : cfg.addendPrefixSkip ≤ 32 :=
  of_decide_eq_true (Bool.and_eq_true_iff.mp h).2

theorem startWrite_next {w : Word} {f : State → State} {s t : State} (hidle : s.phase = .idle)
    (h : startWrite w f s = .next t) : configWf s.cfg = true ∧ t = f (setCmd w s) := by
  cases hwf : configWf s.cfg with
  | true =>
    rw [startWrite_idle hidle hwf] at h
    cases h
    exact ⟨rfl, rfl⟩
  | false =>
    rw [startWrite_refused hidle hwf] at h
    cases h

theorem runInv_launchCommand {s : State} (h : configWf s.cfg = true) : RunInv (launchCommand s) :=
  ⟨nofun, fun hstage => absurd rfl hstage, prefix_le_of_configWf h⟩

/-! ### The run of a command -/

/-- A run of some length answers no state but one that is IDLE. -/
def EndsIdle (s : State) : Prop := ∃ n, ∀ u, Host.Core.run Sys2Proof.core n s = .next u → u.phase = .idle

theorem endsIdle_of_idle {s : State} (h : s.phase = .idle) : EndsIdle s := by
  refine ⟨0, fun u hu => ?_⟩
  cases hu
  exact h

/-- A step that goes on to a state whose run ends, or that stops. -/
theorem endsIdle_of_step {s : State} (h : ∀ v, step s = .next v → EndsIdle v) : EndsIdle s := by
  cases hstep : step s with
  | next v =>
    obtain ⟨n, hn⟩ := h v hstep
    exact ⟨n + 1, fun u hu => hn u (run_next hstep ▸ hu)⟩
  | fault f => exact ⟨1, fun u hu => nomatch (run_fault (n := 0) hstep).symm.trans hu⟩
  | refused f => exact ⟨1, fun u hu => nomatch (run_refused (n := 0) hstep).symm.trans hu⟩

theorem endsIdle_of_running (s : State) (hinv : RunInv s) (hmoves : s.moves = []) (hb : s.phase = .busy) : EndsIdle s := by
  induction s using lower_wf.induction with
  | _ s ih =>
    refine endsIdle_of_step fun v hstep => ?_
    obtain hidle | ⟨hinv', hmoves', hb', hlower⟩ := step_lower hinv hmoves hb hstep
    · exact endsIdle_of_idle hidle
    · exact ih v hlower hinv' hmoves' hb'

/-- Settles O60: a launch meets `RunInv`, and `endsIdle_of_running`. -/
theorem everyCommandEnds : Obligations.EveryCommandEnds := by
  unfold Obligations.EveryCommandEnds
  intro i args s t hidle hmoves hi hexec
  obtain ⟨w, hw⟩ : ∃ w, startWrite w launchCommand s = .next t := by
    obtain rfl | rfl := hi
    · exact ⟨_, hexec⟩
    · exact ⟨_, hexec⟩
  obtain ⟨hwf, rfl⟩ := startWrite_next hidle hw
  exact endsIdle_of_running _ (runInv_launchCommand hwf) hmoves rfl

end Sys2Proof.Machine
end

section
/-! The texture decoder family, first part (43_texture R222, R226, R240): the registers of a command at each stage. What one
step does to them is `engineNext_command` and `HostNext.command`. -/

namespace Sys2Proof.Machine

/-- The host changes the stage, the launch snapshot and the texture registers by a launch and by a reset alone, and both leave
the first stage. -/
theorem HostNext.command {t v : State} {m : HostMove} (h : HostNext t m v) (c : CommandInv t) : CommandInv v := by
  cases h with
  | csr m offset x => exact commandInv_congr (by rw [writeCsr_eq]) (by rw [writeCsr_eq]) (by rw [writeCsr_eq]) c
  | write m a bytes =>
    exact commandInv_congr (setBytes_stage a bytes t) (setBytes_launch a bytes t) (setBytes_tex a bytes t) c
  | launch | reset => exact commandInv_start rfl
  | _ => exact commandInv_congr (s := t) rfl rfl rfl c

/-- No step changes the configuration, so the FORMAT_TABLE stays well formed with the registers. -/
theorem commandInv_stepKeeps :
    StepKeeps fun s => formatTableWf s.cfg.formatTable = true ∧ CommandInv s where
  turn s _ := fun ⟨hformat, c⟩ => ⟨hformat, commandInv_congr (s := s) rfl rfl rfl c⟩
  read hread := fun ⟨hformat, c⟩ => by
    have hu := hread.only
    exact ⟨by rwa [hu], commandInv_congr hread.stage_eq (by rw [hu]) (by rw [hu]) c⟩
  next _ hnext := fun ⟨hformat, c⟩ => ⟨hnext.keeps.cfg ▸ hformat, engineNext_command hformat hnext c⟩
  raise e hraise := fun ⟨hformat, _⟩ =>
    ⟨(raiseError_cfg e _).trans hraise.cfg_eq ▸ hformat, commandInv_start (raiseError_stage e _)⟩
  host hhost := fun ⟨hformat, c⟩ => ⟨hhost.cfg_eq ▸ hformat, hhost.command c⟩

/-- Settles O58: `commandInv_stepKeeps`. -/
theorem stepKeepsCommandInvariant : Obligations.StepKeepsCommandInvariant := by
  unfold Obligations.StepKeepsCommandInvariant
  intro s t hformat c hs
  exact (commandInv_stepKeeps.step ⟨hformat, c⟩ hs).2

end Sys2Proof.Machine
end

section
/-! The texture decoder family, second part (43_texture R220 to R228, R230 to R233): the header of a command, the zero fill, and
how the passes begin and follow each other. -/

namespace Sys2Proof.Machine

/-! ### The format and the size (R221 to R223) -/

/-- Distinct tags: an entry is the first with its tag. -/
theorem find?_tag_of_mem {table : List FormatEntry} {e : FormatEntry} (he : e ∈ table)
    (hnodup : (table.map (·.tag)).Nodup) : (table.find? fun e' => decide (e'.tag.toNat = e.tag.toNat)) = some e := by
  induction table with
  | nil => cases he
  | cons d rest ih =>
    rw [List.map_cons, List.nodup_cons] at hnodup
    obtain ⟨hd, hrest⟩ := hnodup
    obtain rfl | he := List.mem_cons.mp he
    · exact List.find?_cons_of_pos (decide_eq_true rfl)
    · have hne : ¬d.tag.toNat = e.tag.toNat := fun h =>
        hd (BitVec.eq_of_toNat_eq h ▸ List.mem_map_of_mem (f := (·.tag)) he)
      rw [List.find?_cons_of_neg (by rw [decide_eq_true_eq]; exact hne), ih he hrest]

theorem lookupFormat_of_mem {cfg : Config} {e : FormatEntry} {v : Nat} (he : e ∈ cfg.formatTable)
    (hnodup : (cfg.formatTable.map (·.tag)).Nodup) (htag : e.tag.toNat = v) :
    lookupFormat cfg v = if e.unsupported then none else some e := by
  rw [lookupFormat, ← htag, find?_tag_of_mem he hnodup]

theorem lookupFormat_of_not_mem {cfg : Config} {v : Nat} (h : ∀ e, e ∈ cfg.formatTable → e.tag.toNat ≠ v) :
    lookupFormat cfg v = none := by
  have hfind : (cfg.formatTable.find? fun e => decide (e.tag.toNat = v)) = none :=
    List.find?_eq_none.mpr fun e he => by simpa using h e he
  rw [lookupFormat, hfind]

section
variable {s : State}

theorem texCheckSize_overflow (h : 4294967296 ≤ s.tex.size) : texCheckSize s = .raise .sizeOverflow s := if_pos h

theorem texCheckSize_tooSmall (hsize : s.tex.size < 4294967296) (hpresent : s.launch.cmd.getLsbD 9 = true)
    (hcap : s.launch.outCap.toNat < s.tex.size) : texCheckSize s = .raise .outputTooSmall s := by
  have hfits : ¬Config.addressSpace ≤ s.tex.size := Nat.not_le.mpr hsize
  rw [texCheckSize, if_neg hfits, if_pos ⟨hpresent, hcap⟩]

theorem texCheckSize_ok (hsize : s.tex.size < 4294967296)
    (hcap : s.launch.cmd.getLsbD 9 = true → s.tex.size ≤ s.launch.outCap.toNat) : texCheckSize s = .ok () s := by
  have hfits : ¬Config.addressSpace ≤ s.tex.size := Nat.not_le.mpr hsize
  rw [texCheckSize, if_neg hfits, if_neg]
  rintro ⟨hpresent, hlt⟩
  exact Nat.not_lt.mpr (hcap hpresent) hlt

end

/-! ### The header (R220 to R225) -/

section
variable {s t u : State} {v : Nat} (hturn : engineTurn s = some t) (hb : t.phase = .busy)
include hturn hb

theorem step_texTag (hstage : t.stage = .texTag) (hread : readBits 32 t = .ok v u) :
    step s = match lookupFormat u.cfg v with
      | none => .next (raiseError .unknownFormat u)
      | some e => .next { u with tex := { u.tex with fmt := e }, stage := .texDims } := by
  have hwork : stageWork t = some (texTag t) := by rw [stageWork, hstage]
  rw [step_field hturn hb hwork hread]
  cases lookupFormat u.cfg v <;> rfl

theorem step_texDims {h : Nat} {x y : State} (hstage : t.stage = .texDims) (hwidth : readBits 16 t = .ok v u)
    (hheight : readBits 16 { u with tex := { u.tex with width := BitVec.ofNat 16 v } } = .ok h x)
    (hy : texDerive { x with tex := { x.tex with height := BitVec.ofNat 16 h } } = y) :
    step s = ((texCheckSize y).bind fun _ y => .ok () (goTo .texBody y)).finish := by
  have hwork : stageWork t = some (texDims t) := by rw [stageWork, hstage]
  rw [step_field hturn hb hwork hwidth, hheight, Res.bind_ok, hy]

end

/-- Settles O40: `step_field` for each field, the cases of `lookupFormat` and those of `texCheckSize`. -/
theorem textureHeaderSteps : Obligations.TextureHeaderSteps := by
  unfold Obligations.TextureHeaderSteps
  refine fun s t u v hturn hb => ⟨fun hstage hread => ?magic, fun hstage hread => ⟨?known, ?unknown⟩,
    fun h x hstage hwidth hheight => ?dims, fun hstage hread => ?body, fun hstage hread => ?flags⟩
  case magic =>
    have hwork : stageWork t = some (texMagic t) := by rw [stageWork, hstage]
    rw [step_field hturn hb hwork hread, Res.finish, goTo]
  case known =>
    intro e he hnodup htag
    have hlookup := lookupFormat_of_mem he hnodup htag
    rw [step_texTag hturn hb hstage hread, hlookup]
    exact ⟨fun hsupported => by rw [if_neg (by simp [hsupported])], fun hunsupported => by rw [if_pos hunsupported]⟩
  case unknown =>
    intro hnone
    rw [step_texTag hturn hb hstage hread, lookupFormat_of_not_mem hnone]
  case dims =>
    intro nb bpb y
    have hstep := step_texDims (y := y) hturn hb hstage hwidth hheight rfl
    refine ⟨rfl, fun hover => ?_, fun hsize hpresent hcap => ?_, fun hsize hcap => ?_⟩
    · rw [hstep, texCheckSize_overflow (s := y) hover, Res.bind_raise, Res.finish]
    · rw [hstep, texCheckSize_tooSmall (s := y) hsize hpresent hcap, Res.bind_raise, Res.finish]
    · rw [hstep, texCheckSize_ok (s := y) hsize hcap, Res.bind_ok, Res.finish, goTo]
  case body =>
    have hwork : stageWork t = some (texBody t) := by rw [stageWork, hstage]
    rw [step_field hturn hb hwork hread, Res.finish, goTo]
  case flags =>
    have hwork : stageWork t = some (texFlags t) := by rw [stageWork, hstage]
    rw [step_field hturn hb hwork hread, Res.finish, goTo]

/-! ### The compression flags (R227) -/

/-- Settles O41: the item of the stage is CFLAGS_UNKNOWN. -/
theorem unknownCompressionFlagIsRefused : Obligations.UnknownCompressionFlagIsRefused := by
  unfold Obligations.UnknownCompressionFlagIsRefused
  refine ⟨fun w s => rfl, fun s t hturn hb hstage hflags => ?_⟩
  exact step_item hturn hb (stageItem_texClear hstage hflags) rfl (decode_unknown_iff.mpr ⟨hflags, rfl⟩)

/-! ### The zero fill (R224, R226) -/

theorem byteAt_zeroBytes_output {s : State} (p : Nat) (hp : p < s.tex.size) :
    byteAt (zeroBytes (outputAddr s 0) s.tex.size s) (outputAddr s p) = 0 := by
  rw [byteAt_zeroBytes, if_pos]
  unfold outputAddr
  omega

theorem byteAt_zeroBytes_outside {s : State} {a : Nat} (ha : ∀ p, p < s.tex.size → a ≠ outputAddr s p) :
    byteAt (zeroBytes (outputAddr s 0) s.tex.size s) a = byteAt s a := by
  rw [byteAt_zeroBytes, if_neg]
  rintro ⟨hlo, hhi⟩
  refine ha (a - outputAddr s 0) (by omega) ?_
  unfold outputAddr at hlo ⊢
  omega

/-- Settles O42: the two cases of `texClear`, and `byteAt_zeroBytes`. -/
theorem zeroFillBeforeThePasses : Obligations.ZeroFillBeforeThePasses := by
  unfold Obligations.ZeroFillBeforeThePasses
  intro s t hturn hb hstage hflags
  have hwork : stageWork t = some (texClear t) := by
    simp only [stageWork, hstage]
    exact if_neg (not_not_intro hflags)
  rw [step_work hturn hb hwork, texClear]
  constructor
  · intro (hadmit : admitsRange t.cfg (outputAddr t 0) t.tex.size = false)
    rw [if_neg (by simp [hadmit]), Res.finish]
  · intro (hadmit : admitsRange t.cfg (outputAddr t 0) t.tex.size = true)
    rw [if_pos hadmit]
    exact ⟨_, rfl, rfl, byteAt_zeroBytes_output, fun a => byteAt_zeroBytes_outside⟩

/-! ### The passes (R228, R230 to R233) -/

theorem step_afterPass {s t : State} {p : Pass} (hturn : engineTurn s = some t) (hb : t.phase = .busy)
    (h : (t.stage = .pass p ∧ t.tex.cflags &&& t.cfg.passMask p = 0) ∨ (t.stage = .runLoop p ∧ t.tex.nb ≤ t.tex.pos)) :
    step s = .next (goTo (afterPass p) t) := by
  refine step_work (r := .ok () (goTo (afterPass p) t)) hturn hb ?_
  obtain ⟨hstage, hmask⟩ | ⟨hstage, hpos⟩ := h
  · simp only [stageWork, hstage]
    exact if_neg (not_not_intro hmask)
  · have hdue : ¬runDue t = true := by simpa [runDue] using hpos
    simp only [stageWork, hstage, if_neg hdue]

/-- Settles O43: the item of a pass whose mask is set, and `step_afterPass`. -/
theorem passesRunInOrder : Obligations.PassesRunInOrder := by
  unfold Obligations.PassesRunInOrder
  refine fun s t p hturn hb => ⟨fun hstage hmask => ?selected, fun h => ?after⟩
  case selected =>
    exact step_item hturn hb (stageItem_pass hstage hmask) rfl (decode_pass_iff.mpr ⟨hmask, rfl⟩)
  case after =>
    rw [step_afterPass hturn hb h]
    cases p <;> rfl

theorem colorValue_ofNat (cfg : Config) {v : Nat} (h : v < 16777216) :
    colorValue cfg (BitVec.ofNat 24 v) =
      if v = 0xFFFFFF then cfg.endpointOnes else if v = 0 then cfg.endpointZeros else colorPack cfg (BitVec.ofNat 24 v) := by
  have hones : BitVec.ofNat 24 v = 0xFFFFFF ↔ v = 0xFFFFFF := by simp [BitVec.toNat_eq, Nat.mod_eq_of_lt h]
  have hzeros : BitVec.ofNat 24 v = 0 ↔ v = 0 := by simp [BitVec.toNat_eq, Nat.mod_eq_of_lt h]
  simp only [colorValue, hones, hzeros]

/-- Settles O44: the field of each pass changes the reader alone; `replicateByte_byte` and `colorValue_ofNat` give the value
kept. -/
theorem passesBegin : Obligations.PassesBegin := by
  unfold Obligations.PassesBegin
  refine ⟨fun w s => rfl, fun w s hread => ?alpha, fun w s hread => ?color⟩
  case alpha =>
    obtain ⟨a, u, hread, honly, ha⟩ := readBits_of_canRead (by omega) hread
    obtain ⟨br, rfl⟩ : ∃ br, u = { s with br := br } := ⟨u.br, honly⟩
    refine ⟨a, _, hread, rfl, ha, replicateByte a, fun k => replicateByte_byte ha, ?_⟩
    rw [exec, execPassAlpha, hread]
    rfl
  case color =>
    obtain ⟨v, u, hread, honly, hv⟩ := readBits_of_canRead (by omega) hread
    obtain ⟨br, rfl⟩ : ∃ br, u = { s with br := br } := ⟨u.br, honly⟩
    refine ⟨v, _, hread, rfl, hv, ?_⟩
    rw [exec, execPassColor, hread, ← colorValue_ofNat s.cfg hv]
    rfl

end Sys2Proof.Machine
end

section
/-! The texture decoder family, third part (43_texture R229 to R232, R234): the run records. `runRecord_fits` and
`runRecord_overlong` say when a run answers and when it raises; what each action has then written and marked is read off
`Ran`. -/

namespace Sys2Proof.Machine

/-! ### When a run fits -/

section
variable {map : State → List Bool} {count : Sym} {s : State}

theorem runRecord_fits (hm : IsMap map) (a : RunAct) (hready : TextureReady s)
    (hcount : count.toNat ≤ (absentFrom (map s) s.tex.pos s.tex.nb).length) :
    ∃ t, runRecord map a count s = .ok () t ∧ Ran a (covered (map s) s.tex.pos s.tex.nb count.toNat) s t ∧
      t.tex.pos = posAfter (map s) s.tex.pos s.tex.nb count.toNat := by
  have hsat := runRecord_sat hm a count s hready.pos_le
  obtain ⟨t, hrun⟩ | ⟨e, t, hrun⟩ := runRecord_no_stop (map := map) a count hready
  · rw [hrun] at hsat
    obtain ⟨-, hran, hpos, -⟩ := hsat
    exact ⟨t, hrun, hran, hpos⟩
  · rw [hrun] at hsat
    obtain ⟨-, hlt, -⟩ := hsat
    omega

theorem runRecord_overlong (hm : IsMap map) (a : RunAct) (hready : TextureReady s)
    (hcount : (absentFrom (map s) s.tex.pos s.tex.nb).length < count.toNat) :
    ∃ t, runRecord map a count s = .raise .invalidRun t ∧ Ran a (absentFrom (map s) s.tex.pos s.tex.nb) s t ∧
      t.tex.pos = s.tex.nb := by
  have hsat := runRecord_sat hm a count s hready.pos_le
  obtain ⟨t, hrun⟩ | ⟨e, t, hrun⟩ := runRecord_no_stop (map := map) a count hready
  · rw [hrun] at hsat
    obtain ⟨hle, -⟩ := hsat
    omega
  · rw [hrun] at hsat
    obtain ⟨rfl, -, hran, hpos⟩ := hsat
    exact ⟨t, hrun, hran, hpos⟩

/-- A run that leaves its positions absent needs no memory. -/
theorem runRecord_leave_fits (hm : IsMap map) (hpos : s.tex.pos ≤ s.tex.nb)
    (hcount : count.toNat ≤ (absentFrom (map s) s.tex.pos s.tex.nb).length) :
    runRecord map .leave count s =
      .ok () { s with tex := { s.tex with pos := posAfter (map s) s.tex.pos s.tex.nb count.toNat } } := by
  have hsat := runRecord_sat hm .leave count s hpos
  obtain ⟨p, hrun | ⟨e, hrun⟩⟩ := runRecord_leave map count s
  · rw [hrun] at hsat
    obtain ⟨-, -, hp, -⟩ := hsat
    rw [hrun, ← hp]
  · rw [hrun] at hsat
    obtain ⟨-, hlt, -⟩ := hsat
    omega

theorem runRecord_leave_overlong (hm : IsMap map) (hpos : s.tex.pos ≤ s.tex.nb)
    (hcount : (absentFrom (map s) s.tex.pos s.tex.nb).length < count.toNat) :
    runRecord map .leave count s = .raise .invalidRun { s with tex := { s.tex with pos := s.tex.nb } } := by
  have hsat := runRecord_sat hm .leave count s hpos
  obtain ⟨p, hrun | ⟨e, hrun⟩⟩ := runRecord_leave map count s
  · rw [hrun] at hsat
    obtain ⟨hle, -⟩ := hsat
    omega
  · rw [hrun] at hsat
    obtain ⟨rfl, -, -, hp⟩ := hsat
    rw [hrun, ← hp]

end

theorem isMap_colorMap : IsMap fun s => s.tex.colorMap := .inl rfl

theorem isMap_alphaMap : IsMap fun s => s.tex.alphaMap := .inr rfl

theorem absentFrom_lt (map : List Bool) (pos nb : Nat) : ∀ i, i ∈ absentFrom map pos nb → i < nb :=
  fun _ hi => (mem_absentFrom.mp hi).2.1

theorem covered_lt (map : List Bool) (pos nb count : Nat) : ∀ i, i ∈ covered map pos nb count → i < nb :=
  fun i hi => absentFrom_lt map pos nb i (List.mem_of_mem_take hi)

/-! ### What a run has written and marked -/

theorem Marked.eq_of_nil {before after : List Bool} (h : Marked before after []) : after = before := by
  obtain ⟨hlen, hpresent⟩ := h
  refine List.ext_getElem hlen fun i hafter hbefore => ?_
  simpa [present, List.getD_eq_getElem?_getD, hafter, hbefore] using hpresent i

section
variable {a : RunAct} {blocks : List Nat} {s t : State} (h : Ran a blocks s t) (hready : TextureReady s)
  (hblocks : ∀ i, i ∈ blocks → i < s.tex.nb)
include h hready

theorem Ran.wroteBlocks (hw : actWrites a = true) : WroteBlocks s t blocks (actOff a s) (actValue a s) :=
  ⟨h.inside hready.canonical hw hready.geometry.block, fun x hx => h.outside x fun _ => hx⟩

include hblocks

theorem Ran.marked_colorMap : Marked s.tex.colorMap t.tex.colorMap (if actColor a then blocks else []) :=
  h.color fun i hi => hready.colorLength ▸ hblocks i hi

theorem Ran.marked_alphaMap : Marked s.tex.alphaMap t.tex.alphaMap (if actAlpha a then blocks else []) :=
  h.alpha fun i hi => hready.alphaLength ▸ hblocks i hi

end

section
variable {blocks : List Nat} {s t : State} {p : Nat}

/-- actAlt (43_texture R230). -/
theorem Ran.alt_wrote (h : Ran .alt blocks s t) (hready : TextureReady s) (hblocks : ∀ i, i ∈ blocks → i < s.tex.nb)
    (hpos : t.tex.pos = p) :
    t = { s with
      tex := { s.tex with pos := p, colorMap := t.tex.colorMap, alphaMap := t.tex.alphaMap }
      mem := t.mem, free := t.free } ∧
    Marked s.tex.colorMap t.tex.colorMap blocks ∧ Marked s.tex.alphaMap t.tex.alphaMap blocks ∧
    WroteBlocks s t blocks 0 s.cfg.altColorPattern :=
  ⟨hpos ▸ h.state, h.marked_colorMap hready hblocks, h.marked_alphaMap hready hblocks, h.wroteBlocks hready rfl⟩

/-- actAlpha (43_texture R231): the colour bitmap stays. -/
theorem Ran.alpha_wrote {fill : Bool} (h : Ran (.alpha fill) blocks s t) (hready : TextureReady s)
    (hblocks : ∀ i, i ∈ blocks → i < s.tex.nb) (hpos : t.tex.pos = p) :
    t = { s with tex := { s.tex with pos := p, alphaMap := t.tex.alphaMap }, mem := t.mem, free := t.free } ∧
    Marked s.tex.alphaMap t.tex.alphaMap blocks ∧ WroteBlocks s t blocks 0 (if fill then s.tex.fill else 0) := by
  have hcolor : t.tex.colorMap = s.tex.colorMap := (h.marked_colorMap hready hblocks).eq_of_nil
  exact ⟨h.state.trans (by rw [hpos, hcolor]), h.marked_alphaMap hready hblocks, h.wroteBlocks hready rfl⟩

/-- actColor (43_texture R232): the alpha bitmap stays. -/
theorem Ran.color_wrote (h : Ran .color blocks s t) (hready : TextureReady s) (hblocks : ∀ i, i ∈ blocks → i < s.tex.nb)
    (hpos : t.tex.pos = p) :
    t = { s with tex := { s.tex with pos := p, colorMap := t.tex.colorMap }, mem := t.mem, free := t.free } ∧
    Marked s.tex.colorMap t.tex.colorMap blocks ∧
    WroteBlocks s t blocks (if s.tex.fmt.dualBlock then s.tex.bpc else 0) s.tex.color := by
  have halpha : t.tex.alphaMap = s.tex.alphaMap := (h.marked_alphaMap hready hblocks).eq_of_nil
  exact ⟨h.state.trans (by rw [hpos, halpha]), h.marked_colorMap hready hblocks, h.wroteBlocks hready rfl⟩

end

/-- RUN_ALPHA_ZERO and RUN_ALPHA_FILL, with what they write (43_texture R231). -/
theorem exec_alphaRun {count : Sym} {s : State} {i : Instr} {v : Component}
    (hi : (i = .runAlphaZero count ∧ v = 0) ∨ (i = .runAlphaFill count ∧ v = s.tex.fill)) :
    ∃ fill : Bool, v = (if fill then s.tex.fill else 0) ∧
      exec i s = (runRecord (fun s => s.tex.alphaMap) (.alpha fill) count s).finish := by
  obtain ⟨rfl, rfl⟩ | ⟨rfl, rfl⟩ := hi
  · exact ⟨false, rfl, rfl⟩
  · exact ⟨true, rfl, rfl⟩

/-! ### The rows -/

/-- Settles O45: `runRecord_leave_fits`. -/
theorem absentRuns : Obligations.AbsentRuns := by
  unfold Obligations.AbsentRuns
  refine fun count s hpos => ⟨fun hcount => ?_, fun hcount => ?_⟩
  · rw [exec, execRunAbsent, runRecord_leave_fits isMap_colorMap hpos hcount, Res.finish]
  · rw [exec, execRunAlphaAbsent, runRecord_leave_fits isMap_alphaMap hpos hcount, Res.finish]

/-- Settles O46: `runRecord_fits`, and `Ran.alt_wrote`. -/
theorem altColorRuns : Obligations.AltColorRuns := by
  unfold Obligations.AltColorRuns
  intro count s hready hcount
  obtain ⟨t, hrun, hran, hpos⟩ := runRecord_fits isMap_colorMap .alt hready hcount
  refine ⟨t, ?_, hran.alt_wrote hready (covered_lt _ _ _ _) hpos⟩
  rw [exec, execRunAltPresent, hrun, Res.finish]

/-- Settles O47: `runRecord_fits`, and `Ran.alpha_wrote`. -/
theorem alphaRuns : Obligations.AlphaRuns := by
  unfold Obligations.AlphaRuns
  intro count s i v hready hcount hi
  obtain ⟨fill, rfl, hexec⟩ := exec_alphaRun hi
  obtain ⟨t, hrun, hran, hpos⟩ := runRecord_fits isMap_alphaMap (.alpha fill) hready hcount
  refine ⟨t, ?_, hran.alpha_wrote hready (covered_lt _ _ _ _) hpos⟩
  rw [hexec, hrun, Res.finish]

/-- Settles O48: `runRecord_fits`, and `Ran.color_wrote`. -/
theorem colorRuns : Obligations.ColorRuns := by
  unfold Obligations.ColorRuns
  intro count s hready hcount
  obtain ⟨t, hrun, hran, hpos⟩ := runRecord_fits isMap_colorMap .color hready hcount
  refine ⟨t, ?_, hran.color_wrote hready (covered_lt _ _ _ _) hpos⟩
  rw [exec, execRunColorPresent, hrun, Res.finish]

/-- Settles O49: `runRecord_overlong` in the place of `runRecord_fits`, and the same facts of `Ran`. -/
theorem overlongRunsRaise : Obligations.OverlongRunsRaise := by
  unfold Obligations.OverlongRunsRaise
  refine fun count s => ⟨fun hcount => ⟨fun hpos => ?absent, fun hready => ⟨?alt, ?color⟩⟩,
    fun hcount => ⟨fun hpos => ?alphaAbsent, fun hready i v hi => ?alpha⟩⟩
  case absent =>
    rw [exec, execRunAbsent, runRecord_leave_overlong isMap_colorMap hpos hcount, Res.finish]
  case alt =>
    obtain ⟨u, hrun, hran, hpos⟩ := runRecord_overlong isMap_colorMap .alt hready hcount
    refine ⟨u, ?_, hran.alt_wrote hready (absentFrom_lt _ _ _) hpos⟩
    rw [exec, execRunAltPresent, hrun, Res.finish]
  case color =>
    obtain ⟨u, hrun, hran, hpos⟩ := runRecord_overlong isMap_colorMap .color hready hcount
    refine ⟨u, ?_, hran.color_wrote hready (absentFrom_lt _ _ _) hpos⟩
    rw [exec, execRunColorPresent, hrun, Res.finish]
  case alphaAbsent =>
    rw [exec, execRunAlphaAbsent, runRecord_leave_overlong isMap_alphaMap hpos hcount, Res.finish]
  case alpha =>
    obtain ⟨fill, rfl, hexec⟩ := exec_alphaRun hi
    obtain ⟨u, hrun, hran, hpos⟩ := runRecord_overlong isMap_alphaMap (.alpha fill) hready hcount
    refine ⟨u, ?_, hran.alpha_wrote hready (absentFrom_lt _ _ _) hpos⟩
    rw [hexec, hrun, Res.finish]

end Sys2Proof.Machine
end

section
/-! The texture decoder family, fourth part (43_texture R236 to R238; 20_memory R69): the literal copies. `copyWords_ok` says
what the words of one block write; here is the step around it. -/

namespace Sys2Proof.Machine

section
variable {map : List Bool} {i off : Nat} {next : Stage} {s : State}

theorem copyBlock_present (h : present map i = true) : copyBlock map i off next s = .ok () (goTo next s) := if_pos h

theorem copyBlock_absent {more : Bool} {w : State} (h : present map i = false)
    (hcopy : copyWords (componentWords s) (blockAddr i off s) s = .ok more w) :
    copyBlock map i off next s = .ok () (goTo (if more then next else .texDone) w) := by
  rw [copyBlock, if_neg (by simp [h]), hcopy, Res.bind_ok]

end

theorem not_blockDue {flag : Bool} {i nb : Nat} (h : flag = false ∨ nb ≤ i) : ¬(flag = true ∧ i < nb) := by
  obtain hflag | hle := h
  · simp [hflag]
  · simp [hle]

section
variable {s t : State} {i : Nat} (hturn : engineTurn s = some t) (hb : t.phase = .busy)
include hturn hb

theorem step_alphaCopy (hstage : t.stage = .alphaCopy i) : step s = (alphaCopyStep i t).finish :=
  step_work hturn hb (by rw [stageWork, hstage])

theorem step_colorCopy (hstage : t.stage = .colorCopy i) : step s = (colorCopyStep i t).finish :=
  step_work hturn hb (by rw [stageWork, hstage])

theorem step_alphaCopy_end (hstage : t.stage = .alphaCopy i) (hend : t.tex.fmt.hasAlpha = false ∨ t.tex.nb ≤ i) :
    step s = .next (goTo (.colorCopy 0) t) := by
  rw [step_alphaCopy hturn hb hstage, alphaCopyStep, if_neg (not_blockDue hend), Res.finish]

theorem step_colorCopy_end (hstage : t.stage = .colorCopy i) (hend : t.tex.fmt.hasColor = false ∨ t.tex.nb ≤ i) :
    step s = .next (goTo .texDone t) := by
  rw [step_colorCopy hturn hb hstage, colorCopyStep, if_neg (not_blockDue hend), Res.finish]

theorem step_alphaCopy_block (hstage : t.stage = .alphaCopy i) (halpha : t.tex.fmt.hasAlpha = true) (hi : i < t.tex.nb) :
    step s = (copyBlock t.tex.alphaMap i 0 (.alphaCopy (i + 1)) t).finish := by
  rw [step_alphaCopy hturn hb hstage, alphaCopyStep, if_pos ⟨halpha, hi⟩]

theorem step_colorCopy_block (hstage : t.stage = .colorCopy i) (hcolor : t.tex.fmt.hasColor = true) (hi : i < t.tex.nb) :
    step s = (copyBlock t.tex.colorMap i (colorOff t) (.colorCopy (i + 1)) t).finish := by
  rw [step_colorCopy hturn hb hstage, colorCopyStep, if_pos ⟨hcolor, hi⟩]

end

/-- Settles O51: the ends of the two copies; and one block of either, with `copyWords_ok` when it is absent. -/
theorem literalCopy : Obligations.LiteralCopy := by
  unfold Obligations.LiteralCopy
  refine ⟨fun s t i hturn hb => ⟨step_alphaCopy_end hturn hb, step_colorCopy_end hturn hb⟩,
    fun s t i off map next hturn hb hi hblock => ?_⟩
  intro words m
  have hstep : step s = (copyBlock map i off next t).finish := by
    obtain ⟨hstage, hformat, rfl, rfl, rfl⟩ | ⟨hstage, hformat, rfl, rfl, rfl⟩ := hblock
    · exact step_alphaCopy_block hturn hb hstage hformat hi
    · exact step_colorCopy_block hturn hb hstage hformat hi
  rw [hstep]
  constructor
  · intro hpresent
    rw [copyBlock_present hpresent, Res.finish, goTo]
  · intro habsent hcanon hin hout hapart
    obtain ⟨more, w, hcopy, hmore, hw, hinside, houtside⟩ :=
      copyWords_ok (componentWords t) (blockAddr i off t) t hcanon hin hout hapart
    have hnext : (if more then next else .texDone) = (if m = words then next else .texDone) := by
      simp only [hmore]
      rfl
    refine ⟨goTo (if more then next else .texDone) w, ?_, ?_, hinside, houtside⟩
    · rw [copyBlock_absent habsent hcopy, Res.finish]
    · rw [hnext, goTo, hw]
      rfl

end Sys2Proof.Machine
end

section
/-! The host interface family (44_host R270, R271, R274 to R277; 41_huffman R153; 40_bit_reader R120): a CMD write in either
phase, the first step of a command, its completion, and a write of each other register. `commandWrite`, `startWrite` and
`fetchCsrWrite` answer by the phase and the configuration; `checkArgs` has one lemma for each of its outcomes. -/

namespace Sys2Proof.Machine

/-! ### A launch (R271) -/

theorem statusWord_launchCommand (s : State) : statusWord (launchCommand s) = 1 := by
  simp [statusWord, isBusy, flagBit]

/-- The two decode commands are a `startWrite` of a launch. -/
theorem exec_decodeCommand {i : Instr} {w : Word}
    (h : (∃ args, i = .cmdDecodeGeneric args ∧ w = args ++ (1 : BitVec 4)) ∨
      (∃ args, i = .cmdDecodeTexture args ∧ w = args ++ (2 : BitVec 4))) (s : State) :
    exec i s = startWrite w launchCommand s := by
  obtain ⟨args, rfl, rfl⟩ | ⟨args, rfl, rfl⟩ := h <;> rfl

/-- Settles O8: `startWrite` of a decode command, while IDLE, is `launchCommand`. -/
theorem commandsWhileIdle : Obligations.CommandsWhileIdle := by
  unfold Obligations.CommandsWhileIdle
  refine ⟨fun args s hidle => ?none, fun i w s hidle hcfg hi => ?launch⟩
  case none => exact commandWrite_idle hidle (cmdWord 0 args) id
  case launch =>
    have hexec : exec i s = .next (launchCommand (setCmd w s)) := by
      rw [exec_decodeCommand hi, startWrite_idle hidle hcfg]
    exact ⟨_, hexec, rfl, rfl, rfl, rfl, statusWord_launchCommand _⟩

/-! ### A write of a register (R276, R277) -/

/-- A CMD write while BUSY, whatever its OP. -/
theorem exec_cmd_busy {i : Instr} {s : State} (hi : alphabetOf i = .cmd) (hb : s.phase = .busy) : exec i s = .next s := by
  cases i with
  | cmdNone args => exact commandWrite_busy hb _ _
  | cmdDecodeGeneric | cmdDecodeTexture | cmdReserved3 | cmdReserved4to7 | cmdReserved8to15 => exact startWrite_busy hb _ _
  | _ => cases hi

theorem step_csrWrite_cmd_busy {s t : State} {x : Word} (h : hostTurn s = some (.csrWrite 0x04 4 x, t))
    (hb : t.phase = .busy) : step s = .next t := by
  rw [step_csrWrite_cmd h rfl, exec_cmd_busy (decodeCmd_alphabet x) hb]

theorem step_csrWrite {s t : State} {offset : BitVec 8} {x : Word} (h : hostTurn s = some (.csrWrite offset 4 x, t))
    (ha : offset.toNat % 4 = 0) (hcmd : offset ≠ cmdOffset) : step s = .next (writeCsr offset.toNat x t) :=
  step_of_hostFetch h (fetchCsrWrite_aligned ha hcmd x t)

theorem writeStatus_busy {s : State} (hb : s.phase = .busy) (x : Word) : writeStatus x s = s :=
  if_pos (decide_eq_true hb)

theorem writeStatus_idle {s : State} (hidle : s.phase = .idle) (x : Word) :
    writeStatus x s = { s with csr := { s.csr with
      done := s.csr.done && !x.getLsbD 1
      error := s.csr.error && !x.getLsbD 2
      errCode := if x.getLsbD 2 then 0 else s.csr.errCode } } :=
  if_neg (by simp [isBusy, hidle])

/-- Settles O10: a CMD write is `exec_cmd_busy`, and a write of another register reaches `writeCsr`. -/
theorem writesWhileBusy : Obligations.WritesWhileBusy := by
  unfold Obligations.WritesWhileBusy
  refine ⟨fun cfg w i s hb hd => exec_cmd_busy (decode_alphabet hd) hb, fun s t offset x hturn =>
    ⟨?cmd, ?status, ?irqEn, ?inBase, ?inLen, ?outBase, ?outCap⟩⟩
  case cmd =>
    rintro rfl hb
    exact step_csrWrite_cmd_busy hturn hb
  case status =>
    rintro rfl hb
    exact (step_csrWrite hturn (by decide) (by decide)).trans (congrArg _ (writeStatus_busy hb x))
  all_goals
    rintro rfl
    exact step_csrWrite hturn (by decide) (by decide)

/-- Settles O11: while IDLE the write is `writeStatus_idle`, in which each of the two bits of the word clears or keeps its own
flag. -/
theorem statusWriteOneToClear : Obligations.StatusWriteOneToClear := by
  unfold Obligations.StatusWriteOneToClear
  intro s t x hturn hidle
  have hstep : step s = .next (writeStatus x t) := step_csrWrite hturn (by decide) (by decide)
  rw [writeStatus_idle hidle] at hstep
  generalize x.getLsbD 1 = clearDone, x.getLsbD 2 = clearError at hstep ⊢
  refine ⟨_, hstep, rfl, ?_, ?_, ?_, ?_, ?_⟩
  · rintro rfl
    exact Bool.and_false _
  · rintro rfl
    exact Bool.and_true _
  · rintro rfl
    exact ⟨Bool.and_false _, rfl⟩
  · rintro rfl
    exact ⟨Bool.and_true _, rfl⟩
  · rintro rfl rfl
    simp [irqLine]

/-! ### The first step of a command (R274) -/

/-- 41_huffman R153: a dictionary that is ready stays, with its flag. -/
theorem dictEnsureG_eq (s : State) :
    dictEnsureG s = { s with
      dictG := if s.dictReadyG then s.dictG else (build s.cfg.dictGeneric).getD Tree.blank, dictReadyG := true } := by
  cases hready : s.dictReadyG with
  | true => rw [dictEnsureG, if_pos hready, if_pos rfl, ← hready]
  | false => simp [dictEnsureG, hready]

theorem dictEnsureT_eq (s : State) :
    dictEnsureT s = { s with
      dictT := if s.dictReadyT then s.dictT else (build s.cfg.dictTexture).getD Tree.blank, dictReadyT := true } := by
  cases hready : s.dictReadyT with
  | true => rw [dictEnsureT, if_pos hready, if_pos rfl, ← hready]
  | false => simp [dictEnsureT, hready]

section
variable {s : State}

theorem checkArgs_nullInput (hin : s.launch.cmd.getLsbD 8 = false) : checkArgs s = .raise .nullInput s := if_pos hin

theorem checkArgs_inconsistentOutputArgs (hin : s.launch.cmd.getLsbD 8 = true) (hout : s.launch.cmd.getLsbD 9 = true)
    (hcap : s.launch.outCap = 0) : checkArgs s = .raise .inconsistentOutputArgs s := by
  rw [checkArgs, cmdInPresent, if_neg (by simp [hin]), if_pos ⟨hout, hcap⟩]

theorem checkArgs_ok (hin : s.launch.cmd.getLsbD 8 = true) (hout : s.launch.cmd.getLsbD 9 = true → s.launch.outCap ≠ 0) :
    checkArgs s = .ok () s := by
  rw [checkArgs, cmdInPresent, if_neg (by simp [hin]), if_neg fun h => hout h.1 h.2]

theorem startCommand_raise {e : ErrKind} (hargs : checkArgs s = .raise e s) : startCommand s = .raise e s := by
  rw [startCommand, hargs, Res.bind]

theorem startCommand_overlap (hargs : checkArgs s = .ok () s) (hoverlap : regionsOverlap s = true) :
    startCommand s = .refuse .regionOverlap := by
  rw [startCommand, hargs, Res.bind_ok, if_pos hoverlap]

theorem startCommand_texture (hargs : checkArgs s = .ok () s) (hoverlap : regionsOverlap s = false)
    (hop : cmdOp s.launch.cmd = 2) : startCommand s = .ok () (goTo .texMagic (brInit (dictEnsureT s))) := by
  rw [startCommand, hargs, Res.bind_ok, if_neg (by simp [hoverlap]), if_pos ((isTexture_iff s).mpr hop)]

theorem startCommand_generic (hargs : checkArgs s = .ok () s) (hoverlap : regionsOverlap s = false)
    (hop : cmdOp s.launch.cmd ≠ 2) : startCommand s = .ok () (goTo .genHeader (brInit (dictEnsureG s))) := by
  rw [startCommand, hargs, Res.bind_ok, if_neg (by simp [hoverlap]), if_neg (mt (isTexture_iff s).mp hop)]

end

theorem exec_illFormedConfiguration {i : Instr} {args : BitVec 28} {s : State} (hidle : s.phase = .idle) (hcfg : configWf s.cfg = false)
    (hi : i = .cmdDecodeGeneric args ∨ i = .cmdDecodeTexture args ∨ ∃ w, reservedOf i = some w) :
    exec i s = .refused .illFormedConfiguration := by
  obtain rfl | rfl | ⟨w, hw⟩ := hi
  · exact startWrite_refused hidle hcfg _ _
  · exact startWrite_refused hidle hcfg _ _
  · rw [exec_of_reservedOf hw, startWrite_refused hidle hcfg]

/-- Settles O15: `checkArgs` raises or answers; after it the regions overlap, or the command's kind says how it goes on. -/
theorem commandStartChecks : Obligations.CommandStartChecks := by
  unfold Obligations.CommandStartChecks
  refine ⟨fun i args s => exec_illFormedConfiguration, fun s t hturn hb hstage => ?_⟩
  have hstep : step s = (startCommand t).finish := step_work hturn hb (by rw [stageWork, hstage])
  rw [hstep]
  refine ⟨fun hin => ?_, fun hin hout hcap => ?_, fun hin hout => ⟨fun hoverlap => ?_, fun hoverlap hop => ?_,
    fun hoverlap hop => ?_⟩⟩
  · rw [startCommand_raise (checkArgs_nullInput hin), Res.finish]
  · rw [startCommand_raise (checkArgs_inconsistentOutputArgs hin hout hcap), Res.finish]
  · rw [startCommand_overlap (checkArgs_ok hin hout) hoverlap, Res.finish]
  · rw [startCommand_texture (checkArgs_ok hin hout) hoverlap hop, Res.finish, dictEnsureT_eq]
    rfl
  · rw [startCommand_generic (checkArgs_ok hin hout) hoverlap hop, Res.finish, dictEnsureG_eq]
    rfl

/-! ### Completion (R275) -/

/-- Settles O17: the outer loop test at the end of the output, and the last stage of a texture command. -/
theorem commandCompletes : Obligations.CommandCompletes := by
  unfold Obligations.CommandCompletes
  refine fun s t hturn hb => ⟨fun hstage hend => ?generic, fun hstage => ?texture⟩
  case generic =>
    have hwork : stageWork t = some (genLoop t) := by rw [stageWork, hstage]
    rw [step_work hturn hb hwork, genLoop, if_neg (Nat.not_lt.mpr hend), Res.finish, complete]
  case texture =>
    have hwork : stageWork t = some (.ok () (complete t.tex.size t)) := by rw [stageWork, hstage]
    rw [step_work hturn hb hwork, Res.finish, complete]

end Sys2Proof.Machine
end

section
/-! The exceptions family (60_exceptions R300, R302, R303, R306): what a raise inside a command leaves in memory and in the
registers, and the words of STATUS and IRQ_EN that the host and the interrupt line read. -/

namespace Sys2Proof.Machine

/-! ### The output bytes after an error (R303) -/

theorem derivedSize_eq (s : State) : derivedSize s = if cmdOp s.launch.cmd = 2 then s.tex.size else s.gen.outSize := by
  simp only [derivedSize, isTexture_iff]

/-- The three bounds an output byte keeps to be freed. -/
theorem lt_freeSize_iff (p : Nat) (s : State) :
    p < freeSize s ↔ p < derivedSize s ∧ (s.launch.cmd.getLsbD 9 = true → p < s.launch.outCap.toNat) ∧
      s.launch.outBase.toNat + p < Config.addressSpace := by
  unfold freeSize cmdOutPresent
  cases s.launch.cmd.getLsbD 9 with
  | true => simp only [if_true, true_implies]; omega
  | false => simp only [Bool.false_eq_true, if_false, false_implies, true_and]; omega

/-- A raise draws once, for the first `freeSize` output bytes. -/
theorem byteAt_raiseError (e : ErrKind) (s : State) (a : Nat) :
    byteAt (raiseError e s) a =
      if s.launch.outBase.toNat ≤ a ∧ a < s.launch.outBase.toNat + freeSize s then Config.freeByte s.freeCount a
      else byteAt s a :=
  calc byteAt (raiseError e s) a
      = byteAt (freeOutput (freeSize s) s) a := byteAt_congr (raiseError_mem e s) (raiseError_free e s) a
    _ = _ := byteAt_freeBytes (outputAddr s 0) (freeSize s) s a

/-- Settles O20: `byteAt_raiseError`, with the bound `lt_freeSize_iff` gives. -/
theorem outputAfterAnError : Obligations.OutputAfterAnError := by
  unfold Obligations.OutputAfterAnError
  intro e s p
  have hfree := lt_freeSize_iff p s
  rw [derivedSize_eq, show Config.addressSpace = 4294967296 from rfl] at hfree
  refine ⟨fun hsize hcap hmem => ?freed, fun hout => ?kept, fun a ha => ?below⟩
  case freed =>
    have hp := hfree.mpr ⟨hsize, hcap, hmem⟩
    rw [byteAt_raiseError, if_pos (by omega)]
  case kept =>
    have hp : ¬p < freeSize s := by
      rw [hfree]
      rintro ⟨hsize, hcap, hmem⟩
      obtain hle | ⟨hpresent, hle⟩ | hle := hout
      · exact Nat.not_lt.mpr hle hsize
      · exact Nat.not_lt.mpr hle (hcap hpresent)
      · exact Nat.not_lt.mpr hle hmem
    rw [byteAt_raiseError, if_neg (by omega)]
  case below => rw [byteAt_raiseError, if_neg (by omega)]

/-! ### The interrupt line (R306) -/

theorem getLsbD_flagBit (b : Bool) {i : Nat} (hi : i < 32) (j : Nat) : (flagBit b i).getLsbD j = (b && decide (i = j)) := by
  cases b with
  | true =>
    rw [flagBit, if_pos rfl]
    exact (BitVec.getLsbD_twoPow i j).trans (by rw [decide_eq_true hi])
  | false => exact BitVec.getLsbD_zero

/-- 10_state R32: the flags are the low byte of STATUS; ERR_CODE lies above it. -/
theorem getLsbD_statusWord (s : State) {j : Nat} (hj : j < 8) :
    (statusWord s).getLsbD j =
      ((isBusy s && decide (0 = j)) || (s.csr.done && decide (1 = j)) || (s.csr.error && decide (2 = j))) := by
  have hcode : (if s.csr.error then s.csr.errCode.setWidth 32 <<< 8 else 0 : Word).getLsbD j = false := by
    cases s.csr.error with
    | true => simp [hj]
    | false => exact BitVec.getLsbD_zero
  simp only [statusWord, BitVec.getLsbD_or, hcode, Bool.or_false, getLsbD_flagBit, Nat.reduceLT]

theorem getLsbD_irqEnWord (s : State) (j : Nat) :
    (irqEnWord s).getLsbD j = ((s.csr.doneIe && decide (0 = j)) || (s.csr.errIe && decide (1 = j))) := by
  simp only [irqEnWord, BitVec.getLsbD_or, getLsbD_flagBit, Nat.reduceLT]

/-- Settles O14: bits 1 and 2 of STATUS and bits 0 and 1 of IRQ_EN are the four flags of `irqLine`. -/
theorem interruptLine : Obligations.InterruptLine := by
  unfold Obligations.InterruptLine
  intro s
  have hdone : (csrValue 0x08 s).getLsbD 1 = s.csr.done := (getLsbD_statusWord s (by decide)).trans (by simp)
  have herror : (csrValue 0x08 s).getLsbD 2 = s.csr.error := (getLsbD_statusWord s (by decide)).trans (by simp)
  have hdoneIe : (csrValue 0x0C s).getLsbD 0 = s.csr.doneIe := (getLsbD_irqEnWord s 0).trans (by simp)
  have herrIe : (csrValue 0x0C s).getLsbD 1 = s.csr.errIe := (getLsbD_irqEnWord s 1).trans (by simp)
  rw [hdone, herror, hdoneIe, herrIe, irqLine]

/-! ### STATUS after an error (R300) -/

/-- A raise leaves BUSY and DONE 0 and ERROR 1, under its code. -/
theorem statusWord_raiseError (e : ErrKind) (s : State) :
    statusWord (raiseError e s) = 4 ||| ((errCode e).setWidth 32 <<< 8) := by
  simp [statusWord, isBusy, flagBit]

/-- Settles O18: `statusWord_raiseError`, for each code. -/
theorem errorCodes : Obligations.ErrorCodes := by
  unfold Obligations.ErrorCodes
  refine ⟨rfl, fun e s => ?_⟩
  rw [statusWord_raiseError]
  cases e <;> decide

/-! ### The registers after an error (R302) -/

theorem outputPosition_eq (s : State) :
    outputPosition s = if cmdOp s.launch.cmd = 2 then s.tex.pos * s.tex.bpb else s.gen.outPos := by
  simp only [outputPosition, isTexture_iff]

theorem freeBytes_eq (base n : Nat) (s : State) :
    freeBytes base n s = { s with
      mem := (freeBytes base n s).mem, free := (freeBytes base n s).free, freeCount := (freeBytes base n s).freeCount } := by
  unfold freeBytes
  split <;> rfl

/-- Settles O19: the item of a copy code raises, and a raise changes beside the registers only what the draw of
`freeBytes_eq` changes. -/
theorem raiseReportsTheError : Obligations.RaiseReportsTheError := by
  unfold Obligations.RaiseReportsTheError
  refine fun e s => ⟨rfl, fun t hturn hb hstage hread => ?step, ?registers⟩
  case step => exact step_item_raise hturn hb (stageItem_copyCode hstage) (by rw [hread, Res.bind])
  case registers =>
    rw [← outputPosition_eq]
    conv =>
      lhs
      rw [raiseError, freeOutput, freeBytes_eq]
    rfl

end Sys2Proof.Machine
end

section
/-! The reset and hazards family (70_reset R340, R341, R354): the state a reset leaves, the bytes it frees while BUSY, and what
the host reads of a running command. `byteAt_resetEngine` says once which bytes a reset frees. -/

namespace Sys2Proof.Machine

/-! ### Which bytes a reset frees (R341) -/

/-- Address `a` is a byte of the command's input region, which wraps at 2^32 (20_memory R61). -/
def IsInputByte (s : State) (a : Nat) : Prop :=
  s.launch.cmd.getLsbD 8 = true ∧ ∃ j, j < s.launch.inLen.toNat ∧ (s.launch.inBase.toNat + j) % 4294967296 = a

/-- A reset frees address `a`: an output byte it counts, outside the input region (notes/assumptions/27.md). -/
def ResetFrees (s : State) (a : Nat) : Prop :=
  s.launch.outBase.toNat ≤ a ∧ a < s.launch.outBase.toNat + resetFreeSize s ∧ ¬IsInputByte s a

/-- With an input, its two ranges are taken out of the output range one after the other. -/
theorem inside_resetPieces (s : State) (a : Nat) :
    (∃ r ∈ resetPieces s, r.base ≤ a ∧ a < r.base + r.size) ↔ ResetFrees s a := by
  unfold resetPieces ResetFrees IsInputByte cmdInPresent
  rw [inside_input]
  cases s.launch.cmd.getLsbD 8 with
  | true =>
    simp only [if_true, inputRegions, List.foldl_cons, List.foldl_nil, inside_freeWithout, List.mem_singleton, exists_eq_left,
      outputAddr, Config.addressSpace, true_and]
    omega
  | false => simp [outputAddr]

theorem byteAt_resetEngine (s : State) (a : Nat) :
    (ResetFrees s a ∧ ∃ draw, s.freeCount ≤ draw ∧ byteAt (resetEngine s) a = Config.freeByte draw a) ∨
      (¬ResetFrees s a ∧ byteAt (resetEngine s) a = byteAt s a) := by
  have hmem : byteAt (resetEngine s) a = byteAt (freePieces (resetPieces s) s) a := byteAt_congr rfl rfl a
  rw [hmem, ← inside_resetPieces]
  obtain ⟨draw, hdraw, hin, hbyte⟩ | ⟨hout, hbyte⟩ := byteAt_freePieces (resetPieces s) s a
  · exact .inl ⟨hin, draw, hdraw, hbyte⟩
  · exact .inr ⟨fun ⟨r, hr, hin⟩ => hout r hr hin, hbyte⟩

theorem byteAt_resetEngine_kept {s : State} {a : Nat} (h : ¬ResetFrees s a) : byteAt (resetEngine s) a = byteAt s a :=
  (byteAt_resetEngine s a).elim (fun hfreed => absurd hfreed.1 h) And.right

theorem byteAt_resetEngine_freed {s : State} {a : Nat} (h : ResetFrees s a) :
    ∃ draw, s.freeCount ≤ draw ∧ byteAt (resetEngine s) a = Config.freeByte draw a :=
  (byteAt_resetEngine s a).elim And.right fun hkept => absurd h hkept.1

/-! ### How many output bytes that is -/

theorem not_resetFrees_idle {s : State} (h : s.phase = .idle) (a : Nat) : ¬ResetFrees s a := by
  have hsize : resetFreeSize s = 0 := by simp [resetFreeSize, isBusy, h]
  rintro ⟨hlo, hhi, -⟩
  omega

theorem sizeKnown_eq (s : State) :
    sizeKnown s = if s.stage ∈ [.start, .genHeader, .genSize, .texMagic, .texTag, .texDims] then none
      else some (derivedSize s) := by
  unfold sizeKnown
  cases s.stage <;> rfl

/-- The end of the freed range: the last address before a size is derived, else the end of the output, within memory. -/
theorem outBase_add_resetFreeSize {s : State} (h : s.phase = .busy) :
    s.launch.outBase.toNat + resetFreeSize s =
      if s.stage ∈ [.start, .genHeader, .genSize, .texMagic, .texTag, .texDims] then 4294967296
      else min 4294967296 (s.launch.outBase.toNat + derivedSize s) := by
  have hbase := s.launch.outBase.isLt
  simp only [resetFreeSize, isBusy, h, decide_true, if_true, sizeKnown_eq, Config.addressSpace]
  split_ifs
  · exact Nat.add_sub_of_le hbase.le
  · change s.launch.outBase.toNat + min (derivedSize s) (4294967296 - s.launch.outBase.toNat) = _
    omega

/-! ### The state a reset leaves (R340) -/

theorem step_reset {s t : State} (h : hostTurn s = some (.reset, t)) : step s = .next (resetEngine t) := step_of_hostFetch h rfl

@[simp] theorem resetEngine_csr (s : State) : (resetEngine s).csr = Csr.reset := rfl
@[simp] theorem resetEngine_phase (s : State) : (resetEngine s).phase = .idle := rfl
@[simp] theorem resetEngine_dictReadyG (s : State) : (resetEngine s).dictReadyG = false := rfl
@[simp] theorem resetEngine_dictReadyT (s : State) : (resetEngine s).dictReadyT = false := rfl

theorem csrValue_resetEngine (s : State) {offset : Nat} (h : offset ≠ 0) : csrValue offset (resetEngine s) = 0 := by
  unfold csrValue
  split
  case h_1 => exact absurd rfl h
  all_goals simp [statusWord, irqEnWord, dictStatusWord, isBusy, flagBit, Csr.reset]

/-- Settles O5: a reset is `resetEngine`, which frees no byte while IDLE, and `step_dicts` says that no other step clears a
flag. -/
theorem resetStateAndFlags : Obligations.ResetStateAndFlags := by
  unfold Obligations.ResetStateAndFlags
  refine ⟨fun s t hturn => ?leaves, fun s u hs hcleared => ?only⟩
  case leaves =>
    have ht := hostTurn_eq hturn
    generalize t.moves = rest at ht
    subst ht
    exact ⟨_, step_reset hturn, rfl, rfl, fun _ => csrValue_resetEngine _, rfl, rfl, rfl, rfl, fun hidle a =>
      byteAt_resetEngine_kept (not_resetFrees_idle (s := { s with moves := rest }) hidle a)⟩
  case only =>
    obtain hstep | ⟨hreset, -⟩ := step_dicts hs
    · obtain ⟨hready, hclear⟩ | ⟨hready, hclear⟩ := hcleared
      · exact absurd (hstep.generic.kept hready).2 (by simp [hclear])
      · exact absurd (hstep.texture.kept hready).2 (by simp [hclear])
    · exact hreset

/-- Settles O6: the byte at an address is free exactly when `ResetFrees` holds of it, whose end `outBase_add_resetFreeSize`
gives. -/
theorem resetWhileBusy : Obligations.ResetWhileBusy := by
  unfold Obligations.ResetWhileBusy
  intro s t hturn hb size top isInput
  have ht := hostTurn_eq hturn
  generalize t.moves = rest at ht
  subst ht
  have htop : s.launch.outBase.toNat + resetFreeSize s = top := by rw [outBase_add_resetFreeSize hb, derivedSize_eq]
  refine ⟨_, step_reset hturn, rfl, rfl, fun a => ⟨fun hout => ?kept, fun hlo hhi hin => ?freed⟩⟩
  case kept =>
    refine byteAt_resetEngine_kept (s := { s with moves := rest }) ?_
    rintro ⟨hlo, hhi, hin⟩
    obtain hbelow | habove | hinput := hout
    · exact absurd hlo (Nat.not_le.mpr hbelow)
    · exact absurd (htop ▸ hhi) (Nat.not_lt.mpr habove)
    · exact hin hinput
  case freed => exact byteAt_resetEngine_freed (s := { s with moves := rest }) ⟨hlo, htop ▸ hhi, hin⟩

/-! ### What the host reads while BUSY (R354) -/

theorem statusWord_busy {s : State} (hb : s.phase = .busy) (hdone : s.csr.done = false) (herror : s.csr.error = false) :
    statusWord s = 1 := by
  simp [statusWord, isBusy, flagBit, hb, hdone, herror]

/-- The word of two flags: IRQ_EN and DICT_STATUS (10_state R33, R42). -/
theorem flagBit_or_flagBit : ∀ a b : Bool, flagBit a 0 ||| flagBit b 1 = (if a then 1 else 0) + (if b then 2 else 0) := by
  decide

/-- Settles O13: `StatusInv` holds the flags and the result registers at 0 while BUSY; the other registers read as they are
stored. -/
theorem csrReadsWhileBusy : Obligations.CsrReadsWhileBusy := by
  unfold Obligations.CsrReadsWhileBusy
  intro s hinv hb
  obtain ⟨hdone, herror, hresult, hword, houtpos⟩ := hinv.busy_clear hb
  exact ⟨statusWord_busy hb hdone herror, hresult, hword, houtpos, flagBit_or_flagBit s.dictReadyG s.dictReadyT, rfl, rfl, rfl,
    rfl, rfl, flagBit_or_flagBit s.csr.doneIe s.csr.errIe, rfl⟩

end Sys2Proof.Machine
end

section
/-! The canonical form of memory as a kept invariant (20_memory section 1), and the symbol-tree values without a meaning
(30_encoding R94). -/

namespace Sys2Proof.Machine

/-! ### The canonical form of memory -/

theorem HostNext.canonical {t v : State} {m : HostMove} (h : HostNext t m v) (c : memCanonical t = true) :
    memCanonical v = true := by
  cases h with
  | ignored => exact c
  | csr m offset x => exact memCanonical_congr (by rw [writeCsr_eq]) (by rw [writeCsr_eq]) c
  | write m a bytes => exact setBytes_canonical bytes a t c
  | reset => exact memCanonical_congr (s := freePieces (resetPieces t) t) rfl rfl (freePieces_canonical _ t c)
  | read | setCmd | launch | reserved => exact memCanonical_congr (s := t) rfl rfl c

theorem memCanonical_stepKeeps : StepKeeps fun s => memCanonical s = true where
  turn s _ c := memCanonical_congr (s := s) rfl rfl c
  read hread c := by
    rw [hread.only]
    exact memCanonical_congr rfl rfl c
  next _ hnext c := hnext.canonical c
  raise e hraise c := raiseError_canonical e _ (hraise.canonical c)
  host hhost c := hhost.canonical c

/-- Settles O55: memory changes by writes of bytes, the zero fill and the draws of free bytes alone, each of which keeps the form
(`memCanonical_stepKeeps`). -/
theorem stepKeepsMemoryCanonical : Obligations.StepKeepsMemoryCanonical := by
  unfold Obligations.StepKeepsMemoryCanonical
  exact fun _ _ => memCanonical_stepKeeps.step

/-! ### The symbol-tree values 286 to 511 -/

/-- Settles O22: `exec_of_raisesOf`, row by row. -/
theorem symNoneRaises : Obligations.SymNoneRaises := by
  unfold Obligations.SymNoneRaises
  refine fun v s i hi => exec_of_raisesOf ?_ s
  simp only [List.mem_cons, List.not_mem_nil, or_false] at hi
  obtain rfl | rfl | rfl | rfl := hi <;> rfl

end Sys2Proof.Machine
end
